-- ==== Sys2Proof/Word.lean ====
section
/-! DEFINITION. The word types of the LN3204 and the one table builder. -/

namespace Sys2Proof

/-- A byte of a port, a lane or Stream Memory. -/
abbrev Byte := BitVec 8

/-- A period number, 0 to 4095. Period arithmetic is mod 4096 (spec 00, Conventions). -/
abbrev Period := BitVec 12

/-- The vector whose entry at each index is given by a rule. -/
def tabulate {α : Type} {n : Nat} (f : Fin n → α) : Vector α n :=
  ⟨⟨List.ofFn f⟩, by simp⟩

/-- An entry of a table built by a rule is what the rule gives. -/
@[simp] theorem tabulate_get {α : Type} {n : Nat} (f : Fin n → α) (i : Fin n) :
    (tabulate f).get i = f i := by
  simp [tabulate, Vector.get]
  rfl

end Sys2Proof
end

