-- ==== Sys2Proof/Config.lean ====
section
/-! DEFINITION. The sizes and limits that the manual fixes for the LN3204. The manual leaves no
value open that the model would have to hold free, so there is no opaque constant. -/

namespace Sys2Proof.Config

/-- Bytes of Stream Memory (R46). -/
def memoryBytes : Nat := 32768

/-- Granules of Stream Memory (R46). -/
def granules : Nat := 512

/-- Bytes of a granule (R46). -/
def granuleBytes : Nat := 64

/-- Bytes of a cell of a buffer (R46). -/
def cellBytes : Nat := 16

/-- The most cells a load table entry may hold (R25, R28). -/
def periodCells : Nat := 576

/-- The most load units of one direction, and every quota after reset (R31). -/
def directionUnits : Nat := 18432

/-- The most cells of a stream (R67). -/
def maxCells : Nat := 128

/-- The most entries of a notice queue (R155). -/
def noticeCapacity : Nat := 32

/-- The most entries a POLL returns (R165). -/
def pollEntries : Nat := 8

/-- The most queued requests plus unread responses of a port (R181). -/
def outstandingLimit : Nat := 4

/-- The largest body a request frame may have (R176). -/
def maxBody : Nat := 2060

/-- The most data bytes of a PUT or GET (R57, R58). -/
def maxTransfer : Nat := 2048

/-- The least distance between two valid marks, in cell times (R141). -/
def periodCellTimes : Nat := 648

/-- The count of missing echoes at which a leader leaves UP (R149). -/
def missingEchoLimit : Nat := 3

end Sys2Proof.Config
end

