-- ==== Sys2Proof/Syntax.lean ====
section
/-! DEFINITION. The commands of the LN3204: one constructor per row of spec/opcode_table.json. -/

namespace Sys2Proof

/-- A host port, 0 to 3. Port 0 is the supervisor port (spec 00, Terms). -/
abbrev Port := Fin 4

/-- The 16 bytes of stream data that a payload cell carries (R208). -/
abbrev Payload := Vector Byte 16

/-- A sound cell of type mark, as it arrives: its fields (R208), and the time of its arrival. -/
structure MarkCell where
  /-- bytes 1 and 2, the period number; above 4095 the cell is no valid mark or echo (R209) -/
  number : BitVec 16
  /-- byte 3, the role: 0 LEADER, 1 FOLLOWER -/
  role : Byte
  /-- byte 4, the echo flag: 0 clear, 1 set -/
  echo : Byte
  /-- cell times from the start of the previous taken mark to the arrival of this cell (R141):
  measured by the part's clock, not carried by the cell (log 11) -/
  elapsed : Nat
  deriving DecidableEq, Repr

/-- The start of a transaction, and the whole bytes that are clocked in it before the next command
(R171; log 6). -/
structure TransactionStart where
  port : Port
  /-- the whole bytes taken on MOSI; as many go out on MISO -/
  mosi : List Byte
  deriving DecidableEq, Repr

/-- The commands. A row that the Table Controller takes for a port names the port, and its
arguments are those of the entry at the head of that port's request queue (R16, R176). -/
inductive Instr where
  /-- CS_N of a port falls, and the transaction's first whole bytes are clocked (R171; log 6). -/
  | transactionStart (start : TransactionStart)
  /-- CS_N of a port rises, after the rest of the transaction's whole bytes have been clocked: `mosi`
  those taken on MOSI; as many go out on MISO (R171, R173; log 6). -/
  | transactionEnd (port : Port) (mosi : List Byte)
  /-- A BAD_FRAME entry is granted (R179). -/
  | badFrameEntry (port : Port)
  /-- A repeat entry is granted (R183). -/
  | repeatEntry (port : Port)
  /-- A request whose code names no request is granted (R204). -/
  | unknownRequest (port : Port)
  /-- OPEN is taken (R67 to R70). -/
  | openStream (port : Port)
  /-- START is taken (R71). -/
  | start (port : Port)
  /-- STOP is taken (R73). -/
  | stop (port : Port)
  /-- CLOSE is taken (R77 to R87). -/
  | close (port : Port)
  /-- AMEND is taken (R90 to R105). -/
  | amend (port : Port)
  /-- WITHDRAW is taken (R106). -/
  | withdraw (port : Port)
  /-- FIND of form TAG is taken (R12). -/
  | findByTag (port : Port)
  /-- FIND of form CHANNEL is taken (R13). -/
  | findByChannel (port : Port)
  /-- READ is taken (R14). -/
  | read (port : Port)
  /-- PUT is taken (R57). -/
  | put (port : Port)
  /-- GET is taken (R58). -/
  | get (port : Port)
  /-- HANDOVER is taken (R59). -/
  | handover (port : Port)
  /-- LOADS is taken (R44). -/
  | loads (port : Port)
  /-- EXTENTS is taken (R64). -/
  | extents (port : Port)
  /-- POLL is taken (R165). -/
  | poll (port : Port)
  /-- STATUS is taken (R188). -/
  | status (port : Port)
  /-- QUOTA is taken (R193). -/
  | quota (port : Port)
  /-- LINKCTL with action ENABLE is taken (R152). -/
  | linkctlEnable (port : Port)
  /-- LINKCTL with action DISABLE is taken (R152). -/
  | linkctlDisable (port : Port)
  /-- PURGE is taken (R195 to R198). -/
  | purge (port : Port)
  /-- From port 0: a RESET frame accepted as a new request starts the reset. From another port:
  a RESET request is taken (R201). -/
  | reset (port : Port)
  /-- RESET_N is sampled low (R200). -/
  | resetNAssert
  /-- RESET_N is sampled high, with the level of the ROLE pin (R200, R154). -/
  | resetNRelease (rolePin : Bool)
  /-- The 64 REFCLK cycles of a RESET request have passed, with the level of the ROLE pin
  (R201, R154). -/
  | resetHoldExpiry (rolePin : Bool)
  /-- The leader's period timer expires (R140). -/
  | periodTimerExpiry
  /-- A sound cell of type mark arrives (R141). -/
  | markArrival (cell : MarkCell)
  /-- A sound cell of type mark with the echo flag arrives (R142). -/
  | echoArrival (cell : MarkCell)
  /-- The follower's loss timer expires (R148). -/
  | lossTimerExpiry
  /-- The 648th cell time after the mark that gave the alignment ends (R138). -/
  | alignmentLapse
  /-- A sound trailer arrives (R143). -/
  | trailerArrival (number : BitVec 16)
  /-- A sound lead cell arrives (R122). -/
  | leadCellArrival (channel count : Byte)
  /-- A payload cell arrives; `sound` says whether its check is (R124). -/
  | payloadCellArrival (data : Payload) (sound : Bool)
  /-- A sound idle cell, or one of a reserved type, arrives (R137). -/
  | idleCellArrival (type : Byte)
  /-- A cell with a bad check arrives; `data` is its bytes 1 to 16 as received (R137). -/
  | badCheckCellArrival (data : Payload)
  /-- The mark processing claim is taken (R112 to R115). -/
  | markProcessing
  /-- The service-start claim of the next TX list entry is taken (R117). -/
  | serviceStart
  /-- The completion claim of the TX burst is taken (R119). -/
  | txCompletion
  /-- The match claim is taken (R123). -/
  | matchClaim
  /-- The RX completion claim is taken (R125, R126). -/
  | rxCompletion
  /-- The period-end claim is taken (R127). -/
  | periodEnd
  /-- The leaving-UP claim is taken (R150). -/
  | leavingUp
  /-- The entering-UP claim is taken (R145, R146). -/
  | enteringUp
  /-- The slip claim is taken (R147). -/
  | slip
  deriving DecidableEq, Repr

end Sys2Proof
end

