-- ==== Sys2Proof/Machine/State.lean ====
section
/-! DEFINITION. The state of the LN3204, block by block as spec/00_scope.md draws it, its value
after reset, and the reasons a step can stop. -/

namespace Sys2Proof.Machine

/-- A handle: the index of a record, 0 to 63 (R1). -/
abbrev Handle := Fin 64

/-- A number of cells at each of the 32 residues (R25). -/
abbrev Residues := Vector Nat 32

/-- Why the machine stops. -/
inductive Fault where
  /-- An access to a byte that Stream Memory does not have (R46): raised by OPEN, AMEND, PUT, GET,
  a payload cell's storing and a cell time's sending. Safe: no extent the Extent Allocator grants
  reaches beyond byte 32767, so no run from reset stops here (log 14). -/
  | streamMemoryAddress
  deriving DecidableEq, Repr

/-- Why a command has no meaning. -/
inductive Refusal where
  /-- An arm of exec that has no meaning yet. Safe. No arm uses it. -/
  | notModelled (mnemonic : String)
  deriving DecidableEq, Repr

/-! ### Names -/

/-- TX: this part sends. RX: it receives (spec 00, Terms). -/
inductive Direction where
  | tx | rx
  deriving DecidableEq, Repr

/-- Buffer A or buffer B of a record (R2). -/
inductive BufferName where
  | a | b
  deriving DecidableEq, Repr

/-- The other buffer of the pair. -/
def BufferName.other : BufferName → BufferName
  | .a => .b
  | .b => .a

/-- A buffer's owner (R55). -/
inductive Owner where
  | host | link | service
  deriving DecidableEq, Repr

/-- The mode of a CLOSE and of CLOSING (R4). -/
inductive CloseMode where
  | immediate | drain
  deriving DecidableEq, Repr

/-- Why a record is SUSPENDED (R4). -/
inductive SuspendCause where
  | misses | link
  deriving DecidableEq, Repr

/-- What a starved TX slot carries (R121). -/
inductive MissPolicy where
  | empty | silent
  deriving DecidableEq, Repr

/-- What a stream does when the link leaves UP (R151). -/
inductive LinkPolicy where
  | hold | resume
  deriving DecidableEq, Repr

/-- The cause of a miss (R128). -/
inductive MissCause where
  | starved | overrun | absent | damaged
  deriving DecidableEq, Repr

/-- The event of a LINK notice (R157). -/
inductive LinkEvent where
  | up | down | slip
  deriving DecidableEq, Repr

/-- The link state (R136). -/
inductive LinkState where
  | off | acquire | up
  deriving DecidableEq, Repr

/-- The link role (R136). -/
inductive Role where
  | leader | follower
  deriving DecidableEq, Repr

/-- The standing of an RX period table entry (R110). -/
inductive Standing where
  | none | notDue | due | received
  deriving DecidableEq, Repr

/-- The status of a response (spec 00, Status codes). -/
inductive Status where
  | ok | done | pending | repeated | badFrame | unknown | badArg | noHandle | tagTaken
  | channelTaken | noQuota | noLoad | noSpace | notFound | stale | notOwner | state | owner
  | range | direction | late | amendPending | nonePending | denied
  deriving DecidableEq, Repr

/-! ### Stream records -/

/-- One value for each direction. -/
structure PerDirection (α : Type) where
  tx : α
  rx : α
  deriving DecidableEq, Repr

/-- The value of a direction. -/
def PerDirection.get {α : Type} (v : PerDirection α) : Direction → α
  | .tx => v.tx
  | .rx => v.rx

/-- The pair with one direction's value replaced. -/
def PerDirection.set {α : Type} (v : PerDirection α) (d : Direction) (x : α) : PerDirection α :=
  match d with
  | .tx => { v with tx := x }
  | .rx => { v with rx := x }

/-- The notify set of a record (R158). -/
structure NotifySet where
  done : Bool
  miss : Bool
  warn : Bool
  deriving DecidableEq, Repr

/-- The policing flags of an RX record. A TX record's are absent: they stay clear, and READ sends
the absent form (R1). -/
structure Policing where
  excess : Bool
  offSchedule : Bool
  deriving DecidableEq, Repr

/-- A run of granules (R46). -/
structure Extent where
  base : Nat
  length : Nat
  deriving DecidableEq, Repr

/-- A buffer of a record (R2). -/
structure Buffer where
  extent : Extent
  owner : Owner
  fill : Nat
  deriving DecidableEq, Repr

/-- The service parameters that an amendment may change (R1, R90). -/
structure Params where
  cells : Nat
  interval : Nat
  phase : Nat
  serviceClass : Nat
  /-- absent on an RX record (R67) -/
  missPolicy : Option MissPolicy
  missLimit : Nat
  lead : Nat
  deriving DecidableEq, Repr

/-- An effective point (R90). -/
inductive EffectivePoint where
  | next
  | period (e : Period)
  deriving DecidableEq, Repr

/-- A pending amendment (R3, R94). -/
structure Amendment where
  params : Params
  point : EffectivePoint
  /-- the new buffer pair, when the granule count differs; both buffers HOST with fill 0 -/
  pair : Option (Extent × Extent)
  /-- the old contribution at each residue, held for the withdrawal -/
  old : Residues
  deriving DecidableEq, Repr

/-- The state of an open record (R4). VACANT is the absence of a stream. -/
inductive StreamState where
  | standby
  | live
  | suspended (cause : SuspendCause)
  | closing (mode : CloseMode)
  deriving DecidableEq, Repr

/-- The fields of a record that is not VACANT (R1). -/
structure Stream where
  state : StreamState
  owner : Port
  tag : BitVec 32
  direction : Direction
  channel : Byte
  params : Params
  missRun : Nat
  linkPolicy : LinkPolicy
  notify : NotifySet
  parity : BufferName
  bufferA : Buffer
  bufferB : Buffer
  policing : Policing
  lastSlot : Option Nat
  pending : Option Amendment
  deriving DecidableEq, Repr

/-- A stream record (R1). -/
structure Record where
  generation : Byte
  stream : Option Stream
  deriving DecidableEq, Repr

/-- An entry of the tag map (R8). -/
structure TagEntry where
  port : Port
  tag : BitVec 32
  handle : Handle
  deriving DecidableEq, Repr

/-- An entry of the channel map (R10). -/
structure ChannelEntry where
  direction : Direction
  channel : Byte
  handle : Handle
  deriving DecidableEq, Repr

/-- The Table Controller's own state. -/
structure Table where
  records : Vector Record 64
  tagMap : List TagEntry
  channelMap : List ChannelEntry
  /-- the arbiter pointer (R16) -/
  arbiter : Port
  loads : PerDirection Residues
  charges : PerDirection (Vector Nat 4)
  quotas : PerDirection (Vector Nat 4)
  deriving DecidableEq, Repr

/-! ### Period service -/

/-- The form of a record: what decides when it is due and what it may carry (R110). -/
structure Form where
  cells : Nat
  interval : Nat
  phase : Nat
  deriving DecidableEq, Repr

/-- An entry of the TX service list (R110, R113). -/
structure TxEntry where
  handle : Handle
  generation : Byte
  form : Form
  offset : Nat
  /-- START, or CLOSE in mode DRAIN, has taken the record off the list since the mark: only the slot's
  cell times are left of the entry (R72, R80; log 20) -/
  absent : Bool
  deriving DecidableEq, Repr

/-- An entry of the RX period table (R110, R114). -/
structure RxEntry where
  generation : Byte
  form : Form
  standing : Standing
  deriving DecidableEq, Repr

/-- The in-flight TX service (R110). -/
structure TxFlight where
  handle : Handle
  generation : Byte
  buffer : BufferName
  /-- the payload cells still to be staged on the transmit lane (R110, R139) -/
  toSend : Nat
  deriving DecidableEq, Repr

/-- The in-flight RX service (R110, R124). -/
structure RxFlight where
  handle : Handle
  generation : Byte
  buffer : BufferName
  /-- the count carried by the lead cell -/
  announced : Nat
  /-- the payload cells that have arrived: the position of the next one (R124; log 13) -/
  arrived : Nat
  stored : Nat
  damaged : Bool
  excess : Bool
  /-- the burst has ended and its completion claim is made (log 13) -/
  ended : Bool
  deriving DecidableEq, Repr

/-- The Period Service Unit (R110). -/
structure PeriodService where
  txList : List TxEntry
  /-- the index of the entry whose turn comes next (log 13) -/
  txNext : Nat
  rxTable : Vector RxEntry 64
  rxList : List Handle
  txFlight : Option TxFlight
  rxFlight : Option RxFlight
  /-- the period-end decision of the receive period is still to be made (R111, R127; log 13) -/
  rxOpen : Bool
  deriving DecidableEq, Repr

/-- The link-side claims that wait in the Table Controller's arbiter (R16). The service-start claim
is that of the TX list entry whose turn comes next, and the completion claims are those of the
services in flight. -/
inductive Claim where
  | markProcessing (number : Period)
  | serviceStart
  | txCompletion
  | matchLead (handle : Handle) (count : Nat)
  | rxCompletion
  | periodEnd
  | leavingUp
  | enteringUp
  | slip
  deriving DecidableEq, Repr

/-! ### The period link -/

/-- The Link Controller (R136). -/
structure LinkController where
  state : LinkState
  role : Role
  /-- the current period number: the number of the last taken mark -/
  period : Period
  /-- running or stopped -/
  periodTimer : Bool
  /-- running or stopped -/
  lossTimer : Bool
  acquire : Nat
  echoRecord : Option Period
  missingEchoes : Nat
  /-- the receiver holds cell alignment (R138) -/
  aligned : Bool
  /-- a mark has been taken since the link left OFF (R141; log 13) -/
  markTaken : Bool
  deriving DecidableEq, Repr

/-- A cell that is still to be staged: of a slot, or the idle cell after the opening mark or echo
(R118, R139). A payload cell is named by the address of its first byte. -/
inductive LaneCell where
  | lead (channel : Byte) (count : Nat)
  | payload (address : Nat)
  | idle
  deriving DecidableEq, Repr

/-- A cell on a lane, with what it carries (R208). -/
inductive WireCell where
  | mark (number : Period) (role : Role) (echo : Bool)
  | lead (channel : Byte) (count : Nat)
  | payload (data : Payload)
  | trailer (number : Period)
  | idle
  deriving DecidableEq, Repr

/-- The transmit lane (R139). -/
structure TransmitLane where
  /-- the cell of the present cell time -/
  sending : WireCell
  /-- the cell staged for the next cell time; an idle cell goes out where none is -/
  staged : Option WireCell
  /-- the cells behind it that are still to be staged -/
  queue : List LaneCell
  /-- the number of the transmit period whose trailer is still to be sent -/
  opened : Option Period
  deriving DecidableEq, Repr

/-! ### Notices and host ports -/

/-- What a notice reports: its kind, its stream and its kind fields (R156, R157). -/
inductive Report where
  | done (handle : Handle) (generation : Byte) (buffer : BufferName) (fill : Nat)
      (policing : Policing)
  | miss (handle : Handle) (generation : Byte) (cause : MissCause) (run : Nat)
  | warn (handle : Handle) (generation : Byte) (lead : Nat)
  | suspended (handle : Handle) (generation : Byte) (cause : SuspendCause)
  | amended (handle : Handle) (generation : Byte) (effective : Period) (dropped : Nat)
      (clipped : Bool)
  | closed (handle : Handle) (generation : Byte)
  | link (event : LinkEvent)
  deriving DecidableEq, Repr

/-- An entry of a notice queue (R156). -/
structure Notice where
  report : Report
  period : Period
  count : Nat
  deriving DecidableEq, Repr

/-- A port's notice queue and OVERFLOW flag (R155). -/
structure NoticeQueue where
  entries : List Notice
  overflow : Bool
  deriving DecidableEq, Repr

/-- An accepted request frame (R176, R180). -/
structure Request where
  code : Byte
  sequence : Byte
  body : List Byte
  crc : BitVec 16
  deriving DecidableEq, Repr

/-- An entry of a request queue (R170). -/
inductive Entry where
  | request (r : Request)
  | repeatOf (code sequence : Byte)
  | badFrame (code sequence : Byte)
  deriving DecidableEq, Repr

/-- A response (R175). -/
structure Response where
  code : Byte
  sequence : Byte
  status : Status
  body : List Byte
  deriving DecidableEq, Repr

/-- The delivery record of a transaction in progress (R170, R171). -/
structure Delivery where
  response : Response
  /-- the whole bytes of the response clocked out so far, at most all of them -/
  clocked : Nat
  deriving DecidableEq, Repr

/-- A transaction in progress: CS_N is low (R171). -/
structure Transaction where
  /-- the four bytes of the status header -/
  header : List Byte
  /-- the header carries PURGED -/
  showsPurged : Bool
  /-- a PURGE of the port has been taken since the snapshot (R173) -/
  purgedSince : Bool
  /-- a reset fell in the transaction, or it began while the part was held (R189) -/
  cut : Bool
  delivery : Option Delivery
  /-- the whole bytes taken on MOSI so far (R171, R176) -/
  taken : List Byte
  /-- the whole bytes clocked out on MISO so far (R171; log 13) -/
  shifted : List Byte
  deriving DecidableEq, Repr

/-- A Port Interface (R170). -/
structure PortInterface where
  requestQueue : List Entry
  responseQueue : List Response
  /-- the retained last response -/
  retained : Option Response
  /-- the last accepted sequence and CRC -/
  lastAccepted : Option (Byte × BitVec 16)
  /-- DROPPED with the dropped sequence, or clear -/
  dropped : Option Byte
  purged : Bool
  resetSeen : Bool
  transaction : Option Transaction
  deriving DecidableEq, Repr

/-! ### The part -/

/-- The state of the LN3204 and the commands that wait for it. -/
structure State where
  table : Table
  /-- the free extent list (R48) -/
  free : List Extent
  /-- Stream Memory: the bytes that are not 0, by rising address (R46) -/
  memory : List Host.Cell
  psu : PeriodService
  /-- the link-side claims that wait, first made first (R16) -/
  claims : List Claim
  link : LinkController
  lane : TransmitLane
  notices : Vector NoticeQueue 4
  ports : Vector PortInterface 4
  /-- RESET_N is sampled low (R200) -/
  resetPin : Bool
  /-- the 64-cycle hold of a RESET request runs (R201) -/
  resetHold : Bool
  /-- the commands that wait, first in, first out (the model's own) -/
  pending : List Instr
  deriving DecidableEq, Repr

/-- The Table Controller after reset (R24, R45). -/
def Table.reset : Table where
  records := .replicate 64 ⟨0, none⟩
  tagMap := []
  channelMap := []
  arbiter := 0
  loads := ⟨.replicate 32 0, .replicate 32 0⟩
  charges := ⟨.replicate 4 0, .replicate 4 0⟩
  quotas := ⟨.replicate 4 Config.directionUnits, .replicate 4 Config.directionUnits⟩

/-- The free extent list after reset (R48, R66). -/
def freeReset : List Extent := [⟨0, Config.granules⟩]

/-- The Period Service Unit after reset (R135). DESIGN CHOICE (unsafe): the generation and the form
beside a standing of NONE are 0 (log 9). -/
def PeriodService.reset : PeriodService where
  txList := []
  txNext := 0
  rxTable := .replicate 64 ⟨0, ⟨0, 0, 0⟩, .none⟩
  rxList := []
  txFlight := none
  rxFlight := none
  rxOpen := false

/-- The Link Controller after reset, with the role that the ROLE pin gave (R154). -/
def LinkController.reset (role : Role) : LinkController where
  state := .off
  role := role
  period := 0
  periodTimer := false
  lossTimer := false
  acquire := 0
  echoRecord := none
  missingEchoes := 0
  aligned := false
  markTaken := false

/-- The transmit lane after reset: idle cells (R154). -/
def TransmitLane.reset : TransmitLane := ⟨.idle, none, [], none⟩

/-- A Port Interface after reset (R189). -/
def PortInterface.reset : PortInterface where
  requestQueue := []
  responseQueue := []
  retained := none
  lastAccepted := none
  dropped := none
  purged := false
  resetSeen := true
  transaction := none

/-- The part right after reset: RESET_N has been sampled high and no transaction is in progress.
DESIGN CHOICE (unsafe): the role is FOLLOWER, the ROLE pin sampled low (log 8). -/
def State.reset : State where
  table := .reset
  free := freeReset
  memory := []
  psu := .reset
  claims := []
  link := .reset .follower
  lane := .reset
  notices := .replicate 4 ⟨[], false⟩
  ports := .replicate 4 .reset
  resetPin := false
  resetHold := false
  pending := []

end Sys2Proof.Machine
end

