-- ==== Sys2Proof/Machine/Formats.lean ====
section
/-! DEFINITION. The byte layouts of the Formats chapter: CRC-16, the encodings, request and response
frames, and the cells on the lanes. -/

namespace Sys2Proof.Machine

/-! ### Numbers -/

/-- A two-byte number, most significant byte first (11, opening). -/
def be16 (n : Nat) : List Byte := [BitVec.ofNat 8 (n / 256), BitVec.ofNat 8 n]

/-- A four-byte number, most significant byte first. -/
def be32 (x : BitVec 32) : List Byte :=
  [x.extractLsb' 24 8, x.extractLsb' 16 8, x.extractLsb' 8 8, x.extractLsb' 0 8]

/-- A one-byte number. -/
def byte (n : Nat) : Byte := BitVec.ofNat 8 n

/-- The number that two bytes spell, most significant first. -/
def join16 (hi lo : Byte) : Nat := hi.toNat * 256 + lo.toNat

/-- The byte at a position, 0 where there is none. -/
def byteAt (bs : List Byte) (i : Nat) : Byte := bs.getD i 0

/-- The two-byte number at a position. -/
def numberAt (bs : List Byte) (i : Nat) : Nat := join16 (byteAt bs i) (byteAt bs (i + 1))

/-- The absent form of a one-byte field (R207). -/
def absent8 : Byte := 255

/-- The absent form of a two-byte field (R207). -/
def absent16 : List Byte := be16 65535

/-! ### CRC-16 -/

/-- One bit through the CRC register: polynomial x^16 + x^12 + x^5 + 1 (R177). -/
def crcBit (reg : BitVec 16) (bit : Bool) : BitVec 16 :=
  if reg.msb != bit then (reg <<< 1) ^^^ 0x1021#16 else reg <<< 1

/-- One byte through the CRC register, most significant bit first (R177). -/
def crcByte (reg : BitVec 16) (x : Byte) : BitVec 16 :=
  [7, 6, 5, 4, 3, 2, 1, 0].foldl (fun r i => crcBit r (x.getLsbD i)) reg

/-- The CRC-16 of a run of bytes; the register starts at all ones (R177). -/
def crc16 (bs : List Byte) : BitVec 16 := bs.foldl crcByte 0xFFFF#16

/-- The CRC's two bytes, high byte first. -/
def crcBytes (bs : List Byte) : List Byte := be16 (crc16 bs).toNat

/-! ### Encodings (11.3) -/

/-- The direction a byte names. None for a reserved value (R206). -/
def directionOf (x : Byte) : Option Direction :=
  if x = 0 then some .tx else if x = 1 then some .rx else none

/-- The buffer a byte names. -/
def bufferOf (x : Byte) : Option BufferName :=
  if x = 0 then some .a else if x = 1 then some .b else none

/-- The close mode a byte names. -/
def closeModeOf (x : Byte) : Option CloseMode :=
  if x = 0 then some .immediate else if x = 1 then some .drain else none

/-- The miss policy a byte names. -/
def missPolicyOf (x : Byte) : Option MissPolicy :=
  if x = 0 then some .empty else if x = 1 then some .silent else none

/-- The link policy a byte names. -/
def linkPolicyOf (x : Byte) : Option LinkPolicy :=
  if x = 0 then some .hold else if x = 1 then some .resume else none

/-- The notify set a byte names: bits 3 to 7 must be 0. -/
def notifySetOf (x : Byte) : Option NotifySet :=
  if x.toNat < 8 then some ⟨x.getLsbD 0, x.getLsbD 1, x.getLsbD 2⟩ else none

/-- The role that LINKCTL asks for: KEEP is no role. None for a reserved value. -/
def linkctlRoleOf (x : Byte) : Option (Option Role) :=
  if x = 0 then some none else if x = 1 then some (some .leader)
  else if x = 2 then some (some .follower) else none

def directionByte : Direction → Byte
  | .tx => 0
  | .rx => 1

def bufferByte : BufferName → Byte
  | .a => 0
  | .b => 1

def closeModeByte : CloseMode → Byte
  | .immediate => 0
  | .drain => 1

def missPolicyByte : MissPolicy → Byte
  | .empty => 0
  | .silent => 1

def linkPolicyByte : LinkPolicy → Byte
  | .hold => 0
  | .resume => 1

def suspendCauseByte : SuspendCause → Byte
  | .misses => 0
  | .link => 1

def missCauseByte : MissCause → Byte
  | .starved => 0
  | .overrun => 1
  | .absent => 2
  | .damaged => 3

def linkEventByte : LinkEvent → Byte
  | .up => 0
  | .down => 1
  | .slip => 2

def ownerByte : Owner → Byte
  | .host => 0
  | .link => 1
  | .service => 2

def linkStateByte : LinkState → Byte
  | .off => 0
  | .acquire => 1
  | .up => 2

def roleByte : Role → Byte
  | .leader => 0
  | .follower => 1

def boolByte (b : Bool) : Byte := if b then 1 else 0

def notifySetByte (n : NotifySet) : Byte :=
  byte (n.done.toNat + 2 * n.miss.toNat + 4 * n.warn.toNat)

def policingByte (p : Policing) : Byte :=
  byte (p.excess.toNat + 2 * p.offSchedule.toNat)

/-- The state byte of a record image. -/
def stateByte : StreamState → Byte
  | .standby => 1
  | .live => 2
  | .suspended _ => 3
  | .closing _ => 4

/-- The closing mode in CLOSING, the suspend cause in SUSPENDED, absent elsewhere (11.6). -/
def stateDetailByte : StreamState → Byte
  | .closing m => closeModeByte m
  | .suspended c => suspendCauseByte c
  | _ => absent8

/-- The value of a status in byte 2 of a response (11.3). -/
def statusByte : Status → Byte
  | .ok => 0
  | .done => 1
  | .pending => 2
  | .repeated => 3
  | .badFrame => 4
  | .unknown => 5
  | .badArg => 6
  | .noHandle => 8
  | .tagTaken => 9
  | .channelTaken => 10
  | .noQuota => 11
  | .noLoad => 12
  | .noSpace => 13
  | .notFound => 14
  | .stale => 15
  | .notOwner => 16
  | .state => 17
  | .owner => 18
  | .range => 19
  | .direction => 20
  | .late => 21
  | .amendPending => 22
  | .nonePending => 23
  | .denied => 24

/-! ### Frames on the ports (11.2) -/

/-- A request frame as a host sends it: header, body, CRC (R176). -/
def requestFrame (code sequence : Byte) (body : List Byte) : List Byte :=
  let head := code :: sequence :: (be16 body.length ++ body)
  head ++ crcBytes head

/-- What the bytes taken on MOSI are (R178 to R180). -/
inductive Judgement where
  | noRequest
  | unsound (code sequence : Byte)
  | sound (r : Request)
  deriving DecidableEq, Repr

/-- The judgement of a transaction's bytes (R176, R178, R179, R180). -/
def judge (mosi : List Byte) : Judgement :=
  let code := byteAt mosi 0
  let sequence := byteAt mosi 1
  let length := numberAt mosi 2
  if mosi.length < 4 ∨ code = 0 then .noRequest
  else if Config.maxBody < length ∨ mosi.length < length + 6 then .unsound code sequence
  else
    let crc := crc16 (mosi.take (4 + length))
    if numberAt mosi (4 + length) = crc.toNat then
      .sound ⟨code, sequence, (mosi.drop 4).take length, crc⟩
    else .unsound code sequence

/-- The header and body of a response, which its CRC covers. -/
def Response.covered (r : Response) : List Byte :=
  r.code :: r.sequence :: statusByte r.status :: (be16 r.body.length ++ r.body)

/-- A response as the port shifts it out (R175). -/
def Response.bytes (r : Response) : List Byte := r.covered ++ crcBytes r.covered

/-- The body of a REPEAT: the retained response whole, without its CRC (R183, R207). -/
def repeatBody : Option Response → List Byte
  | some r => r.covered
  | none => []

/-! ### Notice entries (11.7) -/

/-- The bytes of a notice entry before and after its period and count. -/
def Report.fields : Report → Byte × Byte × Byte × List Byte
  | .done h g x fill p => (1, byte h.val, g, [bufferByte x, byte fill, policingByte p, 0])
  | .miss h g c run => (2, byte h.val, g, [missCauseByte c, byte run, 0, 0])
  | .warn h g l => (3, byte h.val, g, [byte l, 0, 0, 0])
  | .suspended h g c => (4, byte h.val, g, [suspendCauseByte c, 0, 0, 0])
  | .amended h g e d c => (5, byte h.val, g, be16 e.toNat ++ [byte d, boolByte c])
  | .closed h g => (6, byte h.val, g, [0, 0, 0, 0])
  | .link ev => (7, absent8, absent8, [linkEventByte ev, 0, 0, 0])

/-- The ten bytes of a notice entry. -/
def Notice.bytes (n : Notice) : List Byte :=
  let f := n.report.fields
  f.1 :: f.2.1 :: f.2.2.1 :: (be16 n.period.toNat ++ (byte n.count :: f.2.2.2))

/-! ### The record image (11.6) -/

/-- The bytes of a parameter set, with the miss policy absent on an RX record. -/
def paramsBytes (p : Params) : List Byte :=
  [byte p.cells, byte p.interval, byte p.phase, byte p.serviceClass,
    (p.missPolicy.map missPolicyByte).getD absent8, byte p.missLimit]

/-- The bytes of an extent. -/
def extentBytes (e : Extent) : List Byte := be16 e.base ++ [byte e.length]

/-- The bytes of a buffer. -/
def bufferBytes (b : Buffer) : List Byte :=
  extentBytes b.extent ++ [ownerByte b.owner, byte b.fill]

/-- The kind of an effective point and its E field: 65535 for NEXT. -/
def pointBytes : EffectivePoint → List Byte
  | .next => 0 :: absent16
  | .period e => 1 :: be16 e.toNat

/-- Bytes 35 to 52 of a record image. -/
def pendingBytes : Option Amendment → List Byte
  | none => 0 :: List.replicate 17 absent8
  | some a =>
    1 :: (paramsBytes a.params ++ [byte a.params.lead] ++ pointBytes a.point ++
      match a.pair with
      | none => 0 :: List.replicate 6 absent8
      | some p => 1 :: (extentBytes p.1 ++ extentBytes p.2))

/-- The 53 bytes of a record image (R14). -/
def recordImage (h : Handle) (g : Byte) (st : Stream) : List Byte :=
  [byte h.val, g, stateByte st.state, stateDetailByte st.state, byte st.owner.val,
    directionByte st.direction, st.channel] ++ paramsBytes st.params ++
  [byte st.missRun, byte st.params.lead, linkPolicyByte st.linkPolicy, notifySetByte st.notify,
    bufferByte st.parity,
    match st.direction with
    | .rx => policingByte st.policing
    | .tx => absent8] ++
  (st.lastSlot.map be16).getD absent16 ++ be32 st.tag ++
  bufferBytes st.bufferA ++ bufferBytes st.bufferB ++ pendingBytes st.pending

/-! ### Cells on the lanes (11.8) -/

/-- A cell of a type with the first of its field bytes; the rest are 0, and the check closes it
(R208, R209). -/
def cellBytes (type : Byte) (fields : List Byte) : List Byte :=
  let covered := (type :: fields ++ List.replicate 21 0).take 22
  covered ++ crcBytes covered

/-- The bytes of a mark or an echo. -/
def markBytes (number : Nat) (role echo : Byte) : List Byte :=
  cellBytes 1 (be16 number ++ [role, echo])

/-- The 24 bytes of a cell on the lane. -/
def WireCell.bytes : WireCell → List Byte
  | .idle => cellBytes 0 []
  | .mark n r e => markBytes n.toNat (roleByte r) (boolByte e)
  | .lead ch c => cellBytes 2 [ch, byte c]
  | .payload d => cellBytes 3 d.toList
  | .trailer n => cellBytes 4 (be16 n.toNat)

/-- The check of a received cell is sound (R208). -/
def cellSound (bs : List Byte) : Bool := numberAt bs 22 == (crc16 (bs.take 22)).toNat

/-- Bytes 1 to 16 of a received cell. -/
def cellPayload (bs : List Byte) : Payload := tabulate fun i => byteAt bs (1 + i.val)

end Sys2Proof.Machine
end

