-- ==== Sys2Proof/Decode.lean ====
section
/-! DEFINITION. Reading commands from bits: the table's words (none of its rows gives any bits), and
the cells of the receive lane, whose layout the Formats chapter gives. -/

namespace Sys2Proof

/-- The command that a word of the opcode table spells. No row of the table gives bits, so no word
spells one (log 19). -/
def decodeTableWord (_nbits _w : Nat) : Option Instr := none

/-- The arrival that 24 bytes received as one cell are (R137, R208, R209): a cell with a bad check is
not trusted, its type included; a reserved type is handled as idle. `elapsed` is the time since the
previous taken mark (R141). -/
def arrivalOf (elapsed : Nat) (bs : List Byte) : Instr :=
  let type := Machine.byteAt bs 0
  if Machine.cellSound bs = false then .badCheckCellArrival (Machine.cellPayload bs)
  else if type = 1 then
    let cell : MarkCell :=
      ⟨BitVec.ofNat 16 (Machine.numberAt bs 1), Machine.byteAt bs 3, Machine.byteAt bs 4, elapsed⟩
    if cell.echo = 1 then .echoArrival cell else .markArrival cell
  else if type = 2 then .leadCellArrival (Machine.byteAt bs 1) (Machine.byteAt bs 2)
  else if type = 3 then .payloadCellArrival (Machine.cellPayload bs) true
  else if type = 4 then .trailerArrival (BitVec.ofNat 16 (Machine.numberAt bs 1))
  else .idleCellArrival type

/-! ### The bits of a lane (R138, R208): how cells are found among them -/

/-- The bits of a byte, most significant first (11, opening). -/
def byteBits (x : Byte) : List Bool := [7, 6, 5, 4, 3, 2, 1, 0].map x.getLsbD

/-- A run of bytes as bits. -/
def bitsOf (bs : List Byte) : List Bool := bs.flatMap byteBits

/-- The byte that the first eight bits spell. -/
def byteOf (bits : List Bool) : Byte :=
  (bits.take 8).foldl (fun x b => (x <<< 1) ||| BitVec.ofNat 8 b.toNat) 0

/-- The first n bytes that a run of bits spells. -/
def bytesOf (n : Nat) (bits : List Bool) : List Byte :=
  (List.range n).map fun k => byteOf (bits.drop (8 * k))

/-- The 24 bytes of a cell form a sound cell of type mark. -/
def isMark (bs : List Byte) : Bool := Machine.byteAt bs 0 = 1 && Machine.cellSound bs

/-- A receiver that hunts: the first 192 bits that form a sound cell of type mark, and the bits from
the cell boundary behind them on. Bits before them have no effect (R138). -/
def hunt : List Bool → Option (List Byte × List Bool)
  | [] => none
  | b :: rest =>
    let cell := bytesOf 24 (b :: rest)
    if 191 ≤ rest.length ∧ isMark cell = true then some (cell, rest.drop 191) else hunt rest

/-- The fill that a leader sends between a period's 648th cell time and the next mark: 584 bits,
ones and zeros in turn, beginning with a one (R208). -/
def fillBits : List Bool := (List.range 584).map fun k => k % 2 == 0

end Sys2Proof
end

