-- ==== Sys2Proof/Machine/Ops.lean ====
section
/-! DEFINITION. The shared operations of the LN3204: Stream Memory, the Extent Allocator, records and
their charges, the two maps, the Notice Unit, retirement, misses, and the Port Interface's queues. -/

namespace Sys2Proof.Machine

/-! ### Stream Memory (3.1) -/

/-- The byte at an address: 0 where nothing is listed (R46, R66). -/
def Memory.read : List Host.Cell → Nat → Byte
  | [], _ => 0
  | (b, v) :: rest, a => if a = b then v else Memory.read rest a

/-- The memory with one byte written, in canonical form. -/
def Memory.write : List Host.Cell → Nat → Byte → List Host.Cell
  | [], a, v => if v = 0 then [] else [(a, v)]
  | (b, w) :: rest, a, v =>
    if a < b then (if v = 0 then (b, w) :: rest else (a, v) :: (b, w) :: rest)
    else if a = b then (if v = 0 then rest else (a, v) :: rest)
    else (b, w) :: Memory.write rest a v

/-- The memory with a run of bytes written from an address upward. -/
def Memory.writeBytes : List Host.Cell → Nat → List Byte → List Host.Cell
  | m, _, [] => m
  | m, a, v :: vs => Memory.writeBytes (Memory.write m a v) (a + 1) vs

/-- A run of bytes read from an address upward. -/
def Memory.readBytes (m : List Host.Cell) (a n : Nat) : List Byte :=
  (List.range n).map fun k => Memory.read m (a + k)

/-- The memory with a run of bytes set to 0 (R47). -/
def Memory.zero (m : List Host.Cell) (a n : Nat) : List Host.Cell :=
  m.filter fun c => decide (c.1 < a) || decide (a + n ≤ c.1)

/-- A run of bytes lies in Stream Memory (R46). -/
def Memory.holds (a n : Nat) : Bool := decide (a + n ≤ Config.memoryBytes)

/-- The canonical form: addresses strictly rising and in Stream Memory, no listed byte 0. -/
abbrev Memory.wf (m : List Host.Cell) : Prop :=
  m.Pairwise (fun c d => c.1 < d.1) ∧ ∀ c ∈ m, c.2 ≠ 0 ∧ c.1 < Config.memoryBytes

/-- The address of the first byte of an extent (R46). -/
def Extent.address (e : Extent) : Nat := Config.granuleBytes * e.base

/-- The bytes of an extent. -/
def Extent.bytes (e : Extent) : Nat := Config.granuleBytes * e.length

/-- An extent lies in Stream Memory. -/
def Extent.inMemory (e : Extent) : Bool := Memory.holds e.address e.bytes

/-! ### The Extent Allocator (3.2) -/

/-- A single allocation of n granules: the base, and the list it leaves (R50). -/
def allocate (n : Nat) : List Extent → Option (Nat × List Extent)
  | [] => none
  | e :: rest =>
    if n ≤ e.length then
      some (e.base, if e.length = n then rest else ⟨e.base + n, e.length - n⟩ :: rest)
    else (allocate n rest).map fun r => (r.1, e :: r.2)

/-- A pair allocation: buffer A, buffer B, and the list it leaves. None when either fails, and the
list is then as it was (R51). -/
def allocatePair (n : Nat) (free : List Extent) : Option ((Extent × Extent) × List Extent) :=
  match allocate n free with
  | none => none
  | some (baseA, free₁) =>
    match allocate n free₁ with
    | none => none
    | some (baseB, free₂) => some ((⟨baseA, n⟩, ⟨baseB, n⟩), free₂)

/-- An extent in front of a list, merged with the first entry if it touches it. -/
def joinRight (x : Extent) : List Extent → List Extent
  | [] => [x]
  | e :: rest =>
    if x.base + x.length = e.base then ⟨x.base, x.length + e.length⟩ :: rest else x :: e :: rest

/-- The release of an extent: put in its place by base and merged with each neighbour it touches
(R52). -/
def release (x : Extent) : List Extent → List Extent
  | [] => [x]
  | e :: rest =>
    if e.base + e.length < x.base then e :: release x rest
    else if e.base + e.length = x.base then joinRight ⟨e.base, e.length + x.length⟩ rest
    else joinRight x (e :: rest)

/-- The release of both extents of a pair, in turn. -/
def releasePair (p : Extent × Extent) (free : List Extent) : List Extent :=
  release p.2 (release p.1 free)

/-- The free total (R49). -/
def freeTotal (free : List Extent) : Nat := (free.map Extent.length).sum

/-- The largest free entry, 0 when the list is empty (R49). -/
def largestFree (free : List Extent) : Nat := (free.map Extent.length).foldl max 0

/-- The granules of a buffer of a stream of so many cells (R54). -/
def granulesFor (cells : Nat) : Nat := (cells + 3) / 4

/-- Both extents of a granted pair set to zero (R47), or a fault if one is not in Stream Memory. -/
def zeroPair (p : Extent × Extent) (m : List Host.Cell) : Except Fault (List Host.Cell) :=
  if p.1.inMemory && p.2.inMemory then
    .ok (Memory.zero (Memory.zero m p.1.address p.1.bytes) p.2.address p.2.bytes)
  else .error .streamMemoryAddress

/-! ### Records -/

/-- The handles, ascending. -/
def handles : List Handle := List.finRange 64

/-- The ports, ascending. -/
def allPorts : List Port := List.finRange 4

/-- The free extent list replaced. -/
def State.setFree (s : State) (free : List Extent) : State := { s with free := free }

def State.record (s : State) (h : Handle) : Record := s.table.records.get h

def State.setRecord (s : State) (h : Handle) (r : Record) : State :=
  { s with table := { s.table with records := s.table.records.set h.val r h.isLt } }

/-- The stream of a handle, or none when the record is VACANT. -/
def State.stream (s : State) (h : Handle) : Option Stream := (s.record h).stream

/-- The record of a handle with its fields replaced; its generation is kept. -/
def State.setStream (s : State) (h : Handle) (st : Stream) : State :=
  s.setRecord h { s.record h with stream := some st }

def Stream.buffer (st : Stream) : BufferName → Buffer
  | .a => st.bufferA
  | .b => st.bufferB

def Stream.setBuffer (st : Stream) (n : BufferName) (x : Buffer) : Stream :=
  match n with
  | .a => { st with bufferA := x }
  | .b => { st with bufferB := x }

/-- The due buffer: the one the next parity names (R56). -/
def Stream.dueBuffer (st : Stream) : Buffer := st.buffer st.parity

/-- A buffer of the record has this owner. -/
def Stream.hasOwner (st : Stream) (o : Owner) : Bool :=
  st.bufferA.owner = o || st.bufferB.owner = o

/-- The valid bytes of a buffer of a stream of so many cells (R46). -/
def validBytes (cells : Nat) : Nat := Config.cellBytes * cells

/-- The form of a stream: its own, also while an amendment is pending (R95). -/
def Stream.form (st : Stream) : Form := ⟨st.params.cells, st.params.interval, st.params.phase⟩

/-- The stream is due in a period (spec 00, Conventions). -/
def Stream.dueIn (st : Stream) (n : Nat) : Bool := n % st.params.interval = st.params.phase

/-- The record is served: LIVE, or CLOSING with mode DRAIN (R4). -/
def Stream.served (st : Stream) : Bool :=
  st.state = .live || st.state = .closing .drain

/-! ### Charges (2.1, 2.2) -/

/-- The contribution of a parameter set at each residue (R26). -/
def contribution (p : Params) : Residues :=
  tabulate fun r => if r.val % p.interval = p.phase then p.cells else 0

/-- The larger of two at each residue. -/
def larger (x y : Residues) : Residues := tabulate fun r => max (x.get r) (y.get r)

/-- Nothing at any residue. -/
def noCells : Residues := .replicate 32 0

/-- The residues, ascending. -/
def residues : List (Fin 32) := List.finRange 32

/-- The sum over the 32 residues, in load units. -/
def units (x : Residues) : Nat := (residues.map x.get).sum

/-- A record's charge at each residue (R27). -/
def Stream.charge (st : Stream) : Residues :=
  match st.pending with
  | none => contribution st.params
  | some a => larger a.old (contribution a.params)

/-- A load table with one record's charge replaced. -/
def shiftLoads (table old new : Residues) : Residues :=
  tabulate fun r => table.get r - old.get r + new.get r

def State.charge (s : State) (p : Port) (d : Direction) : Nat := (s.table.charges.get d).get p

def State.quota (s : State) (p : Port) (d : Direction) : Nat := (s.table.quotas.get d).get p

/-- A record's charge replaced, in its direction's load table and in its owner port's charge
(R30, R38 to R41). -/
def State.recharge (s : State) (p : Port) (d : Direction) (old new : Residues) : State :=
  { s with table := { s.table with
      loads := s.table.loads.set d (shiftLoads (s.table.loads.get d) old new)
      charges := s.table.charges.set d
        ((s.table.charges.get d).set p.val (s.charge p d - units old + units new) p.isLt) } }

/-! ### The maps (1.4, 1.5) -/

/-- The handle that the tag map gives for a port and a tag (R8). -/
def State.findTag (s : State) (p : Port) (tag : BitVec 32) : Option Handle :=
  (s.table.tagMap.find? fun e => e.port = p && e.tag = tag).map TagEntry.handle

/-- The handle that the channel map gives for a direction and a channel (R10). -/
def State.findChannel (s : State) (d : Direction) (c : Byte) : Option Handle :=
  (s.table.channelMap.find? fun e => e.direction = d && e.channel = c).map ChannelEntry.handle

/-- The maps with the entries of a newly opened record (R9, R10). -/
def State.addMapEntries (s : State) (h : Handle) (st : Stream) : State :=
  { s with table := { s.table with
      tagMap := if st.tag = 0 then s.table.tagMap else s.table.tagMap ++ [⟨st.owner, st.tag, h⟩]
      channelMap := s.table.channelMap ++ [⟨st.direction, st.channel, h⟩] } }

/-- The maps without the entries of a record (R20, part 4). -/
def State.removeMapEntries (s : State) (h : Handle) : State :=
  { s with table := { s.table with
      tagMap := s.table.tagMap.filter fun e => e.handle ≠ h
      channelMap := s.table.channelMap.filter fun e => e.handle ≠ h } }

/-! ### The Notice Unit (8.3, 8.4) -/

/-- The two reports have one place in a queue: the same kind and, but for LINK, the same handle
(R159). -/
def Report.matches : Report → Report → Bool
  | .done h _ _ _ _, .done k _ _ _ _ => h = k
  | .miss h _ _ _, .miss k _ _ _ => h = k
  | .warn h _ _, .warn k _ _ => h = k
  | .suspended h _ _, .suspended k _ _ => h = k
  | .amended h _ _ _ _, .amended k _ _ _ _ => h = k
  | .closed h _, .closed k _ => h = k
  | .link _, .link _ => true
  | _, _ => false

/-- The handle a report concerns; none for LINK. -/
def Report.handle? : Report → Option Handle
  | .done h _ _ _ _ | .miss h _ _ _ | .warn h _ _ | .suspended h _ _ | .amended h _ _ _ _
  | .closed h _ => some h
  | .link _ => none

/-- A matching entry after coalescing: the latest fields, the count raised and held at 255 (R160,
R161). -/
def Notice.coalesce (old : Notice) (report : Report) (period : Period) : Notice :=
  ⟨report, period, min 255 (old.count + 1)⟩

/-- A notice offered to a queue: coalesced, appended, or refused with OVERFLOW set (R159). -/
def NoticeQueue.enqueue (q : NoticeQueue) (report : Report) (period : Period) : NoticeQueue :=
  if q.entries.any (fun n => n.report.matches report) then
    { q with entries := q.entries.map fun n =>
        if n.report.matches report then n.coalesce report period else n }
  else if q.entries.length < Config.noticeCapacity then
    { q with entries := q.entries ++ [⟨report, period, 1⟩] }
  else { q with overflow := true }

/-- The queue without the entries of a handle (R163). -/
def NoticeQueue.purgeHandle (q : NoticeQueue) (h : Handle) : NoticeQueue :=
  { q with entries := q.entries.filter fun n => n.report.handle? ≠ some h }

def State.noticesOf (s : State) (p : Port) : NoticeQueue := s.notices.get p

def State.setNotices (s : State) (p : Port) (q : NoticeQueue) : State :=
  { s with notices := s.notices.set p.val q p.isLt }

/-- A notice queued to a port, in the current period (R156, R159). -/
def State.notify (s : State) (p : Port) (report : Report) : State :=
  s.setNotices p ((s.noticesOf p).enqueue report s.link.period)

/-- A notice of an optional kind, queued only if the kind is in the notify set (R158). -/
def State.notifyIf (s : State) (asked : Bool) (p : Port) (report : Report) : State :=
  if asked then s.notify p report else s

/-- A LINK notice queued to every port (R161). -/
def State.notifyAll (s : State) (event : LinkEvent) : State :=
  allPorts.foldl (fun t p => t.notify p (.link event)) s

/-! ### Amendments withdrawn, and retirement (1.9, 5.6) -/

/-- The withdrawal of a pending amendment: the charge returns to the old contribution and a pending
new pair is released (R41, R106). No effect where none is pending. -/
def State.withdrawAmendment (s : State) (h : Handle) : State :=
  match s.stream h with
  | some st =>
    match st.pending with
    | some a =>
      let t := s.recharge st.owner st.direction st.charge a.old
      let t := t.setFree (match a.pair with
        | some p => releasePair p t.free
        | none => t.free)
      t.setStream h { st with pending := none }
    | none => s
  | none => s

/-- Parts 1 to 4, 6 and 7 of the retirement step (R20): the amendment withdrawn, the extents
released, the charge and the map entries removed, the generation advanced, the record VACANT. -/
def State.vacate (s : State) (h : Handle) : State :=
  let s := s.withdrawAmendment h
  match s.stream h with
  | some st =>
    let t := s.setFree (releasePair (st.bufferA.extent, st.bufferB.extent) s.free)
    let t := t.recharge st.owner st.direction (contribution st.params) noCells
    let t := t.removeMapEntries h
    t.setRecord h ⟨(s.record h).generation + 1, none⟩
  | none => s

/-- Retirement (R20). `closed` says whether it is deferred or forced and queues CLOSED, or lies
within the owner's own CLOSE and queues none. -/
def State.retire (s : State) (h : Handle) (closed : Bool) : State :=
  match s.stream h with
  | some st =>
    let t := s.vacate h
    let t := t.setNotices st.owner ((t.noticesOf st.owner).purgeHandle h)
    t.notifyIf closed st.owner (.closed h (s.record h).generation)
  | none => s

/-- The cells of a slot whose service is aborted, still to be staged: idle (R21). -/
def LaneCell.silenced : LaneCell → LaneCell
  | .lead _ _ | .payload _ | .idle => .idle

/-- The staged cell of a slot whose service is aborted: idle (R21). -/
def WireCell.silenced : WireCell → WireCell
  | .lead _ _ | .payload _ => .idle
  | c => c

def LaneCell.isLead : LaneCell → Bool
  | .lead _ _ => true
  | .payload _ | .idle => false

/-- The rest of a slot whose service is aborted goes out idle (R21). While the slot's lead cell is
still to be staged, the staged cell is one of an earlier slot and goes out as it is. -/
def TransmitLane.silence (l : TransmitLane) : TransmitLane :=
  { l with
    staged := if l.queue.any LaneCell.isLead then l.staged else l.staged.map WireCell.silenced
    queue := l.queue.map LaneCell.silenced }

/-- The service in flight of a record aborted by a forced retirement (R21): the references dropped,
the rest of a TX slot idle. -/
def State.abortFlight (s : State) (h : Handle) : State :=
  let tx := s.psu.txFlight.any fun f => f.handle = h && f.generation = (s.record h).generation
  let rx := s.psu.rxFlight.any fun f => f.handle = h && f.generation = (s.record h).generation
  { s with
    psu := { s.psu with
      txFlight := if tx then none else s.psu.txFlight
      rxFlight := if rx then none else s.psu.rxFlight }
    lane := if tx then s.lane.silence else s.lane }

/-- Forced retirement (R21). -/
def State.forceRetire (s : State) (h : Handle) : State := (s.abortFlight h).retire h true

/-! ### Misses (6.5) -/

/-- The run after one more miss (R128, step 1). -/
def Stream.nextRun (st : Stream) : Nat :=
  min (if st.params.missLimit = 0 then 15 else st.params.missLimit) (st.missRun + 1)

/-- A miss applied to a record (R128). -/
def State.miss (s : State) (h : Handle) (cause : MissCause) : State :=
  match s.stream h with
  | some st =>
    let run := st.nextRun
    let g := (s.record h).generation
    let st := { st with missRun := run }
    let t := (s.setStream h st).notifyIf st.notify.miss st.owner (.miss h g cause run)
    if st.state = .live ∧ st.params.missLimit ≠ 0 ∧ run = st.params.missLimit then
      (t.setStream h { st with state := .suspended .misses }).notify st.owner
        (.suspended h g .misses)
    else t
  | none => s

/-! ### Port Interfaces (9.1) -/

def State.port (s : State) (p : Port) : PortInterface := s.ports.get p

def State.setPort (s : State) (p : Port) (x : PortInterface) : State :=
  { s with ports := s.ports.set p.val x p.isLt }

/-- A port's outstanding count: queued entries plus unread responses (R170). -/
def PortInterface.outstanding (x : PortInterface) : Nat :=
  x.requestQueue.length + x.responseQueue.length

/-- A response placed: its entry leaves the request queue (R170, R184). `retain` says whether the
response becomes the retained last response. -/
def PortInterface.place (x : PortInterface) (r : Response) (retain : Bool) : PortInterface :=
  { x with
    requestQueue := x.requestQueue.tail
    responseQueue := x.responseQueue ++ [r]
    retained := if retain then some r else x.retained }

end Sys2Proof.Machine
end

