-- ==== Sys2Proof/Machine/Reshape.lean ====
section
/-! DEFINITION. A record taking a new form: the take-effect of an amendment, at a mark (R99 to R103)
or within the request (R105). -/

namespace Sys2Proof.Machine

/-- A kept buffer under new cells: a fill above them is lowered to them (R102). -/
def Buffer.clip (b : Buffer) (cells : Nat) : Buffer := { b with fill := min b.fill cells }

/-- A new buffer of a granted pair: HOST with fill 0 (R93). -/
def Buffer.fresh (e : Extent) : Buffer := ⟨e, .host, 0⟩

/-- The record in its new form: the parameters, run 0, last slot none, no pending amendment (R100),
and the new pair with next parity A (R101) or the kept pair with its fills clipped (R102). -/
def Stream.reshape (st : Stream) (params : Params) (pair : Option (Extent × Extent)) : Stream :=
  let st := { st with params := params, missRun := 0, lastSlot := none, pending := none }
  match pair with
  | some p => { st with bufferA := .fresh p.1, bufferB := .fresh p.2, parity := .a }
  | none => { st with
      bufferA := st.bufferA.clip params.cells
      bufferB := st.bufferB.clip params.cells }

/-- The buffers dropped: the old buffers that were LINK when the pair is replaced (R101). -/
def Stream.dropped (st : Stream) (pair : Option (Extent × Extent)) : Nat :=
  match pair with
  | some _ => (decide (st.bufferA.owner = .link)).toNat + (decide (st.bufferB.owner = .link)).toNat
  | none => 0

/-- A buffer whose lowering is reported as a clip: LINK with a fill above the new cells (R102). -/
def Buffer.clipped (b : Buffer) (cells : Nat) : Bool := b.owner = .link && decide (cells < b.fill)

/-- Fill clipped: at least one TX LINK buffer of a kept pair was lowered (R102). -/
def Stream.clipped (st : Stream) (params : Params) (pair : Option (Extent × Extent)) : Bool :=
  pair.isNone && st.direction = .tx &&
    (st.bufferA.clipped params.cells || st.bufferB.clipped params.cells)

/-- The record of a handle reshaped: its charge becomes the new contribution, and an old pair that
is replaced is released (R100 to R102). -/
def State.reshape (s : State) (h : Handle) (st : Stream) (params : Params)
    (pair : Option (Extent × Extent)) : State :=
  let t := s.recharge st.owner st.direction st.charge (contribution params)
  let t := t.setFree (match pair with
    | some _ => releasePair (st.bufferA.extent, st.bufferB.extent) t.free
    | none => t.free)
  t.setStream h (st.reshape params pair)

/-- A mark of number m reaches an effective point (R96, R97). -/
def EffectivePoint.reached (m : Period) : EffectivePoint → Bool
  | .next => true
  | .period e => decide ((m - e).toNat < 2048)

/-- The take-effect of a record's pending amendment at the mark of number m, if the mark reaches its
effective point (R99 to R103). -/
def State.takeEffect (m : Period) (s : State) (h : Handle) : State :=
  match s.stream h with
  | some st =>
    match st.pending with
    | some a =>
      if a.point.reached m then
        (s.reshape h st a.params a.pair).notify st.owner
          (.amended h (s.record h).generation m (st.dropped a.pair) (st.clipped a.params a.pair))
      else s
    | none => s
  | none => s

end Sys2Proof.Machine
end

