-- ==== Sys2Proof/Machine/Period.lean ====
section
/-! DEFINITION. The claims of the Period Service Unit (chapter 6): what each does when the Table
Controller takes it. -/

namespace Sys2Proof.Machine

/-- A claim made: it waits behind those made before it (R16). -/
def State.makeClaim (s : State) (c : Claim) : State := { s with claims := s.claims ++ [c] }

/-! ### Mark processing (6.2) -/

/-- The handles whose stream passes a test, by class and then by ascending handle (R113, R114). -/
def State.listed (s : State) (test : Stream → Bool) : List Handle :=
  ([0, 1, 2, 3] : List Nat).flatMap fun c =>
    handles.filter fun h => (s.stream h).any fun st => test st && st.params.serviceClass = c

/-- The stream is due and served in a period, in one direction. -/
def Stream.owes (st : Stream) (d : Direction) (n : Period) : Bool :=
  st.direction = d && st.served && st.dueIn n.toNat

/-- The form of a handle's stream; nothing when VACANT. -/
def State.formOf (s : State) (h : Handle) : Form :=
  match s.stream h with
  | some st => st.form
  | none => ⟨0, 0, 0⟩

/-- The TX service list from its handles: each entry's offset is the cells of all before it
(R113). -/
def State.txEntries (s : State) : Nat → List Handle → List TxEntry
  | _, [] => []
  | offset, h :: rest =>
    ⟨h, (s.record h).generation, s.formOf h, offset, false⟩ ::
      s.txEntries (offset + (s.formOf h).cells) rest

/-- The standing of a record in period n (R114). -/
def standingOf (n : Period) : Option Stream → Standing
  | none => .none
  | some st =>
    if st.direction = .rx ∧ st.served = true then (if st.dueIn n.toNat then .due else .notDue)
    else .none

/-- The RX period table entry of a record. DESIGN CHOICE (unsafe): the generation and form beside a
standing of NONE are the record's own (log 9). -/
def State.rxEntryOf (s : State) (n : Period) (h : Handle) : RxEntry :=
  ⟨(s.record h).generation, s.formOf h, standingOf n (s.stream h)⟩

/-- Second stage of mark processing, the link UP: the lists and the table of period n (R113,
R114). -/
def State.buildLists (s : State) (n : Period) : State :=
  { s with psu := { s.psu with
      txList := s.txEntries 0 (s.listed fun st => st.owes .tx n)
      txNext := 0
      rxTable := tabulate (s.rxEntryOf n)
      rxList := s.listed fun st => st.owes .rx n } }

/-- Every standing NONE. -/
def clearStandings (t : Vector RxEntry 64) : Vector RxEntry 64 :=
  tabulate fun h => { t.get h with standing := .none }

/-- No lists, and every standing NONE (R113, R114, R134). -/
def State.dropLists (s : State) : State :=
  { s with psu := { s.psu with
      txList := []
      txNext := 0
      rxTable := clearStandings s.psu.rxTable
      rxList := [] } }

/-- The record is warned at the mark of period n (R115). -/
def Stream.warned (st : Stream) (n : Period) : Bool :=
  st.state = .live && decide (st.params.lead ≠ 0) &&
    st.dueIn ((n.toNat + st.params.lead) % 4096) && st.dueBuffer.owner = .host

/-- The starve warning of one record, if it is due one (R115). -/
def State.starveWarning (n : Period) (s : State) (h : Handle) : State :=
  match s.stream h with
  | some st =>
    if st.warned n then
      s.notifyIf st.notify.warn st.owner (.warn h (s.record h).generation st.params.lead)
    else s
  | none => s

/-- The TX list is complete: the first entry's turn comes, and its service-start claim is made (6.3,
R139). -/
def State.openList (s : State) : State :=
  if s.psu.txList.isEmpty then s else s.makeClaim .serviceStart

/-- The mark processing claim of period n (R112 to R115): due amendments, then in UP the lists and
the warnings, and the first entry's turn. -/
def State.takeMarkProcessing (s : State) (n : Period) : State :=
  let s := handles.foldl (State.takeEffect n) s
  if s.link.state = .up then (handles.foldl (State.starveWarning n) (s.buildLists n)).openList
  else s.dropLists

/-! ### Service that begins between two marks (4.3, 4.6) -/

/-- The entry is of a record with this generation and form, and no longer on the list. -/
def TxEntry.leave (x : TxEntry) (h : Handle) (g : Byte) (f : Form) : TxEntry :=
  if x.handle = h ∧ x.generation = g ∧ x.form = f then { x with absent := true } else x

/-- The lists and the table without a record of this generation and form: only the cell times of its
slot are left, and its standing is NONE. An entry of another generation or form stays: the rows of R117,
R123 and R127 that compare them decide it. -/
def PeriodService.leave (u : PeriodService) (h : Handle) (g : Byte) (f : Form) : PeriodService :=
  let e := u.rxTable.get h
  let v := { u with txList := u.txList.map fun x => x.leave h g f }
  if e.generation = g ∧ e.form = f then
    { v with
      rxTable := v.rxTable.set h.val { e with standing := .none } h.isLt
      rxList := v.rxList.filter fun k => k ≠ h }
  else v

/-- The record is absent from the period's lists, and its RX standing is NONE, as one put in service
after the mark is (R72, R80, R116). DEDUCED (unsafe): so is one that was listed at the mark and has been
stopped or suspended since (log 20). -/
def State.leaveLists (s : State) (h : Handle) : State :=
  { s with psu := s.psu.leave h (s.record h).generation (s.formOf h) }

/-! ### The end of a service -/

/-- A record in CLOSING after one of its services has ended: it retires in mode IMMEDIATE, and in
mode DRAIN when neither buffer is LINK (R81, R82, R84). -/
def State.closeAfterService (s : State) (h : Handle) : State :=
  match s.stream h with
  | some st =>
    if st.state = .closing .immediate ∨
        (st.state = .closing .drain ∧ st.hasOwner .link = false) then s.retire h true
    else s
  | none => s

/-! ### Transmit service (6.3) -/

/-- The slot of an entry from its lead cell on: some cells, then idle cell times (R118). -/
def slotCells (e : TxEntry) (cells : List LaneCell) : List LaneCell :=
  cells ++ List.replicate (e.form.cells + 1 - cells.length) .idle

/-- The payload cells of a burst, from cell 0 of the buffer (R118). -/
def payloadCells (address fill : Nat) : List LaneCell :=
  (List.range fill).map fun k => .payload (address + Config.cellBytes * k)

/-- The cells of a slot behind those that are still to be staged. -/
def State.stage (s : State) (cells : List LaneCell) : State :=
  { s with lane := { s.lane with queue := s.lane.queue ++ cells } }

/-- A service start that finds the due buffer LINK (R118). -/
def State.startBurst (s : State) (e : TxEntry) (st : Stream) : State :=
  let due := st.dueBuffer
  let t := s.setStream e.handle
    { st.setBuffer st.parity { due with owner := .service } with lastSlot := some e.offset }
  let t := { t with psu := { t.psu with
              txFlight := some ⟨e.handle, e.generation, st.parity, due.fill⟩ } }
  t.stage (slotCells e (.lead st.channel due.fill :: payloadCells due.extent.address due.fill))

/-- The service start of an entry (R117): the rows of its table, in order. A due buffer in SERVICE
cannot be found there (R117); the slot is then left idle (log 18). -/
def State.takeServiceStart (s : State) (e : TxEntry) : State :=
  match s.stream e.handle with
  | none => s.stage (slotCells e [])
  | some st =>
    if (s.record e.handle).generation ≠ e.generation then s.stage (slotCells e [])
    else if st.served = false then s.stage (slotCells e [])
    else if st.form ≠ e.form then s.stage (slotCells e [])
    else match st.dueBuffer.owner with
      | .link => s.startBurst e st
      | .host =>
        if st.state = .live then
          (s.miss e.handle .starved).stage
            (slotCells e (if st.params.missPolicy = some .empty then [.lead st.channel 0] else []))
        else (s.retire e.handle true).stage (slotCells e [])
      | .service => s.stage (slotCells e [])

/-- The TX list entry whose turn comes next. -/
def State.nextEntry (s : State) : Option TxEntry := s.psu.txList[s.psu.txNext]?

/-- The turn of an entry: its service start (R117), or, where its record is no longer on the list, cell
times that stay idle (R72, R80). -/
def State.startNext (s : State) (e : TxEntry) : State :=
  let t := { s with psu := { s.psu with txNext := s.psu.txNext + 1 } }
  if e.absent then t.stage (slotCells e []) else t.takeServiceStart e

/-- The service-start claim, that of the entry whose turn it is (R117). Dropped when the list is gone
(R134). -/
def State.takeNextStart (s : State) : State :=
  match s.nextEntry with
  | some e => s.startNext e
  | none => s

/-- The effects of a completed TX service on its record (R119). -/
def Stream.completeTx (st : Stream) (x : BufferName) : Stream :=
  { st.setBuffer x { st.buffer x with owner := .host } with
    parity := st.parity.other, missRun := 0 }

/-- The TX completion claim (R119). A stale generation has no effect on the record (R7, R132). -/
def State.takeTxCompletion (s : State) : State :=
  match s.psu.txFlight with
  | none => s
  | some f =>
    let t := { s with psu := { s.psu with txFlight := none } }
    match t.stream f.handle with
    | none => t
    | some st =>
      if (t.record f.handle).generation ≠ f.generation then t
      else
        let t := (t.setStream f.handle (st.completeTx f.buffer)).notifyIf st.notify.done st.owner
          (.done f.handle f.generation f.buffer (st.buffer f.buffer).fill ⟨false, false⟩)
        t.closeAfterService f.handle

/-! ### Receive service (6.4) -/

/-- The standing of a handle replaced. -/
def State.setStanding (s : State) (h : Handle) (x : Standing) : State :=
  { s with psu := { s.psu with
      rxTable := s.psu.rxTable.set h.val { s.psu.rxTable.get h with standing := x } h.isLt } }

/-- A match that finds the due buffer LINK (R124). A burst of no cells ends at once. -/
def State.startReceive (s : State) (h : Handle) (st : Stream) (count : Nat) : State :=
  let t := s.setStream h
    (st.setBuffer st.parity { st.dueBuffer with owner := .service, fill := 0 })
  { t with
    psu := { t.psu with
      rxFlight := some ⟨h, (s.record h).generation, st.parity, count, 0, 0, false, false, count = 0⟩ }
    claims := if count = 0 then t.claims ++ [.rxCompletion] else t.claims }

/-- The match claim of a lead cell (R123): the rows of its table, in order. -/
def State.takeMatch (s : State) (h : Handle) (count : Nat) : State :=
  let e := s.psu.rxTable.get h
  match s.stream h with
  | none => s
  | some st =>
    if (s.record h).generation ≠ e.generation then s
    else if st.served = false then s
    else if e.standing = .none ∨ st.form ≠ e.form then s
    else if e.standing = .notDue ∨ e.standing = .received then
      s.setStream h { st with policing := { st.policing with offSchedule := true } }
    else match st.dueBuffer.owner with
      | .host =>
        if st.state = .live then (s.setStanding h .received).miss h .overrun
        else s.retire h true
      | .link => (s.setStanding h .received).startReceive h st count
      | .service => s

/-- The policing flags with a burst's excess indication added (R124). -/
def Policing.addExcess (p : Policing) (excess : Bool) : Policing :=
  { p with excess := p.excess || excess }

/-- The effects of a sound RX completion on its record (R125). -/
def Stream.completeRx (st : Stream) (x : BufferName) (stored : Nat) : Stream :=
  { st.setBuffer x { st.buffer x with owner := .host, fill := stored } with
    parity := st.parity.other, missRun := 0, policing := ⟨false, false⟩ }

/-- The effects of a damaged RX completion on its record, but for the miss (R126). -/
def Stream.damageRx (st : Stream) (x : BufferName) (excess : Bool) : Stream :=
  { st.setBuffer x { st.buffer x with owner := .link, fill := 0 } with
    policing := st.policing.addExcess excess }

/-- The RX completion claim (R125, R126). A stale generation has no effect on the record. -/
def State.takeRxCompletion (s : State) : State :=
  match s.psu.rxFlight with
  | none => s
  | some f =>
    let t := { s with psu := { s.psu with rxFlight := none } }
    match t.stream f.handle with
    | none => t
    | some st =>
      if (t.record f.handle).generation ≠ f.generation then t
      else
        let t := if f.damaged then
            (t.setStream f.handle (st.damageRx f.buffer f.excess)).miss f.handle .damaged
          else
            (t.setStream f.handle (st.completeRx f.buffer f.stored)).notifyIf st.notify.done
              st.owner (.done f.handle f.generation f.buffer f.stored
                (st.policing.addExcess f.excess))
        t.closeAfterService f.handle

/-! ### The end of a receive period (6.5) -/

/-- The period-end decision of one handle (R127): the rows of its table, in order. -/
def State.decideHandle (s : State) (h : Handle) : State :=
  let e := s.psu.rxTable.get h
  match s.stream h with
  | none => s
  | some st =>
    if e.standing ≠ .due then s
    else if (s.record h).generation ≠ e.generation then s
    else if st.served = false then s
    else if st.form ≠ e.form then s
    else match st.dueBuffer.owner with
      | .host => if st.state = .live then s.miss h .starved else s.retire h true
      | .link => s.miss h .absent
      | .service => s

/-- The period-end decision of a handle is the end of its drain (R127, sixth row). -/
def State.endsDrain (s : State) (h : Handle) : Bool :=
  let e := s.psu.rxTable.get h
  match s.stream h with
  | none => false
  | some st => decide (e.standing = .due ∧ (s.record h).generation = e.generation ∧
      st.state = .closing .drain ∧ st.form = e.form ∧ st.dueBuffer.owner = .host)

/-- A list with the places that pass a test filled anew from another list, in its order. -/
def refill (test : Handle → Bool) : List Handle → List Handle → List Handle
  | [], _ => []
  | h :: l, [] => h :: refill test l []
  | h :: l, k :: ks => if test h then k :: refill test l ks else h :: refill test l (k :: ks)

/-- The order of the period-end decisions: the RX service list's (R127), but that the drains that end
there, which retire their records, come among themselves by ascending handle (R23). DEDUCED (unsafe): at
the places of the walk where a drain ends (log 22). -/
def State.periodEndOrder (s : State) : List Handle :=
  refill s.endsDrain s.psu.rxList (handles.filter fun h => s.psu.rxList.contains h && s.endsDrain h)

/-- The period-end claim (R127): the walk, then every standing NONE and the list emptied. -/
def State.takePeriodEnd (s : State) : State :=
  let s := s.periodEndOrder.foldl State.decideHandle s
  { s with psu := { s.psu with rxTable := clearStandings s.psu.rxTable, rxList := [] } }

end Sys2Proof.Machine
end

