-- ==== Sys2Proof/Machine/Claims.lean ====
section
/-! DEFINITION. The claims of the Link Controller (chapter 7), and the taking of the waiting claims,
first made first (R16). -/

namespace Sys2Proof.Machine

/-! ### Leaving UP (7.8) -/

/-- The buffer of an aborted service back in LINK: a TX buffer with its fill, an RX buffer with
fill 0 (R134, R150). -/
def State.abortBuffer (s : State) (h : Handle) (g : Byte) (n : BufferName) : State :=
  match s.stream h with
  | some st =>
    if (s.record h).generation = g then
      let x := st.buffer n
      s.setStream h (st.setBuffer n
        { x with owner := .link, fill := if st.direction = .tx then x.fill else 0 })
    else s
  | none => s

/-- Period service aborted: the lists, the standings and the in-flight services dropped (R134,
R150). -/
def State.abortService (s : State) : State :=
  let t := match s.psu.txFlight with
    | some f => s.abortBuffer f.handle f.generation f.buffer
    | none => s
  let t := match s.psu.rxFlight with
    | some f => t.abortBuffer f.handle f.generation f.buffer
    | none => t
  let t := t.dropLists
  { t with psu := { t.psu with txFlight := none, rxFlight := none } }

/-- The transmit lane stopped at the cell being sent: no further cell of the slot, no trailer
(R150). -/
def State.stopLane (s : State) : State :=
  { s with lane := { s.lane with staged := none, queue := [], opened := none } }

/-- The period cut off on both lanes: the transmit lane stopped, and the period-end decision of the
receive period cancelled (R134, R150). -/
def State.cutPeriod (s : State) : State :=
  { s.stopLane with psu := { s.psu with rxOpen := false } }

/-- What leaving UP does to one record (R150, effect 2). -/
def State.departRecord (s : State) (h : Handle) : State :=
  match s.stream h with
  | some st =>
    match st.state with
    | .live =>
      if st.linkPolicy = .hold then
        (s.setStream h { st with state := .suspended .link }).notify st.owner
          (.suspended h (s.record h).generation .link)
      else s
    | .closing _ => s.retire h true
    | _ => s
  | none => s

/-- The effects of leaving UP, as one whole (R150). -/
def State.leaveUp (s : State) : State :=
  (handles.foldl State.departRecord s.abortService).notifyAll .down

def Claim.isMarkProcessing : Claim → Bool
  | .markProcessing _ => true
  | _ => false

/-- The leaving-UP claim after a loss: the effects, and the link in ACQUIRE with its counters 0
(R148, R149). Dropped when the link is no longer UP (R153). A leader that left UP at its timer's
expiry has opened the next period already, on both lanes, and that one goes on (R143, R149). -/
def State.takeLeavingUp (s : State) : State :=
  if s.link.state = .up then
    let t := s.leaveUp
    let t := if t.claims.any Claim.isMarkProcessing then t else t.cutPeriod
    { t with link := { t.link with state := .acquire, acquire := 0, missingEchoes := 0 } }
  else s

/-- The entering-UP claim (R145, R146). -/
def State.takeEnteringUp (s : State) : State := s.notifyAll .up

/-- The slip claim (R147). -/
def State.takeSlip (s : State) : State := s.notifyAll .slip

/-! ### Taking claims (1.8) -/

/-- One claim taken whole (R17). -/
def State.takeClaim (s : State) : Claim → State
  | .markProcessing n => s.takeMarkProcessing n
  | .serviceStart => s.takeNextStart
  | .txCompletion => s.takeTxCompletion
  | .matchLead h count => s.takeMatch h count
  | .rxCompletion => s.takeRxCompletion
  | .periodEnd => s.takePeriodEnd
  | .leavingUp => s.takeLeavingUp
  | .enteringUp => s.takeEnteringUp
  | .slip => s.takeSlip

/-- At most so many waiting claims taken, first made first. -/
def State.settleFor : Nat → State → State
  | 0, s => s
  | n + 1, s =>
    match s.claims with
    | [] => s
    | c :: rest => State.settleFor n (State.takeClaim { s with claims := rest } c)

/-- Every waiting claim taken, those included that a taken claim makes. A claim makes at most one
more, which makes none. -/
def State.settle (s : State) : State := State.settleFor (2 * s.claims.length) s

/-- A follower is to enter UP: it has taken its second mark in sequence, and the mark processing
claim of that mark has been taken (R145). -/
def State.entryDue (s : State) : Bool :=
  s.link.state = .acquire && s.link.role = .follower && s.link.acquire = 2 &&
    !s.claims.any Claim.isMarkProcessing

/-- The Link Controller's entry into UP, where it is due, with the entering-UP claim made (R145). -/
def State.enterUp (s : State) : State :=
  if s.entryDue then
    State.makeClaim { s with link := { s.link with state := .up, acquire := 0 } } .enteringUp
  else s

/-- What a later event on the link side finds: the claims made before it taken, and a follower's entry
into UP made and its claim taken (R139, R145; log 3). A port request may be taken before that entry
(R153). -/
def State.catchUp (s : State) : State := s.settle.enterUp.settle

/-- At most so many waiting claims taken, first made first, up to and including the first of a kind;
none when there is none of the kind, also among those that a taken claim makes. -/
def State.takeThroughFor (kind : Claim → Bool) : Nat → State → Option State
  | 0, _ => none
  | n + 1, s =>
    match s.claims with
    | [] => none
    | c :: rest =>
      let t := State.takeClaim { s with claims := rest } c
      if kind c then some t else State.takeThroughFor kind n t

/-- The claim of a kind taken, after those made before it (R16), if one waits or is made by one that
does. -/
def State.through (s : State) (kind : Claim → Bool) : Option State :=
  State.takeThroughFor kind (2 * s.claims.length) s

/-- The claim of a kind is taken, after those made before it (R16). No effect while the part is held
in reset or when no claim of the kind waits (log 1). -/
def State.takeThrough (s : State) (kind : Claim → Bool) : State :=
  if s.resetPin || s.resetHold then s
  else if s.claims.any kind then (s.through kind).getD s
  else s

def Claim.isMatch : Claim → Bool
  | .matchLead _ _ => true
  | _ => false

/-- MARK_PROCESSING: the mark processing claim is taken (R112 to R115). -/
def execMarkProcessing (s : State) : Host.Outcome State Fault Refusal :=
  .next (s.takeThrough Claim.isMarkProcessing)

/-- MATCH: the match claim is taken (R123). -/
def execMatchClaim (s : State) : Host.Outcome State Fault Refusal :=
  .next (s.takeThrough Claim.isMatch)

/-- RX_COMPLETION: the RX completion claim is taken (R125, R126). -/
def execRxCompletion (s : State) : Host.Outcome State Fault Refusal :=
  .next (s.takeThrough (· = .rxCompletion))

/-- PERIOD_END: the period-end claim is taken (R127). -/
def execPeriodEnd (s : State) : Host.Outcome State Fault Refusal :=
  .next (s.takeThrough (· = .periodEnd))

/-- LEAVING_UP: the leaving-UP claim is taken (R150). -/
def execLeavingUp (s : State) : Host.Outcome State Fault Refusal :=
  .next (s.takeThrough (· = .leavingUp))

/-- ENTERING_UP: the entering-UP claim is taken (R145, R146). A follower whose entry into UP is due
makes the claim first. -/
def execEnteringUp (s : State) : Host.Outcome State Fault Refusal :=
  if s.resetPin || s.resetHold then .next s
  else if s.claims.any (· = .enteringUp) then .next (s.takeThrough (· = .enteringUp))
  else if s.settle.entryDue then .next s.catchUp
  else .next s

/-- SLIP: the slip claim is taken (R147). -/
def execSlip (s : State) : Host.Outcome State Fault Refusal :=
  .next (s.takeThrough (· = .slip))

end Sys2Proof.Machine
end

