-- ==== Sys2Proof/Machine/Lane.lean ====
section
/-! DEFINITION. The transmit lane (R118, R139): one cell time, with the claims that the staging of a
cell makes, the rows of those claims, and the running out of a transmit period. -/

namespace Sys2Proof.Machine

/-- The part is held in reset (R200, R201). -/
def State.held (s : State) : Bool := s.resetPin || s.resetHold

/-! ### One cell time -/

/-- A cell to be staged with what it carries. A payload cell's bytes are read as it is staged (R46,
R139). -/
def LaneCell.onWire (m : List Host.Cell) : LaneCell → Except Fault WireCell
  | .lead ch c => .ok (.lead ch c)
  | .payload a =>
    if Memory.holds a Config.cellBytes then
      .ok (.payload (tabulate fun i => Memory.read m (a + i.val)))
    else .error .streamMemoryAddress
  | .idle => .ok .idle

/-- The cell is a payload cell. -/
def LaneCell.isPayload : LaneCell → Bool
  | .payload _ => true
  | .lead _ _ | .idle => false

/-- A staged payload cell counted off the burst in flight (R110). -/
def TxFlight.count (f : TxFlight) (c : LaneCell) : TxFlight :=
  if c.isPayload then { f with toSend := f.toSend - 1 } else f

/-- The burst in flight ends with a staged cell: its last payload cell, at the latest the last cell of
its slot (R119; log 5). -/
def State.burstEnds (s : State) (c : LaneCell) (rest : List LaneCell) : Bool :=
  s.psu.txFlight.any fun f => (c.isPayload && decide (f.toSend ≤ 1)) || rest.isEmpty

/-- The claims that a staged cell makes: the completion claim of the burst that ends with it, and,
with the last cell of a slot, the service-start claim of the next entry (R119, R139; log 5). -/
def State.stagedClaims (s : State) (c : LaneCell) (rest : List LaneCell) : List Claim :=
  (if s.burstEnds c rest then [.txCompletion] else []) ++
    (if rest.isEmpty && s.nextEntry.isSome then [.serviceStart] else [])

/-- A cell staged one cell time before it goes out, with the claims that it makes (R139). -/
def State.stageCell (s : State) (c : LaneCell) (rest : List LaneCell) (w : WireCell) : State :=
  { s with
    lane := { s.lane with staged := some w, queue := rest }
    psu := { s.psu with txFlight := s.psu.txFlight.map fun f => f.count c }
    claims := s.claims ++ s.stagedClaims c rest }

/-- The cell for the next cell time is staged: the next of the slot, or after the last slot of an
open transmit period the trailer, or none (R139). -/
def State.stageNext (s : State) : Host.Outcome State Fault Refusal :=
  match s.lane.queue with
  | c :: rest =>
    match c.onWire s.memory with
    | .ok w => .next (s.stageCell c rest w)
    | .error f => .fault f
  | [] =>
    match s.lane.opened with
    | some n => .next { s with lane := { s.lane with staged := some (.trailer n), opened := none } }
    | none => .next { s with lane := { s.lane with staged := none } }

/-- The staged cell goes out, or an idle cell when none is staged (R137, R139). -/
def State.sendStaged (s : State) : State :=
  { s with lane := { s.lane with sending := s.lane.staged.getD .idle } }

/-- One cell time of the transmit lane (R139): the claims made in the cell time before are taken, the
staged cell goes out, and the cell for the next cell time is staged. While the part is held or the link
is OFF the lane carries idle cells (R137, R200). -/
def State.cellTime (s : State) : Host.Outcome State Fault Refusal :=
  if s.held || s.link.state = .off then
    .next { s with lane := { s.lane with sending := .idle } }
  else s.catchUp.sendStaged.stageNext

/-! ### The rows of the lane's claims -/

/-- Cell times pass, at most so many, until a claim of a kind waits. -/
def State.passTo (kind : Claim → Bool) : Nat → State → Host.Outcome State Fault Refusal
  | 0, s => .next s
  | n + 1, s =>
    if s.claims.any kind then .next s
    else match s.cellTime with
      | .next t => State.passTo kind n t
      | .fault f => .fault f
      | .refused r => .refused r

/-- The claim of a kind that the lane makes is taken, after those made before it (R16). Where none
waits but one is to come, the cell times pass in which the lane comes to make it (log 5). -/
def State.takeOfLane (s : State) (kind : Claim → Bool) (toCome : State → Bool) :
    Host.Outcome State Fault Refusal :=
  match s.through kind with
  | some t => .next t
  | none =>
    let u := s.catchUp
    if toCome u then
      match u.passTo kind u.lane.queue.length with
      | .next t => .next ((t.through kind).getD s)
      | .fault f => .fault f
      | .refused r => .refused r
    else .next s

/-- SERVICE_START: the service-start claim of the TX list entry whose turn comes next is taken (R117).
No effect when no entry is left, and while the part is held. -/
def execServiceStart (s : State) : Host.Outcome State Fault Refusal :=
  if s.held then .next s else s.takeOfLane (· = .serviceStart) fun u => u.nextEntry.isSome

/-- TX_COMPLETION: the completion claim of the TX service in flight is taken (R119). No effect when
none is in flight, and while the part is held. -/
def execTxCompletion (s : State) : Host.Outcome State Fault Refusal :=
  if s.held then .next s else s.takeOfLane (· = .txCompletion) fun u => u.psu.txFlight.isSome

/-! ### The end of a transmit period -/

/-- The slot being sent runs to its end: a burst in flight completes, and its cells go out (R119). -/
def State.finishSlot (s : State) : State :=
  let t := s.takeTxCompletion
  { t with lane := { t.lane with sending := .idle, staged := none, queue := [] } }

/-- At most so many entries' turns run to their ends, one after another. -/
def State.runSlots : Nat → State → State
  | 0, s => s.finishSlot
  | n + 1, s =>
    let t := s.finishSlot
    match t.nextEntry with
    | none => t
    | some e => State.runSlots n (t.startNext e)

/-- What is left of the transmit period runs out: every service of a period ends before the next
mark is taken (R17, R111; log 4). -/
def State.runOut (s : State) : State := State.runSlots s.psu.txList.length s

end Sys2Proof.Machine
end

