-- ==== Sys2Proof/Machine/Operands.lean ====
section
/-! DEFINITION. The arguments of the requests (11.4), the checks that several requests share (the
argument ranges, the name check, the admission test, the pair allocation), and their replies. -/

namespace Sys2Proof.Machine

/-- The status and the body that answer a request (R175). -/
structure Reply where
  status : Status
  body : List Byte
  deriving DecidableEq, Repr

/-- What carrying out a request gives: the state it leaves and its reply, or a fault. -/
abbrev Answer := Except Fault (State × Reply)

/-- A refusal without values: no state is changed, and the body is empty (11.5). -/
def refuse (s : State) (x : Status) : State × Reply := (s, ⟨x, []⟩)

/-- Nothing to give but the status. -/
def Reply.plain (x : Status) : Reply := ⟨x, []⟩

/-! ### Service parameters (R67, R90) -/

/-- The interval is one of 1, 2, 4, 8, 16 and 32. -/
def intervalOk (i : Nat) : Bool := [1, 2, 4, 8, 16, 32].contains i

/-- The ranges that the argument check of OPEN and of AMEND asks of a parameter set. -/
def Params.inRange (p : Params) : Bool :=
  decide (1 ≤ p.cells) && decide (p.cells ≤ Config.maxCells) && intervalOk p.interval &&
    decide (p.phase < p.interval) && decide (p.serviceClass ≤ 3) && decide (p.missLimit ≤ 15) &&
    decide (p.lead ≤ 3)

/-- The parameter set at bytes 2 to 8 of the body of OPEN or AMEND; the miss policy byte is read
apart. -/
def readParams (x : List Byte) (policy : Option MissPolicy) : Params where
  cells := (byteAt x 2).toNat
  interval := (byteAt x 3).toNat
  phase := (byteAt x 4).toNat
  serviceClass := (byteAt x 5).toNat
  missPolicy := policy
  missLimit := (byteAt x 7).toNat
  lead := (byteAt x 8).toNat

/-- The miss policy byte of OPEN or AMEND for a record of one direction: not examined on RX. -/
def readPolicy (x : List Byte) : Direction → Option MissPolicy
  | .tx => missPolicyOf (byteAt x 6)
  | .rx => none

/-! ### OPEN (R67) -/

/-- The arguments of OPEN. -/
structure OpenArgs where
  direction : Direction
  channel : Byte
  params : Params
  linkPolicy : LinkPolicy
  notify : NotifySet
  tag : BitVec 32
  deriving DecidableEq, Repr

/-- The four bytes of a tag. -/
def tagAt (x : List Byte) (i : Nat) : BitVec 32 :=
  byteAt x i ++ byteAt x (i + 1) ++ byteAt x (i + 2) ++ byteAt x (i + 3)

/-- The arguments of an OPEN, or none where its length or argument check gives BAD_ARG (R67,
R205). -/
def readOpen (x : List Byte) : Option OpenArgs :=
  match directionOf (byteAt x 0), linkPolicyOf (byteAt x 9), notifySetOf (byteAt x 10) with
  | some d, some l, some n =>
    if x.length = 15 ∧ (readParams x none).inRange = true ∧
        (d = .tx → (readPolicy x d).isSome = true) then
      some ⟨d, byteAt x 1, readParams x (readPolicy x d), l, n, tagAt x 11⟩
    else none
  | _, _, _ => none

/-! ### AMEND (R90) -/

/-- The effective point of an AMEND: its kind is NEXT, or PERIOD with E at most 4095. -/
def readPoint (x : List Byte) : Option EffectivePoint :=
  if byteAt x 9 = 0 then some .next
  else if byteAt x 9 = 1 ∧ numberAt x 10 < 4096 then some (.period (BitVec.ofNat 12 (numberAt x 10)))
  else none

/-- The effective point of an AMEND that passes its length and argument check (R90, R205). -/
def readAmend (x : List Byte) : Option EffectivePoint :=
  if x.length = 12 ∧ (readParams x none).inRange = true then readPoint x else none

/-- The effective window check: E lies 1 to 2047 periods ahead (R92). -/
def EffectivePoint.inWindow (now : Period) : EffectivePoint → Bool
  | .next => true
  | .period e => decide (1 ≤ (e - now).toNat) && decide ((e - now).toNat ≤ 2047)

/-! ### PUT, GET and HANDOVER (R57 to R59) -/

/-- The place in a buffer that a PUT or a GET names. -/
structure Span where
  buffer : BufferName
  offset : Nat
  length : Nat
  deriving DecidableEq, Repr

/-- The argument check on a buffer, an offset and a length (R57, R58). -/
def readSpan (x : List Byte) (length : Nat) : Option Span :=
  match bufferOf (byteAt x 2) with
  | some n =>
    if numberAt x 3 < Config.maxTransfer ∧ 1 ≤ length ∧ length ≤ Config.maxTransfer then
      some ⟨n, numberAt x 3, length⟩
    else none
  | none => none

/-- The place a PUT writes: its data is its body from byte 5 on (R57, R205). -/
def readPut (x : List Byte) : Option Span := readSpan x (x.length - 5)

/-- The place a GET reads (R58, R205). -/
def readGet (x : List Byte) : Option Span :=
  if x.length = 7 then readSpan x (numberAt x 5) else none

/-- The buffer and the fill of a HANDOVER (R59, R205). -/
def readHandover (x : List Byte) : Option (BufferName × Nat) :=
  match bufferOf (byteAt x 2) with
  | some n =>
    if x.length = 4 ∧ (byteAt x 3).toNat ≤ Config.maxCells then some (n, (byteAt x 3).toNat)
    else none
  | none => none

/-- The mode of a CLOSE (R77, R205). -/
def readClose (x : List Byte) : Option CloseMode :=
  if x.length = 3 then closeModeOf (byteAt x 2) else none

/-! ### The supervisor's requests -/

/-- A port number above 3 is no port. -/
def portOf (x : Byte) : Option Port := if h : x.toNat < 4 then some ⟨x.toNat, h⟩ else none

/-- The port, the direction and the quota of a QUOTA (R193, R205). -/
def readQuota (x : List Byte) : Option (Port × Direction × Nat) :=
  match portOf (byteAt x 0), directionOf (byteAt x 1) with
  | some n, some d =>
    if x.length = 4 ∧ numberAt x 2 ≤ Config.directionUnits then some (n, d, numberAt x 2) else none
  | _, _ => none

/-- The role of a LINKCTL with a given action (R152, R205). -/
def readLinkctl (action : Byte) (x : List Byte) : Option (Option Role) :=
  if x.length = 2 ∧ byteAt x 0 = action then linkctlRoleOf (byteAt x 1) else none

/-- The port of a PURGE (R195, R205). -/
def readPurge (x : List Byte) : Option Port :=
  if x.length = 1 then portOf (byteAt x 0) else none

/-! ### The name check (R6) -/

/-- A handle of 64 or more is no handle. -/
def handleOf (x : Byte) : Option Handle := if h : x.toNat < 64 then some ⟨x.toNat, h⟩ else none

/-- The name check: the handle and the stream that the first two bytes of a body name, or the status
that refuses it. `any` says that the third step does not apply to the requesting port. -/
def State.nameCheck (s : State) (p : Port) (any : Bool) (x : List Byte) :
    Except Status (Handle × Stream) :=
  match handleOf (byteAt x 0) with
  | none => .error .badArg
  | some h =>
    match s.stream h with
    | none => .error .stale
    | some st =>
      if (s.record h).generation ≠ byteAt x 1 then .error .stale
      else if any = false ∧ st.owner ≠ p then .error .notOwner
      else .ok (h, st)

/-- The length check and the name check of a request whose body is a name alone. -/
def State.nameOnly (s : State) (p : Port) (any : Bool) (x : List Byte) :
    Except Status (Handle × Stream) :=
  if x.length = 2 then s.nameCheck p any x else .error .badArg

/-! ### Admission (2.3) -/

/-- The port charge that a proposed charge of one record would give (R33). -/
def State.resultingCharge (s : State) (p : Port) (d : Direction) (present proposed : Residues) :
    Nat :=
  s.charge p d - units present + units proposed

/-- The quota part passes (R33). -/
def State.quotaAdmits (s : State) (p : Port) (d : Direction) (present proposed : Residues) : Bool :=
  let c := s.resultingCharge p d present proposed
  decide (c ≤ s.quota p d) || decide (c ≤ s.charge p d)

/-- The lowest residue at which the load part fails (R34, R36). -/
def State.overload (s : State) (d : Direction) (present proposed : Residues) : Option (Fin 32) :=
  residues.find? fun r => decide (Config.periodCells <
    (s.table.loads.get d).get r - present.get r + proposed.get r)

/-- The admission test: the reply that refuses a proposed charge, or none (R33 to R36). -/
def State.admission (s : State) (p : Port) (d : Direction) (present proposed : Residues) :
    Option Reply :=
  if s.quotaAdmits p d present proposed = false then
    some ⟨.noQuota, directionByte d :: (be16 (s.quota p d) ++ be16 (s.charge p d) ++
      be16 (s.resultingCharge p d present proposed))⟩
  else
    (s.overload d present proposed).map fun r =>
      ⟨.noLoad, directionByte d :: byte r.val :: be16 ((s.table.loads.get d).get r)⟩

/-- The reply to a pair that cannot be granted (R51). -/
def State.noSpace (s : State) (n : Nat) : Reply :=
  ⟨.noSpace, byte n :: (be16 (freeTotal s.free) ++ be16 (largestFree s.free))⟩

/-- A pair allocated, with the free list it leaves, or the reply that refuses it (R51). -/
def State.pair (s : State) (n : Nat) : Except Reply ((Extent × Extent) × List Extent) :=
  match allocatePair n s.free with
  | some r => .ok r
  | none => .error (s.noSpace n)

/-- A granted pair taken from the free list, both its extents zeroed (R47, R51). -/
def State.takePair (s : State) (g : (Extent × Extent) × List Extent) : Except Fault State :=
  match zeroPair g.1 s.memory with
  | .ok m => .ok { s with free := g.2, memory := m }
  | .error f => .error f

/-- The name of a record: its handle and its generation. -/
def State.nameBytes (s : State) (h : Handle) : List Byte :=
  [byte h.val, (s.record h).generation]

end Sys2Proof.Machine
end

