-- ==== Sys2Proof/Machine/Arbiter.lean ====
section
/-! DEFINITION. The Table Controller's grants (R16 to R19): which entry is granted, what placing its
response does, and the entries that run nothing (R179, R183, R204). -/

namespace Sys2Proof.Machine

/-! ### Grants -/

/-- The ports in the order in which the arbiter considers them (R16). -/
def State.turns (s : State) : List Port := allPorts.map fun k => s.table.arbiter + k

/-- The port whose head entry is granted next (R16). -/
def State.nextPort (s : State) : Option Port :=
  s.turns.find? fun p => !(s.port p).requestQueue.isEmpty

/-- The entry granted, if it is this port's turn (R16). -/
def State.granted (s : State) (p : Port) : Option Entry :=
  if s.nextPort = some p then (s.port p).requestQueue.head? else none

/-- The pointer past the port granted (R16). -/
def State.advance (s : State) (p : Port) : State :=
  { s with table := { s.table with arbiter := p + 1 } }

/-- The response to the entry granted placed (R170, R175, R184). -/
def State.answer (s : State) (p : Port) (code sequence : Byte) (a : Reply) (retain : Bool) : State :=
  s.setPort p ((s.port p).place ⟨code, sequence, a.status, a.body⟩ retain)

/-- An accepted request granted: carried out, and its response placed and retained (R17, R184). The
waiting link-side claims are taken before it (R16). Where the entry granted is not a request of the
row's kind, the row has no effect (log 1). -/
def State.grant (s : State) (p : Port) (takes : Request → Bool) (run : Request → State → Answer) :
    Host.Outcome State Fault Refusal :=
  if s.held then .next s
  else
    let t := s.settle
    match t.granted p with
    | some (.request r) =>
      if takes r then
        match run r (t.advance p) with
        | .ok a => .next (a.1.answer p r.code r.sequence a.2 true)
        | .error f => .fault f
      else .next s
    | _ => .next s

/-- The row takes the requests of one code. -/
def ofCode (c : Byte) (r : Request) : Bool := r.code = c

/-! ### Entries that run nothing -/

/-- BAD_FRAME_ENTRY (R179): the BAD_FRAME response, which is not retained. -/
def execBadFrameEntry (p : Port) (s : State) : Host.Outcome State Fault Refusal :=
  if s.held then .next s
  else
    let t := s.settle
    match t.granted p with
    | some (.badFrame code sequence) =>
      .next ((t.advance p).answer p code sequence (.plain .badFrame) false)
    | _ => .next s

/-- REPEAT_ENTRY (R183): the REPEAT response, a copy of the retained one, which stays. A repeat entry
with nothing retained, which R185 excludes, is answered with an empty body (log 18). -/
def execRepeatEntry (p : Port) (s : State) : Host.Outcome State Fault Refusal :=
  if s.held then .next s
  else
    let t := s.settle
    match t.granted p with
    | some (.repeatOf code sequence) =>
      .next ((t.advance p).answer p code sequence ⟨.repeated, repeatBody (t.port p).retained⟩ false)
    | _ => .next s

/-- The code names no request (R204). -/
def unknownCode (r : Request) : Bool := decide (0x14 ≤ r.code.toNat)

/-- UNKNOWN_REQUEST (R204). -/
def execUnknownRequest (p : Port) (s : State) : Host.Outcome State Fault Refusal :=
  s.grant p unknownCode fun _ t => .ok (refuse t .unknown)

end Sys2Proof.Machine
end

