-- ==== Sys2Proof/Machine/Amendments.lean ====
section
/-! DEFINITION. AMEND and WITHDRAW (chapter 5). -/

namespace Sys2Proof.Machine

/-- The charge of a record while an amendment to new parameters is pending (R39). -/
def Stream.amendedCharge (st : Stream) (new : Params) : Residues :=
  larger (contribution st.params) (contribution new)

/-- The new buffer pair that an amendment needs, with the free list it leaves: none where the granule
count stays (R93), or the reply that refuses it. -/
def State.amendPair (s : State) (st : Stream) (new : Params) :
    Except Reply (Option ((Extent × Extent) × List Extent)) :=
  if granulesFor new.cells = granulesFor st.params.cells then .ok none
  else (s.pair (granulesFor new.cells)).map some

/-- Tests 2 to 8 of an AMEND, on the record its name check found (R91): the new parameters, with
the pair they need, or the reply that refuses it. -/
def State.amendTests (s : State) (st : Stream) (x : List Byte) (point : EffectivePoint) :
    Except Reply (Params × Option ((Extent × Extent) × List Extent)) :=
  match st.state with
  | .closing _ => .error (.plain .state)
  | .standby | .live | .suspended _ =>
    if st.pending.isSome then .error (.plain .amendPending)
    else if st.direction = .tx ∧ readPolicy x .tx = none then .error (.plain .badArg)
    else if st.state ≠ .live ∧ st.hasOwner .service = true then .error (.plain .owner)
    else if point.inWindow s.link.period = false then
      .error ⟨.late, be16 s.link.period.toNat⟩
    else
      let new := readParams x (readPolicy x st.direction)
      match s.admission st.owner st.direction (contribution st.params) (st.amendedCharge new) with
      | some r => .error r
      | none => (s.amendPair st new).map fun g => (new, g)

/-- The pair taken from the free list and zeroed, where there is one (R93). -/
def State.takeAmendPair (s : State) : Option ((Extent × Extent) × List Extent) → Except Fault State
  | none => .ok s
  | some g => s.takePair g

/-- The amendment held as pending on a LIVE record (R94). -/
def State.holdAmendment (s : State) (h : Handle) (st : Stream) (new : Params)
    (point : EffectivePoint) (pair : Option (Extent × Extent)) : State :=
  (s.recharge st.owner st.direction (contribution st.params) (st.amendedCharge new)).setStream h
    { st with pending := some ⟨new, point, pair, contribution st.params⟩ }

/-- The amendment carried through: pending on a LIVE record (R94), applied at once on one in STANDBY
or SUSPENDED (R105). -/
def State.amend (s : State) (h : Handle) (st : Stream) (new : Params) (point : EffectivePoint)
    (pair : Option (Extent × Extent)) : State × Reply :=
  if st.state = .live then
    (s.holdAmendment h st new point pair,
      ⟨.pending, pointBytes point ++ [boolByte pair.isSome, byte (granulesFor new.cells)] ++
        be16 s.link.period.toNat⟩)
  else
    (s.reshape h st new pair,
      ⟨.done, be16 s.link.period.toNat ++
        [byte (st.dropped pair), boolByte (st.clipped new pair), boolByte pair.isSome]⟩)

/-- AMEND as the Table Controller carries it out (R90 to R94, R105). -/
def amendRequest (p : Port) (r : Request) (s : State) : Answer :=
  match readAmend r.body with
  | none => .ok (refuse s .badArg)
  | some point =>
    match s.nameCheck p false r.body with
    | .error x => .ok (refuse s x)
    | .ok (h, st) =>
      match s.amendTests st r.body point with
      | .error reply => .ok (s, reply)
      | .ok (new, g) =>
        match s.takeAmendPair g with
        | .error f => .error f
        | .ok t => .ok (t.amend h st new point (g.map Prod.fst))

/-- AMEND (R90 to R105). -/
def execAmend (p : Port) (s : State) : Host.Outcome State Fault Refusal :=
  s.grant p (ofCode 0x05) (amendRequest p)

/-- WITHDRAW as the Table Controller carries it out (R106). -/
def withdrawRequest (p : Port) (r : Request) (s : State) : State × Reply :=
  match s.nameOnly p false r.body with
  | .error x => refuse s x
  | .ok (h, st) =>
    match st.pending with
    | none => refuse s .nonePending
    | some a => (s.withdrawAmendment h, ⟨.done, pointBytes a.point⟩)

/-- WITHDRAW (R106). -/
def execWithdraw (p : Port) (s : State) : Host.Outcome State Fault Refusal :=
  s.grant p (ofCode 0x06) fun r t => .ok (withdrawRequest p r t)

end Sys2Proof.Machine
end

