-- ==== Sys2Proof/Machine/Buffers.lean ====
section
/-! DEFINITION. PUT, GET and HANDOVER (3.4 to 3.6). -/

namespace Sys2Proof.Machine

/-- The address in Stream Memory at which a span of a buffer begins (R46). -/
def Stream.spanAddress (st : Stream) (w : Span) : Nat :=
  (st.buffer w.buffer).extent.address + w.offset

/-- The span lies in the valid bytes of the record's buffers (R57, R58). -/
def Stream.spanValid (st : Stream) (w : Span) : Bool :=
  decide (w.offset + w.length ≤ validBytes st.params.cells)

/-- PUT as the Table Controller carries it out (R57). -/
def putRequest (p : Port) (r : Request) (s : State) : Answer :=
  match readPut r.body with
  | none => .ok (refuse s .badArg)
  | some w =>
    match s.nameCheck p false r.body with
    | .error x => .ok (refuse s x)
    | .ok (_, st) =>
      if st.direction = .rx then .ok (refuse s .direction)
      else if (st.buffer w.buffer).owner ≠ .host then .ok (refuse s .owner)
      else if st.spanValid w = false then .ok (refuse s .range)
      else if Memory.holds (st.spanAddress w) w.length then
        .ok ({ s with memory := Memory.writeBytes s.memory (st.spanAddress w) (r.body.drop 5) },
          .plain .done)
      else .error .streamMemoryAddress

/-- PUT (R57). -/
def execPut (p : Port) (s : State) : Host.Outcome State Fault Refusal :=
  s.grant p (ofCode 0x09) (putRequest p)

/-- GET as the Table Controller carries it out (R58). -/
def getRequest (p : Port) (r : Request) (s : State) : Answer :=
  match readGet r.body with
  | none => .ok (refuse s .badArg)
  | some w =>
    match s.nameCheck p false r.body with
    | .error x => .ok (refuse s x)
    | .ok (_, st) =>
      if (st.buffer w.buffer).owner ≠ .host then .ok (refuse s .owner)
      else if st.spanValid w = false then .ok (refuse s .range)
      else if Memory.holds (st.spanAddress w) w.length then
        .ok (s, ⟨.ok, byte (st.buffer w.buffer).fill ::
          Memory.readBytes s.memory (st.spanAddress w) w.length⟩)
      else .error .streamMemoryAddress

/-- GET (R58). -/
def execGet (p : Port) (s : State) : Host.Outcome State Fault Refusal :=
  s.grant p (ofCode 0x0A) (getRequest p)

/-- HANDOVER as the Table Controller carries it out (R59). -/
def handoverRequest (p : Port) (r : Request) (s : State) : State × Reply :=
  match readHandover r.body with
  | none => refuse s .badArg
  | some (n, fill) =>
    match s.nameCheck p false r.body with
    | .error x => refuse s x
    | .ok (h, st) =>
      match st.state with
      | .closing _ => refuse s .state
      | .standby | .live | .suspended _ =>
        if st.direction = .rx ∧ fill ≠ 0 then refuse s .direction
        else if (st.buffer n).owner ≠ .host then refuse s .owner
        else if st.direction = .tx ∧ (fill = 0 ∨ st.params.cells < fill) then refuse s .range
        else (s.setStream h (st.setBuffer n ⟨(st.buffer n).extent, .link, fill⟩),
          ⟨.done, [bufferByte n, byte fill]⟩)

/-- HANDOVER (R59). -/
def execHandover (p : Port) (s : State) : Host.Outcome State Fault Refusal :=
  s.grant p (ofCode 0x0B) fun r t => .ok (handoverRequest p r t)

end Sys2Proof.Machine
end

