-- ==== Sys2Proof/Machine/Lifecycle.lean ====
section
/-! DEFINITION. OPEN, START, STOP and CLOSE (chapter 4). -/

namespace Sys2Proof.Machine

/-! ### OPEN -/

/-- The lowest-numbered VACANT handle (R5). -/
def State.firstVacant (s : State) : Option Handle :=
  handles.find? fun h => (s.stream h).isNone

/-- The entry of the tag map that a tag would clash with; none for tag 0 (R68, test 2). -/
def State.tagHolder (s : State) (p : Port) (tag : BitVec 32) : Option Handle :=
  if tag = 0 then none else s.findTag p tag

/-- The tests of an OPEN that follow its argument check: the handle and the pair it gets, or the
reply that refuses it (R68). -/
def State.openTests (s : State) (p : Port) (a : OpenArgs) :
    Except Reply (Handle × (Extent × Extent) × List Extent) :=
  match s.firstVacant with
  | none => .error (.plain .noHandle)
  | some h =>
    match s.tagHolder p a.tag with
    | some k => .error ⟨.tagTaken, s.nameBytes k⟩
    | none =>
      if (s.findChannel a.direction a.channel).isSome then .error (.plain .channelTaken)
      else match s.admission p a.direction noCells (contribution a.params) with
        | some r => .error r
        | none => (s.pair (granulesFor a.params.cells)).map fun g => (h, g)

/-- The fields of a newly opened record (R1, R69). -/
def OpenArgs.stream (a : OpenArgs) (p : Port) (pair : Extent × Extent) : Stream where
  state := .standby
  owner := p
  tag := a.tag
  direction := a.direction
  channel := a.channel
  params := a.params
  missRun := 0
  linkPolicy := a.linkPolicy
  notify := a.notify
  parity := .a
  bufferA := .fresh pair.1
  bufferB := .fresh pair.2
  policing := ⟨false, false⟩
  lastSlot := none
  pending := none

/-- The record opened, with its charge and its map entries (R69). -/
def State.enter (s : State) (p : Port) (a : OpenArgs) (h : Handle) (pair : Extent × Extent) :
    State :=
  let st := a.stream p pair
  ((s.setStream h st).recharge p a.direction noCells (contribution a.params)).addMapEntries h st

/-- OPEN as the Table Controller carries it out (R67 to R69). -/
def openRequest (p : Port) (r : Request) (s : State) : Answer :=
  match readOpen r.body with
  | none => .ok (refuse s .badArg)
  | some a =>
    match s.openTests p a with
    | .error reply => .ok (s, reply)
    | .ok g =>
      match s.takePair g.2 with
      | .error f => .error f
      | .ok t => .ok (t.enter p a g.1 g.2.1, ⟨.done, t.nameBytes g.1⟩)

/-- OPEN (R67 to R70). -/
def execOpenStream (p : Port) (s : State) : Host.Outcome State Fault Refusal :=
  s.grant p (ofCode 0x01) (openRequest p)

/-! ### START and STOP -/

/-- START as the Table Controller carries it out (R71). The record takes part in period service from the
next mark: it is absent from the lists of the present one (R72). -/
def startRequest (p : Port) (r : Request) (s : State) : State × Reply :=
  match s.nameOnly p false r.body with
  | .error x => refuse s x
  | .ok (h, st) =>
    match st.state with
    | .standby | .suspended _ =>
      ((s.leaveLists h).setStream h { st with state := .live, missRun := 0 }, .plain .done)
    | .live | .closing _ => refuse s .state

/-- START (R71). -/
def execStart (p : Port) (s : State) : Host.Outcome State Fault Refusal :=
  s.grant p (ofCode 0x02) fun r t => .ok (startRequest p r t)

/-- STOP as the Table Controller carries it out (R73). -/
def stopRequest (p : Port) (r : Request) (s : State) : State × Reply :=
  match s.nameOnly p false r.body with
  | .error x => refuse s x
  | .ok (h, st) =>
    match st.state with
    | .live | .suspended _ => (s.setStream h { st with state := .standby }, .plain .done)
    | .standby | .closing _ => refuse s .state

/-- STOP (R73). -/
def execStop (p : Port) (s : State) : Host.Outcome State Fault Refusal :=
  s.grant p (ofCode 0x03) fun r t => .ok (stopRequest p r t)

/-! ### CLOSE -/

/-- The record retired within the request: DONE with the generation retired (R78). -/
def State.closeNow (s : State) (h : Handle) : State × Reply :=
  (s.retire h false, ⟨.done, [(s.record h).generation]⟩)

/-- The record put in CLOSING: PENDING with the mode (R78). -/
def State.closeLater (s : State) (h : Handle) (st : Stream) (m : CloseMode) : State × Reply :=
  (s.setStream h { st with state := .closing m }, ⟨.pending, [closeModeByte m]⟩)

/-- The close waits: in mode IMMEDIATE for a buffer in SERVICE (R79), in mode DRAIN, with the link UP,
for a buffer in SERVICE or LINK (R80). -/
def State.closeWaits (s : State) (st : Stream) : CloseMode → Bool
  | .immediate => st.hasOwner .service
  | .drain => s.link.state = .up && (st.hasOwner .service || st.hasOwner .link)

/-- A CLOSE of a record in STANDBY, LIVE or SUSPENDED (R78 to R80). One that waits keeps a LIVE record's
place in the lists; in mode DRAIN, a record in STANDBY or SUSPENDED takes part from the next mark, absent
from the lists of the present one (R80). -/
def State.closeOpen (s : State) (h : Handle) (st : Stream) (m : CloseMode) : State × Reply :=
  let t := s.withdrawAmendment h
  if s.closeWaits st m then
    let t := if m = .drain ∧ st.state ≠ .live then t.leaveLists h else t
    t.closeLater h { st with pending := none } m
  else t.closeNow h

/-- A CLOSE of a record already in CLOSING, by its owner port (R85). -/
def State.closeAgain (s : State) (h : Handle) (st : Stream) (old new : CloseMode) : State × Reply :=
  match old, new with
  | .drain, .immediate =>
    if st.hasOwner .service then s.closeLater h st .immediate else s.closeNow h
  | _, _ => refuse s .state

/-- CLOSE as the Table Controller carries it out (R77 to R87). -/
def closeRequest (p : Port) (r : Request) (s : State) : State × Reply :=
  match readClose r.body with
  | none => refuse s .badArg
  | some m =>
    match s.nameCheck p (p = 0) r.body with
    | .error x => refuse s x
    | .ok (h, st) =>
      if p = 0 ∧ st.owner ≠ 0 then (s.forceRetire h, ⟨.done, [(s.record h).generation]⟩)
      else match st.state with
        | .closing old => s.closeAgain h st old m
        | .standby | .live | .suspended _ => s.closeOpen h st m

/-- CLOSE (R77 to R87). -/
def execClose (p : Port) (s : State) : Host.Outcome State Fault Refusal :=
  s.grant p (ofCode 0x04) fun r t => .ok (closeRequest p r t)

end Sys2Proof.Machine
end

