-- ==== Sys2Proof/Machine/Lookups.lean ====
section
/-! DEFINITION. The requests that read the part or empty the caller's notice queue: FIND, READ, LOADS,
EXTENTS, POLL and STATUS. -/

namespace Sys2Proof.Machine

/-- The reply to a FIND: the name of the record found, or NOT_FOUND (R12, R13). -/
def State.found (s : State) : Option Handle → Reply
  | some h => ⟨.ok, s.nameBytes h⟩
  | none => .plain .notFound

/-- FIND by tag as the Table Controller carries it out (R12). A body that is not of the form TAG gives
BAD_ARG (R205, R206). -/
def findByTagRequest (p : Port) (r : Request) (s : State) : State × Reply :=
  if r.body.length ≠ 7 ∨ byteAt r.body 0 ≠ 0 ∨ tagAt r.body 3 = 0 then refuse s .badArg
  else (s, s.found (s.findTag p (tagAt r.body 3)))

/-- The FIND requests that FIND_BY_TAG takes: all but the sound ones of the form CHANNEL (log 17). -/
def takesByTag (r : Request) : Bool :=
  r.code = 0x07 && !(decide (r.body.length = 7) && byteAt r.body 0 = 1)

/-- FIND_BY_TAG (R12). -/
def execFindByTag (p : Port) (s : State) : Host.Outcome State Fault Refusal :=
  s.grant p takesByTag fun r t => .ok (findByTagRequest p r t)

/-- FIND by channel as the Table Controller carries it out (R13). A body that is not of the form
CHANNEL gives BAD_ARG (R205, R206). -/
def findByChannelRequest (r : Request) (s : State) : State × Reply :=
  match directionOf (byteAt r.body 1) with
  | none => refuse s .badArg
  | some d =>
    if r.body.length ≠ 7 ∨ byteAt r.body 0 ≠ 1 then refuse s .badArg
    else (s, s.found (s.findChannel d (byteAt r.body 2)))

/-- The FIND requests that FIND_BY_CHANNEL takes: all but the sound ones of the form TAG (log 17). -/
def takesByChannel (r : Request) : Bool :=
  r.code = 0x07 && !(decide (r.body.length = 7) && byteAt r.body 0 = 0)

/-- FIND_BY_CHANNEL (R13). -/
def execFindByChannel (p : Port) (s : State) : Host.Outcome State Fault Refusal :=
  s.grant p takesByChannel fun r t => .ok (findByChannelRequest r t)

/-- READ as the Table Controller carries it out (R14). -/
def readRequest (p : Port) (r : Request) (s : State) : State × Reply :=
  match s.nameOnly p true r.body with
  | .error x => refuse s x
  | .ok (h, st) => (s, ⟨.ok, recordImage h (s.record h).generation st⟩)

/-- READ (R14). -/
def execRead (p : Port) (s : State) : Host.Outcome State Fault Refusal :=
  s.grant p (ofCode 0x08) fun r t => .ok (readRequest p r t)

/-- LOADS as the Table Controller carries it out (R44). -/
def loadsRequest (r : Request) (s : State) : State × Reply :=
  match directionOf (byteAt r.body 0) with
  | none => refuse s .badArg
  | some d =>
    if r.body.length ≠ 1 then refuse s .badArg
    else (s, ⟨.ok, directionByte d :: (be16 s.link.period.toNat ++
      residues.flatMap fun x => be16 ((s.table.loads.get d).get x))⟩)

/-- LOADS (R44). -/
def execLoads (p : Port) (s : State) : Host.Outcome State Fault Refusal :=
  s.grant p (ofCode 0x0C) fun r t => .ok (loadsRequest r t)

/-- EXTENTS as the Table Controller carries it out (R64). -/
def extentsRequest (r : Request) (s : State) : State × Reply :=
  if r.body.length ≠ 0 then refuse s .badArg
  else (s, ⟨.ok, be16 s.free.length ++ be16 (freeTotal s.free) ++
    s.free.flatMap fun e => be16 e.base ++ be16 e.length⟩)

/-- EXTENTS (R64). -/
def execExtents (p : Port) (s : State) : Host.Outcome State Fault Refusal :=
  s.grant p (ofCode 0x0D) fun r t => .ok (extentsRequest r t)

/-- The queue after a POLL: up to eight of the oldest entries gone, and OVERFLOW cleared if none is
left (R165). -/
def NoticeQueue.polled (q : NoticeQueue) : NoticeQueue :=
  let rest := q.entries.drop Config.pollEntries
  ⟨rest, q.overflow && !rest.isEmpty⟩

/-- POLL as the Table Controller carries it out (R165). -/
def pollRequest (p : Port) (r : Request) (s : State) : State × Reply :=
  if r.body.length ≠ 0 then refuse s .badArg
  else
    let q := s.noticesOf p
    let taken := q.entries.take Config.pollEntries
    (s.setNotices p q.polled,
      ⟨.ok, [byte taken.length, byte q.polled.entries.length, boolByte q.overflow] ++
        taken.flatMap Notice.bytes⟩)

/-- POLL (R165). -/
def execPoll (p : Port) (s : State) : Host.Outcome State Fault Refusal :=
  s.grant p (ofCode 0x0E) fun r t => .ok (pollRequest p r t)

/-- The records in VACANT (R188). -/
def State.vacantCount (s : State) : Nat := handles.countP fun h => (s.stream h).isNone

/-- STATUS as the Table Controller carries it out (R188). -/
def statusRequest (p : Port) (r : Request) (s : State) : State × Reply :=
  if r.body.length ≠ 0 then refuse s .badArg
  else (s, ⟨.ok, [byte p.val, linkStateByte s.link.state, roleByte s.link.role] ++
    be16 s.link.period.toNat ++ be16 (freeTotal s.free) ++ be16 (largestFree s.free) ++
    byte s.vacantCount :: (be16 (s.quota p .tx) ++ be16 (s.charge p .tx) ++
    be16 (s.quota p .rx) ++ be16 (s.charge p .rx))⟩)

/-- STATUS (R188). -/
def execStatus (p : Port) (s : State) : Host.Outcome State Fault Refusal :=
  s.grant p (ofCode 0x0F) fun r t => .ok (statusRequest p r t)

end Sys2Proof.Machine
end

