-- ==== Sys2Proof/Machine/Link.lean ====
section
/-! DEFINITION. The events of the period link (chapter 7): marks, echoes, timers, and the cells of
the receive lane. Each finds the claims made before it taken (R16, R139; log 3). -/

namespace Sys2Proof.Machine

/-- The part hears its receive lane and runs its link timers: it is not held and the link is not OFF
(R137, R203). -/
def State.hears (s : State) : Bool := !s.held && s.link.state ≠ .off

/-- The part takes cells from its receive lane: it hears it and holds cell alignment (R138). -/
def State.receives (s : State) : Bool := s.hears && s.link.aligned

/-! ### Bursts and receive periods -/

/-- A burst in flight ends cut short: damaged, and its completion claim is made (R124). -/
def State.cutBurst (s : State) : State :=
  match s.psu.rxFlight with
  | some f =>
    if f.ended then s
    else
      State.makeClaim
        { s with psu := { s.psu with rxFlight := some { f with damaged := true, ended := true } } }
        .rxCompletion
  | none => s

/-- The receive period ends, if it has not: the period-end claim is made (R127). -/
def State.endReceive (s : State) : State :=
  if s.psu.rxOpen then
    State.makeClaim { s with psu := { s.psu with rxOpen := false } } .periodEnd
  else s

/-- A taken mark reported to the Period Service Unit: the previous receive period is closed out and
the mark processing claim is made (R111). -/
def State.reportMark (s : State) (n : Period) : State :=
  let t := s.cutBurst.endReceive
  State.makeClaim { t with psu := { t.psu with rxOpen := true } } (.markProcessing n)

/-! ### Marks at the leader (7.4) -/

/-- The leader opens a period: it emits the next mark, which is its taken mark (R140, steps 2
and 3). -/
def State.emitMark (s : State) : State :=
  let n := s.link.period + 1
  let t := { s with link := { s.link with period := n, markTaken := true } }
  let t := t.reportMark n
  { t with lane := ⟨.mark n .leader false, some .idle, [], some n⟩ }

/-- The ending period had a valid echo (R142). -/
def State.echoed (s : State) : Bool := s.link.echoRecord = some s.link.period

/-- A leader in UP leaves it at this expiry: the third period running without a valid echo (R149). -/
def State.losesEchoes (s : State) : Bool :=
  s.link.state = .up && !s.echoed && decide (Config.missingEchoLimit ≤ s.link.missingEchoes + 1)

/-- The ending period settled at the leader (R140 step 1, R138, R146, R149). -/
def State.settlePeriod (s : State) : State :=
  let l := s.link
  let t := { s with link := { l with
    missingEchoes := if l.state = .up then (if s.echoed then 0 else l.missingEchoes + 1)
                     else l.missingEchoes
    acquire := if l.state = .acquire ∧ s.echoed = false then 0 else l.acquire
    aligned := l.aligned && s.echoed } }
  if s.losesEchoes then t.makeClaim .leavingUp
  else if l.state = .up then t.runOut
  else t

/-- PERIOD_TIMER_EXPIRY at a leader in ACQUIRE or UP (R140). -/
def execPeriodTimerExpiry (s : State) : Host.Outcome State Fault Refusal :=
  if s.hears && s.link.role = .leader && s.link.periodTimer then
    .next s.catchUp.settlePeriod.emitMark
  else .next s

/-! ### Marks at the follower, echoes at the leader -/

/-- A received mark is valid (R141, R209). -/
def State.validMark (s : State) (c : MarkCell) : Bool :=
  c.echo = 0 && c.role = 0 && decide (c.number.toNat < 4096) &&
    (!s.link.markTaken || decide (Config.periodCellTimes ≤ c.elapsed))

/-- The follower's acquire counter after a valid mark in ACQUIRE (R145). -/
def State.acquireAfterMark (s : State) (m : Period) : Nat :=
  if s.link.state = .acquire then
    (if s.link.acquire = 1 ∧ m = s.link.period + 1 then 2 else 1)
  else s.link.acquire

/-- A follower takes a valid mark numbered m (R141). -/
def State.takeMark (s : State) (m : Period) : State :=
  let t := if s.link.state = .up then s.runOut else s
  let t := if t.link.state = .up ∧ m ≠ t.link.period + 1 then t.makeClaim .slip else t
  let t := { t with link := { t.link with
              period := m, lossTimer := true, markTaken := true, acquire := t.acquireAfterMark m } }
  let t := t.reportMark m
  { t with lane := { t.lane with
      staged := some (.mark m .follower true), queue := [.idle], opened := some m } }

/-- A received echo is valid (R142, R209). -/
def State.validEcho (s : State) (c : MarkCell) : Bool :=
  c.echo = 1 && c.role = 1 && decide (c.number.toNat = s.link.period.toNat) && !s.echoed

/-- A leader accepts a valid echo: the echo record, and in ACQUIRE the counter and at 2 the entry
into UP (R142, R146). -/
def State.acceptEcho (s : State) : State :=
  let l := s.link
  let count := if l.acquire = 1 ∧ l.echoRecord = some (l.period - 1) then 2 else 1
  let l' := { l with echoRecord := some l.period }
  if l.state = .acquire then
    if count = 2 then
      State.makeClaim
        { s with link := { l' with state := .up, acquire := 0, missingEchoes := 0 } } .enteringUp
    else { s with link := { l' with acquire := count } }
  else { s with link := l' }

/-- A sound cell of type mark arrives: it gives the alignment to a receiver that hunts (R138), ends a
burst cut short (R124), and is taken as a mark by a follower (R141) or as an echo by a leader
(R142) if it is valid. -/
def State.receiveMark (s : State) (c : MarkCell) : State :=
  if s.hears then
    let t := s.catchUp
    let t := { t with link := { t.link with aligned := true } }
    match t.link.role with
    | .follower =>
      if t.validMark c then t.takeMark (c.number.setWidth 12) else t.cutBurst
    | .leader =>
      let t := t.cutBurst
      if t.validEcho c then t.acceptEcho else t
  else s

/-- MARK_ARRIVAL (R141). -/
def execMarkArrival (c : MarkCell) (s : State) : Host.Outcome State Fault Refusal :=
  .next (s.receiveMark c)

/-- ECHO_ARRIVAL (R142). -/
def execEchoArrival (c : MarkCell) (s : State) : Host.Outcome State Fault Refusal :=
  .next (s.receiveMark c)

/-- LOSS_TIMER_EXPIRY at a follower (R148). -/
def execLossTimerExpiry (s : State) : Host.Outcome State Fault Refusal :=
  if s.hears && s.link.role = .follower && s.link.lossTimer then
    let t := s.catchUp
    let t := { t with link := { t.link with lossTimer := false } }
    if t.link.state = .up then .next (t.makeClaim .leavingUp)
    else .next { t with link := { t.link with acquire := 0 } }
  else .next s

/-- ALIGNMENT_LAPSE at a follower: it hunts again (R138). -/
def execAlignmentLapse (s : State) : Host.Outcome State Fault Refusal :=
  if s.hears && s.link.role = .follower then
    .next { s with link := { s.link with aligned := false } }
  else .next s

/-! ### The cells of the receive lane -/

/-- TRAILER_ARRIVAL: it ends a burst cut short (R124), and the receive period when its number is the
current one (R143). One whose number is above 4095 is ignored (R209). DEDUCED (unsafe): a trailer of
another number up to 4095 ends a burst too, although R143 says that it is ignored (log 21). -/
def execTrailerArrival (number : BitVec 16) (s : State) : Host.Outcome State Fault Refusal :=
  if s.receives then
    let t := s.catchUp
    if 4096 ≤ number.toNat then .next t
    else
      let t := t.cutBurst
      .next (if number.toNat = t.link.period.toNat then t.endReceive else t)
  else .next s

/-- The RX period table holds every standing NONE (R122). -/
def State.noStandings (s : State) : Bool :=
  handles.all fun h => (s.psu.rxTable.get h).standing = .none

/-- LEAD_CELL_ARRIVAL: it ends a burst cut short (R124); a count above 128 is not matched (R209);
otherwise its channel is looked up and the match claim made (R122). -/
def execLeadCellArrival (channel count : Byte) (s : State) : Host.Outcome State Fault Refusal :=
  if s.receives then
    let t := s.catchUp.cutBurst
    if Config.maxCells < count.toNat then .next t
    else if t.noStandings then .next t
    else match t.findChannel .rx channel with
      | some h => .next (t.makeClaim (.matchLead h count.toNat))
      | none => .next t
  else .next s

/-- A payload cell's place in a burst after it has arrived: stored below the record's cells, excess
beyond them, and the burst ended when all announced have come (R124). -/
def RxFlight.advance (f : RxFlight) (cells : Nat) (sound : Bool) : RxFlight :=
  { f with
    arrived := f.arrived + 1
    stored := if f.arrived < cells then f.stored + 1 else f.stored
    damaged := f.damaged || (decide (f.arrived < cells) && !sound)
    excess := f.excess || !decide (f.arrived < cells)
    ended := decide (f.announced ≤ f.arrived + 1) }

/-- The address of a payload cell's place in its buffer; none when the cell is excess or its record
is no longer the one matched (R46, R124). -/
def State.payloadAddress (s : State) (f : RxFlight) : Option Nat :=
  match s.stream f.handle with
  | some st =>
    if f.arrived < (s.psu.rxTable.get f.handle).form.cells ∧
        (s.record f.handle).generation = f.generation then
      some ((st.buffer f.buffer).extent.address + Config.cellBytes * f.arrived)
    else none
  | none => none

/-- A payload cell, or a cell with a bad check, inside a burst: its bytes are stored or discarded,
and the completion claim is made at the burst's end. Outside a burst it has no effect (R124,
R137). -/
def State.receivePayload (s : State) (data : Payload) (sound : Bool) :
    Host.Outcome State Fault Refusal :=
  match s.psu.rxFlight with
  | none => .next s
  | some f =>
    if f.ended then .next s
    else
      let f' := f.advance (s.psu.rxTable.get f.handle).form.cells sound
      let t := { s with psu := { s.psu with rxFlight := some f' } }
      let t := if f'.ended then t.makeClaim .rxCompletion else t
      match s.payloadAddress f with
      | none => .next t
      | some a =>
        if Memory.holds a Config.cellBytes then
          .next { t with memory := Memory.writeBytes t.memory a data.toList }
        else .fault .streamMemoryAddress

/-- PAYLOAD_CELL_ARRIVAL (R124). -/
def execPayloadCellArrival (data : Payload) (sound : Bool) (s : State) :
    Host.Outcome State Fault Refusal :=
  if s.receives then s.catchUp.receivePayload data sound else .next s

/-- IDLE_CELL_ARRIVAL: ignored, but that it ends a burst cut short (R124, R137). -/
def execIdleCellArrival (s : State) : Host.Outcome State Fault Refusal :=
  if s.receives then .next s.catchUp.cutBurst else .next s

/-- BAD_CHECK_CELL_ARRIVAL: a damaged payload cell inside a burst, discarded elsewhere (R137).
DEDUCED (unsafe): the bytes stored are bytes 1 to 16 as received (log 12). -/
def execBadCheckCellArrival (data : Payload) (s : State) : Host.Outcome State Fault Refusal :=
  if s.receives then s.catchUp.receivePayload data false else .next s

end Sys2Proof.Machine
end

