-- ==== Sys2Proof/Machine/Reset.lean ====
section
/-! DEFINITION. Reset (10.4): what it does to every block at once, and the pins and the hold that
begin and end it. -/

namespace Sys2Proof.Machine

/-- A transaction in progress cut by a reset: it goes on to its end with fill bytes from the next whole
byte on, and its end settles nothing (R189). -/
def Transaction.cutShort (t : Transaction) : Transaction := { t with cut := true, delivery := none }

/-- A Port Interface at its reset values, its transaction in progress cut short (R189). -/
def PortInterface.cutReset (x : PortInterface) : PortInterface :=
  { PortInterface.reset with transaction := x.transaction.map Transaction.cutShort }

/-- Every block at its reset values at once (R24, R45, R66, R135, R154, R169, R189, R202). The role
stays until ROLE is sampled at the end of the reset (R154; log 8). -/
def State.resetBlocks (s : State) : State :=
  { State.reset with
    link := .reset s.link.role
    ports := tabulate fun p => (s.port p).cutReset
    resetPin := s.resetPin
    resetHold := s.resetHold
    pending := s.pending }

/-- The reset of a RESET request begins: the part is held for 64 REFCLK cycles (R201). -/
def State.startReset (s : State) : State := { s.resetBlocks with resetHold := true }

/-- The role that a level of the ROLE pin gives: high LEADER, low FOLLOWER (R154). -/
def rolePinRole (high : Bool) : Role := if high then .leader else .follower

/-- The end of a reset, if nothing holds the part any more: ROLE is sampled (R154, R200, R203). -/
def State.endReset (s : State) (rolePin : Bool) : State :=
  if s.held then s else { s with link := { s.link with role := rolePinRole rolePin } }

/-- RESET_N_ASSERT: a low RESET_N is sampled (R200). -/
def execResetNAssert (s : State) : Host.Outcome State Fault Refusal :=
  .next { s.resetBlocks with resetPin := true }

/-- RESET_N_RELEASE: RESET_N is sampled high for the first time (R200, R203). No effect when it was
high already. -/
def execResetNRelease (rolePin : Bool) (s : State) : Host.Outcome State Fault Refusal :=
  if s.resetPin then .next (State.endReset { s with resetPin := false } rolePin) else .next s

/-- RESET_HOLD_EXPIRY: the 64 cycles of a RESET request's reset have passed (R201, R203). No effect
when no such reset runs. -/
def execResetHoldExpiry (rolePin : Bool) (s : State) : Host.Outcome State Fault Refusal :=
  if s.resetHold then .next (State.endReset { s with resetHold := false } rolePin) else .next s

end Sys2Proof.Machine
end

