-- ==== Sys2Proof/Machine/Supervisor.lean ====
section
/-! DEFINITION. The requests reserved to the supervisor port, in whole or in part: QUOTA, LINKCTL,
PURGE and RESET (chapter 10, R152). -/

namespace Sys2Proof.Machine

/-! ### QUOTA -/

/-- A port's quota in one direction replaced (R193). -/
def State.setQuota (s : State) (n : Port) (d : Direction) (q : Nat) : State :=
  { s with table := { s.table with
      quotas := s.table.quotas.set d ((s.table.quotas.get d).set n.val q n.isLt) } }

/-- QUOTA as the Table Controller carries it out (R193). -/
def quotaRequest (p : Port) (r : Request) (s : State) : State × Reply :=
  if p ≠ 0 then refuse s .denied
  else match readQuota r.body with
    | none => refuse s .badArg
    | some (n, d, q) =>
      (s.setQuota n d q, ⟨.done, [byte n.val, directionByte d] ++ be16 (s.quota n d) ++ be16 q ++
        be16 (s.charge n d)⟩)

/-- QUOTA (R193). -/
def execQuota (p : Port) (s : State) : Host.Outcome State Fault Refusal :=
  s.grant p (ofCode 0x10) fun r t => .ok (quotaRequest p r t)

/-! ### LINKCTL -/

/-- The role replaced, or kept (R152). -/
def State.applyRole (s : State) : Option Role → State
  | some x => { s with link := { s.link with role := x } }
  | none => s

/-- ENABLE: from OFF to ACQUIRE, a leader emitting its first mark (R152, R140). -/
def State.enable (s : State) : State :=
  if s.link.state = .off then
    let l := { s.link with state := .acquire, acquire := 0, missingEchoes := 0 }
    match l.role with
    | .follower => { s with link := l }
    | .leader => State.emitMark { s with link := { l with echoRecord := none, periodTimer := true } }
  else s

/-- The Link Controller in OFF: the timers stopped, the counters 0, no alignment; the period number
and the role stay (R138, R152, R154). -/
def LinkController.off (l : LinkController) : LinkController :=
  { LinkController.reset l.role with period := l.period }

/-- The link goes to OFF (R152). -/
def State.turnOff (s : State) : State :=
  { s.cutPeriod with link := s.link.off }

/-- DISABLE: the effects of leaving UP where the link is UP, then OFF (R150, R152). -/
def State.disable (s : State) : State :=
  match s.link.state with
  | .up => s.leaveUp.turnOff
  | .acquire => s.turnOff
  | .off => s

/-- The response to a LINKCTL: the link as the request left it (R152). -/
def State.linkReply (s : State) : Reply :=
  ⟨.done, [linkStateByte s.link.state, roleByte s.link.role] ++ be16 s.link.period.toNat⟩

/-- A LINKCTL with a given action, as the Table Controller carries it out (R152). -/
def linkctlRequest (p : Port) (action : Byte) (act : State → State) (r : Request) (s : State) :
    State × Reply :=
  if p ≠ 0 then refuse s .denied
  else match readLinkctl action r.body with
    | none => refuse s .badArg
    | some role =>
      if role.isSome = true ∧ s.link.state ≠ .off then refuse s .state
      else
        let t := act (s.applyRole role)
        (t, t.linkReply)

/-- The LINKCTL requests that the row of one action takes: all but the sound ones of the other action
(log 17). -/
def takesAction (other : Byte) (r : Request) : Bool :=
  r.code = 0x11 && !(decide (r.body.length = 2) && byteAt r.body 0 = other)

/-- LINKCTL_ENABLE (R152). -/
def execLinkctlEnable (p : Port) (s : State) : Host.Outcome State Fault Refusal :=
  s.grant p (takesAction 2) fun r t => .ok (linkctlRequest p 1 State.enable r t)

/-- LINKCTL_DISABLE (R152). -/
def execLinkctlDisable (p : Port) (s : State) : Host.Outcome State Fault Refusal :=
  s.grant p (takesAction 1) fun r t => .ok (linkctlRequest p 2 State.disable r t)

/-! ### PURGE -/

/-- The open records that a port owns, by ascending handle. -/
def State.ownedBy (s : State) (n : Port) : List Handle :=
  handles.filter fun h => (s.stream h).any fun st => st.owner = n

/-- The port's request queue emptied; when it purges itself, the PURGE's own entry stays (R196,
effect 1). -/
def PortInterface.purgeRequests (x : PortInterface) (self : Bool) : PortInterface :=
  { x with requestQueue := if self then x.requestQueue.take 1 else [] }

/-- The port's responses gone, the one in delivery cut short; the retained response and the last
accepted frame cleared (R196, effect 3; R171). -/
def PortInterface.purgeResponses (x : PortInterface) : PortInterface :=
  { x with
    responseQueue := []
    retained := none
    lastAccepted := none
    transaction := x.transaction.map fun t => { t with delivery := none } }

/-- PURGED set, also for a transaction in progress (R196, effect 5; R173). -/
def PortInterface.setPurged (x : PortInterface) : PortInterface :=
  { x with purged := true, transaction := x.transaction.map fun t => { t with purgedSince := true } }

/-- A record force-retired within a PURGE, but for its notices (R197). -/
def State.purgeRecord (s : State) (h : Handle) : State := (s.abortFlight h).vacate h

/-- The CLOSED notices of a PURGE queued, by the names retired (R196, effect 4). -/
def NoticeQueue.enqueueClosed (q : NoticeQueue) (now : Period) (names : List (Handle × Byte)) :
    NoticeQueue :=
  names.foldl (fun q n => q.enqueue (.closed n.1 n.2) now) q

/-- The five effects of an accepted PURGE of port n (R196). -/
def State.purge (s : State) (n : Port) (self : Bool) : State :=
  let owned := s.ownedBy n
  let names := owned.map fun h => (h, (s.record h).generation)
  let t := s.setPort n ((s.port n).purgeRequests self)
  let t := owned.foldl State.purgeRecord t
  let t := t.setPort n (t.port n).purgeResponses
  let t := t.setNotices n (NoticeQueue.enqueueClosed ⟨[], false⟩ t.link.period names)
  t.setPort n (t.port n).setPurged

/-- The last accepted sequence and CRC of a port that purged itself: the PURGE frame's (R187,
R198). -/
def State.keepAccepted (s : State) (p : Port) (self : Bool) (r : Request) : State :=
  if self then s.setPort p { s.port p with lastAccepted := some (r.sequence, r.crc) } else s

/-- PURGE as the Table Controller carries it out (R195 to R198). -/
def purgeRequest (p : Port) (r : Request) (s : State) : State × Reply :=
  match readPurge r.body with
  | none => refuse s .badArg
  | some n =>
    if p ≠ 0 ∧ n ≠ p then refuse s .denied
    else
      let t := s.purge n (n = p)
      let q := t.noticesOf n
      (t.keepAccepted p (n = p) r, ⟨.done, [byte n.val, byte (s.ownedBy n).length,
        byte q.entries.length, boolByte q.overflow]⟩)

/-- PURGE (R195 to R199). -/
def execPurge (p : Port) (s : State) : Host.Outcome State Fault Refusal :=
  s.grant p (ofCode 0x12) fun r t => .ok (purgeRequest p r t)

/-! ### RESET -/

/-- RESET (R201). For port 0 it is the start of the reset that an accepted RESET frame makes; the
port makes no entry (log 7). A RESET request of another port is granted and answered DENIED. While the
part is held it has no effect (R203). -/
def execReset (p : Port) (s : State) : Host.Outcome State Fault Refusal :=
  if p = 0 then (if s.held then .next s else .next s.startReset)
  else s.grant p (ofCode 0x13) fun _ t => .ok (refuse t .denied)

end Sys2Proof.Machine
end

