-- ==== Sys2Proof/Machine/Flags.lean ====
section
/-! DEFINITION. The flags that the part computes from its state: the status header of a port (R172)
and its attention line (R167). -/

namespace Sys2Proof.Machine

/-- Byte 0 of the status header: NOTICES, RESPONSE, OVERFLOW, PURGED, RESET_SEEN and DROPPED in bits
7 to 2 (R172, 11.2). -/
def State.headerFlags (s : State) (p : Port) : Byte :=
  let x := s.port p
  let q := s.noticesOf p
  byte (128 * (!q.entries.isEmpty).toNat + 64 * (!x.responseQueue.isEmpty).toNat +
    32 * q.overflow.toNat + 16 * x.purged.toNat + 8 * x.resetSeen.toNat + 4 * x.dropped.isSome.toNat)

/-- The status header of a port, as its condition stands (R172, 11.2). -/
def State.statusHeader (s : State) (p : Port) : List Byte :=
  [s.headerFlags p, byte (s.port p).responseQueue.length, (s.port p).dropped.getD 0,
    byte (s.noticesOf p).entries.length]

/-- ATTN_N of a port is asserted: its notice queue or its response queue is not empty (R167). A reset
empties both and so releases it (R169, R200). -/
def State.attention (s : State) (p : Port) : Bool :=
  !(s.noticesOf p).entries.isEmpty || !(s.port p).responseQueue.isEmpty

end Sys2Proof.Machine
end

