-- ==== Sys2Proof/Machine/Transactions.lean ====
section
/-! DEFINITION. The transactions of a host port (9.2 to 9.6): the start with its snapshot, the end
with delivery, PURGED and the frame, and what the port shifts out between them. -/

namespace Sys2Proof.Machine

/-! ### Bytes clocked -/

/-- The byte that a transaction shifts out at a position, as it stands: the header, the response
chosen, then fill bytes of 0, which also take the place of what a PURGE or a reset cuts off (R171, R189,
11.2). -/
def Transaction.upcoming (t : Transaction) (k : Nat) : Byte :=
  if t.cut then 0
  else byteAt (t.header ++ match t.delivery with
    | some d => d.response.bytes
    | none => []) k

/-- The byte at a position of the transaction's MISO: what has gone out, then what comes (R171). -/
def Transaction.shiftedOut (t : Transaction) (k : Nat) : Byte := t.shifted.getD k (t.upcoming k)

/-- The delivery record after so many whole bytes of the transaction, the first four of them the
header's: fill bytes after the response are none of its bytes (R170, R171). -/
def Delivery.after (d : Delivery) (bytes : Nat) : Delivery :=
  { d with clocked := min (bytes - 4) d.response.bytes.length }

/-- Whole bytes clocked: taken on MOSI, and as many shifted out on MISO (R171). -/
def Transaction.clock (t : Transaction) (mosi : List Byte) : Transaction :=
  let n := t.taken.length
  { t with
    taken := t.taken ++ mosi
    shifted := t.shifted ++ (List.range mosi.length).map fun k => t.upcoming (n + k)
    delivery := t.delivery.map fun d => d.after (n + mosi.length) }

/-! ### The start -/

/-- The delivery record of the response chosen, with nothing clocked yet (R171). -/
def PortInterface.chosen (x : PortInterface) : Option Delivery :=
  x.responseQueue.head?.map fun r => ⟨r, 0⟩

/-- The transaction that begins at a falling CS_N (R171). One that begins while the part is held
shifts fill bytes and takes no frame (R189, R200). -/
def State.newTransaction (s : State) (p : Port) : Transaction where
  header := s.statusHeader p
  showsPurged := (s.port p).purged
  purgedSince := false
  cut := s.held
  delivery := if s.held then none else (s.port p).chosen
  taken := []
  shifted := []

/-- TRANSACTION_START (R171), with the bytes clocked before the next command. No effect while a
transaction of the port is in progress (log 6). -/
def execTransactionStart (x : TransactionStart) (s : State) : Host.Outcome State Fault Refusal :=
  match (s.port x.port).transaction with
  | some _ => .next s
  | none =>
    .next (s.setPort x.port
      { s.port x.port with transaction := some ((s.newTransaction x.port).clock x.mosi) })

/-! ### The end -/

/-- The response chosen has been clocked out whole (R173, step 1). -/
def Delivery.whole (d : Delivery) : Bool := decide (d.response.bytes.length ≤ d.clocked)

/-- The delivery settled, and the transaction ended (R173, step 1). -/
def PortInterface.settleDelivery (x : PortInterface) (t : Transaction) : PortInterface :=
  { x with
    transaction := none
    responseQueue := if t.delivery.any Delivery.whole then x.responseQueue.tail
      else x.responseQueue }

/-- PURGED settled (R173, step 2). -/
def PortInterface.settlePurged (x : PortInterface) (t : Transaction) : PortInterface :=
  if t.showsPurged = true ∧ t.purgedSince = false ∧ 4 ≤ t.taken.length then
    { x with purged := false }
  else x

/-- There is room for one more entry (R181). -/
def PortInterface.admits (x : PortInterface) : Bool :=
  decide (x.outstanding < Config.outstandingLimit)

/-- A frame refused for want of room (R182). -/
def PortInterface.drop (x : PortInterface) (sequence : Byte) : PortInterface :=
  { x with dropped := some sequence }

/-- An entry at the end of the request queue. -/
def PortInterface.push (x : PortInterface) (e : Entry) : PortInterface :=
  { x with requestQueue := x.requestQueue ++ [e] }

/-- The accepted frame is a repeat of the last one (R183). -/
def PortInterface.repeats (x : PortInterface) (r : Request) : Bool :=
  x.lastAccepted = some (r.sequence, r.crc)

/-- The port's flags and last accepted frame after an acceptance (R180, steps 2 to 4). -/
def PortInterface.accept (x : PortInterface) (r : Request) : PortInterface :=
  { x with lastAccepted := some (r.sequence, r.crc), dropped := none, resetSeen := false }

/-- An unsound frame: a BAD_FRAME entry, or dropped (R179, R182). -/
def PortInterface.takeUnsound (x : PortInterface) (code sequence : Byte) : PortInterface :=
  if x.admits then x.push (.badFrame code sequence) else x.drop sequence

/-- The accepted frame starts a reset: RESET from port 0, not a repeat (R180, R201). -/
def resetsPart (p : Port) (r : Request) : Bool := p = 0 && r.code = 0x13

/-- A sound frame (R180 to R183, R201). -/
def State.takeFrame (s : State) (p : Port) (r : Request) : State :=
  let x := s.port p
  if x.admits = false then s.setPort p (x.drop r.sequence)
  else if x.repeats r then s.setPort p ((x.accept r).push (.repeatOf r.code r.sequence))
  else if resetsPart p r then s.startReset
  else s.setPort p ((x.accept r).push (.request r))

/-- The bytes taken on MOSI, judged as a frame (R173, step 3; R178 to R180). -/
def State.judgeFrame (s : State) (p : Port) (mosi : List Byte) : State :=
  match judge mosi with
  | .noRequest => s
  | .unsound code sequence => s.setPort p ((s.port p).takeUnsound code sequence)
  | .sound r => s.takeFrame p r

/-- TRANSACTION_END (R173): the rest of the bytes clocked, and the transaction settled. The end of a
transaction that a reset cut settles nothing (R189). No effect when no transaction of the port is in
progress (log 6). -/
def execTransactionEnd (p : Port) (mosi : List Byte) (s : State) :
    Host.Outcome State Fault Refusal :=
  let x := s.port p
  match x.transaction with
  | none => .next s
  | some u =>
    let t := u.clock mosi
    if t.cut then .next (s.setPort p { x with transaction := none })
    else .next ((s.setPort p ((x.settleDelivery t).settlePurged t)).judgeFrame p t.taken)

end Sys2Proof.Machine
end

