-- ==== Sys2Proof/Machine/Dispatch.lean ====
section
/-! DEFINITION. The dispatch of a command to its meaning, one arm per row of the table. -/

namespace Sys2Proof.Machine

def exec (i : Instr) (s : State) : Host.Outcome State Fault Refusal :=
  match i with
  | .transactionStart p => Sys2Proof.Machine.execTransactionStart p s
  | .transactionEnd p mosi => Sys2Proof.Machine.execTransactionEnd p mosi s
  | .badFrameEntry p => Sys2Proof.Machine.execBadFrameEntry p s
  | .repeatEntry p => Sys2Proof.Machine.execRepeatEntry p s
  | .unknownRequest p => Sys2Proof.Machine.execUnknownRequest p s
  | .openStream p => Sys2Proof.Machine.execOpenStream p s
  | .start p => Sys2Proof.Machine.execStart p s
  | .stop p => Sys2Proof.Machine.execStop p s
  | .close p => Sys2Proof.Machine.execClose p s
  | .amend p => Sys2Proof.Machine.execAmend p s
  | .withdraw p => Sys2Proof.Machine.execWithdraw p s
  | .findByTag p => Sys2Proof.Machine.execFindByTag p s
  | .findByChannel p => Sys2Proof.Machine.execFindByChannel p s
  | .read p => Sys2Proof.Machine.execRead p s
  | .put p => Sys2Proof.Machine.execPut p s
  | .get p => Sys2Proof.Machine.execGet p s
  | .handover p => Sys2Proof.Machine.execHandover p s
  | .loads p => Sys2Proof.Machine.execLoads p s
  | .extents p => Sys2Proof.Machine.execExtents p s
  | .poll p => Sys2Proof.Machine.execPoll p s
  | .status p => Sys2Proof.Machine.execStatus p s
  | .quota p => Sys2Proof.Machine.execQuota p s
  | .linkctlEnable p => Sys2Proof.Machine.execLinkctlEnable p s
  | .linkctlDisable p => Sys2Proof.Machine.execLinkctlDisable p s
  | .purge p => Sys2Proof.Machine.execPurge p s
  | .reset p => Sys2Proof.Machine.execReset p s
  | .resetNAssert => Sys2Proof.Machine.execResetNAssert s
  | .resetNRelease rolePin => Sys2Proof.Machine.execResetNRelease rolePin s
  | .resetHoldExpiry rolePin => Sys2Proof.Machine.execResetHoldExpiry rolePin s
  | .periodTimerExpiry => Sys2Proof.Machine.execPeriodTimerExpiry s
  | .markArrival cell => Sys2Proof.Machine.execMarkArrival cell s
  | .echoArrival cell => Sys2Proof.Machine.execEchoArrival cell s
  | .lossTimerExpiry => Sys2Proof.Machine.execLossTimerExpiry s
  | .alignmentLapse => Sys2Proof.Machine.execAlignmentLapse s
  | .trailerArrival number => Sys2Proof.Machine.execTrailerArrival number s
  | .leadCellArrival channel count => Sys2Proof.Machine.execLeadCellArrival channel count s
  | .payloadCellArrival data sound => Sys2Proof.Machine.execPayloadCellArrival data sound s
  | .idleCellArrival _ => Sys2Proof.Machine.execIdleCellArrival s
  | .badCheckCellArrival data => Sys2Proof.Machine.execBadCheckCellArrival data s
  | .markProcessing => Sys2Proof.Machine.execMarkProcessing s
  | .serviceStart => Sys2Proof.Machine.execServiceStart s
  | .txCompletion => Sys2Proof.Machine.execTxCompletion s
  | .matchClaim => Sys2Proof.Machine.execMatchClaim s
  | .rxCompletion => Sys2Proof.Machine.execRxCompletion s
  | .periodEnd => Sys2Proof.Machine.execPeriodEnd s
  | .leavingUp => Sys2Proof.Machine.execLeavingUp s
  | .enteringUp => Sys2Proof.Machine.execEnteringUp s
  | .slip => Sys2Proof.Machine.execSlip s

end Sys2Proof.Machine
end

