-- ==== Sys2Proof/Safety.lean ====
section
/-! DEFINITION. What a sound state of the LN3204 is: the laws that the manual states for the part's
structures, each a property of one state, and what one record keeps from OPEN to retirement. -/

namespace Sys2Proof.Machine

/-! ### Records (1.1, 1.2, 6.5) -/

/-- The miss policy is present on a TX record and absent on an RX record (R1). -/
def policyFits (d : Direction) (p : Params) : Prop := p.missPolicy.isSome = true ↔ d = .tx

/-- The pending amendment of a stream is well made: its parameters are in range, it holds the old
contribution, and it holds a pair, of the new granule count, exactly when that count differs (R3,
R27, R93). -/
def Stream.amendmentLaw (st : Stream) (a : Amendment) : Prop :=
  a.params.inRange = true ∧ policyFits st.direction a.params ∧ a.old = contribution st.params ∧
    (a.pair = none ↔ granulesFor a.params.cells = granulesFor st.params.cells) ∧
    ∀ p, a.pair = some p →
      p.1.length = granulesFor a.params.cells ∧ p.2.length = granulesFor a.params.cells

/-- The miss run of a stream keeps to its limit: it never rises above 15 nor above a limit that is not
0, and stays below it while the record is LIVE (R128). -/
def Stream.runLaw (st : Stream) : Prop :=
  st.missRun ≤ 15 ∧ (st.params.missLimit ≠ 0 → st.missRun ≤ st.params.missLimit) ∧
    (st.params.missLimit ≠ 0 → st.state = .live → st.missRun < st.params.missLimit)

/-- A record in CLOSING (R4). -/
def Stream.isClosing (st : Stream) : Bool :=
  match st.state with
  | .closing _ => true
  | .standby | .live | .suspended _ => false

/-- The law of an open record: its parameters in range, both its buffers of the granules its cells
need, its run within its limit, and its pending amendment well made and absent in CLOSING (R1, R3,
R54, R88, R128). -/
def Stream.recordLaw (st : Stream) : Prop :=
  st.params.inRange = true ∧ policyFits st.direction st.params ∧ st.runLaw ∧
    st.bufferA.extent.length = granulesFor st.params.cells ∧
    st.bufferB.extent.length = granulesFor st.params.cells ∧
    (∀ a, st.pending = some a → st.amendmentLaw a ∧ st.isClosing = false)

/-- Every open record keeps the law of an open record. -/
def State.recordsLaw (s : State) : Prop := ∀ h st, s.stream h = some st → st.recordLaw

/-- What a record keeps from OPEN to retirement (R1, the note under its first table). -/
def Stream.sameIdentity (x y : Stream) : Prop :=
  x.owner = y.owner ∧ x.tag = y.tag ∧ x.direction = y.direction ∧ x.channel = y.channel ∧
    x.linkPolicy = y.linkPolicy ∧ x.notify = y.notify

/-! ### Maps (1.4, 1.5) -/

/-- The tag map holds one entry for each open record whose tag is not 0, and no two with one key
(R8). -/
def State.tagMapLaw (s : State) : Prop :=
  s.table.tagMap.Pairwise (fun x y => ¬(x.port = y.port ∧ x.tag = y.tag)) ∧
    ∀ e, e ∈ s.table.tagMap ↔
      ∃ st, s.stream e.handle = some st ∧ st.owner = e.port ∧ st.tag = e.tag ∧ e.tag ≠ 0

/-- The channel map holds one entry for each open record, and no two with one key (R10). -/
def State.channelMapLaw (s : State) : Prop :=
  s.table.channelMap.Pairwise (fun x y => ¬(x.direction = y.direction ∧ x.channel = y.channel)) ∧
    ∀ e, e ∈ s.table.channelMap ↔
      ∃ st, s.stream e.handle = some st ∧ st.direction = e.direction ∧ st.channel = e.channel

/-! ### Loads and charges (2.1, 2.2) -/

/-- The cells that a handle's record charges at a residue in one direction (R27); a VACANT record
charges none. -/
def State.chargeAt (s : State) (d : Direction) (r : Fin 32) (h : Handle) : Nat :=
  match s.stream h with
  | some st => if st.direction = d then st.charge.get r else 0
  | none => 0

/-- The load units that a handle's record charges to a port in one direction (R30). -/
def State.unitsOf (s : State) (p : Port) (d : Direction) (h : Handle) : Nat :=
  match s.stream h with
  | some st => if st.owner = p ∧ st.direction = d then units st.charge else 0
  | none => 0

/-- The load tables and the port charges are the sums of the records' charges, no entry is above 576,
and every pending amendment holds the old contribution (R25, R27, R28, R30). -/
def State.loadLaw (s : State) : Prop :=
  (∀ d r, (s.table.loads.get d).get r = (handles.map (s.chargeAt d r)).sum) ∧
    (∀ p d, s.charge p d = (handles.map (s.unitsOf p d)).sum) ∧
    (∀ d r, (s.table.loads.get d).get r ≤ Config.periodCells) ∧
    ∀ h st a, s.stream h = some st → st.pending = some a → a.old = contribution st.params

/-! ### Extents (3.2, 3.3) -/

/-- A granule lies in an extent (R46). -/
def Extent.covers (e : Extent) (g : Nat) : Bool :=
  decide (e.base ≤ g) && decide (g < e.base + e.length)

/-- An extent of at least one granule of Stream Memory (R2). -/
def Extent.sound (e : Extent) : Prop := 1 ≤ e.length ∧ e.base + e.length ≤ Config.granules

/-- The form of the free extent list: by ascending base, no two entries overlapping or touching
(R48). -/
def freeForm (free : List Extent) : Prop :=
  free.Pairwise (fun d e => d.base + d.length < e.base) ∧ ∀ e ∈ free, e.sound

/-- The extents that a stream holds: two, or four with a pending new pair (R49). -/
def Stream.extents (st : Stream) : List Extent :=
  [st.bufferA.extent, st.bufferB.extent] ++
    match st.pending.bind Amendment.pair with
    | some p => [p.1, p.2]
    | none => []

/-- The extents held by all open records (R49). -/
def State.heldExtents (s : State) : List Extent :=
  handles.flatMap fun h => match s.stream h with
    | some st => st.extents
    | none => []

/-- The extent law: the free list has its form, and every granule is free or held, exactly once
(R48, R49). -/
def State.extentLaw (s : State) : Prop :=
  freeForm s.free ∧ (∀ e ∈ s.heldExtents, e.sound) ∧
    ∀ g < Config.granules, (s.free ++ s.heldExtents).countP (fun e => e.covers g) = 1

/-! ### Notices (8.1) -/

/-- The law of a notice queue: at most 32 entries, no two of one kind for one handle and no two LINK
entries, and every count from 1 to 255 (R155, R156). -/
def NoticeQueue.law (q : NoticeQueue) : Prop :=
  q.entries.length ≤ Config.noticeCapacity ∧
    q.entries.Pairwise (fun m n => m.report.matches n.report = false) ∧
    ∀ n ∈ q.entries, 1 ≤ n.count ∧ n.count ≤ 255

/-- Every port's notice queue keeps its law. -/
def State.noticeLaw (s : State) : Prop := ∀ p, (s.noticesOf p).law

/-! ### Ports (9.5) -/

/-- Queued requests plus unread responses never exceed 4 on any port (R181). -/
def State.flowLaw (s : State) : Prop := ∀ p, (s.port p).outstanding ≤ Config.outstandingLimit

/-! ### The link (7.1, 7.8) -/

/-- In OFF the timers are stopped, the counters 0, no alignment is held and nothing is to be sent
(R138, R152, R154). -/
def State.offLaw (s : State) : Prop :=
  s.link.state = .off →
    s.link.periodTimer = false ∧ s.link.lossTimer = false ∧ s.link.acquire = 0 ∧
      s.link.missingEchoes = 0 ∧ s.link.echoRecord = none ∧ s.link.aligned = false ∧
      s.lane.staged = none ∧ s.lane.queue = [] ∧ s.lane.opened = none

/-- While the link is not UP there is no list, no standing and no service in flight (R113, R114,
R134). -/
def State.idleLaw (s : State) : Prop :=
  s.link.state ≠ .up →
    s.psu.txList = [] ∧ s.psu.rxList = [] ∧ (∀ h, (s.psu.rxTable.get h).standing = .none) ∧
      s.psu.txFlight = none ∧ s.psu.rxFlight = none

/-- The law of the link: a leader's loss timer and a follower's period timer are stopped, the acquire
counter is at most 2 and is 0 in UP, and OFF and the link not UP are as their laws say (R136,
R145). -/
def State.linkLaw (s : State) : Prop :=
  (s.link.role = .leader → s.link.lossTimer = false) ∧
    (s.link.role = .follower → s.link.periodTimer = false) ∧
    s.link.acquire ≤ 2 ∧ (s.link.state = .up → s.link.acquire = 0) ∧ s.offLaw ∧ s.idleLaw

/-! ### Services in flight (3.3, 6.1) -/

/-- A service in flight names a buffer of a record under its generation (R110). -/
def State.inFlight (s : State) (h : Handle) (n : BufferName) : Prop :=
  (∃ f, s.psu.txFlight = some f ∧ f.handle = h ∧ f.generation = (s.record h).generation ∧
    f.buffer = n) ∨
  ∃ f, s.psu.rxFlight = some f ∧ f.handle = h ∧ f.generation = (s.record h).generation ∧
    f.buffer = n

/-- The law of the buffers: every fill is at most the record's cells, and a buffer in SERVICE is the due
buffer, so that a record has one at most, and a service in flight names it (R2, R55). -/
def State.bufferLaw (s : State) : Prop :=
  ∀ h st, s.stream h = some st → ∀ n, (st.buffer n).fill ≤ st.params.cells ∧
    ((st.buffer n).owner = .service → n = st.parity ∧ s.inFlight h n)

/-- The law of the services in flight: each is of a buffer in SERVICE of an open record, the two of
different records; a burst received has stored no more cells than have arrived and than the record's
cells, and once it has ended its completion claim waits (R110, R124). -/
def State.flightLaw (s : State) : Prop :=
  (∀ f, s.psu.txFlight = some f → ∃ st, s.stream f.handle = some st ∧
    (s.record f.handle).generation = f.generation ∧ (st.buffer f.buffer).owner = .service) ∧
  (∀ f g, s.psu.txFlight = some f → s.psu.rxFlight = some g → f.handle ≠ g.handle) ∧
  ∀ f, s.psu.rxFlight = some f →
    (f.ended = true → .rxCompletion ∈ s.claims) ∧ ∃ st, s.stream f.handle = some st ∧
      (s.record f.handle).generation = f.generation ∧ (st.buffer f.buffer).owner = .service ∧
      f.stored ≤ f.arrived ∧ f.stored ≤ st.params.cells ∧
      (s.psu.rxTable.get f.handle).form.cells ≤ st.params.cells

/-- Claims in an order in which the part makes them, with a service in flight in either direction or
not: no claim starts a service, or takes a mark, before the service in flight is completed or
aborted, and such a claim is the last made (R17, R111, R139). -/
def Claim.ordered : Bool → Bool → List Claim → Prop
  | _, _, [] => True
  | _, rx, .txCompletion :: l => Claim.ordered false rx l
  | tx, _, .rxCompletion :: l => Claim.ordered tx false l
  | _, _, .leavingUp :: l => Claim.ordered false false l
  | tx, _, .serviceStart :: l => tx = false ∧ l = []
  | _, rx, .matchLead _ _ :: l => rx = false ∧ l = []
  | tx, rx, .markProcessing _ :: l => tx = false ∧ rx = false ∧ l = []
  | tx, rx, .periodEnd :: l | tx, rx, .enteringUp :: l | tx, rx, .slip :: l => Claim.ordered tx rx l

/-- The law of service: of the buffers, of the services in flight, and of the claims that wait. -/
def State.serviceLaw (s : State) : Prop :=
  s.bufferLaw ∧ s.flightLaw ∧
    Claim.ordered s.psu.txFlight.isSome s.psu.rxFlight.isSome s.claims

/-! ### Reset (10.4) -/

/-- While the part is held in reset every block keeps its reset values, and every transaction in
progress is cut (R189, R200). -/
def State.heldLaw (s : State) : Prop := s.held = true → s.resetBlocks = s

/-! ### Requests taken (1.8) -/

/-- A request is granted to a port: the part is not held, and once the waiting claims are taken it is
the port's turn and the request is the head of its queue (R16). -/
def State.Grants (s : State) (p : Port) (r : Request) (rest : List Entry) : Prop :=
  s.held = false ∧ s.settle.nextPort = some p ∧ (s.settle.port p).requestQueue = .request r :: rest

/-- The first two bytes of a body name an open record and its generation (R6). -/
def State.Names (s : State) (x : List Byte) (h : Handle) (st : Stream) : Prop :=
  (byteAt x 0).toNat = h.val ∧ (s.record h).generation = byteAt x 1 ∧ s.stream h = some st

/-- A body spells a parameter set in the layout of OPEN and AMEND, for a record of one direction: the
miss policy byte is not examined on RX (R67, R90, 11.4). -/
def Params.speltIn (v : Params) (d : Direction) (x : List Byte) : Prop :=
  (byteAt x 2).toNat = v.cells ∧ (byteAt x 3).toNat = v.interval ∧ (byteAt x 4).toNat = v.phase ∧
    (byteAt x 5).toNat = v.serviceClass ∧ (byteAt x 7).toNat = v.missLimit ∧
    (byteAt x 8).toNat = v.lead ∧ v.inRange = true ∧
    match d with
    | .tx => ∃ m, v.missPolicy = some m ∧ byteAt x 6 = missPolicyByte m
    | .rx => v.missPolicy = none

/-- A body spells the arguments of an OPEN (R67, 11.4). -/
def OpenArgs.speltIn (a : OpenArgs) (x : List Byte) : Prop :=
  x.length = 15 ∧ byteAt x 0 = directionByte a.direction ∧ byteAt x 1 = a.channel ∧
    a.params.speltIn a.direction x ∧ byteAt x 9 = linkPolicyByte a.linkPolicy ∧
    byteAt x 10 = notifySetByte a.notify ∧ x.drop 11 = be32 a.tag

/-- A body spells the effective point of an AMEND (R90, 11.4): E is not examined for NEXT. -/
def EffectivePoint.speltIn (x : List Byte) : EffectivePoint → Prop
  | .next => byteAt x 9 = 0
  | .period e => byteAt x 9 = 1 ∧ numberAt x 10 = e.toNat

/-- The state in which a request has been answered: the arbiter pointer past its port, its entry gone
from the request queue, and its response placed and retained (R16, R170, R184). -/
def State.responded (s : State) (p : Port) (r : Request) (rest : List Entry) (x : Status)
    (body : List Byte) : State :=
  State.setPort { s with table := { s.table with arbiter := p + 1 } } p
    { s.port p with
      requestQueue := rest
      responseQueue := (s.port p).responseQueue ++ [⟨r.code, r.sequence, x, body⟩]
      retained := some ⟨r.code, r.sequence, x, body⟩ }

/-- The port of a row that takes a request entry. RESET of port 0 takes none (R201). -/
def requestRow : Instr → Option Port
  | .openStream p | .start p | .stop p | .close p | .amend p | .withdraw p | .findByTag p
  | .findByChannel p | .read p | .put p | .get p | .handover p | .loads p | .extents p | .poll p
  | .status p | .quota p | .linkctlEnable p | .linkctlDisable p | .purge p | .unknownRequest p =>
    some p
  | .reset p => if p = 0 then none else some p
  | .transactionStart _ | .transactionEnd _ _ | .badFrameEntry _ | .repeatEntry _ | .resetNAssert
  | .resetNRelease _ | .resetHoldExpiry _ | .periodTimerExpiry | .markArrival _ | .echoArrival _
  | .lossTimerExpiry | .alignmentLapse | .trailerArrival _ | .leadCellArrival _ _
  | .payloadCellArrival _ _ | .idleCellArrival _ | .badCheckCellArrival _ | .markProcessing
  | .serviceStart | .txCompletion | .matchClaim | .rxCompletion | .periodEnd | .leavingUp
  | .enteringUp | .slip => none

/-- A status that accepts its request (spec 00, Status codes). -/
def Status.accepts (x : Status) : Bool := x = .ok || x = .done || x = .pending

/-- The pair that an amendment of the cells asks for is granted: none where the granule count stays,
else a new pair, taken from the free list and zeroed (R47, R51, R93). -/
def State.GrantsPair (s t : State) (old new : Nat) (g : Option (Extent × Extent)) : Prop :=
  (granulesFor new = granulesFor old ∧ g = none ∧ t = s) ∨
    (granulesFor new ≠ granulesFor old ∧ ∃ a c free,
      allocatePair (granulesFor new) s.free = some ((a, c), free) ∧ a.inMemory = true ∧
      c.inMemory = true ∧ g = some (a, c) ∧
      t = { s with
        free := free
        memory := Memory.zero (Memory.zero s.memory a.address a.bytes) c.address c.bytes })

/-- The extents of a stream in the order in which its retirement releases them: a pending new pair, then
buffer A and buffer B (R20, R197). -/
def Stream.purgeOrder (st : Stream) : List Extent :=
  ((st.pending.bind Amendment.pair).elim [] fun g => [g.1, g.2]) ++
    [st.bufferA.extent, st.bufferB.extent]

/-! ### Bursts received (6.4) -/

/-- The claim that the cutting short of a burst in flight makes (R124). -/
def State.cutClaims (s : State) : List Claim :=
  match s.psu.rxFlight with
  | some f => if f.ended then [] else [.rxCompletion]
  | none => []

/-- The state with a burst in flight ended cut short: its damaged indication set and its completion
claim made (R124). -/
def State.burstCut (s : State) : State :=
  { s with
    psu := { s.psu with rxFlight := s.psu.rxFlight.map fun f =>
      if f.ended then f else { f with damaged := true, ended := true } }
    claims := s.claims ++ s.cutClaims }

/-- The record after a miss: its run raised, and SUSPENDED when it is LIVE and the run meets a limit
that is not 0 (R128). -/
def Stream.missed (st : Stream) : Stream :=
  { st with
    missRun := st.nextRun
    state := if st.state = .live ∧ st.params.missLimit ≠ 0 ∧ st.nextRun = st.params.missLimit then
      .suspended .misses else st.state }

end Sys2Proof.Machine
end

