-- ==== Sys2Proof/Certificates/Slice0/Obligations.lean ====
section
/-! DEFINITION. The statements for the provers. A request granted meets the state with the waiting
claims taken (`State.settle`), since claims come before requests by R16; a cell or a timer meets it
also with a follower's entry into UP made (`State.catchUp`; log 3). -/

open Sys2Proof Sys2Proof.Machine

/-! ### The queue of commands and the cell times -/

/-- O1. A step runs the command at the front of the queue on the state with the queue's rest, and
no command touches the queue. -/
def Obligations.StepRunsFrontCommand : Prop :=
  (∀ (c : Instr) (rest : List Instr) (s : State), s.pending = c :: rest →
    step s = exec c { s with pending := rest }) ∧
  ∀ (c : Instr) (s t : State), exec c s = .next t → t.pending = s.pending

/-- O2. On an empty queue a step is one cell time of the transmit lane: a model's choice (log 2).
While the part is held or the link is OFF the lane carries an idle cell. Else the claims made before
are taken first, the staged cell goes out, or an idle cell where none is staged, and the cell for the
next cell time is staged: the next one of the slot, a payload cell with the 16 bytes of Stream Memory
it names; after the last slot the trailer. With the last payload cell of a burst staged its completion
claim is made, at the latest with the last cell of its slot, and with the last cell of a slot the next
entry's service-start claim (R119, R139; log 5). -/
def Obligations.EmptyQueueIsOneCellTime : Prop :=
  ∀ s : State, s.pending = [] →
    (s.held = true ∨ s.link.state = .off →
      step s = .next { s with lane := { s.lane with sending := .idle } }) ∧
    (s.held = false → s.link.state ≠ .off →
      step s = step s.catchUp ∧
      (s.claims = [] → s.entryDue = false →
        let sending := s.lane.staged.getD .idle
        (∀ c rest w, s.lane.queue = c :: rest → c.onWire s.memory = .ok w →
          let payload := ∃ a, c = .payload a
          let ends := ∃ f, s.psu.txFlight = some f ∧ ((payload ∧ f.toSend ≤ 1) ∨ rest = [])
          let next := rest = [] ∧ ∃ e, s.psu.txList[s.psu.txNext]? = some e
          ∃ t, step s = .next t ∧
            t = { s with lane := ⟨sending, some w, rest, s.lane.opened⟩, psu := t.psu, claims := t.claims } ∧
            t.psu = { s.psu with txFlight := t.psu.txFlight } ∧
            (payload → t.psu.txFlight = s.psu.txFlight.map fun f => { f with toSend := f.toSend - 1 }) ∧
            (¬payload → t.psu.txFlight = s.psu.txFlight) ∧
            (ends → next → t.claims = [.txCompletion, .serviceStart]) ∧
            (ends → ¬next → t.claims = [.txCompletion]) ∧
            (¬ends → next → t.claims = [.serviceStart]) ∧ (¬ends → ¬next → t.claims = [])) ∧
        (∀ a rest, s.lane.queue = .payload a :: rest → a + 16 ≤ 32768 →
          ∃ (d : Payload) (t : State), (∀ i, d.get i = Memory.read s.memory (a + i.val)) ∧
            step s = .next t ∧ t.lane = ⟨sending, some (.payload d), rest, s.lane.opened⟩) ∧
        (s.lane.queue = [] → s.lane.opened = none →
          step s = .next { s with lane := ⟨sending, none, [], none⟩ }) ∧
        (∀ n, s.lane.queue = [] → s.lane.opened = some n →
          step s = .next { s with lane := ⟨sending, some (.trailer n), [], none⟩ })))

/-! ### Frames and cells -/

/-- O3. The CRC check value of R177, and cells written out byte by byte from 11.8, read back. -/
def Obligations.WorkedWords : Prop :=
  crc16 [0x31, 0x32, 0x33, 0x34, 0x35, 0x36, 0x37, 0x38, 0x39] = 10673 ∧
    arrivalOf 700 [1, 0x03, 0xE8, 0, 0, 0, 0, 0, 0, 0, 0, 0, 0, 0, 0, 0, 0, 0, 0, 0, 0, 0,
      0x20, 0xDE] =
      .markArrival ⟨1000, 0, 0, 700⟩ ∧
    arrivalOf 3 [1, 0x03, 0xE8, 1, 1, 0, 0, 0, 0, 0, 0, 0, 0, 0, 0, 0, 0, 0, 0, 0, 0, 0,
      0x0E, 0xF0] =
      .echoArrival ⟨1000, 1, 1, 3⟩ ∧
    arrivalOf 0 [2, 10, 8, 0, 0, 0, 0, 0, 0, 0, 0, 0, 0, 0, 0, 0, 0, 0, 0, 0, 0, 0, 0x8D, 0x06] =
      .leadCellArrival 10 8 ∧
    arrivalOf 0 [4, 0x0F, 0xFF, 0, 0, 0, 0, 0, 0, 0, 0, 0, 0, 0, 0, 0, 0, 0, 0, 0, 0, 0,
      0xA1, 0xC0] =
      .trailerArrival 4095 ∧
    judge [0x02, 5, 0, 2, 9, 7, 0x02, 0x18, 0, 0] = .sound ⟨0x02, 5, [9, 7], 0x0218⟩

/-- O4. A frame sent as 11.2 lays it out is judged sound, with its code, sequence, body and CRC,
whatever bytes follow it, for every code but IDLE and every body of at most 2060 bytes. Fewer than
4 bytes, or the code IDLE, are no request; a body length above 2060, a frame cut short and a CRC
that is not the one computed are unsound (R176 to R180). -/
def Obligations.FramesJudgedAsSent : Prop :=
  (∀ (code sequence : Byte) (body after : List Byte), code ≠ 0 → body.length ≤ 2060 →
    judge (requestFrame code sequence body ++ after) = .sound ⟨code, sequence, body,
      crc16 (code :: sequence :: (be16 body.length ++ body))⟩) ∧
  (∀ mosi : List Byte, mosi.length < 4 ∨ byteAt mosi 0 = 0 → judge mosi = .noRequest) ∧
  (∀ (code sequence hi lo : Byte) (tail : List Byte), code ≠ 0 →
    2060 < join16 hi lo ∨ tail.length < join16 hi lo + 2 →
    judge (code :: sequence :: hi :: lo :: tail) = .unsound code sequence) ∧
  ∀ (code sequence hi lo : Byte) (body after : List Byte), code ≠ 0 → body.length ≤ 2060 →
    join16 hi lo ≠ (crc16 (code :: sequence :: (be16 body.length ++ body))).toNat →
    judge (code :: sequence :: (be16 body.length ++ body ++ [hi, lo] ++ after)) =
      .unsound code sequence

/-- O5. Every cell that a transmitter sends is read as the arrival it is, with every field it
carries. -/
def Obligations.CellsReadAsSent : Prop :=
  ∀ (elapsed : Nat),
    (∀ n r, arrivalOf elapsed (WireCell.mark n r false).bytes =
      .markArrival ⟨n.setWidth 16, roleByte r, 0, elapsed⟩) ∧
    (∀ n r, arrivalOf elapsed (WireCell.mark n r true).bytes =
      .echoArrival ⟨n.setWidth 16, roleByte r, 1, elapsed⟩) ∧
    (∀ (ch : Byte) (count : Nat), count ≤ 128 →
      arrivalOf elapsed (WireCell.lead ch count).bytes = .leadCellArrival ch (byte count)) ∧
    (∀ d, arrivalOf elapsed (WireCell.payload d).bytes = .payloadCellArrival d true) ∧
    (∀ n, arrivalOf elapsed (WireCell.trailer n).bytes = .trailerArrival (n.setWidth 16)) ∧
    arrivalOf elapsed WireCell.idle.bytes = .idleCellArrival 0

/-! ### Stream Memory and the Extent Allocator -/

/-- O6. A byte read after a run of bytes is written, and after a run is zeroed: the bytes stored, or 0,
and every other byte as before (R46, R47). -/
def Obligations.BytesReadAsWritten : Prop :=
  ∀ (m : List Host.Cell) (a x : Nat), Memory.wf m →
    (∀ vs : List Byte, Memory.read (Memory.writeBytes m a vs) x =
      if a ≤ x ∧ x < a + vs.length then vs.getD (x - a) 0 else Memory.read m x) ∧
    ∀ n : Nat, Memory.read (Memory.zero m a n) x =
      if a ≤ x ∧ x < a + n then 0 else Memory.read m x

/-- O7. Every step keeps Stream Memory in its canonical form. -/
def Obligations.StepKeepsMemoryForm : Prop :=
  ∀ s t : State, Memory.wf s.memory → step s = .next t → Memory.wf t.memory

/-- O8. A single allocation takes the first entry that is long enough, from its low end (R50). -/
def Obligations.FirstFitAllocation : Prop :=
  ∀ (n : Nat) (free : List Extent), 1 ≤ n → n ≤ 32 →
    (∀ low e high, free = low ++ e :: high → (∀ x ∈ low, x.length < n) → n ≤ e.length →
      allocate n free = some (e.base,
        low ++ (if e.length = n then [] else [⟨e.base + n, e.length - n⟩]) ++ high)) ∧
    ((∀ x ∈ free, x.length < n) → allocate n free = none)

/-- O9. A pair is granted exactly when the free list holds an entry of twice the length or two
entries of the length, and buffer A then lies below buffer B (R51). A released extent is merged
with each free neighbour it touches, by the four cases of R52's table, and the list that two
releases give does not depend on their order. -/
def Obligations.PairsAndReleases : Prop :=
  (∀ (n : Nat) (free : List Extent), 1 ≤ n → freeForm free →
    ((allocatePair n free).isSome = true ↔
      (∃ e ∈ free, 2 * n ≤ e.length) ∨
        ∃ d e, [d, e].Sublist free ∧ n ≤ d.length ∧ n ≤ e.length) ∧
    ∀ x y rest, allocatePair n free = some ((x, y), rest) →
      x.length = n ∧ y.length = n ∧ x.base + n ≤ y.base) ∧
  (∀ (b n : Nat) (low high : List Extent) (left right : Option Nat),
    1 ≤ n →
    -- `left`: where a free entry that ends at b begins; `right`: the length of one from b + n
    (∀ a, left = some a → a < b) → (∀ m, right = some m → 1 ≤ m) →
    let l := left.elim [] fun a => [⟨a, b - a⟩]
    let r := right.elim [] fun m => [⟨b + n, m⟩]
    (∀ x ∈ low, x.base + x.length < left.getD b) →
    (∀ x ∈ high, b + n + right.getD 0 < x.base) →
    release ⟨b, n⟩ (low ++ l ++ r ++ high) =
      low ++ [⟨left.getD b, b - left.getD b + n + right.getD 0⟩] ++ high) ∧
  (∀ (x y : Extent) (free : List Extent), freeForm free → x.sound → y.sound →
    (∀ g, ([x, y] ++ free).countP (fun e => e.covers g) ≤ 1) →
    release x (release y free) = release y (release x free))

/-! ### Loads -/

/-- O10. The admission test: the quota part on the resulting port charge, then the load part on the
resulting entry at every residue (R33, R34), with the values that its refusals carry. And what it is
made on: the contribution of a parameter set, its cells at each residue that is its phase modulo its
interval and 0 at the rest, and for one in range its cells × 32 / interval load units (R26). -/
def Obligations.AdmissionTest : Prop :=
  (∀ v : Params,
    (∀ r, (contribution v).get r = if r.val % v.interval = v.phase then v.cells else 0) ∧
    (v.inRange = true → units (contribution v) = v.cells * 32 / v.interval)) ∧
  ∀ (s : State) (p : Port) (d : Direction) (present proposed : Residues),
    let charge := s.charge p d - units present + units proposed
    let entry := fun r => (s.table.loads.get d).get r - present.get r + proposed.get r
    (charge > s.quota p d → charge > s.charge p d →
      s.admission p d present proposed = some ⟨.noQuota,
        directionByte d :: (be16 (s.quota p d) ++ be16 (s.charge p d) ++ be16 charge)⟩) ∧
    (charge ≤ s.quota p d ∨ charge ≤ s.charge p d →
      (∀ r, 576 < entry r → (∀ k, k < r → entry k ≤ 576) →
        s.admission p d present proposed = some ⟨.noLoad,
          directionByte d :: byte r.val :: be16 ((s.table.loads.get d).get r)⟩) ∧
      ((∀ r, entry r ≤ 576) → s.admission p d present proposed = none))

/-- O11. Every step keeps the load tables and the port charges equal to the sums of the records'
charges, and every load table entry at most 576 (R25, R27, R28, R30). -/
def Obligations.StepKeepsLoads : Prop :=
  ∀ s t : State, s.loadLaw → step s = .next t → t.loadLaw

/-- O12. Every step keeps the free list ordered and merged, and every granule free or held, exactly
once (R48, R49). -/
def Obligations.StepKeepsExtents : Prop :=
  ∀ s t : State, s.extentLaw → step s = .next t → t.extentLaw

/-- O13. Every step keeps the two maps: one entry for each open record (with a tag), and no two
with one key (R8, R10). -/
def Obligations.StepKeepsMaps : Prop :=
  ∀ s t : State, s.tagMapLaw ∧ s.channelMapLaw → step s = .next t → t.tagMapLaw ∧ t.channelMapLaw

/-- O14. Every step keeps every notice queue within 32 entries, no two of one kind for one handle,
and every count from 1 to 255; and queued requests plus unread responses never exceed 4 on any port
(R155, R156, R181). -/
def Obligations.StepKeepsQueueLimits : Prop :=
  ∀ s t : State, step s = .next t →
    (s.noticeLaw → t.noticeLaw) ∧ (s.flowLaw → t.flowLaw)

/-- O15. Every step keeps every open record's parameters in range, its buffers of the granules its
cells need, its miss run within its limit, and its pending amendment well made and absent in
CLOSING (R1, R3, R54, R88, R128). And every step keeps every fill within the record's cells, at most
one buffer of a record in SERVICE, and that one named by a service in flight, with what the services
in flight and the order of the waiting claims need for it (R2, R55, R110, R124, R17); the premise on the
link not UP is one that `StepKeepsLink` keeps. -/
def Obligations.StepKeepsRecords : Prop :=
  ∀ s t : State, step s = .next t →
    (s.recordsLaw → t.recordsLaw) ∧ (s.idleLaw → s.serviceLaw → t.idleLaw ∧ t.serviceLaw)

/-- O16. Every step keeps the law of the link: the timers by role, the acquire counter, OFF with
nothing running, and no list, standing or service while the link is not UP (R134, R136, R145,
R152). The premise on the part held in reset is one that `StepKeepsReset` keeps. -/
def Obligations.StepKeepsLink : Prop :=
  ∀ s t : State, s.linkLaw → s.heldLaw → step s = .next t → t.linkLaw

/-- O17. While the part is held in reset, no step moves any block from its reset values (R200,
R203). -/
def Obligations.StepKeepsReset : Prop :=
  ∀ s t : State, s.heldLaw → step s = .next t → t.heldLaw

/-- O18. A record keeps its owner port, tag, direction, channel, link policy and notify set for as
long as it is open, whatever the step (R1). A generation that stays says that the record was not
retired meanwhile (R5). -/
def Obligations.RecordsKeepIdentity : Prop :=
  ∀ (s t : State) (h : Handle) (x y : Stream), step s = .next t → s.stream h = some x →
    t.stream h = some y → (t.record h).generation = (s.record h).generation → x.sameIdentity y

/-- O19. The state after reset meets every law. -/
def Obligations.ResetMeetsEveryLaw : Prop :=
  Memory.wf State.reset.memory ∧ State.reset.loadLaw ∧ State.reset.extentLaw ∧
    State.reset.tagMapLaw ∧ State.reset.channelMapLaw ∧ State.reset.noticeLaw ∧
    State.reset.flowLaw ∧ State.reset.recordsLaw ∧ State.reset.serviceLaw ∧ State.reset.linkLaw ∧
    State.reset.heldLaw

/-- O20. What a reset leaves, at every block, from any state (R24, R45, R66, R135, R154, R169,
R189): the role is left to the sampling of ROLE, and a transaction in progress goes on, cut, with what
it has shifted out so far and then fill bytes. -/
def Obligations.ResetValues : Prop :=
  ∀ s : State,
    let t := s.resetBlocks
    (∀ h, t.record h = ⟨0, none⟩) ∧ t.table.tagMap = [] ∧ t.table.channelMap = [] ∧
    t.table.arbiter = 0 ∧ (∀ d r, (t.table.loads.get d).get r = 0) ∧
    (∀ p d, t.charge p d = 0 ∧ t.quota p d = 18432) ∧ t.free = [⟨0, 512⟩] ∧
    (∀ a, Memory.read t.memory a = 0) ∧ t.psu.txList = [] ∧ t.psu.rxList = [] ∧
    (∀ h, (t.psu.rxTable.get h).standing = .none) ∧ t.psu.txFlight = none ∧
    t.psu.rxFlight = none ∧ t.claims = [] ∧ t.link.state = .off ∧ t.link.period = 0 ∧
    t.link.periodTimer = false ∧ t.link.lossTimer = false ∧ t.link.acquire = 0 ∧
    t.link.echoRecord = none ∧ t.link.missingEchoes = 0 ∧ t.lane.sending = .idle ∧
    t.lane.staged = none ∧ t.lane.queue = [] ∧ t.lane.opened = none ∧
    (∀ p, t.noticesOf p = ⟨[], false⟩ ∧ t.attention p = false ∧
      (t.port p).requestQueue = [] ∧ (t.port p).responseQueue = [] ∧
      (t.port p).retained = none ∧ (t.port p).lastAccepted = none ∧ (t.port p).dropped = none ∧
      (t.port p).purged = false ∧ (t.port p).resetSeen = true ∧
      (∀ x, (t.port p).transaction = some x → x.cut = true ∧ x.delivery = none ∧
        ∃ y, (s.port p).transaction = some y ∧ x.taken = y.taken ∧ x.shifted = y.shifted ∧
          ∀ k, x.shiftedOut k = if k < y.shifted.length then y.shiftedOut k else 0) ∧
      ∀ y, (s.port p).transaction = some y → ∃ x, (t.port p).transaction = some x)

/-! ### Notices, retirement and misses -/

/-- O21. A notice queued: a matching entry is updated in place with its count raised, and held at
255; else it is appended while there are fewer than 32 entries; else OVERFLOW is set (R159 to
R162). -/
def Obligations.NoticeQueued : Prop :=
  ∀ (q : NoticeQueue) (x : Report) (n : Period),
    (∀ before m after, q.entries = before ++ m :: after → m.report.matches x = true →
      (∀ k ∈ before ++ after, k.report.matches x = false) →
      q.enqueue x n =
        ⟨before ++ ⟨x, n, min 255 (m.count + 1)⟩ :: after, q.overflow⟩) ∧
    ((∀ k ∈ q.entries, k.report.matches x = false) →
      (q.entries.length < 32 → q.enqueue x n = ⟨q.entries ++ [⟨x, n, 1⟩], q.overflow⟩) ∧
      (32 ≤ q.entries.length → q.enqueue x n = ⟨q.entries, true⟩))

/-- O22. Retirement: the record VACANT with its generation advanced, its charge out of the load
table and its owner port's charge, its map entries out of the maps, the entries of its handle out
of its owner port's notice queue, and, where it is deferred or forced, CLOSED queued; and nothing
else changed but the free list (R20). -/
def Obligations.RetirementStep : Prop :=
  ∀ (s : State) (h : Handle) (st : Stream) (closed : Bool), s.loadLaw → s.stream h = some st →
    let t := s.retire h closed
    let purged : NoticeQueue :=
      { s.noticesOf st.owner with
        entries := (s.noticesOf st.owner).entries.filter fun n => n.report.handle? ≠ some h }
    t.record h = ⟨(s.record h).generation + 1, none⟩ ∧ (∀ k, k ≠ h → t.record k = s.record k) ∧
    (∀ d r, (t.table.loads.get d).get r + s.chargeAt d r h = (s.table.loads.get d).get r) ∧
    (∀ p d, t.charge p d + s.unitsOf p d h = s.charge p d) ∧
    (∀ e, e ∈ t.table.tagMap ↔ e ∈ s.table.tagMap ∧ e.handle ≠ h) ∧
    (∀ e, e ∈ t.table.channelMap ↔ e ∈ s.table.channelMap ∧ e.handle ≠ h) ∧
    t.free = releasePair (st.bufferA.extent, st.bufferB.extent)
      ((st.pending.bind Amendment.pair).elim s.free fun g => releasePair g s.free) ∧
    t.noticesOf st.owner = (if closed then
      purged.enqueue (.closed h (s.record h).generation) s.link.period else purged) ∧
    (∀ p, p ≠ st.owner → t.noticesOf p = s.noticesOf p) ∧
    t = { s with table := t.table, free := t.free, notices := t.notices } ∧
    t.table.arbiter = s.table.arbiter ∧ t.table.quotas = s.table.quotas

/-- O23. The miss rule: the run rises by 1, up to the limit or, with limit 0, to 15; MISS is queued
if it is in the notify set; and a LIVE record whose run meets a limit that is not 0 is SUSPENDED,
with its notice (R128). -/
def Obligations.MissRule : Prop :=
  ∀ (s : State) (h : Handle) (st : Stream) (cause : MissCause), s.stream h = some st →
    st.runLaw →
    let g := (s.record h).generation
    let run := if st.params.missLimit = 0 then min 15 (st.missRun + 1)
      else min st.params.missLimit (st.missRun + 1)
    let counted := (s.setStream h { st with missRun := run }).notifyIf st.notify.miss st.owner
      (.miss h g cause run)
    (st.state = .live ∧ st.params.missLimit ≠ 0 ∧ st.missRun + 1 = st.params.missLimit →
      s.miss h cause =
        ((counted.setStream h { st with missRun := run, state := .suspended .misses }).notify
          st.owner (.suspended h g .misses))) ∧
    (¬(st.state = .live ∧ st.params.missLimit ≠ 0 ∧ st.missRun + 1 = st.params.missLimit) →
      s.miss h cause = counted)

/-! ### Transactions (9.2 to 9.6) -/

/-- O24. A transaction's start: the status header of R172 and the response chosen; the attention line is
asserted exactly when the header shows NOTICES or RESPONSE (R167). Whole bytes clocked: they are taken
on MOSI, as many go out, and the delivery record counts those of its response, no fill byte among them
(R170). And what the port shifts out: what has gone out stays; from the next whole byte on the header,
the response chosen with its CRC, then 0s, and 0s alone in place of what a PURGE or a reset has cut off
(R171, R189). A start while a transaction is in progress has no effect, and a start's first bytes come
with it: the model's reading (log 6). -/
def Obligations.TransactionStart : Prop :=
  (∀ (s : State) (x : Sys2Proof.TransactionStart),
    let p := x.port
    (∀ y, (s.port p).transaction = some y → exec (.transactionStart x) s = .next s) ∧
    ((s.port p).transaction = none → ∃ (f : Byte) (y : Transaction),
      exec (.transactionStart x) s =
        .next (s.setPort p { s.port p with transaction := some (y.clock x.mosi) }) ∧
      y.header = [f, byte (s.port p).responseQueue.length, (s.port p).dropped.getD 0,
        byte (s.noticesOf p).entries.length] ∧
      f.getLsbD 7 = !(s.noticesOf p).entries.isEmpty ∧
      f.getLsbD 6 = !(s.port p).responseQueue.isEmpty ∧
      f.getLsbD 5 = (s.noticesOf p).overflow ∧ f.getLsbD 4 = (s.port p).purged ∧
      f.getLsbD 3 = (s.port p).resetSeen ∧ f.getLsbD 2 = (s.port p).dropped.isSome ∧
      f.getLsbD 1 = false ∧ f.getLsbD 0 = false ∧
      s.attention p = (f.getLsbD 7 || f.getLsbD 6) ∧
      y.showsPurged = (s.port p).purged ∧ y.purgedSince = false ∧ y.cut = s.held ∧
      y.taken = [] ∧ y.shifted = [] ∧
      y.delivery =
        if s.held then none else (s.port p).responseQueue.head?.map fun z => ⟨z, 0⟩)) ∧
  (∀ (x : Transaction) (mosi : List Byte), x.shifted.length = x.taken.length →
    let y := x.clock mosi
    y.header = x.header ∧ y.showsPurged = x.showsPurged ∧ y.purgedSince = x.purgedSince ∧
    y.cut = x.cut ∧ y.taken = x.taken ++ mosi ∧ y.shifted.length = y.taken.length ∧
    y.delivery = (x.delivery.map fun d =>
      ⟨d.response, min (y.taken.length - 4) (d.response.body.length + 7)⟩) ∧
    ∀ k, y.shiftedOut k = x.shiftedOut k) ∧
  ∀ (x : Transaction) (k : Nat), x.header.length = 4 →
    (k < x.shifted.length → x.shiftedOut k = x.shifted.getD k 0) ∧
    (x.shifted.length ≤ k →
      (x.cut = true → x.shiftedOut k = 0) ∧
      (x.cut = false → k < 4 → x.shiftedOut k = x.header.getD k 0) ∧
      (x.cut = false → 4 ≤ k → x.delivery = none → x.shiftedOut k = 0) ∧
      ∀ d, x.cut = false → 4 ≤ k → x.delivery = some d →
        let y := d.response
        let covered := [y.code, y.sequence, statusByte y.status] ++ be16 y.body.length ++ y.body
        x.shiftedOut k = (covered ++ be16 (crc16 covered).toNat).getD (k - 4) 0)

/-- O25. A transaction's end: the response chosen is gone if it was clocked out whole, PURGED is
clear if the header showed it and no PURGE came since, and then the bytes taken are no request, an
unsound frame, or a sound one, which is dropped, a repeat, the start of a reset, or accepted. A
transaction that a reset cut settles nothing. An end without a transaction has no effect, and all
bytes not clocked at the start come with the end: the model's reading (log 6). -/
def Obligations.TransactionEnd : Prop :=
  ∀ (s : State) (p : Port) (rest : List Byte),
    ((s.port p).transaction = none → exec (.transactionEnd p rest) s = .next s) ∧
    ∀ x, (s.port p).transaction = some x →
      (x.cut = true → exec (.transactionEnd p rest) s =
        .next (s.setPort p { s.port p with transaction := none })) ∧
      (x.cut = false →
        let mosi := x.taken ++ rest
        let y := { s.port p with
          transaction := none
          responseQueue := if x.delivery.any fun d =>
                decide (d.response.body.length + 7 ≤ mosi.length - 4) then
              (s.port p).responseQueue.tail
            else (s.port p).responseQueue
          purged := (s.port p).purged &&
            !(x.showsPurged && !x.purgedSince && decide (4 ≤ mosi.length)) }
        (judge mosi = .noRequest →
          exec (.transactionEnd p rest) s = .next (s.setPort p y)) ∧
        (∀ c q, judge mosi = .unsound c q → exec (.transactionEnd p rest) s =
          .next (s.setPort p (if y.outstanding < 4 then
              { y with requestQueue := y.requestQueue ++ [.badFrame c q] }
            else { y with dropped := some q }))) ∧
        ∀ r, judge mosi = .sound r →
          (4 ≤ y.outstanding → exec (.transactionEnd p rest) s =
            .next (s.setPort p { y with dropped := some r.sequence })) ∧
          (y.outstanding < 4 →
            let z := { y with
              lastAccepted := some (r.sequence, r.crc)
              dropped := none
              resetSeen := false }
            (y.lastAccepted = some (r.sequence, r.crc) → exec (.transactionEnd p rest) s =
              .next (s.setPort p
                { z with requestQueue := y.requestQueue ++ [.repeatOf r.code r.sequence] })) ∧
            (y.lastAccepted ≠ some (r.sequence, r.crc) →
              (p = 0 ∧ r.code = 0x13 → exec (.transactionEnd p rest) s =
                .next { (s.setPort p y).resetBlocks with resetHold := true }) ∧
              (¬(p = 0 ∧ r.code = 0x13) → exec (.transactionEnd p rest) s =
                .next (s.setPort p { z with requestQueue := y.requestQueue ++ [.request r] })))))

/-! ### Grants (1.8) -/

/-- O26. The arbiter grants the first port, cyclically from its pointer, whose request queue is not
empty; and the entries that run nothing: BAD_FRAME and REPEAT, which leave the retained response,
and UNKNOWN, which replaces it. -/
def Obligations.GrantsThatRunNothing : Prop :=
  (∀ (s : State) (k : Port),
    (∀ j, j < k → (s.port (s.table.arbiter + j)).requestQueue = []) →
    (s.port (s.table.arbiter + k)).requestQueue ≠ [] →
    s.nextPort = some (s.table.arbiter + k)) ∧
  (∀ s : State, (∀ p, (s.port p).requestQueue = []) → s.nextPort = none) ∧
  ∀ (s : State) (p : Port) (e : Entry) (rest : List Entry), s.held = false →
    s.settle.nextPort = some p → (s.settle.port p).requestQueue = e :: rest →
    let u := s.settle
    let placed := fun (x : Response) =>
      State.setPort { u with table := { u.table with arbiter := p + 1 } } p
        { u.port p with
          requestQueue := rest
          responseQueue := (u.port p).responseQueue ++ [x] }
    (∀ c q, e = .badFrame c q →
      exec (.badFrameEntry p) s = .next (placed ⟨c, q, .badFrame, []⟩)) ∧
    (∀ c q y, e = .repeatOf c q → (u.port p).retained = some y →
      exec (.repeatEntry p) s = .next (placed ⟨c, q, .repeated,
        [y.code, y.sequence, statusByte y.status] ++ be16 y.body.length ++ y.body⟩)) ∧
    ∀ r, e = .request r → 0x14 ≤ r.code.toNat →
      exec (.unknownRequest p) s = .next (u.responded p r rest .unknown [])

/-- O27. A request refused changes nothing but what answering it changes: whatever the row, the
port and the body, a status other than OK, DONE and PENDING leaves the state of the claims taken
with the response placed (R6, R35, R36, R68, R77, R91, R190, R195, R205, R210). A row out of its turn
has no effect: the model's choice (log 1). -/
def Obligations.RefusalsChangeNothing : Prop :=
  ∀ (i : Instr) (p : Port) (s t : State), requestRow i = some p → exec i s = .next t →
    t = s ∨ ∃ r rest x body, s.Grants p r rest ∧
      (∃ front, (t.port p).responseQueue = front ++ [⟨r.code, r.sequence, x, body⟩]) ∧
      (x.accepts = false → t = s.settle.responded p r rest x body)

/-- O28. The argument checks (R205, R206): a body of the wrong length, a reserved value or a number
out of its range gives BAD_ARG with an empty body. That either row of FIND, and of LINKCTL, takes a
body that does not tell them apart is the model's choice (log 17). -/
def Obligations.ArgumentRefusals : Prop :=
  ∀ (s : State) (p : Port) (r : Request) (rest : List Entry), s.Grants p r rest →
    let x := r.body
    let badParams := (byteAt x 2).toNat = 0 ∨ 128 < (byteAt x 2).toNat ∨
      (byteAt x 3).toNat ∉ [1, 2, 4, 8, 16, 32] ∨ (byteAt x 3).toNat ≤ (byteAt x 4).toNat ∨
      3 < (byteAt x 5).toNat ∨ 15 < (byteAt x 7).toNat ∨ 3 < (byteAt x 8).toNat
    let badSpan := fun (n : Nat) => 1 < (byteAt x 2).toNat ∨ 2047 < numberAt x 3 ∨ n = 0 ∨ 2048 < n
    ∀ i : Instr,
      ((i = .openStream p ∧ r.code = 0x01 ∧ (x.length ≠ 15 ∨ 1 < (byteAt x 0).toNat ∨ badParams ∨
          (byteAt x 0 = 0 ∧ 1 < (byteAt x 6).toNat) ∨ 1 < (byteAt x 9).toNat ∨
          7 < (byteAt x 10).toNat)) ∨
        (i = .start p ∧ r.code = 0x02 ∧ x.length ≠ 2) ∨
        (i = .stop p ∧ r.code = 0x03 ∧ x.length ≠ 2) ∨
        (i = .close p ∧ r.code = 0x04 ∧ (x.length ≠ 3 ∨ 1 < (byteAt x 2).toNat)) ∨
        (i = .amend p ∧ r.code = 0x05 ∧ (x.length ≠ 12 ∨ badParams ∨ 1 < (byteAt x 9).toNat ∨
          (byteAt x 9 = 1 ∧ 4095 < numberAt x 10))) ∨
        (i = .withdraw p ∧ r.code = 0x06 ∧ x.length ≠ 2) ∨
        ((i = .findByTag p ∨ i = .findByChannel p) ∧ r.code = 0x07 ∧
          (x.length ≠ 7 ∨ 1 < (byteAt x 0).toNat)) ∨
        (i = .findByTag p ∧ r.code = 0x07 ∧ byteAt x 0 = 0 ∧ x.drop 3 = [0, 0, 0, 0]) ∨
        (i = .findByChannel p ∧ r.code = 0x07 ∧ byteAt x 0 = 1 ∧ 1 < (byteAt x 1).toNat) ∨
        (i = .read p ∧ r.code = 0x08 ∧ x.length ≠ 2) ∨
        (i = .put p ∧ r.code = 0x09 ∧ badSpan (x.length - 5)) ∨
        (i = .get p ∧ r.code = 0x0A ∧ (x.length ≠ 7 ∨ badSpan (numberAt x 5))) ∨
        (i = .handover p ∧ r.code = 0x0B ∧
          (x.length ≠ 4 ∨ 1 < (byteAt x 2).toNat ∨ 128 < (byteAt x 3).toNat)) ∨
        (i = .loads p ∧ r.code = 0x0C ∧ (x.length ≠ 1 ∨ 1 < (byteAt x 0).toNat)) ∨
        (i = .extents p ∧ r.code = 0x0D ∧ x.length ≠ 0) ∨
        (i = .poll p ∧ r.code = 0x0E ∧ x.length ≠ 0) ∨
        (i = .status p ∧ r.code = 0x0F ∧ x.length ≠ 0) ∨
        (i = .quota p ∧ p = 0 ∧ r.code = 0x10 ∧ (x.length ≠ 4 ∨ 3 < (byteAt x 0).toNat ∨
          1 < (byteAt x 1).toNat ∨ 18432 < numberAt x 2)) ∨
        ((i = .linkctlEnable p ∨ i = .linkctlDisable p) ∧ p = 0 ∧ r.code = 0x11 ∧
          (x.length ≠ 2 ∨ (byteAt x 0 ≠ 1 ∧ byteAt x 0 ≠ 2))) ∨
        (i = .linkctlEnable p ∧ p = 0 ∧ r.code = 0x11 ∧ byteAt x 0 = 1 ∧ 2 < (byteAt x 1).toNat) ∨
        (i = .linkctlDisable p ∧ p = 0 ∧ r.code = 0x11 ∧ byteAt x 0 = 2 ∧ 2 < (byteAt x 1).toNat) ∨
        (i = .purge p ∧ r.code = 0x12 ∧ (x.length ≠ 1 ∨ 3 < (byteAt x 0).toNat))) →
      exec i s = .next (s.settle.responded p r rest .badArg [])

/-- O29. The name check (R6), for every request that names a record and passes its argument check:
a handle of 64 or more, a record VACANT or of another generation, and a record of another port;
READ from any port and CLOSE from port 0 pass the last. -/
def Obligations.NameCheckRefusals : Prop :=
  ∀ (s : State) (p : Port) (r : Request) (rest : List Entry), s.Grants p r rest → ∀ i : Instr,
    ((i = .start p ∧ r.code = 0x02 ∧ r.body.length = 2) ∨
      (i = .stop p ∧ r.code = 0x03 ∧ r.body.length = 2) ∨
      (i = .close p ∧ r.code = 0x04 ∧ (readClose r.body).isSome = true) ∨
      (i = .amend p ∧ r.code = 0x05 ∧ (readAmend r.body).isSome = true) ∨
      (i = .withdraw p ∧ r.code = 0x06 ∧ r.body.length = 2) ∨
      (i = .read p ∧ r.code = 0x08 ∧ r.body.length = 2) ∨
      (i = .put p ∧ r.code = 0x09 ∧ (readPut r.body).isSome = true) ∨
      (i = .get p ∧ r.code = 0x0A ∧ (readGet r.body).isSome = true) ∨
      (i = .handover p ∧ r.code = 0x0B ∧ (readHandover r.body).isSome = true)) →
    let u := s.settle
    (64 ≤ (byteAt r.body 0).toNat → exec i s = .next (u.responded p r rest .badArg [])) ∧
    ∀ h : Handle, (byteAt r.body 0).toNat = h.val →
      (u.stream h = none ∨ (u.record h).generation ≠ byteAt r.body 1 →
        exec i s = .next (u.responded p r rest .stale [])) ∧
      ∀ st, u.Names r.body h st → st.owner ≠ p → r.code ≠ 0x08 → ¬(r.code = 0x04 ∧ p = 0) →
        exec i s = .next (u.responded p r rest .notOwner [])

/-! ### OPEN, START, STOP and CLOSE (chapter 4) -/

/-- O30. An OPEN admitted: the lowest VACANT handle STANDBY under its own generation, both buffers
HOST with fill 0 and zeroed, the load table, the charge and the maps with the new record, and DONE
with its name (R67 to R69). -/
def Obligations.OpenAdmitted : Prop :=
  ∀ (s : State) (p : Port) (r : Request) (rest : List Entry) (a : OpenArgs) (h : Handle)
    (x y : Extent) (free : List Extent), s.Grants p r rest → r.code = 0x01 → a.speltIn r.body →
    let u := s.settle
    u.stream h = none → (∀ k, k < h → u.stream k ≠ none) →
    (a.tag = 0 ∨ ∀ e ∈ u.table.tagMap, ¬(e.port = p ∧ e.tag = a.tag)) →
    (∀ e ∈ u.table.channelMap, ¬(e.direction = a.direction ∧ e.channel = a.channel)) →
    u.admission p a.direction (.replicate 32 0) (contribution a.params) = none →
    allocatePair ((a.params.cells + 3) / 4) u.free = some ((x, y), free) →
    x.base + x.length ≤ 512 → y.base + y.length ≤ 512 →
    let st : Stream := ⟨.standby, p, a.tag, a.direction, a.channel, a.params, 0, a.linkPolicy,
      a.notify, .a, ⟨x, .host, 0⟩, ⟨y, .host, 0⟩, ⟨false, false⟩, none, none⟩
    let d := a.direction
    exec (.openStream p) s = .next (State.responded
      { u with
        free := free
        memory := Memory.zero (Memory.zero u.memory (64 * x.base) (64 * x.length))
          (64 * y.base) (64 * y.length)
        table := { u.table with
          records := u.table.records.set h.val ⟨(u.record h).generation, some st⟩ h.isLt
          loads := u.table.loads.set d (tabulate fun k =>
            (u.table.loads.get d).get k + (contribution a.params).get k)
          charges := u.table.charges.set d ((u.table.charges.get d).set p.val
            (u.charge p d + units (contribution a.params)) p.isLt)
          tagMap := if a.tag = 0 then u.table.tagMap else u.table.tagMap ++ [⟨p, a.tag, h⟩]
          channelMap := u.table.channelMap ++ [⟨d, a.channel, h⟩] } }
      p r rest .done [byte h.val, (u.record h).generation])

/-- O31. An OPEN refused, in the order of R68: NO_HANDLE, TAG_TAKEN with the name that holds the
tag, CHANNEL_TAKEN, the reply of the admission test, NO_SPACE with its three values. -/
def Obligations.OpenRefusals : Prop :=
  ∀ (s : State) (p : Port) (r : Request) (rest : List Entry) (a : OpenArgs), s.Grants p r rest →
    r.code = 0x01 → a.speltIn r.body →
    let u := s.settle
    ((∀ h, u.stream h ≠ none) →
      exec (.openStream p) s = .next (u.responded p r rest .noHandle [])) ∧
    ((∃ h, u.stream h = none) →
      (∀ k, a.tag ≠ 0 → u.findTag p a.tag = some k →
        exec (.openStream p) s =
          .next (u.responded p r rest .tagTaken [byte k.val, (u.record k).generation])) ∧
      (a.tag = 0 ∨ u.findTag p a.tag = none →
        (u.findChannel a.direction a.channel ≠ none →
          exec (.openStream p) s = .next (u.responded p r rest .channelTaken [])) ∧
        (u.findChannel a.direction a.channel = none →
          (∀ x, u.admission p a.direction (.replicate 32 0) (contribution a.params) = some x →
            exec (.openStream p) s = .next (u.responded p r rest x.status x.body)) ∧
          (u.admission p a.direction (.replicate 32 0) (contribution a.params) = none →
            allocatePair ((a.params.cells + 3) / 4) u.free = none →
            exec (.openStream p) s = .next (u.responded p r rest .noSpace
              (byte ((a.params.cells + 3) / 4) :: (be16 (u.free.map Extent.length).sum ++
                be16 ((u.free.map Extent.length).foldl max 0))))))))

/-- O32. START makes a record in STANDBY or SUSPENDED LIVE with run 0, and absent from the lists of the
present period, and STOP makes one in LIVE or SUSPENDED STANDBY; each is refused STATE in any other
state. What absent from the lists is: each TX entry of the record, with its generation and form, keeps
no more than its slot's cell times, the record is not on the RX list, and its RX standing is NONE, where
the RX table entry has its generation and form (R71, R72, R73, R116); that it applies to a record listed
at the mark is the model's reading (log 20). -/
def Obligations.StartAndStop : Prop :=
  (∀ (s : State) (h : Handle) (st : Stream), s.stream h = some st →
    let g := (s.record h).generation
    let f : Form := ⟨st.params.cells, st.params.interval, st.params.phase⟩
    let e := s.psu.rxTable.get h
    let ours := e.generation = g ∧ e.form = f
    s.leaveLists h = { s with psu := { s.psu with
      txList := s.psu.txList.map fun x =>
        { x with absent := x.absent || decide (x.handle = h ∧ x.generation = g ∧ x.form = f) }
      rxTable := if ours then s.psu.rxTable.set h.val ⟨g, f, .none⟩ h.isLt else s.psu.rxTable
      rxList := if ours then s.psu.rxList.filter fun k => k ≠ h else s.psu.rxList } }) ∧
  ∀ (s : State) (p : Port) (r : Request) (rest : List Entry) (h : Handle) (st : Stream),
    s.Grants p r rest → r.body.length = 2 → s.settle.Names r.body h st → st.owner = p →
    let u := s.settle
    (r.code = 0x02 →
      (st.state = .standby ∨ (∃ c, st.state = .suspended c) →
        exec (.start p) s = .next (State.responded
          ((u.leaveLists h).setStream h { st with state := .live, missRun := 0 })
          p r rest .done [])) ∧
      (st.state = .live ∨ st.isClosing = true →
        exec (.start p) s = .next (u.responded p r rest .state []))) ∧
    (r.code = 0x03 →
      (st.state = .live ∨ (∃ c, st.state = .suspended c) →
        exec (.stop p) s = .next (State.responded
          (u.setStream h { st with state := .standby }) p r rest .done [])) ∧
      (st.state = .standby ∨ st.isClosing = true →
        exec (.stop p) s = .next (u.responded p r rest .state [])))

/-- O33. CLOSE by the owner port: of an open record, its pending amendment withdrawn, and retired at
once or put in CLOSING, by the mode, the buffers and the link, absent from the lists of the present
period (O32; log 20) where the mode is DRAIN and it was not LIVE; of a record in CLOSING, only from
DRAIN to IMMEDIATE. CLOSE by port 0 of another port's record: the service in flight aborted, its slot
left idle, and the record retired with CLOSED to its owner (R77 to R87, R21). -/
def Obligations.CloseRequests : Prop :=
  ∀ (s : State) (p : Port) (r : Request) (rest : List Entry) (h : Handle) (st : Stream)
    (m : CloseMode), s.Grants p r rest → r.code = 0x04 → r.body.length = 3 →
    byteAt r.body 2 = closeModeByte m → s.settle.Names r.body h st →
    let u := s.settle
    let g := (u.record h).generation
    let has := fun (o : Owner) => st.bufferA.owner = o ∨ st.bufferB.owner = o
    (st.owner = p → st.isClosing = false →
      let v := u.withdrawAmendment h
      let waits := match m with
        | .immediate => has .service
        | .drain => u.link.state = .up ∧ (has .service ∨ has .link)
      (waits → exec (.close p) s = .next (State.responded
        (State.setStream (if m = .drain ∧ st.state ≠ .live then v.leaveLists h else v) h
          { st with state := .closing m, pending := none }) p r rest .pending
          [closeModeByte m])) ∧
      (¬waits → exec (.close p) s =
        .next ((v.retire h false).responded p r rest .done [g]))) ∧
    (st.owner = p → st.state = .closing .drain → m = .immediate →
      (has .service → exec (.close p) s = .next (State.responded
        (u.setStream h { st with state := .closing .immediate }) p r rest .pending [0])) ∧
      (¬has .service → exec (.close p) s =
        .next ((u.retire h false).responded p r rest .done [g]))) ∧
    (st.owner = p → st.state = .closing .immediate ∨ (st.state = .closing .drain ∧ m = .drain) →
      exec (.close p) s = .next (u.responded p r rest .state [])) ∧
    (p = 0 → st.owner ≠ 0 →
      let tx := u.psu.txFlight.any fun f => f.handle = h && f.generation = g
      let rx := u.psu.rxFlight.any fun f => f.handle = h && f.generation = g
      let v := fun (l : TransmitLane) => { u with
        psu := { u.psu with
          txFlight := if tx then none else u.psu.txFlight
          rxFlight := if rx then none else u.psu.rxFlight }
        lane := l }
      let closed := fun (l : TransmitLane) =>
        exec (.close p) s = .next (((v l).retire h true).responded p r rest .done [g])
      let idle := List.replicate u.lane.queue.length LaneCell.idle
      (tx = false → closed u.lane) ∧
      -- the lead cell still to be staged: the staged cell is the last of the slot before
      (tx = true → (∃ c k, .lead c k ∈ u.lane.queue) → closed { u.lane with queue := idle }) ∧
      (tx = true → (∀ c k, .lead c k ∉ u.lane.queue) → closed { u.lane with
        queue := idle
        staged := u.lane.staged.map fun w => match w with
          | .lead _ _ | .payload _ => .idle
          | w => w }))

/-! ### AMEND and WITHDRAW (chapter 5) -/

/-- O34. An AMEND accepted: on a LIVE record the amendment is held as pending and the larger of old
and new charged; on one in STANDBY or SUSPENDED it is applied within the request (R91 to R94, R105,
R39). -/
def Obligations.AmendAccepted : Prop :=
  ∀ (s v : State) (p : Port) (r : Request) (rest : List Entry) (h : Handle) (st : Stream)
    (new : Params) (point : EffectivePoint) (g : Option (Extent × Extent)), s.Grants p r rest →
    r.code = 0x05 → r.body.length = 12 → new.speltIn st.direction r.body → point.speltIn r.body →
    let u := s.settle
    u.Names r.body h st → st.owner = p → st.isClosing = false → st.pending = none →
    (st.state ≠ .live → st.bufferA.owner ≠ .service ∧ st.bufferB.owner ≠ .service) →
    (∀ e, point = .period e →
      1 ≤ (e - u.link.period).toNat ∧ (e - u.link.period).toNat ≤ 2047) →
    let d := st.direction
    let old := contribution st.params
    let both : Residues := tabulate fun k => max (old.get k) ((contribution new).get k)
    u.admission p d old both = none → u.GrantsPair v st.params.cells new.cells g →
    let charged := fun (x : Residues) => { v.table with
      loads := v.table.loads.set d (tabulate fun k =>
        (v.table.loads.get d).get k - old.get k + x.get k)
      charges := v.table.charges.set d ((v.table.charges.get d).set p.val
        (v.charge p d - units old + units x) p.isLt) }
    (st.state = .live → exec (.amend p) s = .next (State.responded
      (State.setStream { v with table := charged both } h
        { st with pending := some ⟨new, point, g, old⟩ }) p r rest .pending
      ((match point with
        | .next => [0, 255, 255]
        | .period e => 1 :: be16 e.toNat) ++
        [boolByte g.isSome, byte ((new.cells + 3) / 4)] ++ be16 u.link.period.toNat))) ∧
    (st.state ≠ .live → ∀ w : State, w = { v with
        table := charged (contribution new)
        free := match g with
          | some _ => release st.bufferB.extent (release st.bufferA.extent v.free)
          | none => v.free } →
      let kept := { st with params := new, missRun := 0, lastSlot := none }
      (∀ x y, g = some (x, y) → exec (.amend p) s = .next (State.responded
        (w.setStream h { kept with
          bufferA := ⟨x, .host, 0⟩, bufferB := ⟨y, .host, 0⟩, parity := .a }) p r rest .done
        (be16 u.link.period.toNat ++ [byte ((if st.bufferA.owner = .link then 1 else 0) +
          (if st.bufferB.owner = .link then 1 else 0)), 0, 1]))) ∧
      (g = none → exec (.amend p) s = .next (State.responded
        (w.setStream h { kept with
          bufferA := { st.bufferA with fill := min st.bufferA.fill new.cells }
          bufferB := { st.bufferB with fill := min st.bufferB.fill new.cells } }) p r rest .done
        (be16 u.link.period.toNat ++ [0,
          if st.direction = .tx ∧ ((st.bufferA.owner = .link ∧ new.cells < st.bufferA.fill) ∨
            (st.bufferB.owner = .link ∧ new.cells < st.bufferB.fill)) then 1 else 0, 0]))))

/-- O35. An AMEND refused, in the order of R91: STATE, AMEND_PENDING, BAD_ARG for the miss policy
of a TX record, OWNER, LATE with the current period, the reply of the admission test, NO_SPACE. -/
def Obligations.AmendRefusals : Prop :=
  ∀ (s : State) (p : Port) (r : Request) (rest : List Entry) (h : Handle) (st : Stream)
    (point : EffectivePoint), s.Grants p r rest → r.code = 0x05 → readAmend r.body = some point →
    let u := s.settle
    u.Names r.body h st → st.owner = p →
    let now := u.link.period
    let open' := st.isClosing = false ∧ st.pending = none
    let policy := st.direction = .tx → (byteAt r.body 6).toNat ≤ 1
    let free' := st.state = .live ∨ (st.bufferA.owner ≠ .service ∧ st.bufferB.owner ≠ .service)
    let window := ∀ e, point = .period e → 1 ≤ (e - now).toNat ∧ (e - now).toNat ≤ 2047
    (st.isClosing = true → exec (.amend p) s = .next (u.responded p r rest .state [])) ∧
    (st.isClosing = false → st.pending ≠ none →
      exec (.amend p) s = .next (u.responded p r rest .amendPending [])) ∧
    (open' → ¬policy → exec (.amend p) s = .next (u.responded p r rest .badArg [])) ∧
    (open' → policy → ¬free' → exec (.amend p) s = .next (u.responded p r rest .owner [])) ∧
    (open' → policy → free' → ¬window →
      exec (.amend p) s = .next (u.responded p r rest .late (be16 now.toNat))) ∧
    ∀ new : Params, new.speltIn st.direction r.body → open' → free' → window →
      let both : Residues := tabulate fun k =>
        max ((contribution st.params).get k) ((contribution new).get k)
      (∀ x, u.admission p st.direction (contribution st.params) both = some x →
        exec (.amend p) s = .next (u.responded p r rest x.status x.body)) ∧
      (u.admission p st.direction (contribution st.params) both = none →
        (new.cells + 3) / 4 ≠ (st.params.cells + 3) / 4 →
        allocatePair ((new.cells + 3) / 4) u.free = none →
        exec (.amend p) s = .next (u.responded p r rest .noSpace
          (byte ((new.cells + 3) / 4) :: (be16 (u.free.map Extent.length).sum ++
            be16 ((u.free.map Extent.length).foldl max 0)))))

/-- O36. WITHDRAW: the pending amendment gone, the charge back to the old contribution, a pending
pair released, and DONE with the effective point; NONE_PENDING where none is pending (R106, R41). -/
def Obligations.WithdrawRequest : Prop :=
  ∀ (s : State) (p : Port) (r : Request) (rest : List Entry) (h : Handle) (st : Stream),
    s.Grants p r rest → r.code = 0x06 → r.body.length = 2 → s.settle.Names r.body h st →
    st.owner = p →
    let u := s.settle
    let d := st.direction
    (st.pending = none → exec (.withdraw p) s = .next (u.responded p r rest .nonePending [])) ∧
    ∀ a, st.pending = some a →
      let both : Residues := tabulate fun k => max (a.old.get k) ((contribution a.params).get k)
      let v := { u with
        table := { u.table with
          loads := u.table.loads.set d (tabulate fun k =>
            (u.table.loads.get d).get k - both.get k + a.old.get k)
          charges := u.table.charges.set d ((u.table.charges.get d).set p.val
            (u.charge p d - units both + units a.old) p.isLt) }
        free := match a.pair with
          | some g => release g.2 (release g.1 u.free)
          | none => u.free }
      exec (.withdraw p) s = .next (State.responded
        (v.setStream h { st with pending := none }) p r rest .done
        (match a.point with
          | .next => [0, 255, 255]
          | .period e => 1 :: be16 e.toNat))

/-! ### Requests that read the part, and POLL -/

/-- O37. FIND: under the laws of the maps, the name of the caller's record with the tag, or of the
record with the direction and the channel; NOT_FOUND where there is none (R12, R13). -/
def Obligations.FindRequests : Prop :=
  ∀ (s : State) (p : Port) (r : Request) (rest : List Entry), s.Grants p r rest → r.code = 0x07 →
    let u := s.settle
    (∀ (b c : Byte) (tag : BitVec 32), u.tagMapLaw → r.body = [0, b, c] ++ be32 tag → tag ≠ 0 →
      (∀ h st, u.stream h = some st → st.owner = p → st.tag = tag →
        exec (.findByTag p) s =
          .next (u.responded p r rest .ok [byte h.val, (u.record h).generation])) ∧
      ((∀ h st, u.stream h = some st → ¬(st.owner = p ∧ st.tag = tag)) →
        exec (.findByTag p) s = .next (u.responded p r rest .notFound []))) ∧
    ∀ (d : Direction) (c : Byte) (x : List Byte), u.channelMapLaw → x.length = 4 →
      r.body = [1, directionByte d, c] ++ x →
      (∀ h st, u.stream h = some st → st.direction = d → st.channel = c →
        exec (.findByChannel p) s =
          .next (u.responded p r rest .ok [byte h.val, (u.record h).generation])) ∧
      ((∀ h st, u.stream h = some st → ¬(st.direction = d ∧ st.channel = c)) →
        exec (.findByChannel p) s = .next (u.responded p r rest .notFound []))

/-- O38. READ answers with the 53 bytes of the record image, each field in its place (R14, 11.6);
EXTENTS with the free list, by ascending base, and its totals; STATUS with the link, the free
granules, the VACANT records, and the caller's quotas and charges (R64, R188). -/
def Obligations.ReadingRequests : Prop :=
  (∀ (s : State) (p : Port) (r : Request) (rest : List Entry) (h : Handle) (st : Stream),
    s.Grants p r rest → r.code = 0x08 → r.body.length = 2 → s.settle.Names r.body h st →
    ∃ x : List Byte, exec (.read p) s = .next (s.settle.responded p r rest .ok x) ∧
      x.length = 53 ∧ x.take 3 = [byte h.val, (s.settle.record h).generation,
        match st.state with
        | .standby => 1
        | .live => 2
        | .suspended _ => 3
        | .closing _ => 4] ∧
      byteAt x 3 = (match st.state with
        | .closing .immediate => 0
        | .closing .drain => 1
        | .suspended .misses => 0
        | .suspended .link => 1
        | .standby => 255
        | .live => 255) ∧
      (x.drop 4).take 7 = [byte st.owner.val, directionByte st.direction, st.channel,
        byte st.params.cells, byte st.params.interval, byte st.params.phase,
        byte st.params.serviceClass] ∧
      byteAt x 11 = (match st.params.missPolicy with
        | some .empty => 0
        | some .silent => 1
        | none => 255) ∧
      (x.drop 12).take 3 = [byte st.params.missLimit, byte st.missRun, byte st.params.lead] ∧
      byteAt x 15 = linkPolicyByte st.linkPolicy ∧ byteAt x 16 = notifySetByte st.notify ∧
      byteAt x 17 = bufferByte st.parity ∧
      byteAt x 18 = (match st.direction with
        | .tx => 255
        | .rx => policingByte st.policing) ∧
      (x.drop 19).take 2 = (match st.lastSlot with
        | none => [255, 255]
        | some k => be16 k) ∧
      (x.drop 21).take 4 = be32 st.tag ∧
      (x.drop 25).take 5 = be16 st.bufferA.extent.base ++
        [byte st.bufferA.extent.length, ownerByte st.bufferA.owner, byte st.bufferA.fill] ∧
      (x.drop 30).take 5 = be16 st.bufferB.extent.base ++
        [byte st.bufferB.extent.length, ownerByte st.bufferB.owner, byte st.bufferB.fill] ∧
      (st.pending = none → x.drop 35 = 0 :: List.replicate 17 255) ∧
      ∀ a, st.pending = some a →
        (x.drop 35).take 5 = [1, byte a.params.cells, byte a.params.interval, byte a.params.phase,
          byte a.params.serviceClass] ∧
        byteAt x 40 = (match a.params.missPolicy with
          | some .empty => 0
          | some .silent => 1
          | none => 255) ∧
        (x.drop 41).take 2 = [byte a.params.missLimit, byte a.params.lead] ∧
        (x.drop 43).take 3 = (match a.point with
          | .next => [0, 255, 255]
          | .period e => 1 :: be16 e.toNat) ∧
        x.drop 46 = (match a.pair with
          | none => 0 :: List.replicate 6 255
          | some (g, k) =>
            1 :: (be16 g.base ++ [byte g.length] ++ be16 k.base ++ [byte k.length]))) ∧
  ∀ (s : State) (p : Port) (r : Request) (rest : List Entry), s.Grants p r rest → r.body = [] →
    let u := s.settle
    let total := (u.free.map Extent.length).sum
    (r.code = 0x0D → exec (.extents p) s = .next (u.responded p r rest .ok
      (be16 u.free.length ++ be16 total ++
        (u.free.map fun e => be16 e.base ++ be16 e.length).flatten))) ∧
    (r.code = 0x0F → ∃ largest : Nat,
      (∀ e ∈ u.free, e.length ≤ largest) ∧ (u.free ≠ [] → ∃ e ∈ u.free, e.length = largest) ∧
      (u.free = [] → largest = 0) ∧
      exec (.status p) s = .next (u.responded p r rest .ok
        ([byte p.val,
          match u.link.state with
          | .off => 0
          | .acquire => 1
          | .up => 2,
          match u.link.role with
          | .leader => 0
          | .follower => 1] ++ be16 u.link.period.toNat ++ be16 total ++ be16 largest ++
        [byte ((List.finRange 64).countP fun h => (u.stream h).isNone)] ++
        be16 (u.quota p .tx) ++ be16 (u.charge p .tx) ++ be16 (u.quota p .rx) ++
        be16 (u.charge p .rx))))

/-- O39. LOADS answers with the direction, the current period number and the 32 entries of the
direction's load table, residue 0 first; a reserved direction gives BAD_ARG (R44). -/
def Obligations.LoadsRequest : Prop :=
  ∀ (s : State) (p : Port) (r : Request) (rest : List Entry), s.Grants p r rest → r.code = 0x0C →
    let u := s.settle
    (∀ d, r.body = [directionByte d] →
      exec (.loads p) s = .next (u.responded p r rest .ok ([directionByte d] ++
        be16 u.link.period.toNat ++
        ((List.finRange 32).map fun k => be16 ((u.table.loads.get d).get k)).flatten))) ∧
    (u.loadLaw → ∀ d k, (u.table.loads.get d).get k ≤ 576) ∧
    ∀ b : Byte, 1 < b.toNat → r.body = [b] →
      exec (.loads p) s = .next (u.responded p r rest .badArg [])

/-- O40. POLL returns the eight oldest entries, or all if fewer, takes them from the caller's
queue, and reports OVERFLOW, which it clears when no entry is left (R165). The ten bytes of an
entry are its kind, its name, its period, its count and its kind fields (11.7). -/
def Obligations.PollRequest : Prop :=
  (∀ (s : State) (p : Port) (r : Request) (rest : List Entry), s.Grants p r rest → r.code = 0x0E →
    r.body = [] →
    let u := s.settle
    let q := u.noticesOf p
    let left := q.entries.drop 8
    exec (.poll p) s = .next (State.responded
      (u.setNotices p ⟨left, if left = [] then false else q.overflow⟩) p r rest .ok
      ([byte (min 8 q.entries.length), byte left.length, if q.overflow then 1 else 0] ++
        ((q.entries.take 8).map Notice.bytes).flatten))) ∧
  ∀ (x : Report) (n : Period) (k : Nat), ∃ kind h g fields,
    Notice.bytes ⟨x, n, k⟩ = [kind, h, g] ++ be16 n.toNat ++ [byte k] ++ fields ∧
    fields.length = 4 ∧
    match x with
    | .done i j y f v => [kind, h, g] = [1, byte i.val, j] ∧
        fields = [bufferByte y, byte f, byte (v.excess.toNat + 2 * v.offSchedule.toNat), 0]
    | .miss i j c y => [kind, h, g] = [2, byte i.val, j] ∧
        fields = [match c with
          | .starved => 0
          | .overrun => 1
          | .absent => 2
          | .damaged => 3, byte y, 0, 0]
    | .warn i j y => [kind, h, g] = [3, byte i.val, j] ∧ fields = [byte y, 0, 0, 0]
    | .suspended i j c => [kind, h, g] = [4, byte i.val, j] ∧
        fields = [match c with
          | .misses => 0
          | .link => 1, 0, 0, 0]
    | .amended i j e y c => [kind, h, g] = [5, byte i.val, j] ∧
        fields = be16 e.toNat ++ [byte y, if c then 1 else 0]
    | .closed i j => [kind, h, g] = [6, byte i.val, j] ∧ fields = [0, 0, 0, 0]
    | .link e => [kind, h, g] = [7, 255, 255] ∧
        fields = [match e with
          | .up => 0
          | .down => 1
          | .slip => 2, 0, 0, 0]

/-! ### Buffers (3.4 to 3.6) -/

/-- O41. PUT writes its data at its offset of a TX buffer of HOST, and GET reads from a buffer of
HOST, each within the valid bytes, with their refusals DIRECTION, OWNER and RANGE in order (R57,
R58); HANDOVER gives a buffer of HOST to the link with the fill it names, with its refusals STATE,
DIRECTION, OWNER and RANGE in order (R59). -/
def Obligations.BufferRequests : Prop :=
  (∀ (s : State) (p : Port) (r : Request) (rest : List Entry) (h : Handle) (st : Stream)
    (n : BufferName) (offset : Nat), s.Grants p r rest → s.settle.Names r.body h st →
    st.owner = p → offset ≤ 2047 →
    let u := s.settle
    let x := st.buffer n
    let address := 64 * x.extent.base + offset
    (∀ (i j : Byte) (data : List Byte), r.code = 0x09 → 1 ≤ data.length → data.length ≤ 2048 →
      r.body = [i, j, bufferByte n] ++ be16 offset ++ data →
      (st.direction = .rx → exec (.put p) s = .next (u.responded p r rest .direction [])) ∧
      (st.direction = .tx → x.owner ≠ .host →
        exec (.put p) s = .next (u.responded p r rest .owner [])) ∧
      (st.direction = .tx → x.owner = .host → 16 * st.params.cells < offset + data.length →
        exec (.put p) s = .next (u.responded p r rest .range [])) ∧
      (st.direction = .tx → x.owner = .host → offset + data.length ≤ 16 * st.params.cells →
        address + data.length ≤ 32768 →
        exec (.put p) s = .next (State.responded
          { u with memory := Memory.writeBytes u.memory address data } p r rest .done []))) ∧
    ∀ (i j : Byte) (length : Nat), r.code = 0x0A → 1 ≤ length → length ≤ 2048 →
      r.body = [i, j, bufferByte n] ++ be16 offset ++ be16 length →
      (x.owner ≠ .host → exec (.get p) s = .next (u.responded p r rest .owner [])) ∧
      (x.owner = .host → 16 * st.params.cells < offset + length →
        exec (.get p) s = .next (u.responded p r rest .range [])) ∧
      (x.owner = .host → offset + length ≤ 16 * st.params.cells → address + length ≤ 32768 →
        exec (.get p) s = .next (u.responded p r rest .ok
          (byte x.fill :: (List.range length).map fun k => Memory.read u.memory (address + k))))) ∧
  ∀ (s : State) (p : Port) (r : Request) (rest : List Entry) (h : Handle) (st : Stream)
    (n : BufferName) (fill : Nat) (i j : Byte), s.Grants p r rest → r.code = 0x0B →
    s.settle.Names r.body h st → st.owner = p → fill ≤ 128 →
    r.body = [i, j, bufferByte n, byte fill] →
    let u := s.settle
    let x := st.buffer n
    let fits := match st.direction with
      | .tx => 1 ≤ fill ∧ fill ≤ st.params.cells
      | .rx => True
    (st.isClosing = true → exec (.handover p) s = .next (u.responded p r rest .state [])) ∧
    (st.isClosing = false → st.direction = .rx → fill ≠ 0 →
      exec (.handover p) s = .next (u.responded p r rest .direction [])) ∧
    (st.isClosing = false → (st.direction = .rx → fill = 0) → x.owner ≠ .host →
      exec (.handover p) s = .next (u.responded p r rest .owner [])) ∧
    (st.isClosing = false → (st.direction = .rx → fill = 0) → x.owner = .host → ¬fits →
      exec (.handover p) s = .next (u.responded p r rest .range [])) ∧
    (st.isClosing = false → (st.direction = .rx → fill = 0) → x.owner = .host → fits →
      exec (.handover p) s = .next (State.responded
        (u.setStream h (match n with
          | .a => { st with bufferA := ⟨x.extent, .link, fill⟩ }
          | .b => { st with bufferB := ⟨x.extent, .link, fill⟩ })) p r rest .done
        [bufferByte n, byte fill]))

/-! ### The supervisor's requests (chapter 10, R152) -/

/-- O42. QUOTA from a port other than 0 is DENIED, whatever its body; from port 0, a reserved
direction, a port above 3 or a quota above 18432 gives BAD_ARG, and otherwise it sets one quota and
answers with the quota before, the quota set and the charge (R193). -/
def Obligations.QuotaRequest : Prop :=
  ∀ (s : State) (p : Port) (r : Request) (rest : List Entry), s.Grants p r rest → r.code = 0x10 →
    let u := s.settle
    (p ≠ 0 → exec (.quota p) s = .next (u.responded p r rest .denied [])) ∧
    (p = 0 → r.body.length = 4 → 3 < (byteAt r.body 0).toNat ∨ 1 < (byteAt r.body 1).toNat ∨
        18432 < numberAt r.body 2 →
      exec (.quota p) s = .next (u.responded p r rest .badArg [])) ∧
    ∀ (n : Port) (d : Direction) (q : Nat), p = 0 → q ≤ 18432 →
      r.body = [byte n.val, directionByte d] ++ be16 q →
      exec (.quota p) s = .next (State.responded
        { u with table := { u.table with
            quotas := u.table.quotas.set d ((u.table.quotas.get d).set n.val q n.isLt) } }
        p r rest .done ([byte n.val, directionByte d] ++ be16 (u.quota n d) ++ be16 q ++
          be16 (u.charge n d)))

/-- O43. LINKCTL: DENIED from a port other than 0; STATE where a role is asked and the link is not
OFF; ENABLE from OFF enters ACQUIRE with both counters 0, a leader emitting its first mark; DISABLE
goes to OFF, with the effects of leaving UP where the link was UP (R140, R150, R152). That either row
answers a body that does not tell the actions apart is the model's choice (log 17). -/
def Obligations.LinkctlRequest : Prop :=
  ∀ (s : State) (p : Port) (r : Request) (rest : List Entry), s.Grants p r rest → r.code = 0x11 →
    let u := s.settle
    let reply := fun (x : LinkState) (y : Role) (n : Period) =>
      [match x with
        | .off => (0 : Byte)
        | .acquire => 1
        | .up => 2,
        match y with
        | .leader => 0
        | .follower => 1] ++ be16 n.toNat
    (p ≠ 0 → ((∀ c, r.body ≠ [2, c]) → exec (.linkctlEnable p) s =
        .next (u.responded p r rest .denied [])) ∧
      ((∀ c, r.body ≠ [1, c]) → exec (.linkctlDisable p) s =
        .next (u.responded p r rest .denied []))) ∧
    ∀ (c : Byte) (role : Option Role), p = 0 →
      (role = none ∧ c = 0) ∨ (role = some .leader ∧ c = 1) ∨ (role = some .follower ∧ c = 2) →
      let asked := role.getD u.link.role
      (r.body = [1, c] →
        (role ≠ none → u.link.state ≠ .off →
          exec (.linkctlEnable p) s = .next (u.responded p r rest .state [])) ∧
        (role = none → u.link.state ≠ .off → exec (.linkctlEnable p) s = .next
          (u.responded p r rest .done (reply u.link.state u.link.role u.link.period))) ∧
        (u.link.state = .off → asked = .follower → exec (.linkctlEnable p) s =
          .next (State.responded { u with link := { u.link with
              state := .acquire, role := .follower, acquire := 0, missingEchoes := 0 } }
            p r rest .done (reply .acquire .follower u.link.period))) ∧
        (u.link.state = .off → asked = .leader →
          let n := u.link.period + 1
          let v := u.burstCut
          exec (.linkctlEnable p) s = .next (State.responded
            { v with
              link := { u.link with
                state := .acquire, role := .leader, acquire := 0, missingEchoes := 0,
                echoRecord := none, periodTimer := true, period := n, markTaken := true }
              psu := { v.psu with rxOpen := true }
              claims := v.claims ++ (if u.psu.rxOpen then [.periodEnd] else []) ++
                [.markProcessing n]
              lane := ⟨.mark n .leader false, some .idle, [], some n⟩ }
            p r rest .done (reply .acquire .leader n)))) ∧
      (r.body = [2, c] →
        (role ≠ none → u.link.state ≠ .off →
          exec (.linkctlDisable p) s = .next (u.responded p r rest .state [])) ∧
        (u.link.state = .off → exec (.linkctlDisable p) s = .next (State.responded
          { u with link := { u.link with role := asked } } p r rest .done
          (reply .off asked u.link.period))) ∧
        (role = none → u.link.state ≠ .off →
          let v := if u.link.state = .up then u.leaveUp else u
          exec (.linkctlDisable p) s = .next (State.responded
            { v with
              link := ⟨.off, u.link.role, u.link.period, false, false, 0, none, 0, false, false⟩
              lane := ⟨v.lane.sending, none, [], none⟩
              psu := { v.psu with rxOpen := false } }
            p r rest .done (reply .off u.link.role u.link.period))))

/-- O44. PURGE of a port, by port 0 or by itself: its records VACANT with their charges out of the
tables and every extent and pending pair of theirs back in the free list, its queues and flags as R196
gives, one CLOSED for each record retired, the rest of an aborted TX slot idle, and the lists, the
standings and nothing of another port's touched; of another port by a port other than 0, DENIED (R195
to R198). -/
def Obligations.PurgeRequest : Prop :=
  ∀ (s : State) (p : Port) (r : Request) (rest : List Entry) (n : Port), s.Grants p r rest →
    r.code = 0x12 → r.body = [byte n.val] →
    let u := s.settle
    let cleared : PortInterface := { u.port n with
      requestQueue := []
      responseQueue := []
      retained := none
      lastAccepted := none
      purged := true
      transaction := (u.port n).transaction.map fun x =>
        { x with delivery := none, purgedSince := true } }
    let closed := fun (owned : List Handle) => (owned.take 32).map fun h =>
      (⟨.closed h (u.record h).generation, u.link.period, 1⟩ : Notice)
    let answer := fun (owned : List Handle) =>
      Response.mk r.code r.sequence .done [byte n.val, byte owned.length,
        byte (closed owned).length, if 32 < owned.length then 1 else 0]
    (p ≠ 0 → n ≠ p → exec (.purge p) s = .next (u.responded p r rest .denied [])) ∧
    (p = 0 ∨ n = p → u.loadLaw → ∃ (t : State) (owned : List Handle),
      exec (.purge p) s = .next t ∧
      owned.Pairwise (· < ·) ∧
      (∀ h, h ∈ owned ↔ ∃ st, u.stream h = some st ∧ st.owner = n) ∧
      (∀ h, t.record h = if h ∈ owned then ⟨(u.record h).generation + 1, none⟩ else u.record h) ∧
      (∀ d, t.charge n d = 0) ∧ (∀ k d, k ≠ n → t.charge k d = u.charge k d) ∧
      (∀ d k, (t.table.loads.get d).get k + (owned.map (u.chargeAt d k)).sum =
        (u.table.loads.get d).get k) ∧
      t.table.quotas = u.table.quotas ∧
      (∀ e, e ∈ t.table.tagMap ↔ e ∈ u.table.tagMap ∧ e.handle ∉ owned) ∧
      (∀ e, e ∈ t.table.channelMap ↔ e ∈ u.table.channelMap ∧ e.handle ∉ owned) ∧
      t.free = owned.foldl (fun free h => ((u.stream h).elim [] Stream.purgeOrder).foldl
        (fun free e => release e free) free) u.free ∧
      t.memory = u.memory ∧ t.link = u.link ∧ t.table.arbiter = p + 1 ∧ t.claims = u.claims ∧
      t.psu = { u.psu with txFlight := t.psu.txFlight, rxFlight := t.psu.rxFlight } ∧
      (t.psu.txFlight = u.psu.txFlight → t.lane = u.lane) ∧
      (t.psu.txFlight ≠ u.psu.txFlight →
        t.lane.sending = u.lane.sending ∧ t.lane.opened = u.lane.opened ∧
        t.lane.queue = List.replicate u.lane.queue.length .idle ∧
        ((∃ c k, .lead c k ∈ u.lane.queue) → t.lane.staged = u.lane.staged) ∧
        ((∀ c k, .lead c k ∉ u.lane.queue) → t.lane.staged = u.lane.staged.map fun w => match w with
          | .lead _ _ | .payload _ => .idle
          | w => w)) ∧
      (∀ f, t.psu.txFlight = some f ↔ u.psu.txFlight = some f ∧
        ¬(f.handle ∈ owned ∧ f.generation = (u.record f.handle).generation)) ∧
      (∀ f, t.psu.rxFlight = some f ↔ u.psu.rxFlight = some f ∧
        ¬(f.handle ∈ owned ∧ f.generation = (u.record f.handle).generation)) ∧
      t.noticesOf n = ⟨closed owned, decide (32 < owned.length)⟩ ∧
      (∀ k, k ≠ n → t.noticesOf k = u.noticesOf k) ∧
      (n = p → t.port n = { cleared with
        responseQueue := [answer owned]
        retained := some (answer owned)
        lastAccepted := some (r.sequence, r.crc) }) ∧
      (n ≠ p → t.port n = cleared ∧ t.port p = { u.port p with
        requestQueue := rest
        responseQueue := (u.port p).responseQueue ++ [answer owned]
        retained := some (answer owned) }) ∧
      ∀ k, k ≠ n → k ≠ p → t.port k = u.port k)

/-- O45. Reset: the pin and the RESET of port 0 put every block at its reset values and hold the
part; the pin's release and the hold's end sample ROLE once nothing holds the part; a RESET of
another port is DENIED; and while the part is held no command but those of the pins and of the
transactions has any effect (R200, R201, R203). The row RESET of port 0 is as log 7 reads the table; an
end with nothing to end has no effect (log 1), and the pin's level comes with the row (log 8). -/
def Obligations.ResetBeginsAndEnds : Prop :=
  ∀ s : State,
    exec .resetNAssert s = .next { s.resetBlocks with resetPin := true } ∧
    (s.held = false →
      exec (.reset 0) s = .next { s.resetBlocks with resetHold := true }) ∧
    (∀ (p : Port) (r : Request) (rest : List Entry), p ≠ 0 → s.Grants p r rest → r.code = 0x13 →
      exec (.reset p) s = .next (s.settle.responded p r rest .denied [])) ∧
    (∀ high : Bool,
      let sampled := { s.link with role := if high then .leader else .follower }
      (s.resetPin = false → exec (.resetNRelease high) s = .next s) ∧
      (s.resetPin = true → s.resetHold = false →
        exec (.resetNRelease high) s = .next { s with resetPin := false, link := sampled }) ∧
      (s.resetPin = true → s.resetHold = true →
        exec (.resetNRelease high) s = .next { s with resetPin := false }) ∧
      (s.resetHold = false → exec (.resetHoldExpiry high) s = .next s) ∧
      (s.resetHold = true → s.resetPin = false →
        exec (.resetHoldExpiry high) s = .next { s with resetHold := false, link := sampled }) ∧
      (s.resetHold = true → s.resetPin = true →
        exec (.resetHoldExpiry high) s = .next { s with resetHold := false })) ∧
    (s.held = true → ∀ i : Instr,
      (∀ p, i ≠ .transactionStart p) → (∀ p m, i ≠ .transactionEnd p m) → i ≠ .resetNAssert →
      (∀ x, i ≠ .resetNRelease x) → (∀ x, i ≠ .resetHoldExpiry x) → exec i s = .next s)

/-! ### The period link (chapter 7) -/

/-- O46. The leader's period timer expires: the period is settled (the missing echoes counted in UP, the
acquire counter and the alignment lost without an echo), the next number is taken and its mark staged,
and the claims are made in the order leaving UP, RX completion, period end, mark processing. The claims
made before are taken first, and a follower's entry into UP is made (log 3); in UP, the services of the
ending period have run to their ends first (R140, R146, R149, R111; log 4). The link stays UP until the
leaving-UP claim is taken, the missing echoes at 3 (log 15). No effect at a follower, with the timer
stopped, in OFF, and while the part is held. -/
def Obligations.PeriodTimerExpiry : Prop :=
  ∀ s : State,
    (s.held = true ∨ s.link.state = .off ∨ s.link.role = .follower ∨ s.link.periodTimer = false →
      exec .periodTimerExpiry s = .next s) ∧
    (s.held = false → s.link.state ≠ .off → s.link.role = .leader → s.link.periodTimer = true →
      let u := s.catchUp
      let n := u.link.period + 1
      let echoed := u.link.echoRecord = some u.link.period
      let leaves := u.link.state = .up ∧ ¬echoed ∧ 3 ≤ u.link.missingEchoes + 1
      let a : State := { u with link := { u.link with
        missingEchoes := if u.link.state = .up then
            (if echoed then 0 else u.link.missingEchoes + 1) else u.link.missingEchoes
        acquire := if u.link.state = .acquire ∧ ¬echoed then 0 else u.link.acquire
        aligned := if echoed then u.link.aligned else false } }
      let v := if u.link.state = .up ∧ ¬leaves then a.runOut else a
      let w := v.burstCut
      exec .periodTimerExpiry s = .next { w with
        link := { a.link with period := n, markTaken := true }
        lane := ⟨.mark n .leader false, some .idle, [], some n⟩
        psu := { w.psu with rxOpen := true }
        claims := u.claims ++ (if leaves then [.leavingUp] else []) ++ v.cutClaims ++
          (if v.psu.rxOpen then [.periodEnd] else []) ++ [.markProcessing n] })

/-- O47. A mark cell arrives. A follower takes it when its echo flag is clear, its role LEADER, its
number at most 4095, and 648 cell times have passed since the last taken mark, or none was taken:
it makes the slip claim in UP when the number is not the next, adopts the number, restarts the loss
timer, counts in ACQUIRE, makes the claims of a taken mark in order, and stages its echo (R141,
R145, R147, R111). Any other mark cell only gives the alignment and ends a burst cut short (R138,
R124). The time since the last taken mark comes with the cell (log 11), the claims made before it are
taken first, and what is left of the transmit period runs out (log 3, log 4). -/
def Obligations.MarkArrival : Prop :=
  ∀ (s : State) (c : MarkCell),
    (s.held = true ∨ s.link.state = .off → exec (.markArrival c) s = .next s) ∧
    (s.held = false → s.link.state ≠ .off →
      let u := s.catchUp
      let valid := c.echo = 0 ∧ c.role = 0 ∧ c.number.toNat < 4096 ∧
        (u.link.markTaken = false ∨ 648 ≤ c.elapsed)
      (c.echo ≠ 1 → s.link.role = .leader ∨ ¬valid → exec (.markArrival c) s =
        .next { u.burstCut with link := { u.link with aligned := true } }) ∧
      (s.link.role = .follower → valid →
        let m : Period := c.number.setWidth 12
        let a : State := { u with link := { u.link with aligned := true } }
        let v := if u.link.state = .up then a.runOut else a
        let w := v.burstCut
        exec (.markArrival c) s = .next { w with
          link := { a.link with
            period := m
            lossTimer := true
            markTaken := true
            acquire := if u.link.state = .acquire then
                (if u.link.acquire = 1 ∧ m = u.link.period + 1 then 2 else 1) else u.link.acquire }
          lane := ⟨v.lane.sending, some (.mark m .follower true), [.idle], some m⟩
          psu := { w.psu with rxOpen := true }
          claims := u.claims ++
            (if u.link.state = .up ∧ m ≠ u.link.period + 1 then [.slip] else []) ++ v.cutClaims ++
            (if v.psu.rxOpen then [.periodEnd] else []) ++ [.markProcessing m] }))

/-- O48. A mark cell with the echo flag arrives. A leader accepts it when its role is FOLLOWER, its
number the current one and not echoed already: the echo record takes it, and in ACQUIRE the counter
rises, at 2 the link being UP with the entering-UP claim made (R142, R146). Any other one only
gives the alignment and ends a burst cut short (R138, R124). And the follower's timers: the loss
timer expires and stops, and in UP the leaving-UP claim is made, in ACQUIRE the counter becomes 0
(R148); its alignment lapses (R138). None has any effect in OFF or while the part is held. The
claims made before are taken first (log 3); the link stays UP until the leaving-UP claim is taken, and
a leader's counter is 0 in UP (log 15). -/
def Obligations.EchoesAndTimers : Prop :=
  (∀ (s : State) (c : MarkCell),
    (s.held = true ∨ s.link.state = .off → exec (.echoArrival c) s = .next s) ∧
    (s.held = false → s.link.state ≠ .off →
      let u := s.catchUp
      let n := u.link.period
      let valid := c.echo = 1 ∧ c.role = 1 ∧ c.number.toNat = n.toNat ∧
        u.link.echoRecord ≠ some n
      let t := u.burstCut
      let l := { u.link with aligned := true }
      (c.echo = 1 → s.link.role = .follower ∨ ¬valid →
        exec (.echoArrival c) s = .next { t with link := l }) ∧
      (s.link.role = .leader → valid →
        (u.link.state = .up → exec (.echoArrival c) s =
          .next { t with link := { l with echoRecord := some n } }) ∧
        (u.link.state = .acquire → u.link.acquire = 1 → u.link.echoRecord = some (n - 1) →
          exec (.echoArrival c) s = .next { t with
            link := { l with
              echoRecord := some n
              state := .up
              acquire := 0
              missingEchoes := 0 }
            claims := t.claims ++ [.enteringUp] }) ∧
        (u.link.state = .acquire → ¬(u.link.acquire = 1 ∧ u.link.echoRecord = some (n - 1)) →
          exec (.echoArrival c) s =
            .next { t with link := { l with echoRecord := some n, acquire := 1 } })))) ∧
  ∀ s : State,
    (s.held = true ∨ s.link.state = .off ∨ s.link.role = .leader →
      exec .lossTimerExpiry s = .next s ∧ exec .alignmentLapse s = .next s) ∧
    (s.held = false → s.link.state ≠ .off → s.link.role = .follower →
      let u := s.catchUp
      exec .alignmentLapse s = .next { s with link := { s.link with aligned := false } } ∧
      (s.link.lossTimer = false → exec .lossTimerExpiry s = .next s) ∧
      (s.link.lossTimer = true → u.link.state = .up → exec .lossTimerExpiry s = .next { u with
        link := { u.link with lossTimer := false }
        claims := u.claims ++ [.leavingUp] }) ∧
      (s.link.lossTimer = true → u.link.state ≠ .up → exec .lossTimerExpiry s = .next { u with
        link := { u.link with lossTimer := false, acquire := 0 } }))

/-- O49. The cells that end a burst cut short. A trailer of the current number also ends an open receive
period, and one whose number is above 4095 is ignored; a lead cell of at most 128 cells whose channel an
RX record holds makes the match claim, unless every standing is NONE; an idle cell does no more (R122,
R124, R127, R143, R209). Without alignment no cell has any effect. The claims made before are taken
first (log 3), and a trailer of another number up to 4095 ends a burst too (log 21). -/
def Obligations.CellsThatEndBursts : Prop :=
  ∀ s : State,
    (s.held = true ∨ s.link.state = .off ∨ s.link.aligned = false →
      (∀ n, exec (.trailerArrival n) s = .next s) ∧
      (∀ c k, exec (.leadCellArrival c k) s = .next s) ∧
      (∀ y, exec (.idleCellArrival y) s = .next s) ∧
      (∀ d b, exec (.payloadCellArrival d b) s = .next s) ∧
      ∀ d, exec (.badCheckCellArrival d) s = .next s) ∧
    (s.held = false → s.link.state ≠ .off → s.link.aligned = true →
      let u := s.catchUp
      let t := u.burstCut
      (∀ y, exec (.idleCellArrival y) s = .next t) ∧
      (∀ n : BitVec 16, 4096 ≤ n.toNat → exec (.trailerArrival n) s = .next u) ∧
      (∀ n : BitVec 16, n.toNat < 4096 → n.toNat ≠ u.link.period.toNat →
        exec (.trailerArrival n) s = .next t) ∧
      (∀ n : BitVec 16, n.toNat = u.link.period.toNat → u.psu.rxOpen = false →
        exec (.trailerArrival n) s = .next t) ∧
      (∀ n : BitVec 16, n.toNat = u.link.period.toNat → u.psu.rxOpen = true →
        exec (.trailerArrival n) s = .next { t with
          psu := { t.psu with rxOpen := false }
          claims := t.claims ++ [.periodEnd] }) ∧
      (∀ c k : Byte, 128 < k.toNat ∨ (∀ h, (u.psu.rxTable.get h).standing = .none) ∨
          u.findChannel .rx c = none →
        exec (.leadCellArrival c k) s = .next t) ∧
      ∀ (c k : Byte) (h j : Handle), k.toNat ≤ 128 → (u.psu.rxTable.get j).standing ≠ .none →
        u.findChannel .rx c = some h →
        exec (.leadCellArrival c k) s =
          .next { t with claims := t.claims ++ [.matchLead h k.toNat] })

/-- O50. A payload cell, or a cell with a bad check, which is a damaged payload cell: outside a
burst it has no effect; inside one, its 16 bytes are stored at the position it arrived at, below
the record's cells, or it is excess and discarded, and at the last announced cell the completion
claim is made (R124, R137). The claims made before are taken first, also where the cell has no effect of
its own (log 3). Bytes of a damaged cell are stored as received: the model's reading
(log 12). -/
def Obligations.PayloadCells : Prop :=
  ∀ (s : State) (data : Payload) (sound : Bool), s.held = false → s.link.state ≠ .off →
    s.link.aligned = true →
    let u := s.catchUp
    exec (.badCheckCellArrival data) s = exec (.payloadCellArrival data false) s ∧
    (u.psu.rxFlight = none → exec (.payloadCellArrival data sound) s = .next u) ∧
    ∀ f, u.psu.rxFlight = some f →
      (f.ended = true → exec (.payloadCellArrival data sound) s = .next u) ∧
      (f.ended = false →
        let cells := (u.psu.rxTable.get f.handle).form.cells
        let last := decide (f.announced ≤ f.arrived + 1)
        let claims := u.claims ++ if last then [.rxCompletion] else []
        (cells ≤ f.arrived → exec (.payloadCellArrival data sound) s = .next { u with
          psu := { u.psu with
            rxFlight := some { f with arrived := f.arrived + 1, excess := true, ended := last } }
          claims := claims }) ∧
        (f.arrived < cells →
          let taken := { u with
            psu := { u.psu with
              rxFlight := some { f with
                arrived := f.arrived + 1
                stored := f.stored + 1
                damaged := f.damaged || !sound
                ended := last } }
            claims := claims }
          (u.stream f.handle = none ∨ (u.record f.handle).generation ≠ f.generation →
            exec (.payloadCellArrival data sound) s = .next taken) ∧
          ∀ st, u.stream f.handle = some st → (u.record f.handle).generation = f.generation →
            let a := 64 * (st.buffer f.buffer).extent.base + 16 * f.arrived
            a + 16 ≤ 32768 → exec (.payloadCellArrival data sound) s =
              .next { taken with memory := Memory.writeBytes u.memory a data.toList }))

/-! ### The claims (chapter 6, 7.6 to 7.8) -/

/-- O51. Claims are taken in the order they were made: a claim's row takes the claims waiting before the
first of its kind, then that one (R16), and has no effect when none of its kind waits, but that
ENTERING_UP may bring a follower into UP (O59) and that the lane's two rows may let cell times pass
(O54, O55) (log 1). What stands before every request, cell and timer: `settle` takes the waiting claims
one after another, first made first, and those that a taken claim makes, until none is left; and
`catchUp` then makes a follower's entry into UP where it is due, once no mark processing claim waits,
with its claim (R16, R145; log 3). -/
def Obligations.ClaimsTakenInOrder : Prop :=
  (∀ s : State,
    (s.claims = [] → s.settle = s) ∧
    (∀ c rest, s.claims = c :: rest →
      s.settle = (State.takeClaim { s with claims := rest } c).settle) ∧
    s.settle.claims = [] ∧
    (s.entryDue = true ↔ s.link.state = .acquire ∧ s.link.role = .follower ∧ s.link.acquire = 2 ∧
      ∀ n, .markProcessing n ∉ s.claims) ∧
    let u := s.settle
    s.catchUp = if u.entryDue then
      { u with
        link := { u.link with state := .up, acquire := 0 }
        notices := tabulate fun p => (u.noticesOf p).enqueue (.link .up) u.link.period }
    else u) ∧
  ∀ (s : State) (i : Instr) (kind : Claim → Prop),
    (i = .markProcessing ∧ kind = (fun c => ∃ n, c = .markProcessing n)) ∨
      (i = .serviceStart ∧ kind = (· = .serviceStart)) ∨
      (i = .txCompletion ∧ kind = (· = .txCompletion)) ∨
      (i = .matchClaim ∧ kind = (fun c => ∃ h k, c = .matchLead h k)) ∨
      (i = .rxCompletion ∧ kind = (· = .rxCompletion)) ∨
      (i = .periodEnd ∧ kind = (· = .periodEnd)) ∨
      (i = .leavingUp ∧ kind = (· = .leavingUp)) ∨
      (i = .enteringUp ∧ kind = (· = .enteringUp)) ∨ (i = .slip ∧ kind = (· = .slip)) →
    (s.held = true ∨ ((i ≠ .enteringUp ∨ s.settle.entryDue = false) ∧ i ≠ .serviceStart ∧
        i ≠ .txCompletion ∧ ∀ c ∈ s.claims, ¬kind c) →
      exec i s = .next s) ∧
    ∀ c rest, s.held = false → s.claims = c :: rest →
      (kind c → exec i s = .next (State.takeClaim { s with claims := rest } c)) ∧
      (¬kind c → (∃ d ∈ rest, kind d) →
        exec i s = exec i (State.takeClaim { s with claims := rest } c))

/-- O52. A pending amendment whose effective point the mark of number n reaches takes effect: the
charge becomes the new contribution, the record its new form with run 0 and last slot none, the new
pair or the kept one with its fills lowered, and AMENDED is queued; before that point nothing
changes (R96 to R103). -/
def Obligations.TakeEffect : Prop :=
  ∀ (s : State) (n : Period) (h : Handle) (st : Stream) (a : Amendment), s.stream h = some st →
    st.pending = some a →
    let d := st.direction
    let p := st.owner
    let both : Residues := tabulate fun k => max (a.old.get k) ((contribution a.params).get k)
    let reached := match a.point with
      | .next => True
      | .period e => (n - e).toNat < 2048
    let kept := { st with params := a.params, missRun := 0, lastSlot := none, pending := none }
    let v := { s with
      table := { s.table with
        loads := s.table.loads.set d (tabulate fun k => (s.table.loads.get d).get k - both.get k +
          (contribution a.params).get k)
        charges := s.table.charges.set d ((s.table.charges.get d).set p.val
          (s.charge p d - units both + units (contribution a.params)) p.isLt) }
      free := match a.pair with
        | some _ => release st.bufferB.extent (release st.bufferA.extent s.free)
        | none => s.free }
    (¬reached → State.takeEffect n s h = s) ∧
    (reached → ∀ x y, a.pair = some (x, y) → State.takeEffect n s h =
      (v.setStream h { kept with
        bufferA := ⟨x, .host, 0⟩, bufferB := ⟨y, .host, 0⟩, parity := .a }).notify p
        (.amended h (s.record h).generation n ((if st.bufferA.owner = .link then 1 else 0) +
          (if st.bufferB.owner = .link then 1 else 0)) false)) ∧
    (reached → a.pair = none → State.takeEffect n s h =
      (v.setStream h { kept with
        bufferA := { st.bufferA with fill := min st.bufferA.fill a.params.cells }
        bufferB := { st.bufferB with fill := min st.bufferB.fill a.params.cells } }).notify p
        (.amended h (s.record h).generation n 0
          (decide (d = .tx ∧ ((st.bufferA.owner = .link ∧ a.params.cells < st.bufferA.fill) ∨
            (st.bufferB.owner = .link ∧ a.params.cells < st.bufferB.fill))))))

/-- O53. Mark processing of period n: the amendments that n reaches take effect; in UP, the TX list and
the RX list hold exactly the records due and served, by class and then by handle, each TX entry at the
offset of the cells before it, the RX table gives every record its standing, and the first entry's
service-start claim is made; not in UP, no list and no standing is left. The notices queued are AMENDED
for each amendment that takes effect and then, in UP, WARN for each record that is to be warned, each by
ascending handle, and no others. No entry of the new lists is absent (R72), and the link stays as it is,
also at the mark that completes an acquire (R112 to R116, R139, R145). -/
def Obligations.MarkProcessing : Prop :=
  ∀ (s : State) (n : Period) (rest : List Claim), s.held = false →
    s.claims = .markProcessing n :: rest → s.recordsLaw → ∃ t, exec .markProcessing s = .next t ∧
      (∀ h, (t.record h).generation = (s.record h).generation) ∧
      (∀ h, s.stream h = none → t.stream h = none) ∧
      (∀ h st, s.stream h = some st → ∃ x, t.stream h = some x ∧
        ((∀ a, st.pending = some a → a.point.reached n = false) → x = st) ∧
        (∀ a, st.pending = some a → a.point.reached n = true →
          x.params = a.params ∧ x.missRun = 0 ∧ x.lastSlot = none ∧ x.pending = none ∧
            x.state = st.state)) ∧
      (∀ p,
        let dropped := fun (st : Stream) (a : Amendment) => if a.pair = none then 0 else
          (if st.bufferA.owner = .link then 1 else 0) + (if st.bufferB.owner = .link then 1 else 0)
        let clipped := fun (st : Stream) (a : Amendment) => decide (a.pair = none ∧
          st.direction = .tx ∧ ((st.bufferA.owner = .link ∧ a.params.cells < st.bufferA.fill) ∨
            (st.bufferB.owner = .link ∧ a.params.cells < st.bufferB.fill)))
        let amended := fun (q : NoticeQueue) (h : Handle) =>
          match s.stream h, (s.stream h).bind Stream.pending with
          | some st, some a =>
            if st.owner = p ∧ a.point.reached n = true then
              q.enqueue (.amended h (s.record h).generation n (dropped st a) (clipped st a))
                s.link.period
            else q
          | _, _ => q
        let warned := fun (q : NoticeQueue) (h : Handle) =>
          match t.stream h with
          | some st =>
            if st.owner = p ∧ st.notify.warn = true ∧ st.state = .live ∧ st.params.lead ≠ 0 ∧
                ((n.toNat + st.params.lead) % 4096) % st.params.interval = st.params.phase ∧
                (st.buffer st.parity).owner = .host then
              q.enqueue (.warn h (s.record h).generation st.params.lead) s.link.period
            else q
          | none => q
        let q := (List.finRange 64).foldl amended (s.noticesOf p)
        t.noticesOf p = if s.link.state = .up then (List.finRange 64).foldl warned q else q) ∧
      (let owes := fun (st : Stream) (d : Direction) => st.direction = d ∧
          (st.state = .live ∨ st.state = .closing .drain) ∧
          n.toNat % st.params.interval = st.params.phase
        let before := fun (h k : Handle) => ∀ x y, t.stream h = some x → t.stream k = some y →
          x.params.serviceClass < y.params.serviceClass ∨
            (x.params.serviceClass = y.params.serviceClass ∧ h < k)
        let formOf := fun (st : Stream) =>
          Form.mk st.params.cells st.params.interval st.params.phase
        (s.link.state = .up →
          (∀ h, h ∈ t.psu.txList.map TxEntry.handle ↔ ∃ st, t.stream h = some st ∧ owes st .tx) ∧
          t.psu.txList.Pairwise (fun x y => before x.handle y.handle) ∧
          (∀ k e, t.psu.txList[k]? = some e → e.absent = false ∧
            e.generation = (t.record e.handle).generation ∧
            (∀ st, t.stream e.handle = some st → e.form = formOf st) ∧
            e.offset = ((t.psu.txList.take k).map fun x => x.form.cells).sum) ∧
          t.psu.txNext = 0 ∧
          (∀ h, h ∈ t.psu.rxList ↔ ∃ st, t.stream h = some st ∧ owes st .rx) ∧
          t.psu.rxList.Pairwise before ∧
          (∀ h st, t.stream h = some st → st.direction = .rx →
            (st.state = .live ∨ st.state = .closing .drain) → t.psu.rxTable.get h =
              ⟨(t.record h).generation, formOf st,
                if n.toNat % st.params.interval = st.params.phase then .due else .notDue⟩) ∧
          (∀ h, (∀ st, t.stream h = some st → st.direction = .rx →
            ¬(st.state = .live ∨ st.state = .closing .drain)) →
            (t.psu.rxTable.get h).standing = .none)) ∧
        (s.link.state ≠ .up → t.psu.txList = [] ∧ t.psu.rxList = [] ∧
          ∀ h, (t.psu.rxTable.get h).standing = .none)) ∧
      t.claims = (rest ++ if t.psu.txList = [] then [] else [.serviceStart]) ∧
      t.link = s.link ∧ t.memory = s.memory ∧ t.ports = s.ports ∧ t.lane = s.lane ∧
      t.psu.txFlight = s.psu.txFlight ∧ t.psu.rxFlight = s.psu.rxFlight

/-- O54. The service start of the next TX entry, decided against the record as it stands: an idle
slot where the record is VACANT, of another generation, not served or of another form, or is no longer
on the list (R72, R80; log 20); the burst
where the due buffer is LINK; a STARVED miss, or the end of a drain, where it is HOST (R117, R118,
R121). Where no claim waits but an entry is left, the row lets the cell times pass in which
the slot before goes out; with no entry left it has no effect (log 5). -/
def Obligations.ServiceStart : Prop :=
  ∀ s : State,
    (s.held = true ∨ (s.claims = [] ∧ s.entryDue = false ∧ s.psu.txList[s.psu.txNext]? = none) →
      exec .serviceStart s = .next s) ∧
    (∀ t c rest e, s.held = false → s.link.state ≠ .off → s.claims = [] → s.entryDue = false →
      s.psu.txList[s.psu.txNext]? = some e → s.lane.queue = c :: rest → s.cellTime = .next t →
      exec .serviceStart s = exec .serviceStart t) ∧
    (∀ rest, s.held = false → s.claims = .serviceStart :: rest →
      s.psu.txList[s.psu.txNext]? = none →
      exec .serviceStart s = .next { s with claims := rest }) ∧
    ∀ rest e, s.held = false → s.claims = .serviceStart :: rest →
      s.psu.txList[s.psu.txNext]? = some e →
      let h := e.handle
      let w := { s with claims := rest, psu := { s.psu with txNext := s.psu.txNext + 1 } }
      let sent := fun (t : State) (cells : List LaneCell) =>
        { t with
          lane := { t.lane with
            queue := t.lane.queue ++
              (cells ++ List.replicate (e.form.cells + 1 - cells.length) .idle) } }
      let stands := fun (st : Stream) => (s.record h).generation = e.generation ∧
        (st.state = .live ∨ st.state = .closing .drain) ∧ e.absent = false ∧
        e.form = ⟨st.params.cells, st.params.interval, st.params.phase⟩
      ((∀ st, s.stream h = some st → ¬stands st) → exec .serviceStart s = .next (sent w [])) ∧
      ∀ st, s.stream h = some st → stands st →
        let b := st.buffer st.parity
        (b.owner = .link → exec .serviceStart s = .next (sent
          { w.setStream h { st.setBuffer st.parity { b with owner := .service } with
              lastSlot := some e.offset } with
            psu := { w.psu with txFlight := some ⟨h, e.generation, st.parity, b.fill⟩ } }
          (.lead st.channel b.fill :: (List.range b.fill).map fun k =>
            .payload (64 * b.extent.base + 16 * k)))) ∧
        (b.owner = .host → st.state = .live → exec .serviceStart s = .next (sent
          (w.miss h .starved)
          (if st.params.missPolicy = some .empty then [.lead st.channel 0] else []))) ∧
        (b.owner = .host → st.state = .closing .drain → exec .serviceStart s =
          .next (sent (w.retire h true) []))

/-- O55. The completion of a TX service: the buffer back to HOST with its fill, the next parity
toggled, the run 0, DONE where it is asked for, and a record in CLOSING retired in mode IMMEDIATE,
and in mode DRAIN with no buffer LINK; nothing of the record where its generation differs (R119,
R81, R84). Where no claim waits but a service is in flight, the row lets the cell times pass in which
the burst goes out; with none in flight it has no effect (log 5). -/
def Obligations.TxCompletion : Prop :=
  ∀ s : State,
    (s.held = true ∨ (s.claims = [] ∧ s.entryDue = false ∧ s.psu.txFlight = none) →
      exec .txCompletion s = .next s) ∧
    (∀ t c rest f, s.held = false → s.link.state ≠ .off → s.claims = [] → s.entryDue = false →
      s.psu.txFlight = some f → s.lane.queue = c :: rest → s.cellTime = .next t →
      exec .txCompletion s = exec .txCompletion t) ∧
    ∀ rest, s.held = false → s.claims = .txCompletion :: rest →
      let v := { s with claims := rest, psu := { s.psu with txFlight := none } }
      (s.psu.txFlight = none → exec .txCompletion s = .next v) ∧
      ∀ f, s.psu.txFlight = some f →
        let h := f.handle
        (s.stream h = none ∨ (s.record h).generation ≠ f.generation →
          exec .txCompletion s = .next v) ∧
        ∀ st, s.stream h = some st → (s.record h).generation = f.generation →
          let b := st.buffer f.buffer
          let x := { st.setBuffer f.buffer { b with owner := .host } with
            parity := st.parity.other, missRun := 0 }
          let t := (v.setStream h x).notifyIf st.notify.done st.owner
            (.done h f.generation f.buffer b.fill ⟨false, false⟩)
          let ends := st.state = .closing .immediate ∨
            (st.state = .closing .drain ∧ x.bufferA.owner ≠ .link ∧ x.bufferB.owner ≠ .link)
          (ends → exec .txCompletion s = .next (t.retire h true)) ∧
          (¬ends → exec .txCompletion s = .next t)

/-- O56. The match of a lead cell, decided against the record and its table entry as they stand,
row by row: discarded; OFFSCHEDULE; an OVERRUN miss, or the end of a drain, where the due buffer is
HOST; and the burst received where it is LINK, which a count of 0 ends at once (R123, R124). -/
def Obligations.MatchClaim : Prop :=
  ∀ (s : State) (h : Handle) (count : Nat) (rest : List Claim), s.held = false →
    s.claims = .matchLead h count :: rest →
    let v := { s with claims := rest }
    let e := s.psu.rxTable.get h
    let stands := fun (st : Stream) => (s.record h).generation = e.generation ∧
      (st.state = .live ∨ st.state = .closing .drain) ∧ e.standing ≠ .none ∧
      e.form = ⟨st.params.cells, st.params.interval, st.params.phase⟩
    let w := { v with psu := { v.psu with
      rxTable := v.psu.rxTable.set h.val { e with standing := .received } h.isLt } }
    ((∀ st, s.stream h = some st → ¬stands st) → exec .matchClaim s = .next v) ∧
    ∀ st, s.stream h = some st → stands st →
      let b := st.buffer st.parity
      (e.standing ≠ .due → exec .matchClaim s = .next
        (v.setStream h { st with policing := { st.policing with offSchedule := true } })) ∧
      (e.standing = .due → b.owner = .host → st.state = .live →
        exec .matchClaim s = .next (w.miss h .overrun)) ∧
      (e.standing = .due → b.owner = .host → st.state = .closing .drain →
        exec .matchClaim s = .next (v.retire h true)) ∧
      (e.standing = .due → b.owner = .link → exec .matchClaim s = .next
        { w.setStream h (st.setBuffer st.parity { b with owner := .service, fill := 0 }) with
          psu := { w.psu with
            rxFlight := some
              ⟨h, e.generation, st.parity, count, 0, 0, false, false, decide (count = 0)⟩ }
          claims := rest ++ if count = 0 then [.rxCompletion] else [] })

/-- O57. The completion of an RX burst. Sound: the buffer HOST with the cells stored, the next
parity toggled, the run 0, the policing flags reported and cleared. Damaged: the buffer LINK with
fill 0, EXCESS kept on the record, and a DAMAGED miss. Then a record in CLOSING ends as at a TX
completion (R125, R126, R82, R84). -/
def Obligations.RxCompletion : Prop :=
  ∀ (s : State) (rest : List Claim), s.held = false → s.claims = .rxCompletion :: rest →
    let v := { s with claims := rest, psu := { s.psu with rxFlight := none } }
    (s.psu.rxFlight = none → exec .rxCompletion s = .next v) ∧
    ∀ f, s.psu.rxFlight = some f →
      let h := f.handle
      (s.stream h = none ∨ (s.record h).generation ≠ f.generation →
        exec .rxCompletion s = .next v) ∧
      ∀ st, s.stream h = some st → (s.record h).generation = f.generation →
        let b := st.buffer f.buffer
        let flags := { st.policing with excess := st.policing.excess || f.excess }
        let sound := { st.setBuffer f.buffer { b with owner := .host, fill := f.stored } with
          parity := st.parity.other, missRun := 0, policing := ⟨false, false⟩ }
        let damaged := { st.setBuffer f.buffer { b with owner := .link, fill := 0 } with
          policing := flags }
        let x := if f.damaged then damaged else sound
        let t := if f.damaged then (v.setStream h damaged).miss h .damaged
          else (v.setStream h sound).notifyIf st.notify.done st.owner
            (.done h f.generation f.buffer f.stored flags)
        let ends := st.state = .closing .immediate ∨
          (st.state = .closing .drain ∧ x.bufferA.owner ≠ .link ∧ x.bufferB.owner ≠ .link)
        (ends → exec .rxCompletion s = .next (t.retire h true)) ∧
        (¬ends → exec .rxCompletion s = .next t)

/-- O58. The end of a receive period: each listed handle still DUE, its record the one listed, served
and of the form listed, is missed (STARVED with the due buffer HOST, ABSENT with it LINK), and SUSPENDED
where the miss meets its limit, or, draining with it HOST, retired; every other record stays; and every
standing is NONE and the list empty (R127, R128). The notices queued are MISS where it is asked for,
SUSPENDED, and CLOSED with the earlier notices of its handle gone, in the list's order, the records that
retire among themselves by ascending handle (R23) at the places of the list where one retires (log 22),
and no others. -/
def Obligations.PeriodEnd : Prop :=
  ∀ (s : State) (rest : List Claim), s.held = false → s.claims = .periodEnd :: rest →
    s.psu.rxList.Nodup → ∃ t, exec .periodEnd s = .next t ∧ t.claims = rest ∧ t.link = s.link ∧
      t.memory = s.memory ∧ t.ports = s.ports ∧ t.psu.rxList = [] ∧
      (∀ h, t.psu.rxTable.get h = { s.psu.rxTable.get h with standing := .none }) ∧
      let decided := fun (h : Handle) (st : Stream) =>
        let e := s.psu.rxTable.get h
        decide (h ∈ s.psu.rxList ∧ e.standing = .due ∧ (s.record h).generation = e.generation ∧
          (st.state = .live ∨ st.state = .closing .drain) ∧
          e.form = ⟨st.params.cells, st.params.interval, st.params.phase⟩)
      let ends := fun (st : Stream) =>
        decide ((st.buffer st.parity).owner = .host ∧ st.state = .closing .drain)
      let misses := fun (st : Stream) => decide ((st.buffer st.parity).owner = .link ∨
        ((st.buffer st.parity).owner = .host ∧ st.state = .live))
      (∀ h,
        let g := (s.record h).generation
        ((∀ st, s.stream h = some st → decided h st = false) → t.record h = s.record h) ∧
        ∀ st, s.stream h = some st → decided h st = true →
          (misses st = true → t.record h = ⟨g, some st.missed⟩) ∧
          (ends st = true → t.record h = ⟨g + 1, none⟩)) ∧
      let retires := fun (h : Handle) =>
        match s.stream h with
        | some st => decided h st && ends st
        | none => false
      ∃ w : List Handle, w.length = s.psu.rxList.length ∧
        (∀ (k : Nat) h, s.psu.rxList[k]? = some h → retires h = false → w[k]? = some h) ∧
        w.filter retires =
          (List.finRange 64).filter (fun h => decide (h ∈ s.psu.rxList) && retires h) ∧
      ∀ p,
        let noticed := fun (q : NoticeQueue) (h : Handle) =>
          match s.stream h with
          | some st =>
            let g := (s.record h).generation
            let cause : MissCause :=
              if (st.buffer st.parity).owner = .host then .starved else .absent
            let missed := if st.notify.miss then
                q.enqueue (.miss h g cause st.missed.missRun) s.link.period else q
            if st.owner = p ∧ decided h st = true then
              if ends st then
                { q with entries := q.entries.filter fun m => m.report.handle? ≠ some h }.enqueue
                  (.closed h g) s.link.period
              else if misses st then
                if st.state = .live ∧ st.params.missLimit ≠ 0 ∧
                    st.missed.missRun = st.params.missLimit then
                  missed.enqueue (.suspended h g .misses) s.link.period
                else missed
              else q
            else q
          | none => q
        t.noticesOf p = w.foldl noticed (s.noticesOf p)

/-- O59. The claims of the Link Controller. Entering UP and a slip queue LINK to every port and change
nothing else, but that a follower which has taken its second mark in sequence, and whose mark processing
claim has been taken, goes UP as it makes the claim (R145 to R147). Leaving UP drops the lists, the
standings and the services, returns their buffers to LINK, suspends the LIVE records that HOLD and
retires those in CLOSING, each with its notice by ascending handle, then queues LINK(DOWN) to every
port, and no other notice, and puts the link in ACQUIRE with its counters 0; the lane and the receive
period are cut, but where a leader has opened the next period already; it is dropped when the link is
not UP (R150, R148, R149, R134, R143, R153). The link moves to ACQUIRE as the claim is taken (log 15).
-/
def Obligations.LinkClaims : Prop :=
  ∀ (s : State) (rest : List Claim), s.held = false →
    (s.claims = .enteringUp :: rest → exec .enteringUp s = .next { s with
      claims := rest
      notices := tabulate fun p => (s.noticesOf p).enqueue (.link .up) s.link.period }) ∧
    (s.claims = [] → s.link.state = .acquire → s.link.role = .follower → s.link.acquire = 2 →
      exec .enteringUp s = .next { s with
        link := { s.link with state := .up, acquire := 0 }
        notices := tabulate fun p => (s.noticesOf p).enqueue (.link .up) s.link.period }) ∧
    (s.claims = .slip :: rest → exec .slip s = .next { s with
      claims := rest
      notices := tabulate fun p => (s.noticesOf p).enqueue (.link .slip) s.link.period }) ∧
    (s.claims = .leavingUp :: rest → s.link.state ≠ .up →
      exec .leavingUp s = .next { s with claims := rest }) ∧
    (s.claims = .leavingUp :: rest → s.link.state = .up → ∃ t, exec .leavingUp s = .next t ∧
      t.link = { s.link with state := .acquire, acquire := 0, missingEchoes := 0 } ∧
      t.claims = rest ∧ t.memory = s.memory ∧ t.ports = s.ports ∧
      t.psu.txList = [] ∧ t.psu.rxList = [] ∧ t.psu.txFlight = none ∧ t.psu.rxFlight = none ∧
      (∀ h, (t.psu.rxTable.get h).standing = .none) ∧
      ((∀ n, .markProcessing n ∉ rest) →
        t.lane = ⟨s.lane.sending, none, [], none⟩ ∧ t.psu.rxOpen = false) ∧
      (∀ n, .markProcessing n ∈ rest → t.lane = s.lane ∧ t.psu.rxOpen = s.psu.rxOpen) ∧
      (∀ p,
        let noticed := fun (q : NoticeQueue) (h : Handle) =>
          match s.stream h with
          | some st =>
            let g := (s.record h).generation
            if st.owner = p ∧ st.isClosing = true then
              { q with entries := q.entries.filter fun m => m.report.handle? ≠ some h }.enqueue
                (.closed h g) s.link.period
            else if st.owner = p ∧ st.state = .live ∧ st.linkPolicy = .hold then
              q.enqueue (.suspended h g .link) s.link.period
            else q
          | none => q
        t.noticesOf p = ((List.finRange 64).foldl noticed (s.noticesOf p)).enqueue (.link .down)
          s.link.period) ∧
      (∀ h, s.stream h = none → t.record h = s.record h) ∧
      ∀ h st, s.stream h = some st →
        let g := (s.record h).generation
        let tx := fun (n : BufferName) => ∃ f, s.psu.txFlight = some f ∧ f.handle = h ∧
          f.generation = g ∧ f.buffer = n
        let rx := fun (n : BufferName) => ∃ f, s.psu.rxFlight = some f ∧ f.handle = h ∧
          f.generation = g ∧ f.buffer = n
        (st.isClosing = true → t.record h = ⟨g + 1, none⟩) ∧
        (st.isClosing = false → ∃ x, t.record h = ⟨g, some x⟩ ∧
          x.state = (if st.state = .live ∧ st.linkPolicy = .hold then .suspended .link
            else st.state) ∧
          x.parity = st.parity ∧ x.missRun = st.missRun ∧ x.params = st.params ∧
          x.pending = st.pending ∧
          ∀ n, ((tx n ∨ rx n) → st.direction = .tx →
              x.buffer n = { st.buffer n with owner := .link }) ∧
            ((tx n ∨ rx n) → st.direction = .rx →
              x.buffer n = { st.buffer n with owner := .link, fill := 0 }) ∧
            (¬tx n → ¬rx n → x.buffer n = st.buffer n)))

/-! ### Tenants (10.1 to 10.3) -/

/-- O60. What a request of a port other than 0 cannot reach: another port's records and the bytes
of their buffers, another port's queues, notices and charges, the quotas, and the link (R191). A row
out of its turn has no effect: the model's choice (log 1). -/
def Obligations.TenantIsolation : Prop :=
  ∀ (i : Instr) (p : Port) (s t : State), requestRow i = some p → p ≠ 0 → exec i s = .next t →
    let u := s.settle
    u.recordsLaw → u.extentLaw → t = s ∨
      ((∀ h st, u.stream h = some st → st.owner ≠ p → t.record h = u.record h ∧
        ∀ e ∈ st.extents, ∀ a, 64 * e.base ≤ a → a < 64 * (e.base + e.length) →
          Memory.read t.memory a = Memory.read u.memory a) ∧
      (∀ k, k ≠ p → t.port k = u.port k ∧ t.noticesOf k = u.noticesOf k ∧
        ∀ d, t.charge k d = u.charge k d) ∧
      t.table.quotas = u.table.quotas ∧ t.link = u.link)
end

