-- ==== Sys2Proof/Laws/State.lean ====
section
/-! SUPPORT. What each update of the state leaves alone and what it writes, field by field: true by
unfolding, tagged for simp, so that no proof unfolds a record update. -/

namespace Sys2Proof.Machine

/-! ### setRecord -/

@[simp] theorem State.setRecord_free (s : State) (h : Handle) (r : Record) :
    (s.setRecord h r).free = s.free := rfl

@[simp] theorem State.setRecord_memory (s : State) (h : Handle) (r : Record) :
    (s.setRecord h r).memory = s.memory := rfl

@[simp] theorem State.setRecord_psu (s : State) (h : Handle) (r : Record) :
    (s.setRecord h r).psu = s.psu := rfl

@[simp] theorem State.setRecord_claims (s : State) (h : Handle) (r : Record) :
    (s.setRecord h r).claims = s.claims := rfl

@[simp] theorem State.setRecord_link (s : State) (h : Handle) (r : Record) :
    (s.setRecord h r).link = s.link := rfl

@[simp] theorem State.setRecord_lane (s : State) (h : Handle) (r : Record) :
    (s.setRecord h r).lane = s.lane := rfl

@[simp] theorem State.setRecord_notices (s : State) (h : Handle) (r : Record) :
    (s.setRecord h r).notices = s.notices := rfl

@[simp] theorem State.setRecord_ports (s : State) (h : Handle) (r : Record) :
    (s.setRecord h r).ports = s.ports := rfl

@[simp] theorem State.setRecord_resetPin (s : State) (h : Handle) (r : Record) :
    (s.setRecord h r).resetPin = s.resetPin := rfl

@[simp] theorem State.setRecord_resetHold (s : State) (h : Handle) (r : Record) :
    (s.setRecord h r).resetHold = s.resetHold := rfl

@[simp] theorem State.setRecord_pending (s : State) (h : Handle) (r : Record) :
    (s.setRecord h r).pending = s.pending := rfl

@[simp] theorem State.setRecord_tagMap (s : State) (h : Handle) (r : Record) :
    (s.setRecord h r).table.tagMap = s.table.tagMap := rfl

@[simp] theorem State.setRecord_channelMap (s : State) (h : Handle) (r : Record) :
    (s.setRecord h r).table.channelMap = s.table.channelMap := rfl

@[simp] theorem State.setRecord_arbiter (s : State) (h : Handle) (r : Record) :
    (s.setRecord h r).table.arbiter = s.table.arbiter := rfl

@[simp] theorem State.setRecord_loads (s : State) (h : Handle) (r : Record) :
    (s.setRecord h r).table.loads = s.table.loads := rfl

@[simp] theorem State.setRecord_charges (s : State) (h : Handle) (r : Record) :
    (s.setRecord h r).table.charges = s.table.charges := rfl

@[simp] theorem State.setRecord_quotas (s : State) (h : Handle) (r : Record) :
    (s.setRecord h r).table.quotas = s.table.quotas := rfl

/-! ### setStream -/

@[simp] theorem State.setStream_free (s : State) (h : Handle) (st : Stream) :
    (s.setStream h st).free = s.free := rfl

@[simp] theorem State.setStream_memory (s : State) (h : Handle) (st : Stream) :
    (s.setStream h st).memory = s.memory := rfl

@[simp] theorem State.setStream_psu (s : State) (h : Handle) (st : Stream) :
    (s.setStream h st).psu = s.psu := rfl

@[simp] theorem State.setStream_claims (s : State) (h : Handle) (st : Stream) :
    (s.setStream h st).claims = s.claims := rfl

@[simp] theorem State.setStream_link (s : State) (h : Handle) (st : Stream) :
    (s.setStream h st).link = s.link := rfl

@[simp] theorem State.setStream_lane (s : State) (h : Handle) (st : Stream) :
    (s.setStream h st).lane = s.lane := rfl

@[simp] theorem State.setStream_notices (s : State) (h : Handle) (st : Stream) :
    (s.setStream h st).notices = s.notices := rfl

@[simp] theorem State.setStream_ports (s : State) (h : Handle) (st : Stream) :
    (s.setStream h st).ports = s.ports := rfl

@[simp] theorem State.setStream_resetPin (s : State) (h : Handle) (st : Stream) :
    (s.setStream h st).resetPin = s.resetPin := rfl

@[simp] theorem State.setStream_resetHold (s : State) (h : Handle) (st : Stream) :
    (s.setStream h st).resetHold = s.resetHold := rfl

@[simp] theorem State.setStream_pending (s : State) (h : Handle) (st : Stream) :
    (s.setStream h st).pending = s.pending := rfl

@[simp] theorem State.setStream_tagMap (s : State) (h : Handle) (st : Stream) :
    (s.setStream h st).table.tagMap = s.table.tagMap := rfl

@[simp] theorem State.setStream_channelMap (s : State) (h : Handle) (st : Stream) :
    (s.setStream h st).table.channelMap = s.table.channelMap := rfl

@[simp] theorem State.setStream_arbiter (s : State) (h : Handle) (st : Stream) :
    (s.setStream h st).table.arbiter = s.table.arbiter := rfl

@[simp] theorem State.setStream_loads (s : State) (h : Handle) (st : Stream) :
    (s.setStream h st).table.loads = s.table.loads := rfl

@[simp] theorem State.setStream_charges (s : State) (h : Handle) (st : Stream) :
    (s.setStream h st).table.charges = s.table.charges := rfl

@[simp] theorem State.setStream_quotas (s : State) (h : Handle) (st : Stream) :
    (s.setStream h st).table.quotas = s.table.quotas := rfl

/-! ### setFree -/

@[simp] theorem State.setFree_table (s : State) (l : List Extent) :
    (s.setFree l).table = s.table := rfl

@[simp] theorem State.setFree_memory (s : State) (l : List Extent) :
    (s.setFree l).memory = s.memory := rfl

@[simp] theorem State.setFree_psu (s : State) (l : List Extent) :
    (s.setFree l).psu = s.psu := rfl

@[simp] theorem State.setFree_claims (s : State) (l : List Extent) :
    (s.setFree l).claims = s.claims := rfl

@[simp] theorem State.setFree_link (s : State) (l : List Extent) :
    (s.setFree l).link = s.link := rfl

@[simp] theorem State.setFree_lane (s : State) (l : List Extent) :
    (s.setFree l).lane = s.lane := rfl

@[simp] theorem State.setFree_notices (s : State) (l : List Extent) :
    (s.setFree l).notices = s.notices := rfl

@[simp] theorem State.setFree_ports (s : State) (l : List Extent) :
    (s.setFree l).ports = s.ports := rfl

@[simp] theorem State.setFree_resetPin (s : State) (l : List Extent) :
    (s.setFree l).resetPin = s.resetPin := rfl

@[simp] theorem State.setFree_resetHold (s : State) (l : List Extent) :
    (s.setFree l).resetHold = s.resetHold := rfl

@[simp] theorem State.setFree_pending (s : State) (l : List Extent) :
    (s.setFree l).pending = s.pending := rfl

/-! ### recharge -/

@[simp] theorem State.recharge_free (s : State) (p : Port) (d : Direction) (x y : Residues) :
    (s.recharge p d x y).free = s.free := rfl

@[simp] theorem State.recharge_memory (s : State) (p : Port) (d : Direction) (x y : Residues) :
    (s.recharge p d x y).memory = s.memory := rfl

@[simp] theorem State.recharge_psu (s : State) (p : Port) (d : Direction) (x y : Residues) :
    (s.recharge p d x y).psu = s.psu := rfl

@[simp] theorem State.recharge_claims (s : State) (p : Port) (d : Direction) (x y : Residues) :
    (s.recharge p d x y).claims = s.claims := rfl

@[simp] theorem State.recharge_link (s : State) (p : Port) (d : Direction) (x y : Residues) :
    (s.recharge p d x y).link = s.link := rfl

@[simp] theorem State.recharge_lane (s : State) (p : Port) (d : Direction) (x y : Residues) :
    (s.recharge p d x y).lane = s.lane := rfl

@[simp] theorem State.recharge_notices (s : State) (p : Port) (d : Direction) (x y : Residues) :
    (s.recharge p d x y).notices = s.notices := rfl

@[simp] theorem State.recharge_ports (s : State) (p : Port) (d : Direction) (x y : Residues) :
    (s.recharge p d x y).ports = s.ports := rfl

@[simp] theorem State.recharge_resetPin (s : State) (p : Port) (d : Direction) (x y : Residues) :
    (s.recharge p d x y).resetPin = s.resetPin := rfl

@[simp] theorem State.recharge_resetHold (s : State) (p : Port) (d : Direction) (x y : Residues) :
    (s.recharge p d x y).resetHold = s.resetHold := rfl

@[simp] theorem State.recharge_pending (s : State) (p : Port) (d : Direction) (x y : Residues) :
    (s.recharge p d x y).pending = s.pending := rfl

@[simp] theorem State.recharge_records (s : State) (p : Port) (d : Direction) (x y : Residues) :
    (s.recharge p d x y).table.records = s.table.records := rfl

@[simp] theorem State.recharge_tagMap (s : State) (p : Port) (d : Direction) (x y : Residues) :
    (s.recharge p d x y).table.tagMap = s.table.tagMap := rfl

@[simp] theorem State.recharge_channelMap (s : State) (p : Port) (d : Direction) (x y : Residues) :
    (s.recharge p d x y).table.channelMap = s.table.channelMap := rfl

@[simp] theorem State.recharge_arbiter (s : State) (p : Port) (d : Direction) (x y : Residues) :
    (s.recharge p d x y).table.arbiter = s.table.arbiter := rfl

@[simp] theorem State.recharge_quotas (s : State) (p : Port) (d : Direction) (x y : Residues) :
    (s.recharge p d x y).table.quotas = s.table.quotas := rfl

/-! ### addMapEntries -/

@[simp] theorem State.addMapEntries_free (s : State) (h : Handle) (st : Stream) :
    (s.addMapEntries h st).free = s.free := rfl

@[simp] theorem State.addMapEntries_memory (s : State) (h : Handle) (st : Stream) :
    (s.addMapEntries h st).memory = s.memory := rfl

@[simp] theorem State.addMapEntries_psu (s : State) (h : Handle) (st : Stream) :
    (s.addMapEntries h st).psu = s.psu := rfl

@[simp] theorem State.addMapEntries_claims (s : State) (h : Handle) (st : Stream) :
    (s.addMapEntries h st).claims = s.claims := rfl

@[simp] theorem State.addMapEntries_link (s : State) (h : Handle) (st : Stream) :
    (s.addMapEntries h st).link = s.link := rfl

@[simp] theorem State.addMapEntries_lane (s : State) (h : Handle) (st : Stream) :
    (s.addMapEntries h st).lane = s.lane := rfl

@[simp] theorem State.addMapEntries_notices (s : State) (h : Handle) (st : Stream) :
    (s.addMapEntries h st).notices = s.notices := rfl

@[simp] theorem State.addMapEntries_ports (s : State) (h : Handle) (st : Stream) :
    (s.addMapEntries h st).ports = s.ports := rfl

@[simp] theorem State.addMapEntries_resetPin (s : State) (h : Handle) (st : Stream) :
    (s.addMapEntries h st).resetPin = s.resetPin := rfl

@[simp] theorem State.addMapEntries_resetHold (s : State) (h : Handle) (st : Stream) :
    (s.addMapEntries h st).resetHold = s.resetHold := rfl

@[simp] theorem State.addMapEntries_pending (s : State) (h : Handle) (st : Stream) :
    (s.addMapEntries h st).pending = s.pending := rfl

@[simp] theorem State.addMapEntries_records (s : State) (h : Handle) (st : Stream) :
    (s.addMapEntries h st).table.records = s.table.records := rfl

@[simp] theorem State.addMapEntries_arbiter (s : State) (h : Handle) (st : Stream) :
    (s.addMapEntries h st).table.arbiter = s.table.arbiter := rfl

@[simp] theorem State.addMapEntries_loads (s : State) (h : Handle) (st : Stream) :
    (s.addMapEntries h st).table.loads = s.table.loads := rfl

@[simp] theorem State.addMapEntries_charges (s : State) (h : Handle) (st : Stream) :
    (s.addMapEntries h st).table.charges = s.table.charges := rfl

@[simp] theorem State.addMapEntries_quotas (s : State) (h : Handle) (st : Stream) :
    (s.addMapEntries h st).table.quotas = s.table.quotas := rfl

/-! ### removeMapEntries -/

@[simp] theorem State.removeMapEntries_free (s : State) (h : Handle) :
    (s.removeMapEntries h).free = s.free := rfl

@[simp] theorem State.removeMapEntries_memory (s : State) (h : Handle) :
    (s.removeMapEntries h).memory = s.memory := rfl

@[simp] theorem State.removeMapEntries_psu (s : State) (h : Handle) :
    (s.removeMapEntries h).psu = s.psu := rfl

@[simp] theorem State.removeMapEntries_claims (s : State) (h : Handle) :
    (s.removeMapEntries h).claims = s.claims := rfl

@[simp] theorem State.removeMapEntries_link (s : State) (h : Handle) :
    (s.removeMapEntries h).link = s.link := rfl

@[simp] theorem State.removeMapEntries_lane (s : State) (h : Handle) :
    (s.removeMapEntries h).lane = s.lane := rfl

@[simp] theorem State.removeMapEntries_notices (s : State) (h : Handle) :
    (s.removeMapEntries h).notices = s.notices := rfl

@[simp] theorem State.removeMapEntries_ports (s : State) (h : Handle) :
    (s.removeMapEntries h).ports = s.ports := rfl

@[simp] theorem State.removeMapEntries_resetPin (s : State) (h : Handle) :
    (s.removeMapEntries h).resetPin = s.resetPin := rfl

@[simp] theorem State.removeMapEntries_resetHold (s : State) (h : Handle) :
    (s.removeMapEntries h).resetHold = s.resetHold := rfl

@[simp] theorem State.removeMapEntries_pending (s : State) (h : Handle) :
    (s.removeMapEntries h).pending = s.pending := rfl

@[simp] theorem State.removeMapEntries_records (s : State) (h : Handle) :
    (s.removeMapEntries h).table.records = s.table.records := rfl

@[simp] theorem State.removeMapEntries_arbiter (s : State) (h : Handle) :
    (s.removeMapEntries h).table.arbiter = s.table.arbiter := rfl

@[simp] theorem State.removeMapEntries_loads (s : State) (h : Handle) :
    (s.removeMapEntries h).table.loads = s.table.loads := rfl

@[simp] theorem State.removeMapEntries_charges (s : State) (h : Handle) :
    (s.removeMapEntries h).table.charges = s.table.charges := rfl

@[simp] theorem State.removeMapEntries_quotas (s : State) (h : Handle) :
    (s.removeMapEntries h).table.quotas = s.table.quotas := rfl

/-! ### setQuota -/

@[simp] theorem State.setQuota_free (s : State) (n : Port) (d : Direction) (q : Nat) :
    (s.setQuota n d q).free = s.free := rfl

@[simp] theorem State.setQuota_memory (s : State) (n : Port) (d : Direction) (q : Nat) :
    (s.setQuota n d q).memory = s.memory := rfl

@[simp] theorem State.setQuota_psu (s : State) (n : Port) (d : Direction) (q : Nat) :
    (s.setQuota n d q).psu = s.psu := rfl

@[simp] theorem State.setQuota_claims (s : State) (n : Port) (d : Direction) (q : Nat) :
    (s.setQuota n d q).claims = s.claims := rfl

@[simp] theorem State.setQuota_link (s : State) (n : Port) (d : Direction) (q : Nat) :
    (s.setQuota n d q).link = s.link := rfl

@[simp] theorem State.setQuota_lane (s : State) (n : Port) (d : Direction) (q : Nat) :
    (s.setQuota n d q).lane = s.lane := rfl

@[simp] theorem State.setQuota_notices (s : State) (n : Port) (d : Direction) (q : Nat) :
    (s.setQuota n d q).notices = s.notices := rfl

@[simp] theorem State.setQuota_ports (s : State) (n : Port) (d : Direction) (q : Nat) :
    (s.setQuota n d q).ports = s.ports := rfl

@[simp] theorem State.setQuota_resetPin (s : State) (n : Port) (d : Direction) (q : Nat) :
    (s.setQuota n d q).resetPin = s.resetPin := rfl

@[simp] theorem State.setQuota_resetHold (s : State) (n : Port) (d : Direction) (q : Nat) :
    (s.setQuota n d q).resetHold = s.resetHold := rfl

@[simp] theorem State.setQuota_pending (s : State) (n : Port) (d : Direction) (q : Nat) :
    (s.setQuota n d q).pending = s.pending := rfl

@[simp] theorem State.setQuota_records (s : State) (n : Port) (d : Direction) (q : Nat) :
    (s.setQuota n d q).table.records = s.table.records := rfl

@[simp] theorem State.setQuota_tagMap (s : State) (n : Port) (d : Direction) (q : Nat) :
    (s.setQuota n d q).table.tagMap = s.table.tagMap := rfl

@[simp] theorem State.setQuota_channelMap (s : State) (n : Port) (d : Direction) (q : Nat) :
    (s.setQuota n d q).table.channelMap = s.table.channelMap := rfl

@[simp] theorem State.setQuota_arbiter (s : State) (n : Port) (d : Direction) (q : Nat) :
    (s.setQuota n d q).table.arbiter = s.table.arbiter := rfl

@[simp] theorem State.setQuota_loads (s : State) (n : Port) (d : Direction) (q : Nat) :
    (s.setQuota n d q).table.loads = s.table.loads := rfl

@[simp] theorem State.setQuota_charges (s : State) (n : Port) (d : Direction) (q : Nat) :
    (s.setQuota n d q).table.charges = s.table.charges := rfl

/-! ### advance -/

@[simp] theorem State.advance_free (s : State) (p : Port) :
    (s.advance p).free = s.free := rfl

@[simp] theorem State.advance_memory (s : State) (p : Port) :
    (s.advance p).memory = s.memory := rfl

@[simp] theorem State.advance_psu (s : State) (p : Port) :
    (s.advance p).psu = s.psu := rfl

@[simp] theorem State.advance_claims (s : State) (p : Port) :
    (s.advance p).claims = s.claims := rfl

@[simp] theorem State.advance_link (s : State) (p : Port) :
    (s.advance p).link = s.link := rfl

@[simp] theorem State.advance_lane (s : State) (p : Port) :
    (s.advance p).lane = s.lane := rfl

@[simp] theorem State.advance_notices (s : State) (p : Port) :
    (s.advance p).notices = s.notices := rfl

@[simp] theorem State.advance_ports (s : State) (p : Port) :
    (s.advance p).ports = s.ports := rfl

@[simp] theorem State.advance_resetPin (s : State) (p : Port) :
    (s.advance p).resetPin = s.resetPin := rfl

@[simp] theorem State.advance_resetHold (s : State) (p : Port) :
    (s.advance p).resetHold = s.resetHold := rfl

@[simp] theorem State.advance_pending (s : State) (p : Port) :
    (s.advance p).pending = s.pending := rfl

@[simp] theorem State.advance_records (s : State) (p : Port) :
    (s.advance p).table.records = s.table.records := rfl

@[simp] theorem State.advance_tagMap (s : State) (p : Port) :
    (s.advance p).table.tagMap = s.table.tagMap := rfl

@[simp] theorem State.advance_channelMap (s : State) (p : Port) :
    (s.advance p).table.channelMap = s.table.channelMap := rfl

@[simp] theorem State.advance_loads (s : State) (p : Port) :
    (s.advance p).table.loads = s.table.loads := rfl

@[simp] theorem State.advance_charges (s : State) (p : Port) :
    (s.advance p).table.charges = s.table.charges := rfl

@[simp] theorem State.advance_quotas (s : State) (p : Port) :
    (s.advance p).table.quotas = s.table.quotas := rfl

/-! ### setNotices -/

@[simp] theorem State.setNotices_table (s : State) (p : Port) (q : NoticeQueue) :
    (s.setNotices p q).table = s.table := rfl

@[simp] theorem State.setNotices_free (s : State) (p : Port) (q : NoticeQueue) :
    (s.setNotices p q).free = s.free := rfl

@[simp] theorem State.setNotices_memory (s : State) (p : Port) (q : NoticeQueue) :
    (s.setNotices p q).memory = s.memory := rfl

@[simp] theorem State.setNotices_psu (s : State) (p : Port) (q : NoticeQueue) :
    (s.setNotices p q).psu = s.psu := rfl

@[simp] theorem State.setNotices_claims (s : State) (p : Port) (q : NoticeQueue) :
    (s.setNotices p q).claims = s.claims := rfl

@[simp] theorem State.setNotices_link (s : State) (p : Port) (q : NoticeQueue) :
    (s.setNotices p q).link = s.link := rfl

@[simp] theorem State.setNotices_lane (s : State) (p : Port) (q : NoticeQueue) :
    (s.setNotices p q).lane = s.lane := rfl

@[simp] theorem State.setNotices_ports (s : State) (p : Port) (q : NoticeQueue) :
    (s.setNotices p q).ports = s.ports := rfl

@[simp] theorem State.setNotices_resetPin (s : State) (p : Port) (q : NoticeQueue) :
    (s.setNotices p q).resetPin = s.resetPin := rfl

@[simp] theorem State.setNotices_resetHold (s : State) (p : Port) (q : NoticeQueue) :
    (s.setNotices p q).resetHold = s.resetHold := rfl

@[simp] theorem State.setNotices_pending (s : State) (p : Port) (q : NoticeQueue) :
    (s.setNotices p q).pending = s.pending := rfl

/-! ### notify -/

@[simp] theorem State.notify_table (s : State) (p : Port) (x : Report) :
    (s.notify p x).table = s.table := rfl

@[simp] theorem State.notify_free (s : State) (p : Port) (x : Report) :
    (s.notify p x).free = s.free := rfl

@[simp] theorem State.notify_memory (s : State) (p : Port) (x : Report) :
    (s.notify p x).memory = s.memory := rfl

@[simp] theorem State.notify_psu (s : State) (p : Port) (x : Report) :
    (s.notify p x).psu = s.psu := rfl

@[simp] theorem State.notify_claims (s : State) (p : Port) (x : Report) :
    (s.notify p x).claims = s.claims := rfl

@[simp] theorem State.notify_link (s : State) (p : Port) (x : Report) :
    (s.notify p x).link = s.link := rfl

@[simp] theorem State.notify_lane (s : State) (p : Port) (x : Report) :
    (s.notify p x).lane = s.lane := rfl

@[simp] theorem State.notify_ports (s : State) (p : Port) (x : Report) :
    (s.notify p x).ports = s.ports := rfl

@[simp] theorem State.notify_resetPin (s : State) (p : Port) (x : Report) :
    (s.notify p x).resetPin = s.resetPin := rfl

@[simp] theorem State.notify_resetHold (s : State) (p : Port) (x : Report) :
    (s.notify p x).resetHold = s.resetHold := rfl

@[simp] theorem State.notify_pending (s : State) (p : Port) (x : Report) :
    (s.notify p x).pending = s.pending := rfl

/-! ### setPort -/

@[simp] theorem State.setPort_table (s : State) (p : Port) (x : PortInterface) :
    (s.setPort p x).table = s.table := rfl

@[simp] theorem State.setPort_free (s : State) (p : Port) (x : PortInterface) :
    (s.setPort p x).free = s.free := rfl

@[simp] theorem State.setPort_memory (s : State) (p : Port) (x : PortInterface) :
    (s.setPort p x).memory = s.memory := rfl

@[simp] theorem State.setPort_psu (s : State) (p : Port) (x : PortInterface) :
    (s.setPort p x).psu = s.psu := rfl

@[simp] theorem State.setPort_claims (s : State) (p : Port) (x : PortInterface) :
    (s.setPort p x).claims = s.claims := rfl

@[simp] theorem State.setPort_link (s : State) (p : Port) (x : PortInterface) :
    (s.setPort p x).link = s.link := rfl

@[simp] theorem State.setPort_lane (s : State) (p : Port) (x : PortInterface) :
    (s.setPort p x).lane = s.lane := rfl

@[simp] theorem State.setPort_notices (s : State) (p : Port) (x : PortInterface) :
    (s.setPort p x).notices = s.notices := rfl

@[simp] theorem State.setPort_resetPin (s : State) (p : Port) (x : PortInterface) :
    (s.setPort p x).resetPin = s.resetPin := rfl

@[simp] theorem State.setPort_resetHold (s : State) (p : Port) (x : PortInterface) :
    (s.setPort p x).resetHold = s.resetHold := rfl

@[simp] theorem State.setPort_pending (s : State) (p : Port) (x : PortInterface) :
    (s.setPort p x).pending = s.pending := rfl

/-! ### answer -/

@[simp] theorem State.answer_table (s : State) (p : Port) (c q : Byte) (a : Reply) (b : Bool) :
    (s.answer p c q a b).table = s.table := rfl

@[simp] theorem State.answer_free (s : State) (p : Port) (c q : Byte) (a : Reply) (b : Bool) :
    (s.answer p c q a b).free = s.free := rfl

@[simp] theorem State.answer_memory (s : State) (p : Port) (c q : Byte) (a : Reply) (b : Bool) :
    (s.answer p c q a b).memory = s.memory := rfl

@[simp] theorem State.answer_psu (s : State) (p : Port) (c q : Byte) (a : Reply) (b : Bool) :
    (s.answer p c q a b).psu = s.psu := rfl

@[simp] theorem State.answer_claims (s : State) (p : Port) (c q : Byte) (a : Reply) (b : Bool) :
    (s.answer p c q a b).claims = s.claims := rfl

@[simp] theorem State.answer_link (s : State) (p : Port) (c q : Byte) (a : Reply) (b : Bool) :
    (s.answer p c q a b).link = s.link := rfl

@[simp] theorem State.answer_lane (s : State) (p : Port) (c q : Byte) (a : Reply) (b : Bool) :
    (s.answer p c q a b).lane = s.lane := rfl

@[simp] theorem State.answer_notices (s : State) (p : Port) (c q : Byte) (a : Reply) (b : Bool) :
    (s.answer p c q a b).notices = s.notices := rfl

@[simp] theorem State.answer_resetPin (s : State) (p : Port) (c q : Byte) (a : Reply) (b : Bool) :
    (s.answer p c q a b).resetPin = s.resetPin := rfl

@[simp] theorem State.answer_resetHold (s : State) (p : Port) (c q : Byte) (a : Reply) (b : Bool) :
    (s.answer p c q a b).resetHold = s.resetHold := rfl

@[simp] theorem State.answer_pending (s : State) (p : Port) (c q : Byte) (a : Reply) (b : Bool) :
    (s.answer p c q a b).pending = s.pending := rfl

/-! ### stage -/

@[simp] theorem State.stage_table (s : State) (l : List LaneCell) :
    (s.stage l).table = s.table := rfl

@[simp] theorem State.stage_free (s : State) (l : List LaneCell) :
    (s.stage l).free = s.free := rfl

@[simp] theorem State.stage_memory (s : State) (l : List LaneCell) :
    (s.stage l).memory = s.memory := rfl

@[simp] theorem State.stage_psu (s : State) (l : List LaneCell) :
    (s.stage l).psu = s.psu := rfl

@[simp] theorem State.stage_claims (s : State) (l : List LaneCell) :
    (s.stage l).claims = s.claims := rfl

@[simp] theorem State.stage_link (s : State) (l : List LaneCell) :
    (s.stage l).link = s.link := rfl

@[simp] theorem State.stage_notices (s : State) (l : List LaneCell) :
    (s.stage l).notices = s.notices := rfl

@[simp] theorem State.stage_ports (s : State) (l : List LaneCell) :
    (s.stage l).ports = s.ports := rfl

@[simp] theorem State.stage_resetPin (s : State) (l : List LaneCell) :
    (s.stage l).resetPin = s.resetPin := rfl

@[simp] theorem State.stage_resetHold (s : State) (l : List LaneCell) :
    (s.stage l).resetHold = s.resetHold := rfl

@[simp] theorem State.stage_pending (s : State) (l : List LaneCell) :
    (s.stage l).pending = s.pending := rfl

/-! ### stopLane -/

@[simp] theorem State.stopLane_table (s : State) :
    s.stopLane.table = s.table := rfl

@[simp] theorem State.stopLane_free (s : State) :
    s.stopLane.free = s.free := rfl

@[simp] theorem State.stopLane_memory (s : State) :
    s.stopLane.memory = s.memory := rfl

@[simp] theorem State.stopLane_psu (s : State) :
    s.stopLane.psu = s.psu := rfl

@[simp] theorem State.stopLane_claims (s : State) :
    s.stopLane.claims = s.claims := rfl

@[simp] theorem State.stopLane_link (s : State) :
    s.stopLane.link = s.link := rfl

@[simp] theorem State.stopLane_notices (s : State) :
    s.stopLane.notices = s.notices := rfl

@[simp] theorem State.stopLane_ports (s : State) :
    s.stopLane.ports = s.ports := rfl

@[simp] theorem State.stopLane_resetPin (s : State) :
    s.stopLane.resetPin = s.resetPin := rfl

@[simp] theorem State.stopLane_resetHold (s : State) :
    s.stopLane.resetHold = s.resetHold := rfl

@[simp] theorem State.stopLane_pending (s : State) :
    s.stopLane.pending = s.pending := rfl

/-! ### cutPeriod -/

@[simp] theorem State.cutPeriod_table (s : State) :
    s.cutPeriod.table = s.table := rfl

@[simp] theorem State.cutPeriod_free (s : State) :
    s.cutPeriod.free = s.free := rfl

@[simp] theorem State.cutPeriod_memory (s : State) :
    s.cutPeriod.memory = s.memory := rfl

@[simp] theorem State.cutPeriod_claims (s : State) :
    s.cutPeriod.claims = s.claims := rfl

@[simp] theorem State.cutPeriod_link (s : State) :
    s.cutPeriod.link = s.link := rfl

@[simp] theorem State.cutPeriod_notices (s : State) :
    s.cutPeriod.notices = s.notices := rfl

@[simp] theorem State.cutPeriod_ports (s : State) :
    s.cutPeriod.ports = s.ports := rfl

@[simp] theorem State.cutPeriod_resetPin (s : State) :
    s.cutPeriod.resetPin = s.resetPin := rfl

@[simp] theorem State.cutPeriod_resetHold (s : State) :
    s.cutPeriod.resetHold = s.resetHold := rfl

@[simp] theorem State.cutPeriod_pending (s : State) :
    s.cutPeriod.pending = s.pending := rfl

/-! ### sendStaged -/

@[simp] theorem State.sendStaged_table (s : State) :
    s.sendStaged.table = s.table := rfl

@[simp] theorem State.sendStaged_free (s : State) :
    s.sendStaged.free = s.free := rfl

@[simp] theorem State.sendStaged_memory (s : State) :
    s.sendStaged.memory = s.memory := rfl

@[simp] theorem State.sendStaged_psu (s : State) :
    s.sendStaged.psu = s.psu := rfl

@[simp] theorem State.sendStaged_claims (s : State) :
    s.sendStaged.claims = s.claims := rfl

@[simp] theorem State.sendStaged_link (s : State) :
    s.sendStaged.link = s.link := rfl

@[simp] theorem State.sendStaged_notices (s : State) :
    s.sendStaged.notices = s.notices := rfl

@[simp] theorem State.sendStaged_ports (s : State) :
    s.sendStaged.ports = s.ports := rfl

@[simp] theorem State.sendStaged_resetPin (s : State) :
    s.sendStaged.resetPin = s.resetPin := rfl

@[simp] theorem State.sendStaged_resetHold (s : State) :
    s.sendStaged.resetHold = s.resetHold := rfl

@[simp] theorem State.sendStaged_pending (s : State) :
    s.sendStaged.pending = s.pending := rfl

/-! ### stageCell -/

@[simp] theorem State.stageCell_table (s : State) (c : LaneCell) (l : List LaneCell)
    (w : WireCell) :
    (s.stageCell c l w).table = s.table := rfl

@[simp] theorem State.stageCell_free (s : State) (c : LaneCell) (l : List LaneCell)
    (w : WireCell) :
    (s.stageCell c l w).free = s.free := rfl

@[simp] theorem State.stageCell_memory (s : State) (c : LaneCell) (l : List LaneCell)
    (w : WireCell) :
    (s.stageCell c l w).memory = s.memory := rfl

@[simp] theorem State.stageCell_link (s : State) (c : LaneCell) (l : List LaneCell)
    (w : WireCell) :
    (s.stageCell c l w).link = s.link := rfl

@[simp] theorem State.stageCell_notices (s : State) (c : LaneCell) (l : List LaneCell)
    (w : WireCell) :
    (s.stageCell c l w).notices = s.notices := rfl

@[simp] theorem State.stageCell_ports (s : State) (c : LaneCell) (l : List LaneCell)
    (w : WireCell) :
    (s.stageCell c l w).ports = s.ports := rfl

@[simp] theorem State.stageCell_resetPin (s : State) (c : LaneCell) (l : List LaneCell)
    (w : WireCell) :
    (s.stageCell c l w).resetPin = s.resetPin := rfl

@[simp] theorem State.stageCell_resetHold (s : State) (c : LaneCell) (l : List LaneCell)
    (w : WireCell) :
    (s.stageCell c l w).resetHold = s.resetHold := rfl

@[simp] theorem State.stageCell_pending (s : State) (c : LaneCell) (l : List LaneCell)
    (w : WireCell) :
    (s.stageCell c l w).pending = s.pending := rfl

/-! ### setStanding -/

@[simp] theorem State.setStanding_table (s : State) (h : Handle) (x : Standing) :
    (s.setStanding h x).table = s.table := rfl

@[simp] theorem State.setStanding_free (s : State) (h : Handle) (x : Standing) :
    (s.setStanding h x).free = s.free := rfl

@[simp] theorem State.setStanding_memory (s : State) (h : Handle) (x : Standing) :
    (s.setStanding h x).memory = s.memory := rfl

@[simp] theorem State.setStanding_claims (s : State) (h : Handle) (x : Standing) :
    (s.setStanding h x).claims = s.claims := rfl

@[simp] theorem State.setStanding_link (s : State) (h : Handle) (x : Standing) :
    (s.setStanding h x).link = s.link := rfl

@[simp] theorem State.setStanding_lane (s : State) (h : Handle) (x : Standing) :
    (s.setStanding h x).lane = s.lane := rfl

@[simp] theorem State.setStanding_notices (s : State) (h : Handle) (x : Standing) :
    (s.setStanding h x).notices = s.notices := rfl

@[simp] theorem State.setStanding_ports (s : State) (h : Handle) (x : Standing) :
    (s.setStanding h x).ports = s.ports := rfl

@[simp] theorem State.setStanding_resetPin (s : State) (h : Handle) (x : Standing) :
    (s.setStanding h x).resetPin = s.resetPin := rfl

@[simp] theorem State.setStanding_resetHold (s : State) (h : Handle) (x : Standing) :
    (s.setStanding h x).resetHold = s.resetHold := rfl

@[simp] theorem State.setStanding_pending (s : State) (h : Handle) (x : Standing) :
    (s.setStanding h x).pending = s.pending := rfl

/-! ### makeClaim -/

@[simp] theorem State.makeClaim_table (s : State) (c : Claim) :
    (s.makeClaim c).table = s.table := rfl

@[simp] theorem State.makeClaim_free (s : State) (c : Claim) :
    (s.makeClaim c).free = s.free := rfl

@[simp] theorem State.makeClaim_memory (s : State) (c : Claim) :
    (s.makeClaim c).memory = s.memory := rfl

@[simp] theorem State.makeClaim_psu (s : State) (c : Claim) :
    (s.makeClaim c).psu = s.psu := rfl

@[simp] theorem State.makeClaim_link (s : State) (c : Claim) :
    (s.makeClaim c).link = s.link := rfl

@[simp] theorem State.makeClaim_lane (s : State) (c : Claim) :
    (s.makeClaim c).lane = s.lane := rfl

@[simp] theorem State.makeClaim_notices (s : State) (c : Claim) :
    (s.makeClaim c).notices = s.notices := rfl

@[simp] theorem State.makeClaim_ports (s : State) (c : Claim) :
    (s.makeClaim c).ports = s.ports := rfl

@[simp] theorem State.makeClaim_resetPin (s : State) (c : Claim) :
    (s.makeClaim c).resetPin = s.resetPin := rfl

@[simp] theorem State.makeClaim_resetHold (s : State) (c : Claim) :
    (s.makeClaim c).resetHold = s.resetHold := rfl

@[simp] theorem State.makeClaim_pending (s : State) (c : Claim) :
    (s.makeClaim c).pending = s.pending := rfl

/-! ### dropLists -/

@[simp] theorem State.dropLists_table (s : State) :
    s.dropLists.table = s.table := rfl

@[simp] theorem State.dropLists_free (s : State) :
    s.dropLists.free = s.free := rfl

@[simp] theorem State.dropLists_memory (s : State) :
    s.dropLists.memory = s.memory := rfl

@[simp] theorem State.dropLists_claims (s : State) :
    s.dropLists.claims = s.claims := rfl

@[simp] theorem State.dropLists_link (s : State) :
    s.dropLists.link = s.link := rfl

@[simp] theorem State.dropLists_lane (s : State) :
    s.dropLists.lane = s.lane := rfl

@[simp] theorem State.dropLists_notices (s : State) :
    s.dropLists.notices = s.notices := rfl

@[simp] theorem State.dropLists_ports (s : State) :
    s.dropLists.ports = s.ports := rfl

@[simp] theorem State.dropLists_resetPin (s : State) :
    s.dropLists.resetPin = s.resetPin := rfl

@[simp] theorem State.dropLists_resetHold (s : State) :
    s.dropLists.resetHold = s.resetHold := rfl

@[simp] theorem State.dropLists_pending (s : State) :
    s.dropLists.pending = s.pending := rfl

/-! ### buildLists -/

@[simp] theorem State.buildLists_table (s : State) (n : Period) :
    (s.buildLists n).table = s.table := rfl

@[simp] theorem State.buildLists_free (s : State) (n : Period) :
    (s.buildLists n).free = s.free := rfl

@[simp] theorem State.buildLists_memory (s : State) (n : Period) :
    (s.buildLists n).memory = s.memory := rfl

@[simp] theorem State.buildLists_claims (s : State) (n : Period) :
    (s.buildLists n).claims = s.claims := rfl

@[simp] theorem State.buildLists_link (s : State) (n : Period) :
    (s.buildLists n).link = s.link := rfl

@[simp] theorem State.buildLists_lane (s : State) (n : Period) :
    (s.buildLists n).lane = s.lane := rfl

@[simp] theorem State.buildLists_notices (s : State) (n : Period) :
    (s.buildLists n).notices = s.notices := rfl

@[simp] theorem State.buildLists_ports (s : State) (n : Period) :
    (s.buildLists n).ports = s.ports := rfl

@[simp] theorem State.buildLists_resetPin (s : State) (n : Period) :
    (s.buildLists n).resetPin = s.resetPin := rfl

@[simp] theorem State.buildLists_resetHold (s : State) (n : Period) :
    (s.buildLists n).resetHold = s.resetHold := rfl

@[simp] theorem State.buildLists_pending (s : State) (n : Period) :
    (s.buildLists n).pending = s.pending := rfl

/-! ### leaveLists -/

@[simp] theorem State.leaveLists_table (s : State) (h : Handle) :
    (s.leaveLists h).table = s.table := rfl

@[simp] theorem State.leaveLists_free (s : State) (h : Handle) :
    (s.leaveLists h).free = s.free := rfl

@[simp] theorem State.leaveLists_memory (s : State) (h : Handle) :
    (s.leaveLists h).memory = s.memory := rfl

@[simp] theorem State.leaveLists_claims (s : State) (h : Handle) :
    (s.leaveLists h).claims = s.claims := rfl

@[simp] theorem State.leaveLists_link (s : State) (h : Handle) :
    (s.leaveLists h).link = s.link := rfl

@[simp] theorem State.leaveLists_lane (s : State) (h : Handle) :
    (s.leaveLists h).lane = s.lane := rfl

@[simp] theorem State.leaveLists_notices (s : State) (h : Handle) :
    (s.leaveLists h).notices = s.notices := rfl

@[simp] theorem State.leaveLists_ports (s : State) (h : Handle) :
    (s.leaveLists h).ports = s.ports := rfl

@[simp] theorem State.leaveLists_resetPin (s : State) (h : Handle) :
    (s.leaveLists h).resetPin = s.resetPin := rfl

@[simp] theorem State.leaveLists_resetHold (s : State) (h : Handle) :
    (s.leaveLists h).resetHold = s.resetHold := rfl

@[simp] theorem State.leaveLists_pending (s : State) (h : Handle) :
    (s.leaveLists h).pending = s.pending := rfl

/-! ### Vectors -/

/-- Reading an entry of a vector after one was set. -/
theorem vector_get_set {α : Type} {n : Nat} (v : Vector α n) (i j : Fin n) (x : α) :
    (v.set i.val x i.isLt).get j = if j = i then x else v.get j := by
  have e : ∀ (w : Vector α n) (k : Fin n), w.get k = w[k.val] := fun _ _ => rfl
  simp only [e, Vector.getElem_set, Fin.ext_iff, eq_comm]

/-! ### Records -/

@[simp] theorem State.setRecord_record (s : State) (h k : Handle) (r : Record) :
    (s.setRecord h r).record k = if k = h then r else s.record k :=
  vector_get_set _ _ _ _

@[simp] theorem State.setStream_record (s : State) (h k : Handle) (st : Stream) :
    (s.setStream h st).record k =
      if k = h then { s.record h with stream := some st } else s.record k :=
  vector_get_set _ _ _ _

@[simp] theorem State.setRecord_stream (s : State) (h k : Handle) (r : Record) :
    (s.setRecord h r).stream k = if k = h then r.stream else s.stream k := by
  simp only [State.stream, State.setRecord_record]; split <;> rfl

@[simp] theorem State.setStream_stream (s : State) (h k : Handle) (st : Stream) :
    (s.setStream h st).stream k = if k = h then some st else s.stream k := by
  simp only [State.stream, State.setStream_record]; split <;> rfl

@[simp] theorem State.setFree_record (s : State) (l : List Extent) (k : Handle) :
    (s.setFree l).record k = s.record k := rfl

@[simp] theorem State.setFree_stream (s : State) (l : List Extent) (k : Handle) :
    (s.setFree l).stream k = s.stream k := rfl

@[simp] theorem State.recharge_record (s : State) (p : Port) (d : Direction) (x y : Residues) (k : Handle) :
    (s.recharge p d x y).record k = s.record k := rfl

@[simp] theorem State.recharge_stream (s : State) (p : Port) (d : Direction) (x y : Residues) (k : Handle) :
    (s.recharge p d x y).stream k = s.stream k := rfl

@[simp] theorem State.addMapEntries_record (s : State) (h : Handle) (st : Stream) (k : Handle) :
    (s.addMapEntries h st).record k = s.record k := rfl

@[simp] theorem State.addMapEntries_stream (s : State) (h : Handle) (st : Stream) (k : Handle) :
    (s.addMapEntries h st).stream k = s.stream k := rfl

@[simp] theorem State.removeMapEntries_record (s : State) (h : Handle) (k : Handle) :
    (s.removeMapEntries h).record k = s.record k := rfl

@[simp] theorem State.removeMapEntries_stream (s : State) (h : Handle) (k : Handle) :
    (s.removeMapEntries h).stream k = s.stream k := rfl

@[simp] theorem State.setQuota_record (s : State) (n : Port) (d : Direction) (q : Nat) (k : Handle) :
    (s.setQuota n d q).record k = s.record k := rfl

@[simp] theorem State.setQuota_stream (s : State) (n : Port) (d : Direction) (q : Nat) (k : Handle) :
    (s.setQuota n d q).stream k = s.stream k := rfl

@[simp] theorem State.advance_record (s : State) (p : Port) (k : Handle) :
    (s.advance p).record k = s.record k := rfl

@[simp] theorem State.advance_stream (s : State) (p : Port) (k : Handle) :
    (s.advance p).stream k = s.stream k := rfl

@[simp] theorem State.setNotices_record (s : State) (p : Port) (q : NoticeQueue) (k : Handle) :
    (s.setNotices p q).record k = s.record k := rfl

@[simp] theorem State.setNotices_stream (s : State) (p : Port) (q : NoticeQueue) (k : Handle) :
    (s.setNotices p q).stream k = s.stream k := rfl

@[simp] theorem State.notify_record (s : State) (p : Port) (x : Report) (k : Handle) :
    (s.notify p x).record k = s.record k := rfl

@[simp] theorem State.notify_stream (s : State) (p : Port) (x : Report) (k : Handle) :
    (s.notify p x).stream k = s.stream k := rfl

@[simp] theorem State.setPort_record (s : State) (p : Port) (x : PortInterface) (k : Handle) :
    (s.setPort p x).record k = s.record k := rfl

@[simp] theorem State.setPort_stream (s : State) (p : Port) (x : PortInterface) (k : Handle) :
    (s.setPort p x).stream k = s.stream k := rfl

@[simp] theorem State.answer_record (s : State) (p : Port) (c q : Byte) (a : Reply) (b : Bool) (k : Handle) :
    (s.answer p c q a b).record k = s.record k := rfl

@[simp] theorem State.answer_stream (s : State) (p : Port) (c q : Byte) (a : Reply) (b : Bool) (k : Handle) :
    (s.answer p c q a b).stream k = s.stream k := rfl

@[simp] theorem State.stage_record (s : State) (l : List LaneCell) (k : Handle) :
    (s.stage l).record k = s.record k := rfl

@[simp] theorem State.stage_stream (s : State) (l : List LaneCell) (k : Handle) :
    (s.stage l).stream k = s.stream k := rfl

@[simp] theorem State.stopLane_record (s : State) (k : Handle) :
    s.stopLane.record k = s.record k := rfl

@[simp] theorem State.stopLane_stream (s : State) (k : Handle) :
    s.stopLane.stream k = s.stream k := rfl

@[simp] theorem State.cutPeriod_record (s : State) (k : Handle) :
    s.cutPeriod.record k = s.record k := rfl

@[simp] theorem State.cutPeriod_stream (s : State) (k : Handle) :
    s.cutPeriod.stream k = s.stream k := rfl

@[simp] theorem State.sendStaged_record (s : State) (k : Handle) :
    s.sendStaged.record k = s.record k := rfl

@[simp] theorem State.sendStaged_stream (s : State) (k : Handle) :
    s.sendStaged.stream k = s.stream k := rfl

@[simp] theorem State.stageCell_record (s : State) (c : LaneCell) (l : List LaneCell)
    (w : WireCell) (k : Handle) :
    (s.stageCell c l w).record k = s.record k := rfl

@[simp] theorem State.stageCell_stream (s : State) (c : LaneCell) (l : List LaneCell)
    (w : WireCell) (k : Handle) :
    (s.stageCell c l w).stream k = s.stream k := rfl

@[simp] theorem State.setStanding_record (s : State) (h : Handle) (x : Standing) (k : Handle) :
    (s.setStanding h x).record k = s.record k := rfl

@[simp] theorem State.setStanding_stream (s : State) (h : Handle) (x : Standing) (k : Handle) :
    (s.setStanding h x).stream k = s.stream k := rfl

@[simp] theorem State.makeClaim_record (s : State) (c : Claim) (k : Handle) :
    (s.makeClaim c).record k = s.record k := rfl

@[simp] theorem State.makeClaim_stream (s : State) (c : Claim) (k : Handle) :
    (s.makeClaim c).stream k = s.stream k := rfl

@[simp] theorem State.dropLists_record (s : State) (k : Handle) :
    s.dropLists.record k = s.record k := rfl

@[simp] theorem State.dropLists_stream (s : State) (k : Handle) :
    s.dropLists.stream k = s.stream k := rfl

@[simp] theorem State.buildLists_record (s : State) (n : Period) (k : Handle) :
    (s.buildLists n).record k = s.record k := rfl

@[simp] theorem State.buildLists_stream (s : State) (n : Period) (k : Handle) :
    (s.buildLists n).stream k = s.stream k := rfl

@[simp] theorem State.leaveLists_record (s : State) (h : Handle) (k : Handle) :
    (s.leaveLists h).record k = s.record k := rfl

@[simp] theorem State.leaveLists_stream (s : State) (h : Handle) (k : Handle) :
    (s.leaveLists h).stream k = s.stream k := rfl

/-! ### Notices and ports -/

@[simp] theorem State.setNotices_noticesOf (s : State) (p n : Port) (q : NoticeQueue) :
    (s.setNotices p q).noticesOf n = if n = p then q else s.noticesOf n :=
  vector_get_set _ _ _ _

@[simp] theorem State.notify_noticesOf (s : State) (p n : Port) (x : Report) :
    (s.notify p x).noticesOf n =
      if n = p then (s.noticesOf p).enqueue x s.link.period else s.noticesOf n :=
  vector_get_set _ _ _ _

@[simp] theorem State.setPort_port (s : State) (p n : Port) (x : PortInterface) :
    (s.setPort p x).port n = if n = p then x else s.port n :=
  vector_get_set _ _ _ _

@[simp] theorem State.answer_port (s : State) (p n : Port) (c q : Byte) (a : Reply) (b : Bool) :
    (s.answer p c q a b).port n =
      if n = p then (s.port p).place ⟨c, q, a.status, a.body⟩ b else s.port n :=
  vector_get_set _ _ _ _

@[simp] theorem State.setRecord_noticesOf (s : State) (h : Handle) (r : Record) (k : Port) :
    (s.setRecord h r).noticesOf k = s.noticesOf k := rfl

@[simp] theorem State.setRecord_port (s : State) (h : Handle) (r : Record) (k : Port) :
    (s.setRecord h r).port k = s.port k := rfl

@[simp] theorem State.setStream_noticesOf (s : State) (h : Handle) (st : Stream) (k : Port) :
    (s.setStream h st).noticesOf k = s.noticesOf k := rfl

@[simp] theorem State.setStream_port (s : State) (h : Handle) (st : Stream) (k : Port) :
    (s.setStream h st).port k = s.port k := rfl

@[simp] theorem State.setFree_noticesOf (s : State) (l : List Extent) (k : Port) :
    (s.setFree l).noticesOf k = s.noticesOf k := rfl

@[simp] theorem State.setFree_port (s : State) (l : List Extent) (k : Port) :
    (s.setFree l).port k = s.port k := rfl

@[simp] theorem State.recharge_noticesOf (s : State) (p : Port) (d : Direction) (x y : Residues) (k : Port) :
    (s.recharge p d x y).noticesOf k = s.noticesOf k := rfl

@[simp] theorem State.recharge_port (s : State) (p : Port) (d : Direction) (x y : Residues) (k : Port) :
    (s.recharge p d x y).port k = s.port k := rfl

@[simp] theorem State.addMapEntries_noticesOf (s : State) (h : Handle) (st : Stream) (k : Port) :
    (s.addMapEntries h st).noticesOf k = s.noticesOf k := rfl

@[simp] theorem State.addMapEntries_port (s : State) (h : Handle) (st : Stream) (k : Port) :
    (s.addMapEntries h st).port k = s.port k := rfl

@[simp] theorem State.removeMapEntries_noticesOf (s : State) (h : Handle) (k : Port) :
    (s.removeMapEntries h).noticesOf k = s.noticesOf k := rfl

@[simp] theorem State.removeMapEntries_port (s : State) (h : Handle) (k : Port) :
    (s.removeMapEntries h).port k = s.port k := rfl

@[simp] theorem State.setQuota_noticesOf (s : State) (n : Port) (d : Direction) (q : Nat) (k : Port) :
    (s.setQuota n d q).noticesOf k = s.noticesOf k := rfl

@[simp] theorem State.setQuota_port (s : State) (n : Port) (d : Direction) (q : Nat) (k : Port) :
    (s.setQuota n d q).port k = s.port k := rfl

@[simp] theorem State.advance_noticesOf (s : State) (p : Port) (k : Port) :
    (s.advance p).noticesOf k = s.noticesOf k := rfl

@[simp] theorem State.advance_port (s : State) (p : Port) (k : Port) :
    (s.advance p).port k = s.port k := rfl

@[simp] theorem State.setNotices_port (s : State) (p : Port) (q : NoticeQueue) (k : Port) :
    (s.setNotices p q).port k = s.port k := rfl

@[simp] theorem State.notify_port (s : State) (p : Port) (x : Report) (k : Port) :
    (s.notify p x).port k = s.port k := rfl

@[simp] theorem State.setPort_noticesOf (s : State) (p : Port) (x : PortInterface) (k : Port) :
    (s.setPort p x).noticesOf k = s.noticesOf k := rfl

@[simp] theorem State.answer_noticesOf (s : State) (p : Port) (c q : Byte) (a : Reply) (b : Bool) (k : Port) :
    (s.answer p c q a b).noticesOf k = s.noticesOf k := rfl

@[simp] theorem State.stage_noticesOf (s : State) (l : List LaneCell) (k : Port) :
    (s.stage l).noticesOf k = s.noticesOf k := rfl

@[simp] theorem State.stage_port (s : State) (l : List LaneCell) (k : Port) :
    (s.stage l).port k = s.port k := rfl

@[simp] theorem State.stopLane_noticesOf (s : State) (k : Port) :
    s.stopLane.noticesOf k = s.noticesOf k := rfl

@[simp] theorem State.stopLane_port (s : State) (k : Port) :
    s.stopLane.port k = s.port k := rfl

@[simp] theorem State.cutPeriod_noticesOf (s : State) (k : Port) :
    s.cutPeriod.noticesOf k = s.noticesOf k := rfl

@[simp] theorem State.cutPeriod_port (s : State) (k : Port) :
    s.cutPeriod.port k = s.port k := rfl

@[simp] theorem State.sendStaged_noticesOf (s : State) (k : Port) :
    s.sendStaged.noticesOf k = s.noticesOf k := rfl

@[simp] theorem State.sendStaged_port (s : State) (k : Port) :
    s.sendStaged.port k = s.port k := rfl

@[simp] theorem State.stageCell_noticesOf (s : State) (c : LaneCell) (l : List LaneCell)
    (w : WireCell) (k : Port) :
    (s.stageCell c l w).noticesOf k = s.noticesOf k := rfl

@[simp] theorem State.stageCell_port (s : State) (c : LaneCell) (l : List LaneCell)
    (w : WireCell) (k : Port) :
    (s.stageCell c l w).port k = s.port k := rfl

@[simp] theorem State.setStanding_noticesOf (s : State) (h : Handle) (x : Standing) (k : Port) :
    (s.setStanding h x).noticesOf k = s.noticesOf k := rfl

@[simp] theorem State.setStanding_port (s : State) (h : Handle) (x : Standing) (k : Port) :
    (s.setStanding h x).port k = s.port k := rfl

@[simp] theorem State.makeClaim_noticesOf (s : State) (c : Claim) (k : Port) :
    (s.makeClaim c).noticesOf k = s.noticesOf k := rfl

@[simp] theorem State.makeClaim_port (s : State) (c : Claim) (k : Port) :
    (s.makeClaim c).port k = s.port k := rfl

@[simp] theorem State.dropLists_noticesOf (s : State) (k : Port) :
    s.dropLists.noticesOf k = s.noticesOf k := rfl

@[simp] theorem State.dropLists_port (s : State) (k : Port) :
    s.dropLists.port k = s.port k := rfl

@[simp] theorem State.buildLists_noticesOf (s : State) (n : Period) (k : Port) :
    (s.buildLists n).noticesOf k = s.noticesOf k := rfl

@[simp] theorem State.buildLists_port (s : State) (n : Period) (k : Port) :
    (s.buildLists n).port k = s.port k := rfl

@[simp] theorem State.leaveLists_noticesOf (s : State) (h : Handle) (k : Port) :
    (s.leaveLists h).noticesOf k = s.noticesOf k := rfl

@[simp] theorem State.leaveLists_port (s : State) (h : Handle) (k : Port) :
    (s.leaveLists h).port k = s.port k := rfl

end Sys2Proof.Machine
end

