-- ==== Sys2Proof/Laws/Frames.lean ====
section
/-! SUPPORT. What each shared operation leaves alone: one lemma per operation and field, tagged for
simp. The claims leave Stream Memory, the Port Interfaces, the reset pin and hold and the queue of
commands alone, whichever they are. -/

namespace Sys2Proof.Machine

/-- A walk whose every step keeps a part of the state keeps it. -/
theorem foldl_keeps {α β : Type} (f : State → α → State) (g : State → β)
    (hf : ∀ s a, g (f s a) = g s) (l : List α) (s : State) : g (l.foldl f s) = g s := by
  induction l generalizing s with
  | nil => rfl
  | cons a l ih => rw [List.foldl_cons, ih, hf]

@[simp] theorem State.notifyIf_keeps (s : State) (c : Bool) (p : Port) (x : Report) :
    (s.notifyIf c p x).table = s.table ∧ (s.notifyIf c p x).free = s.free ∧
    (s.notifyIf c p x).memory = s.memory ∧ (s.notifyIf c p x).psu = s.psu ∧
    (s.notifyIf c p x).claims = s.claims ∧ (s.notifyIf c p x).link = s.link ∧
    (s.notifyIf c p x).lane = s.lane ∧ (s.notifyIf c p x).ports = s.ports ∧
    (s.notifyIf c p x).resetPin = s.resetPin ∧ (s.notifyIf c p x).resetHold = s.resetHold ∧
    (s.notifyIf c p x).pending = s.pending := by
  unfold State.notifyIf
  try dsimp only
  repeat' split
  all_goals simp

@[simp] theorem State.notifyAll_keeps (s : State) (x : LinkEvent) :
    (s.notifyAll x).table = s.table ∧ (s.notifyAll x).free = s.free ∧
    (s.notifyAll x).memory = s.memory ∧ (s.notifyAll x).psu = s.psu ∧
    (s.notifyAll x).claims = s.claims ∧ (s.notifyAll x).link = s.link ∧
    (s.notifyAll x).lane = s.lane ∧ (s.notifyAll x).ports = s.ports ∧
    (s.notifyAll x).resetPin = s.resetPin ∧ (s.notifyAll x).resetHold = s.resetHold ∧
    (s.notifyAll x).pending = s.pending := by
  simpa [State.notifyAll] using foldl_keeps (fun t p => t.notify p (.link x))
    (fun t => (t.table, t.free, t.memory, t.psu, t.claims, t.link, t.lane, t.ports, t.resetPin, t.resetHold, t.pending))
    (by simp) allPorts s

@[simp] theorem State.withdrawAmendment_keeps (s : State) (h : Handle) :
    (s.withdrawAmendment h).table.arbiter = s.table.arbiter ∧
    (s.withdrawAmendment h).table.quotas = s.table.quotas ∧
    (s.withdrawAmendment h).memory = s.memory ∧ (s.withdrawAmendment h).psu = s.psu ∧
    (s.withdrawAmendment h).claims = s.claims ∧ (s.withdrawAmendment h).link = s.link ∧
    (s.withdrawAmendment h).lane = s.lane ∧ (s.withdrawAmendment h).notices = s.notices ∧
    (s.withdrawAmendment h).ports = s.ports ∧ (s.withdrawAmendment h).resetPin = s.resetPin ∧
    (s.withdrawAmendment h).resetHold = s.resetHold ∧
    (s.withdrawAmendment h).pending = s.pending := by
  unfold State.withdrawAmendment
  try dsimp only
  repeat' split
  all_goals simp

@[simp] theorem State.vacate_keeps (s : State) (h : Handle) :
    (s.vacate h).table.arbiter = s.table.arbiter ∧ (s.vacate h).table.quotas = s.table.quotas ∧
    (s.vacate h).memory = s.memory ∧ (s.vacate h).psu = s.psu ∧
    (s.vacate h).claims = s.claims ∧ (s.vacate h).link = s.link ∧ (s.vacate h).lane = s.lane ∧
    (s.vacate h).notices = s.notices ∧ (s.vacate h).ports = s.ports ∧
    (s.vacate h).resetPin = s.resetPin ∧ (s.vacate h).resetHold = s.resetHold ∧
    (s.vacate h).pending = s.pending := by
  unfold State.vacate
  try dsimp only
  repeat' split
  all_goals simp

@[simp] theorem State.retire_keeps (s : State) (h : Handle) (c : Bool) :
    (s.retire h c).table.arbiter = s.table.arbiter ∧
    (s.retire h c).table.quotas = s.table.quotas ∧ (s.retire h c).memory = s.memory ∧
    (s.retire h c).psu = s.psu ∧ (s.retire h c).claims = s.claims ∧
    (s.retire h c).link = s.link ∧ (s.retire h c).lane = s.lane ∧
    (s.retire h c).ports = s.ports ∧ (s.retire h c).resetPin = s.resetPin ∧
    (s.retire h c).resetHold = s.resetHold ∧ (s.retire h c).pending = s.pending := by
  unfold State.retire
  try dsimp only
  repeat' split
  all_goals simp

@[simp] theorem State.abortFlight_keeps (s : State) (h : Handle) :
    (s.abortFlight h).table = s.table ∧ (s.abortFlight h).free = s.free ∧
    (s.abortFlight h).memory = s.memory ∧ (s.abortFlight h).claims = s.claims ∧
    (s.abortFlight h).link = s.link ∧ (s.abortFlight h).notices = s.notices ∧
    (s.abortFlight h).ports = s.ports ∧ (s.abortFlight h).resetPin = s.resetPin ∧
    (s.abortFlight h).resetHold = s.resetHold ∧ (s.abortFlight h).pending = s.pending := by
  simp [State.abortFlight]

@[simp] theorem State.forceRetire_keeps (s : State) (h : Handle) :
    (s.forceRetire h).table.arbiter = s.table.arbiter ∧
    (s.forceRetire h).table.quotas = s.table.quotas ∧ (s.forceRetire h).memory = s.memory ∧
    (s.forceRetire h).claims = s.claims ∧ (s.forceRetire h).link = s.link ∧
    (s.forceRetire h).ports = s.ports ∧ (s.forceRetire h).resetPin = s.resetPin ∧
    (s.forceRetire h).resetHold = s.resetHold ∧ (s.forceRetire h).pending = s.pending := by
  simp [State.forceRetire]

@[simp] theorem State.miss_keeps (s : State) (h : Handle) (c : MissCause) :
    (s.miss h c).table.arbiter = s.table.arbiter ∧ (s.miss h c).table.quotas = s.table.quotas ∧
    (s.miss h c).free = s.free ∧ (s.miss h c).memory = s.memory ∧ (s.miss h c).psu = s.psu ∧
    (s.miss h c).claims = s.claims ∧ (s.miss h c).link = s.link ∧ (s.miss h c).lane = s.lane ∧
    (s.miss h c).ports = s.ports ∧ (s.miss h c).resetPin = s.resetPin ∧
    (s.miss h c).resetHold = s.resetHold ∧ (s.miss h c).pending = s.pending := by
  unfold State.miss
  try dsimp only
  repeat' split
  all_goals simp

@[simp] theorem State.reshape_keeps (s : State) (h : Handle) (st : Stream) (x : Params) (g : Option (Extent × Extent)) :
    (s.reshape h st x g).table.arbiter = s.table.arbiter ∧
    (s.reshape h st x g).table.quotas = s.table.quotas ∧
    (s.reshape h st x g).memory = s.memory ∧ (s.reshape h st x g).psu = s.psu ∧
    (s.reshape h st x g).claims = s.claims ∧ (s.reshape h st x g).link = s.link ∧
    (s.reshape h st x g).lane = s.lane ∧ (s.reshape h st x g).notices = s.notices ∧
    (s.reshape h st x g).ports = s.ports ∧ (s.reshape h st x g).resetPin = s.resetPin ∧
    (s.reshape h st x g).resetHold = s.resetHold ∧ (s.reshape h st x g).pending = s.pending := by
  simp [State.reshape]

@[simp] theorem State.takeEffect_keeps (s : State) (m : Period) (h : Handle) :
    (s.takeEffect m h).table.arbiter = s.table.arbiter ∧
    (s.takeEffect m h).table.quotas = s.table.quotas ∧ (s.takeEffect m h).memory = s.memory ∧
    (s.takeEffect m h).psu = s.psu ∧ (s.takeEffect m h).claims = s.claims ∧
    (s.takeEffect m h).link = s.link ∧ (s.takeEffect m h).lane = s.lane ∧
    (s.takeEffect m h).ports = s.ports ∧ (s.takeEffect m h).resetPin = s.resetPin ∧
    (s.takeEffect m h).resetHold = s.resetHold ∧ (s.takeEffect m h).pending = s.pending := by
  unfold State.takeEffect
  try dsimp only
  repeat' split
  all_goals simp

@[simp] theorem State.starveWarning_keeps (s : State) (n : Period) (h : Handle) :
    (s.starveWarning n h).table = s.table ∧ (s.starveWarning n h).free = s.free ∧
    (s.starveWarning n h).memory = s.memory ∧ (s.starveWarning n h).psu = s.psu ∧
    (s.starveWarning n h).claims = s.claims ∧ (s.starveWarning n h).link = s.link ∧
    (s.starveWarning n h).lane = s.lane ∧ (s.starveWarning n h).ports = s.ports ∧
    (s.starveWarning n h).resetPin = s.resetPin ∧
    (s.starveWarning n h).resetHold = s.resetHold ∧ (s.starveWarning n h).pending = s.pending := by
  unfold State.starveWarning
  try dsimp only
  repeat' split
  all_goals simp

@[simp] theorem State.openList_keeps (s : State) :
    s.openList.table = s.table ∧ s.openList.free = s.free ∧ s.openList.memory = s.memory ∧
    s.openList.psu = s.psu ∧ s.openList.link = s.link ∧ s.openList.lane = s.lane ∧
    s.openList.notices = s.notices ∧ s.openList.ports = s.ports ∧
    s.openList.resetPin = s.resetPin ∧ s.openList.resetHold = s.resetHold ∧
    s.openList.pending = s.pending := by
  unfold State.openList
  split <;> simp

@[simp] theorem State.takeMarkProcessing_keeps (s : State) (n : Period) :
    (s.takeMarkProcessing n).table.arbiter = s.table.arbiter ∧
    (s.takeMarkProcessing n).table.quotas = s.table.quotas ∧
    (s.takeMarkProcessing n).memory = s.memory ∧ (s.takeMarkProcessing n).lane = s.lane ∧
    (s.takeMarkProcessing n).ports = s.ports ∧ (s.takeMarkProcessing n).resetPin = s.resetPin ∧
    (s.takeMarkProcessing n).resetHold = s.resetHold ∧
    (s.takeMarkProcessing n).pending = s.pending := by
  have e := foldl_keeps (State.takeEffect n)
    (fun t => (t.table.arbiter, t.table.quotas, t.memory, t.lane, t.ports, t.resetPin, t.resetHold, t.pending)) (by simp) handles s
  have w := fun u => foldl_keeps (State.starveWarning n)
    (fun t => (t.table.arbiter, t.table.quotas, t.memory, t.lane, t.ports, t.resetPin, t.resetHold, t.pending)) (by simp) handles u
  simp only [Prod.mk.injEq] at e w
  unfold State.takeMarkProcessing
  dsimp only
  split <;> simp [e, w]

@[simp] theorem State.closeAfterService_keeps (s : State) (h : Handle) :
    (s.closeAfterService h).table.arbiter = s.table.arbiter ∧
    (s.closeAfterService h).table.quotas = s.table.quotas ∧
    (s.closeAfterService h).memory = s.memory ∧ (s.closeAfterService h).psu = s.psu ∧
    (s.closeAfterService h).claims = s.claims ∧ (s.closeAfterService h).link = s.link ∧
    (s.closeAfterService h).lane = s.lane ∧ (s.closeAfterService h).ports = s.ports ∧
    (s.closeAfterService h).resetPin = s.resetPin ∧
    (s.closeAfterService h).resetHold = s.resetHold ∧
    (s.closeAfterService h).pending = s.pending := by
  unfold State.closeAfterService
  try dsimp only
  repeat' split
  all_goals simp

@[simp] theorem State.startBurst_keeps (s : State) (e : TxEntry) (st : Stream) :
    (s.startBurst e st).table.arbiter = s.table.arbiter ∧
    (s.startBurst e st).table.quotas = s.table.quotas ∧ (s.startBurst e st).free = s.free ∧
    (s.startBurst e st).memory = s.memory ∧ (s.startBurst e st).claims = s.claims ∧
    (s.startBurst e st).link = s.link ∧ (s.startBurst e st).notices = s.notices ∧
    (s.startBurst e st).ports = s.ports ∧ (s.startBurst e st).resetPin = s.resetPin ∧
    (s.startBurst e st).resetHold = s.resetHold ∧ (s.startBurst e st).pending = s.pending := by
  simp [State.startBurst]

@[simp] theorem State.takeServiceStart_keeps (s : State) (e : TxEntry) :
    (s.takeServiceStart e).table.arbiter = s.table.arbiter ∧
    (s.takeServiceStart e).table.quotas = s.table.quotas ∧
    (s.takeServiceStart e).memory = s.memory ∧ (s.takeServiceStart e).claims = s.claims ∧
    (s.takeServiceStart e).link = s.link ∧ (s.takeServiceStart e).ports = s.ports ∧
    (s.takeServiceStart e).resetPin = s.resetPin ∧
    (s.takeServiceStart e).resetHold = s.resetHold ∧ (s.takeServiceStart e).pending = s.pending := by
  unfold State.takeServiceStart
  try dsimp only
  repeat' split
  all_goals simp

@[simp] theorem State.startNext_keeps (s : State) (e : TxEntry) :
    (s.startNext e).table.arbiter = s.table.arbiter ∧
    (s.startNext e).table.quotas = s.table.quotas ∧ (s.startNext e).memory = s.memory ∧
    (s.startNext e).claims = s.claims ∧ (s.startNext e).link = s.link ∧
    (s.startNext e).ports = s.ports ∧ (s.startNext e).resetPin = s.resetPin ∧
    (s.startNext e).resetHold = s.resetHold ∧ (s.startNext e).pending = s.pending := by
  unfold State.startNext
  dsimp only
  split <;> simp

@[simp] theorem State.takeNextStart_keeps (s : State) :
    s.takeNextStart.table.arbiter = s.table.arbiter ∧
    s.takeNextStart.table.quotas = s.table.quotas ∧ s.takeNextStart.memory = s.memory ∧
    s.takeNextStart.claims = s.claims ∧ s.takeNextStart.link = s.link ∧
    s.takeNextStart.ports = s.ports ∧ s.takeNextStart.resetPin = s.resetPin ∧
    s.takeNextStart.resetHold = s.resetHold ∧ s.takeNextStart.pending = s.pending := by
  unfold State.takeNextStart
  split <;> simp

@[simp] theorem State.takeTxCompletion_keeps (s : State) :
    s.takeTxCompletion.table.arbiter = s.table.arbiter ∧
    s.takeTxCompletion.table.quotas = s.table.quotas ∧ s.takeTxCompletion.memory = s.memory ∧
    s.takeTxCompletion.claims = s.claims ∧ s.takeTxCompletion.link = s.link ∧
    s.takeTxCompletion.lane = s.lane ∧ s.takeTxCompletion.ports = s.ports ∧
    s.takeTxCompletion.resetPin = s.resetPin ∧ s.takeTxCompletion.resetHold = s.resetHold ∧
    s.takeTxCompletion.pending = s.pending := by
  unfold State.takeTxCompletion
  try dsimp only
  repeat' split
  all_goals simp

@[simp] theorem State.startReceive_keeps (s : State) (h : Handle) (st : Stream) (n : Nat) :
    (s.startReceive h st n).table.arbiter = s.table.arbiter ∧
    (s.startReceive h st n).table.quotas = s.table.quotas ∧
    (s.startReceive h st n).free = s.free ∧ (s.startReceive h st n).memory = s.memory ∧
    (s.startReceive h st n).link = s.link ∧ (s.startReceive h st n).lane = s.lane ∧
    (s.startReceive h st n).notices = s.notices ∧ (s.startReceive h st n).ports = s.ports ∧
    (s.startReceive h st n).resetPin = s.resetPin ∧
    (s.startReceive h st n).resetHold = s.resetHold ∧
    (s.startReceive h st n).pending = s.pending := by
  simp [State.startReceive]

@[simp] theorem State.takeMatch_keeps (s : State) (h : Handle) (n : Nat) :
    (s.takeMatch h n).table.arbiter = s.table.arbiter ∧
    (s.takeMatch h n).table.quotas = s.table.quotas ∧ (s.takeMatch h n).memory = s.memory ∧
    (s.takeMatch h n).link = s.link ∧ (s.takeMatch h n).lane = s.lane ∧
    (s.takeMatch h n).ports = s.ports ∧ (s.takeMatch h n).resetPin = s.resetPin ∧
    (s.takeMatch h n).resetHold = s.resetHold ∧ (s.takeMatch h n).pending = s.pending := by
  unfold State.takeMatch
  try dsimp only
  repeat' split
  all_goals simp

@[simp] theorem State.takeRxCompletion_keeps (s : State) :
    s.takeRxCompletion.table.arbiter = s.table.arbiter ∧
    s.takeRxCompletion.table.quotas = s.table.quotas ∧ s.takeRxCompletion.memory = s.memory ∧
    s.takeRxCompletion.claims = s.claims ∧ s.takeRxCompletion.link = s.link ∧
    s.takeRxCompletion.lane = s.lane ∧ s.takeRxCompletion.ports = s.ports ∧
    s.takeRxCompletion.resetPin = s.resetPin ∧ s.takeRxCompletion.resetHold = s.resetHold ∧
    s.takeRxCompletion.pending = s.pending := by
  unfold State.takeRxCompletion
  try dsimp only
  repeat' split
  all_goals simp

@[simp] theorem State.decideHandle_keeps (s : State) (h : Handle) :
    (s.decideHandle h).table.arbiter = s.table.arbiter ∧
    (s.decideHandle h).table.quotas = s.table.quotas ∧ (s.decideHandle h).memory = s.memory ∧
    (s.decideHandle h).psu = s.psu ∧ (s.decideHandle h).claims = s.claims ∧
    (s.decideHandle h).link = s.link ∧ (s.decideHandle h).lane = s.lane ∧
    (s.decideHandle h).ports = s.ports ∧ (s.decideHandle h).resetPin = s.resetPin ∧
    (s.decideHandle h).resetHold = s.resetHold ∧ (s.decideHandle h).pending = s.pending := by
  unfold State.decideHandle
  try dsimp only
  repeat' split
  all_goals simp

@[simp] theorem State.takePeriodEnd_keeps (s : State) :
    s.takePeriodEnd.table.arbiter = s.table.arbiter ∧
    s.takePeriodEnd.table.quotas = s.table.quotas ∧ s.takePeriodEnd.memory = s.memory ∧
    s.takePeriodEnd.claims = s.claims ∧ s.takePeriodEnd.link = s.link ∧
    s.takePeriodEnd.lane = s.lane ∧ s.takePeriodEnd.ports = s.ports ∧
    s.takePeriodEnd.resetPin = s.resetPin ∧ s.takePeriodEnd.resetHold = s.resetHold ∧
    s.takePeriodEnd.pending = s.pending := by
  simpa [State.takePeriodEnd] using foldl_keeps State.decideHandle
    (fun t => (t.table.arbiter, t.table.quotas, t.memory, t.claims, t.link, t.lane, t.ports, t.resetPin, t.resetHold, t.pending))
    (by simp) s.periodEndOrder s

@[simp] theorem State.abortBuffer_keeps (s : State) (h : Handle) (g : Byte) (n : BufferName) :
    (s.abortBuffer h g n).table.arbiter = s.table.arbiter ∧
    (s.abortBuffer h g n).table.quotas = s.table.quotas ∧ (s.abortBuffer h g n).free = s.free ∧
    (s.abortBuffer h g n).memory = s.memory ∧ (s.abortBuffer h g n).psu = s.psu ∧
    (s.abortBuffer h g n).claims = s.claims ∧ (s.abortBuffer h g n).link = s.link ∧
    (s.abortBuffer h g n).lane = s.lane ∧ (s.abortBuffer h g n).notices = s.notices ∧
    (s.abortBuffer h g n).ports = s.ports ∧ (s.abortBuffer h g n).resetPin = s.resetPin ∧
    (s.abortBuffer h g n).resetHold = s.resetHold ∧ (s.abortBuffer h g n).pending = s.pending := by
  unfold State.abortBuffer
  try dsimp only
  repeat' split
  all_goals simp

@[simp] theorem State.abortService_keeps (s : State) :
    s.abortService.table.arbiter = s.table.arbiter ∧
    s.abortService.table.quotas = s.table.quotas ∧ s.abortService.free = s.free ∧
    s.abortService.memory = s.memory ∧ s.abortService.claims = s.claims ∧
    s.abortService.link = s.link ∧ s.abortService.lane = s.lane ∧
    s.abortService.notices = s.notices ∧ s.abortService.ports = s.ports ∧
    s.abortService.resetPin = s.resetPin ∧ s.abortService.resetHold = s.resetHold ∧
    s.abortService.pending = s.pending := by
  unfold State.abortService
  try dsimp only
  repeat' split
  all_goals simp

@[simp] theorem State.departRecord_keeps (s : State) (h : Handle) :
    (s.departRecord h).table.arbiter = s.table.arbiter ∧
    (s.departRecord h).table.quotas = s.table.quotas ∧ (s.departRecord h).memory = s.memory ∧
    (s.departRecord h).psu = s.psu ∧ (s.departRecord h).claims = s.claims ∧
    (s.departRecord h).link = s.link ∧ (s.departRecord h).lane = s.lane ∧
    (s.departRecord h).ports = s.ports ∧ (s.departRecord h).resetPin = s.resetPin ∧
    (s.departRecord h).resetHold = s.resetHold ∧ (s.departRecord h).pending = s.pending := by
  unfold State.departRecord
  try dsimp only
  repeat' split
  all_goals simp

@[simp] theorem State.leaveUp_keeps (s : State) :
    s.leaveUp.table.arbiter = s.table.arbiter ∧ s.leaveUp.table.quotas = s.table.quotas ∧
    s.leaveUp.memory = s.memory ∧ s.leaveUp.claims = s.claims ∧ s.leaveUp.link = s.link ∧
    s.leaveUp.lane = s.lane ∧ s.leaveUp.ports = s.ports ∧ s.leaveUp.resetPin = s.resetPin ∧
    s.leaveUp.resetHold = s.resetHold ∧ s.leaveUp.pending = s.pending := by
  simpa [State.leaveUp] using foldl_keeps State.departRecord
    (fun t => (t.table.arbiter, t.table.quotas, t.memory, t.claims, t.link, t.lane, t.ports, t.resetPin, t.resetHold, t.pending))
    (by simp) handles s.abortService

@[simp] theorem State.takeLeavingUp_keeps (s : State) :
    s.takeLeavingUp.table.arbiter = s.table.arbiter ∧
    s.takeLeavingUp.table.quotas = s.table.quotas ∧ s.takeLeavingUp.memory = s.memory ∧
    s.takeLeavingUp.claims = s.claims ∧ s.takeLeavingUp.ports = s.ports ∧
    s.takeLeavingUp.resetPin = s.resetPin ∧ s.takeLeavingUp.resetHold = s.resetHold ∧
    s.takeLeavingUp.pending = s.pending := by
  unfold State.takeLeavingUp
  try dsimp only
  repeat' split
  all_goals simp

@[simp] theorem State.takeClaim_keeps (s : State) (c : Claim) :
    (s.takeClaim c).table.arbiter = s.table.arbiter ∧
    (s.takeClaim c).table.quotas = s.table.quotas ∧ (s.takeClaim c).memory = s.memory ∧
    (s.takeClaim c).ports = s.ports ∧ (s.takeClaim c).resetPin = s.resetPin ∧
    (s.takeClaim c).resetHold = s.resetHold ∧ (s.takeClaim c).pending = s.pending := by
  cases c <;> simp [State.takeClaim, State.takeEnteringUp, State.takeSlip]

@[simp] theorem State.settleFor_keeps (n : Nat) (s : State) :
    (State.settleFor n s).table.arbiter = s.table.arbiter ∧
    (State.settleFor n s).table.quotas = s.table.quotas ∧
    (State.settleFor n s).memory = s.memory ∧ (State.settleFor n s).ports = s.ports ∧
    (State.settleFor n s).resetPin = s.resetPin ∧
    (State.settleFor n s).resetHold = s.resetHold ∧ (State.settleFor n s).pending = s.pending := by
  induction n generalizing s with
  | zero => simp [State.settleFor]
  | succ n ih =>
    unfold State.settleFor
    split <;> simp [ih]

@[simp] theorem State.settle_keeps (s : State) :
    s.settle.table.arbiter = s.table.arbiter ∧ s.settle.table.quotas = s.table.quotas ∧
    s.settle.memory = s.memory ∧ s.settle.ports = s.ports ∧ s.settle.resetPin = s.resetPin ∧
    s.settle.resetHold = s.resetHold ∧ s.settle.pending = s.pending := by
  simp [State.settle]

@[simp] theorem State.enterUp_keeps (s : State) :
    s.enterUp.table = s.table ∧ s.enterUp.free = s.free ∧ s.enterUp.memory = s.memory ∧
    s.enterUp.psu = s.psu ∧ s.enterUp.lane = s.lane ∧ s.enterUp.notices = s.notices ∧
    s.enterUp.ports = s.ports ∧ s.enterUp.resetPin = s.resetPin ∧
    s.enterUp.resetHold = s.resetHold ∧ s.enterUp.pending = s.pending := by
  unfold State.enterUp
  split <;> simp [State.makeClaim]

@[simp] theorem State.catchUp_keeps (s : State) :
    s.catchUp.table.arbiter = s.table.arbiter ∧ s.catchUp.table.quotas = s.table.quotas ∧
    s.catchUp.memory = s.memory ∧ s.catchUp.ports = s.ports ∧ s.catchUp.resetPin = s.resetPin ∧
    s.catchUp.resetHold = s.resetHold ∧ s.catchUp.pending = s.pending := by
  simp [State.catchUp]

theorem State.takeThroughFor_keeps {k : Claim → Bool} {n : Nat} {s t : State}
    (h : State.takeThroughFor k n s = some t) :
    t.table.arbiter = s.table.arbiter ∧ t.table.quotas = s.table.quotas ∧ t.memory = s.memory ∧
    t.ports = s.ports ∧ t.resetPin = s.resetPin ∧ t.resetHold = s.resetHold ∧
    t.pending = s.pending := by
  induction n generalizing s with
  | zero => cases h
  | succ n ih =>
    unfold State.takeThroughFor at h
    split at h
    · cases h
    · dsimp only at h
      split at h
      · cases h; simp
      · simpa using ih h

theorem State.through_keeps {k : Claim → Bool} {s t : State} (h : s.through k = some t) :
    t.table.arbiter = s.table.arbiter ∧ t.table.quotas = s.table.quotas ∧ t.memory = s.memory ∧
    t.ports = s.ports ∧ t.resetPin = s.resetPin ∧ t.resetHold = s.resetHold ∧
    t.pending = s.pending := State.takeThroughFor_keeps h


@[simp] theorem State.takeThrough_keeps (s : State) (k : Claim → Bool) :
    (s.takeThrough k).table.arbiter = s.table.arbiter ∧
    (s.takeThrough k).table.quotas = s.table.quotas ∧ (s.takeThrough k).memory = s.memory ∧
    (s.takeThrough k).ports = s.ports ∧ (s.takeThrough k).resetPin = s.resetPin ∧
    (s.takeThrough k).resetHold = s.resetHold ∧ (s.takeThrough k).pending = s.pending := by
  unfold State.takeThrough
  split
  · simp
  · split
    · cases h : s.through k with
      | none => simp
      | some t => simpa using State.through_keeps h
    · simp

@[simp] theorem State.finishSlot_keeps (s : State) :
    s.finishSlot.table.arbiter = s.table.arbiter ∧ s.finishSlot.table.quotas = s.table.quotas ∧
    s.finishSlot.memory = s.memory ∧ s.finishSlot.claims = s.claims ∧
    s.finishSlot.link = s.link ∧ s.finishSlot.ports = s.ports ∧
    s.finishSlot.resetPin = s.resetPin ∧ s.finishSlot.resetHold = s.resetHold ∧
    s.finishSlot.pending = s.pending := by
  simp [State.finishSlot]

@[simp] theorem State.runSlots_keeps (n : Nat) (s : State) :
    (State.runSlots n s).table.arbiter = s.table.arbiter ∧
    (State.runSlots n s).table.quotas = s.table.quotas ∧
    (State.runSlots n s).memory = s.memory ∧ (State.runSlots n s).claims = s.claims ∧
    (State.runSlots n s).link = s.link ∧ (State.runSlots n s).ports = s.ports ∧
    (State.runSlots n s).resetPin = s.resetPin ∧ (State.runSlots n s).resetHold = s.resetHold ∧
    (State.runSlots n s).pending = s.pending := by
  induction n generalizing s with
  | zero => simp [State.runSlots]
  | succ n ih =>
    unfold State.runSlots
    dsimp only
    split <;> simp [ih]

@[simp] theorem State.runOut_keeps (s : State) :
    s.runOut.table.arbiter = s.table.arbiter ∧ s.runOut.table.quotas = s.table.quotas ∧
    s.runOut.memory = s.memory ∧ s.runOut.claims = s.claims ∧ s.runOut.link = s.link ∧
    s.runOut.ports = s.ports ∧ s.runOut.resetPin = s.resetPin ∧
    s.runOut.resetHold = s.resetHold ∧ s.runOut.pending = s.pending := by
  simp [State.runOut]

theorem State.stageNext_keeps {s t : State} (h : s.stageNext = .next t) :
    t.table = s.table ∧ t.free = s.free ∧ t.memory = s.memory ∧ t.link = s.link ∧
    t.notices = s.notices ∧ t.ports = s.ports ∧ t.resetPin = s.resetPin ∧
    t.resetHold = s.resetHold ∧ t.pending = s.pending := by
  unfold State.stageNext at h
  split at h <;> split at h <;> cases h <;> simp

theorem State.cellTime_keeps {s t : State} (h : s.cellTime = .next t) :
    t.table.arbiter = s.table.arbiter ∧ t.table.quotas = s.table.quotas ∧ t.memory = s.memory ∧
    t.ports = s.ports ∧ t.resetPin = s.resetPin ∧ t.resetHold = s.resetHold ∧
    t.pending = s.pending := by
  unfold State.cellTime at h
  split at h
  · cases h; simp
  · have k := State.stageNext_keeps h
    simp [k]

theorem State.passTo_keeps {k : Claim → Bool} {n : Nat} {s t : State}
    (h : s.passTo k n = .next t) :
    t.table.arbiter = s.table.arbiter ∧ t.table.quotas = s.table.quotas ∧ t.memory = s.memory ∧
    t.ports = s.ports ∧ t.resetPin = s.resetPin ∧ t.resetHold = s.resetHold ∧
    t.pending = s.pending := by
  induction n generalizing s with
  | zero => cases h; simp
  | succ n ih =>
    unfold State.passTo at h
    split at h
    · cases h; simp
    · split at h
      · rename_i e
        have k := State.cellTime_keeps e
        simpa [k] using ih h
      · cases h
      · cases h

theorem State.takeOfLane_keeps {k : Claim → Bool} {c : State → Bool} {s t : State}
    (h : s.takeOfLane k c = .next t) :
    t.table.arbiter = s.table.arbiter ∧ t.table.quotas = s.table.quotas ∧ t.memory = s.memory ∧
    t.ports = s.ports ∧ t.resetPin = s.resetPin ∧ t.resetHold = s.resetHold ∧
    t.pending = s.pending := by
  unfold State.takeOfLane at h
  split at h
  · rename_i e
    cases h
    exact State.through_keeps e
  · dsimp only at h
    split at h
    · split at h
      · rename_i u e
        cases h
        cases hu : u.through k with
        | none => simp
        | some v =>
          have a := State.passTo_keeps e
          have b := State.through_keeps hu
          simpa [a] using b
      · cases h
      · cases h
    · cases h; simp


@[simp] theorem State.cutBurst_keeps (s : State) :
    s.cutBurst.table = s.table ∧ s.cutBurst.free = s.free ∧ s.cutBurst.memory = s.memory ∧
    s.cutBurst.link = s.link ∧ s.cutBurst.lane = s.lane ∧ s.cutBurst.notices = s.notices ∧
    s.cutBurst.ports = s.ports ∧ s.cutBurst.resetPin = s.resetPin ∧
    s.cutBurst.resetHold = s.resetHold ∧ s.cutBurst.pending = s.pending := by
  unfold State.cutBurst
  try dsimp only
  repeat' split
  all_goals simp

@[simp] theorem State.endReceive_keeps (s : State) :
    s.endReceive.table = s.table ∧ s.endReceive.free = s.free ∧
    s.endReceive.memory = s.memory ∧ s.endReceive.link = s.link ∧ s.endReceive.lane = s.lane ∧
    s.endReceive.notices = s.notices ∧ s.endReceive.ports = s.ports ∧
    s.endReceive.resetPin = s.resetPin ∧ s.endReceive.resetHold = s.resetHold ∧
    s.endReceive.pending = s.pending := by
  unfold State.endReceive
  try dsimp only
  repeat' split
  all_goals simp

@[simp] theorem State.reportMark_keeps (s : State) (n : Period) :
    (s.reportMark n).table = s.table ∧ (s.reportMark n).free = s.free ∧
    (s.reportMark n).memory = s.memory ∧ (s.reportMark n).link = s.link ∧
    (s.reportMark n).lane = s.lane ∧ (s.reportMark n).notices = s.notices ∧
    (s.reportMark n).ports = s.ports ∧ (s.reportMark n).resetPin = s.resetPin ∧
    (s.reportMark n).resetHold = s.resetHold ∧ (s.reportMark n).pending = s.pending := by
  simp [State.reportMark]

@[simp] theorem State.emitMark_keeps (s : State) :
    s.emitMark.table = s.table ∧ s.emitMark.free = s.free ∧ s.emitMark.memory = s.memory ∧
    s.emitMark.notices = s.notices ∧ s.emitMark.ports = s.ports ∧
    s.emitMark.resetPin = s.resetPin ∧ s.emitMark.resetHold = s.resetHold ∧
    s.emitMark.pending = s.pending := by
  simp [State.emitMark]

@[simp] theorem State.settlePeriod_keeps (s : State) :
    s.settlePeriod.table.arbiter = s.table.arbiter ∧
    s.settlePeriod.table.quotas = s.table.quotas ∧ s.settlePeriod.memory = s.memory ∧
    s.settlePeriod.ports = s.ports ∧ s.settlePeriod.resetPin = s.resetPin ∧
    s.settlePeriod.resetHold = s.resetHold ∧ s.settlePeriod.pending = s.pending := by
  unfold State.settlePeriod
  try dsimp only
  repeat' split
  all_goals simp

@[simp] theorem State.takeMark_keeps (s : State) (n : Period) :
    (s.takeMark n).table.arbiter = s.table.arbiter ∧
    (s.takeMark n).table.quotas = s.table.quotas ∧ (s.takeMark n).memory = s.memory ∧
    (s.takeMark n).ports = s.ports ∧ (s.takeMark n).resetPin = s.resetPin ∧
    (s.takeMark n).resetHold = s.resetHold ∧ (s.takeMark n).pending = s.pending := by
  unfold State.takeMark
  try dsimp only
  repeat' split
  all_goals simp

@[simp] theorem State.acceptEcho_keeps (s : State) :
    s.acceptEcho.table = s.table ∧ s.acceptEcho.free = s.free ∧
    s.acceptEcho.memory = s.memory ∧ s.acceptEcho.psu = s.psu ∧ s.acceptEcho.lane = s.lane ∧
    s.acceptEcho.notices = s.notices ∧ s.acceptEcho.ports = s.ports ∧
    s.acceptEcho.resetPin = s.resetPin ∧ s.acceptEcho.resetHold = s.resetHold ∧
    s.acceptEcho.pending = s.pending := by
  unfold State.acceptEcho
  try dsimp only
  repeat' split
  all_goals simp

@[simp] theorem State.purgeRecord_keeps (s : State) (h : Handle) :
    (s.purgeRecord h).table.arbiter = s.table.arbiter ∧
    (s.purgeRecord h).table.quotas = s.table.quotas ∧ (s.purgeRecord h).memory = s.memory ∧
    (s.purgeRecord h).claims = s.claims ∧ (s.purgeRecord h).link = s.link ∧
    (s.purgeRecord h).notices = s.notices ∧ (s.purgeRecord h).ports = s.ports ∧
    (s.purgeRecord h).resetPin = s.resetPin ∧ (s.purgeRecord h).resetHold = s.resetHold ∧
    (s.purgeRecord h).pending = s.pending := by
  simp [State.purgeRecord]

@[simp] theorem State.turnOff_keeps (s : State) :
    s.turnOff.table = s.table ∧ s.turnOff.free = s.free ∧ s.turnOff.memory = s.memory ∧
    s.turnOff.claims = s.claims ∧ s.turnOff.notices = s.notices ∧ s.turnOff.ports = s.ports ∧
    s.turnOff.resetPin = s.resetPin ∧ s.turnOff.resetHold = s.resetHold ∧
    s.turnOff.pending = s.pending := by
  simp [State.turnOff]

@[simp] theorem State.disable_keeps (s : State) :
    s.disable.table.arbiter = s.table.arbiter ∧ s.disable.table.quotas = s.table.quotas ∧
    s.disable.memory = s.memory ∧ s.disable.claims = s.claims ∧ s.disable.ports = s.ports ∧
    s.disable.resetPin = s.resetPin ∧ s.disable.resetHold = s.resetHold ∧
    s.disable.pending = s.pending := by
  unfold State.disable
  try dsimp only
  repeat' split
  all_goals simp

@[simp] theorem State.enable_keeps (s : State) :
    s.enable.table = s.table ∧ s.enable.free = s.free ∧ s.enable.memory = s.memory ∧
    s.enable.notices = s.notices ∧ s.enable.ports = s.ports ∧ s.enable.resetPin = s.resetPin ∧
    s.enable.resetHold = s.resetHold ∧ s.enable.pending = s.pending := by
  unfold State.enable
  try dsimp only
  repeat' split
  all_goals simp

@[simp] theorem State.applyRole_keeps (s : State) (x : Option Role) :
    (s.applyRole x).table = s.table ∧ (s.applyRole x).free = s.free ∧
    (s.applyRole x).memory = s.memory ∧ (s.applyRole x).psu = s.psu ∧
    (s.applyRole x).claims = s.claims ∧ (s.applyRole x).lane = s.lane ∧
    (s.applyRole x).notices = s.notices ∧ (s.applyRole x).ports = s.ports ∧
    (s.applyRole x).resetPin = s.resetPin ∧ (s.applyRole x).resetHold = s.resetHold ∧
    (s.applyRole x).pending = s.pending := by
  cases x <;> simp [State.applyRole]

end Sys2Proof.Machine
end

