-- ==== Sys2Proof/Laws/Memory.lean ====
section
/-! SUPPORT. Stream Memory: every operation keeps the canonical form, and a read after a write or a
zeroing gives what was stored. -/

namespace Sys2Proof.Machine

/-- Reading below every listed address gives 0. -/
theorem memory_read_below (m : List Host.Cell) (a : Nat) (h : ∀ c ∈ m, a < c.1) :
    Memory.read m a = 0 := by
  induction m with
  | nil => rfl
  | cons c m ih =>
    have hc := h c (by simp)
    simp only [Memory.read]
    rw [if_neg (by omega), ih fun d hd => h d (by simp [hd])]

/-- The addresses that a write lists are the written one and those listed before. -/
theorem memory_write_mem (m : List Host.Cell) (a : Nat) (v : Byte) (c : Host.Cell)
    (h : c ∈ Memory.write m a v) : c ∈ m ∨ (c = (a, v) ∧ v ≠ 0) := by
  induction m with
  | nil => simp only [Memory.write] at h; split at h <;> simp_all
  | cons d m ih =>
    simp only [Memory.write] at h
    split at h
    · split at h
      · exact .inl h
      · rcases List.mem_cons.1 h with h | h
        · exact .inr ⟨h, ‹_›⟩
        · exact .inl h
    · split at h
      · split at h
        · exact .inl (List.mem_cons_of_mem _ h)
        · rcases List.mem_cons.1 h with h | h
          · exact .inr ⟨h, ‹_›⟩
          · exact .inl (List.mem_cons_of_mem _ h)
      · rcases List.mem_cons.1 h with h | h
        · exact .inl (h ▸ List.mem_cons_self ..)
        · rcases ih h with h | h
          · exact .inl (List.mem_cons_of_mem _ h)
          · exact .inr h

/-- A write within Stream Memory keeps the canonical form. -/
theorem memory_write_wf (m : List Host.Cell) (a : Nat) (v : Byte) (hm : Memory.wf m)
    (ha : a < Config.memoryBytes) : Memory.wf (Memory.write m a v) := by
  refine ⟨?_, fun c hc => ?_⟩
  · induction m with
    | nil => simp only [Memory.write]; split <;> simp
    | cons d m ih =>
      obtain ⟨hp, hb⟩ := hm
      rw [List.pairwise_cons] at hp
      have ih := ih ⟨hp.2, fun c hc => hb c (by simp [hc])⟩
      simp only [Memory.write]
      split
      · split
        · exact List.pairwise_cons.2 hp
        · refine List.pairwise_cons.2 ⟨fun c hc => ?_, List.pairwise_cons.2 hp⟩
          rcases List.mem_cons.1 hc with rfl | hc
          · assumption
          · exact Nat.lt_trans ‹_› (hp.1 c hc)
      · split
        · split
          · exact hp.2
          · exact List.pairwise_cons.2 ⟨fun c hc => by simp [*, hp.1 c hc], hp.2⟩
        · refine List.pairwise_cons.2 ⟨fun c hc => ?_, ih⟩
          rcases memory_write_mem m a v c hc with hc | ⟨rfl, -⟩
          · exact hp.1 c hc
          · simp only; omega
  · rcases memory_write_mem m a v c hc with hc | ⟨rfl, hv⟩
    · exact hm.2 c hc
    · exact ⟨hv, ha⟩

/-- A run of writes within Stream Memory keeps the canonical form. -/
theorem memory_writeBytes_wf (m : List Host.Cell) (a : Nat) (vs : List Byte) (hm : Memory.wf m)
    (ha : Memory.holds a vs.length = true) : Memory.wf (Memory.writeBytes m a vs) := by
  induction vs generalizing m a with
  | nil => exact hm
  | cons v vs ih =>
    simp only [Memory.holds, List.length_cons, decide_eq_true_eq] at ha
    exact ih _ _ (memory_write_wf m a v hm (by omega)) (by simp [Memory.holds]; omega)

/-- Zeroing keeps the canonical form. -/
theorem memory_zero_wf (m : List Host.Cell) (a n : Nat) (hm : Memory.wf m) :
    Memory.wf (Memory.zero m a n) :=
  ⟨hm.1.filter _, fun c hc => hm.2 c (List.mem_of_mem_filter hc)⟩

/-- A granted pair's zeroing keeps the canonical form. -/
theorem zeroPair_wf (p : Extent × Extent) (m m' : List Host.Cell) (hm : Memory.wf m)
    (h : zeroPair p m = .ok m') : Memory.wf m' := by
  unfold zeroPair at h
  split at h
  · cases h; exact memory_zero_wf _ _ _ (memory_zero_wf _ _ _ hm)
  · cases h

/-- A byte read after one byte is written. -/
theorem memory_read_write (m : List Host.Cell) (a x : Nat) (v : Byte) (hm : Memory.wf m) :
    Memory.read (Memory.write m a v) x = if x = a then v else Memory.read m x := by
  obtain ⟨hp, -⟩ := hm
  induction m with
  | nil => simp only [Memory.write, Memory.read]; split <;> simp_all [Memory.read]
  | cons d m ih =>
    rw [List.pairwise_cons] at hp
    have ih := ih hp.2
    have hz : ∀ y, y ≤ d.1 → Memory.read m y = 0 := fun y hy =>
      memory_read_below m y fun c hc => Nat.lt_of_le_of_lt hy (hp.1 c hc)
    simp only [Memory.write]
    by_cases h1 : a < d.1
    · rw [if_pos h1]
      by_cases hv : v = 0
      · rw [if_pos hv]
        by_cases hx : x = a
        · subst hx hv
          simp only [Memory.read]
          rw [if_neg (by omega), hz _ (by omega)]; simp
        · rw [if_neg hx]
      · rw [if_neg hv]; simp [Memory.read]
    · rw [if_neg h1]
      by_cases h2 : a = d.1
      · rw [if_pos h2]
        by_cases hv : v = 0
        · rw [if_pos hv]
          by_cases hx : x = a
          · rw [if_pos hx, hv, hz x (by omega)]
          · simp only [Memory.read]; rw [if_neg hx, if_neg (by omega)]
        · rw [if_neg hv]
          simp only [Memory.read]
          by_cases hx : x = a
          · rw [if_pos hx, if_pos hx]
          · rw [if_neg hx, if_neg hx, if_neg (by omega)]
      · rw [if_neg h2]
        simp only [Memory.read]
        by_cases hx : x = d.1
        · rw [if_pos hx, if_neg (by omega), if_pos hx]
        · rw [if_neg hx, if_neg hx, ih]

/-- A byte read after a run of bytes is zeroed. -/
theorem memory_read_zero (m : List Host.Cell) (a n x : Nat) :
    Memory.read (Memory.zero m a n) x = if a ≤ x ∧ x < a + n then 0 else Memory.read m x := by
  induction m with
  | nil => simp [Memory.zero, Memory.read]
  | cons d m ih =>
    unfold Memory.zero at ih ⊢
    rw [List.filter_cons]
    by_cases hd : (decide (d.1 < a) || decide (a + n ≤ d.1)) = true
    · rw [if_pos hd]
      simp only [Memory.read, ih]
      simp only [Bool.or_eq_true, decide_eq_true_eq] at hd
      by_cases hx : x = d.1
      · rw [if_pos hx, if_neg (by omega), if_pos hx]
      · rw [if_neg hx, if_neg hx]
    · rw [if_neg hd, ih]
      simp only [Bool.or_eq_true, decide_eq_true_eq] at hd
      by_cases hx : a ≤ x ∧ x < a + n
      · rw [if_pos hx, if_pos hx]
      · rw [if_neg hx, if_neg hx]; simp only [Memory.read]; rw [if_neg (by omega)]

/-- Stream Memory after reset has the canonical form. -/
theorem reset_memory_wf : Memory.wf State.reset.memory := by
  simp [State.reset, Memory.wf]

end Sys2Proof.Machine
end

