-- ==== Sys2Proof/Laws/Ops.lean ====
section
/-! SUPPORT. What each shared operation does, said once: to cite in place of unfolding it. -/

namespace Sys2Proof.Machine

/-! ### Grants (1.8) -/

/-- A granted entry stands at the head of the port's request queue, and it is the port's turn. -/
theorem granted_head {s : State} {p : Port} {e : Entry} (h : s.granted p = some e) :
    s.nextPort = some p ∧ (s.port p).requestQueue = e :: (s.port p).requestQueue.tail := by
  unfold State.granted at h
  split at h
  · refine ⟨‹_›, ?_⟩
    cases hq : (s.port p).requestQueue with
    | nil => simp [hq] at h
    | cons a l => simp [hq] at h; simp [h]
  · cases h

/-- The entry granted, from the port's turn and its queue. -/
theorem granted_of {s : State} {p : Port} {e : Entry} {l : List Entry} (h : s.nextPort = some p)
    (hq : (s.port p).requestQueue = e :: l) : s.granted p = some e := by
  simp [State.granted, h, hq]

/-- All that a grant can do: nothing, or the granted request carried out on the settled state with its
response placed and retained. -/
theorem grant_cases {s t : State} {p : Port} {takes : Request → Bool}
    {run : Request → State → Answer} (h : s.grant p takes run = .next t) :
    t = s ∨ ∃ r u a, s.held = false ∧ s.settle.granted p = some (.request r) ∧ takes r = true ∧
      run r (s.settle.advance p) = .ok (u, a) ∧ t = u.answer p r.code r.sequence a true := by
  unfold State.grant at h
  split at h
  · cases h; exact .inl rfl
  · dsimp only at h
    split at h
    · rename_i r hg
      split at h
      · split at h
        · rename_i a ha
          cases h
          exact .inr ⟨r, a.1, a.2, by simpa using ‹¬s.held = true›, hg, ‹_›, ha, rfl⟩
        · cases h
      · cases h; exact .inl rfl
    · cases h; exact .inl rfl

/-- A grant of the row's kind of request completes when the request's handler does. -/
theorem grant_next {s u : State} {p : Port} {takes : Request → Bool} {run : Request → State → Answer}
    {r : Request} {a : Reply} (hh : s.held = false)
    (hg : s.settle.granted p = some (.request r)) (ht : takes r = true)
    (ha : run r (s.settle.advance p) = .ok (u, a)) :
    s.grant p takes run = .next (u.answer p r.code r.sequence a true) := by
  simp [State.grant, hh, hg, ht, ha]

/-- A granted request that its handler answers, in a state whose port is as the grant found it. -/
theorem grants_next {s w v : State} {p : Port} {takes : Request → Bool}
    {run : Request → State → Answer} {r : Request} {rest : List Entry} {x : Status} {b : List Byte}
    (hg : s.Grants p r rest) (ht : takes r = true)
    (ha : run r (s.settle.advance p) = .ok (w, ⟨x, b⟩))
    (hw : w = { v with table := { v.table with arbiter := p + 1 } })
    (hp : v.port p = s.settle.port p) :
    s.grant p takes run = .next (v.responded p r rest x b) := by
  rw [grant_next hg.1 (granted_of hg.2.1 hg.2.2) ht ha, hw]
  have q : (v.port p).requestQueue = .request r :: rest := hp ▸ hg.2.2
  simp only [State.port] at q
  simp [State.answer, State.responded, PortInterface.place, State.port, q]

/-- A granted request refused leaves the state of the claims taken with the response placed. -/
theorem grants_refused {s : State} {p : Port} {takes : Request → Bool}
    {run : Request → State → Answer} {r : Request} {rest : List Entry} {x : Status} {b : List Byte}
    (hg : s.Grants p r rest) (ht : takes r = true)
    (ha : run r (s.settle.advance p) = .ok (s.settle.advance p, ⟨x, b⟩)) :
    s.grant p takes run = .next (s.settle.responded p r rest x b) :=
  grants_next hg ht ha rfl rfl

/-! ### Claims (1.8) -/

/-- With no claim waiting there is nothing to settle. -/
theorem settle_nil {s : State} (h : s.claims = []) : s.settle = s := by
  simp [State.settle, h, State.settleFor]

/-- Taking claims changes neither the reset pin nor the hold. -/
@[simp] theorem settle_held (s : State) : s.settle.held = s.held := by simp [State.held]

/-- With no claim waiting and no entry into UP due there is nothing to catch up on. -/
theorem catchUp_nil {s : State} (h : s.claims = []) (e : s.entryDue = false) : s.catchUp = s := by
  simp [State.catchUp, settle_nil h, State.enterUp, e]

/-- Catching up changes neither the reset pin nor the hold. -/
@[simp] theorem catchUp_held (s : State) : s.catchUp.held = s.held := by simp [State.held]

/-- The claim of a kind at the front of the waiting claims is the one taken. -/
theorem through_front {s : State} {k : Claim → Bool} {c : Claim} {l : List Claim}
    (hc : s.claims = c :: l) (hk : k c = true) :
    s.through k = some (State.takeClaim { s with claims := l } c) := by
  have e : 2 * s.claims.length = 2 * l.length + 1 + 1 := by rw [hc]; simp; omega
  rw [State.through, e, State.takeThroughFor, hc]
  simp [hk]

/-- A row takes the claim of its kind that waits at the front. -/
theorem takeThrough_front {s : State} {k : Claim → Bool} {c : Claim} {l : List Claim}
    (hh : s.held = false) (hc : s.claims = c :: l) (hk : k c = true) :
    s.takeThrough k = State.takeClaim { s with claims := l } c := by
  unfold State.held at hh
  have a : s.claims.any k = true := by simp [hc, hk]
  rw [State.takeThrough, hh, if_neg (by simp), if_pos a, through_front hc hk, Option.getD_some]

/-- A row of the lane takes the claim of its kind that waits at the front. -/
theorem takeOfLane_front {s : State} {k : Claim → Bool} {c : Claim} {l : List Claim}
    (toCome : State → Bool) (hc : s.claims = c :: l) (hk : k c = true) :
    s.takeOfLane k toCome = .next (State.takeClaim { s with claims := l } c) := by
  rw [State.takeOfLane, through_front hc hk]

/-! ### The transmit lane (R139) -/

/-- All that the staging of a cell can do: the next cell of the slot, the trailer, or none. -/
theorem stageNext_cases {s t : State} (h : s.stageNext = .next t) :
    (∃ c rest w, s.lane.queue = c :: rest ∧ c.onWire s.memory = .ok w ∧ t = s.stageCell c rest w) ∨
    (∃ n, s.lane.queue = [] ∧ s.lane.opened = some n ∧
      t = { s with lane := { s.lane with staged := some (.trailer n), opened := none } }) ∨
    (s.lane.queue = [] ∧ s.lane.opened = none ∧
      t = { s with lane := { s.lane with staged := none } }) := by
  unfold State.stageNext at h
  split at h
  · split at h
    · cases h; exact .inl ⟨_, _, _, ‹_›, ‹_›, rfl⟩
    · cases h
  · split at h
    · cases h; exact .inr (.inl ⟨_, ‹_›, ‹_›, rfl⟩)
    · cases h; exact .inr (.inr ⟨‹_›, ‹_›, rfl⟩)

/-- All that a cell time can do: an idle cell while the part is held or the link OFF; else the claims
taken, the staged cell sent and a cell staged. -/
theorem cellTime_cases {s t : State} (h : s.cellTime = .next t) :
    ((s.held = true ∨ s.link.state = .off) ∧
      t = { s with lane := { s.lane with sending := .idle } }) ∨
    (s.held = false ∧ s.link.state ≠ .off ∧ s.catchUp.sendStaged.stageNext = .next t) := by
  unfold State.cellTime at h
  split at h
  · rename_i c; cases h; exact .inl ⟨by simpa using c, rfl⟩
  · refine .inr ⟨?_, ?_, h⟩ <;> simp_all

/-! ### Transactions (9.2) -/

/-- Whole bytes clocked are taken on MOSI. -/
@[simp] theorem clock_taken (x : Transaction) (m : List Byte) :
    (x.clock m).taken = x.taken ++ m := rfl

/-- As many bytes are shifted out. -/
@[simp] theorem clock_shifted_length (x : Transaction) (m : List Byte) :
    (x.clock m).shifted.length = x.shifted.length + m.length := by simp [Transaction.clock]

/-- The clock leaves the header. -/
@[simp] theorem clock_header (x : Transaction) (m : List Byte) : (x.clock m).header = x.header := rfl

/-- The clock leaves whether a reset cut the transaction. -/
@[simp] theorem clock_cut (x : Transaction) (m : List Byte) : (x.clock m).cut = x.cut := rfl

/-- The clock leaves whether the header showed PURGED. -/
@[simp] theorem clock_showsPurged (x : Transaction) (m : List Byte) :
    (x.clock m).showsPurged = x.showsPurged := rfl

/-- The clock leaves whether a PURGE has come since. -/
@[simp] theorem clock_purgedSince (x : Transaction) (m : List Byte) :
    (x.clock m).purgedSince = x.purgedSince := rfl

/-- The bytes of a response are its header, its body and its CRC. -/
theorem response_length (r : Response) : r.bytes.length = r.body.length + 7 := by
  simp [Response.bytes, Response.covered, crcBytes, be16]

/-- The clock leaves the response chosen and counts the bytes clocked. -/
@[simp] theorem clock_delivery (x : Transaction) (m : List Byte) :
    (x.clock m).delivery = x.delivery.map fun d => d.after (x.taken.length + m.length) := rfl

/-- The count after so many bytes of the transaction: those of the response, up to its length (R170). -/
theorem after_clocked (d : Delivery) (n : Nat) :
    (d.after n).clocked = min (n - 4) (d.response.body.length + 7) := by
  rw [← response_length]; rfl

/-- The response is clocked out whole exactly when all its bytes went out after the header's. -/
theorem after_whole (d : Delivery) (n : Nat) :
    (d.after n).whole = true ↔ d.response.body.length + 7 ≤ n - 4 := by
  simp only [Delivery.whole, decide_eq_true_eq, response_length, Delivery.after]
  omega

/-! ### Withdrawal, retirement and misses (1.9, 5.6, 6.5) -/

/-- A withdrawal takes the pending amendment from its record and leaves every other record alone. -/
theorem withdrawAmendment_stream (s : State) (h k : Handle) :
    (s.withdrawAmendment h).stream k =
      if k = h then (s.stream h).map fun st => { st with pending := none } else s.stream k := by
  unfold State.withdrawAmendment
  split
  · rename_i st hs
    split
    · simp [hs]
    · rename_i hp
      split
      · subst_vars
        cases st
        simp_all
      · rfl
  · rename_i hs
    split
    · simp_all
    · rfl

/-- A withdrawal leaves every generation. -/
theorem withdrawAmendment_generation (s : State) (h k : Handle) :
    ((s.withdrawAmendment h).record k).generation = (s.record k).generation := by
  unfold State.withdrawAmendment
  split
  · split
    · dsimp only
      simp only [State.setStream_record, State.setFree_record, State.recharge_record]
      split <;> simp_all
    · rfl
  · rfl

/-- A retired record is VACANT, and every other record is as it was. -/
theorem vacate_stream (s : State) (h k : Handle) :
    (s.vacate h).stream k = if k = h then none else s.stream k := by
  have e := withdrawAmendment_stream s h
  unfold State.vacate
  dsimp only
  split
  · simp only [State.setRecord_stream, State.removeMapEntries_stream, State.recharge_stream,
      State.setFree_stream]
    split
    · rfl
    · rw [e, if_neg ‹_›]
  · rename_i hs
    rw [e] at hs ⊢
    split <;> simp_all

/-- Retirement advances the generation of an open record, and of no other. -/
theorem vacate_generation (s : State) (h k : Handle) :
    ((s.vacate h).record k).generation =
      if k = h ∧ (s.stream h).isSome = true then (s.record k).generation + 1
      else (s.record k).generation := by
  have e := withdrawAmendment_stream s h h
  have g := withdrawAmendment_generation s h k
  unfold State.vacate
  dsimp only
  split
  · rename_i st hs
    have ho : (s.stream h).isSome = true := by
      cases hh : s.stream h <;> simp_all
    simp only [State.setRecord_record, State.removeMapEntries_record, State.recharge_record,
      State.setFree_record, ho, and_true]
    split <;> simp_all
  · rename_i hs
    have ho : s.stream h = none := by cases hh : s.stream h <;> simp_all
    simp [ho, g]

/-- A notice of an optional kind touches no record. -/
@[simp] theorem notifyIf_stream (s : State) (c : Bool) (p : Port) (x : Report) (k : Handle) :
    (s.notifyIf c p x).stream k = s.stream k := by unfold State.notifyIf; split <;> rfl

/-- Retirement makes its record VACANT and leaves every other record alone. -/
theorem retire_stream (s : State) (h k : Handle) (c : Bool) :
    (s.retire h c).stream k = if k = h then none else s.stream k := by
  unfold State.retire
  split
  · dsimp only; rw [notifyIf_stream, State.setNotices_stream, vacate_stream]
  · split <;> simp_all

/-- A miss changes its record as the miss rule says, and no other. -/
theorem miss_stream (s : State) (h k : Handle) (c : MissCause) :
    (s.miss h c).stream k = if k = h then (s.stream h).map Stream.missed else s.stream k := by
  unfold State.miss
  split
  · rename_i st hs
    dsimp only
    split <;> simp only [State.notify_stream, State.setStream_stream, notifyIf_stream] <;>
      split <;> simp_all [Stream.missed]
  · rename_i hs
    split
    · simp_all
    · rfl

/-! ### Leaving the lists (4.3, 4.6, 6.5) -/

/-- All that leaving the lists does to the Period Service Unit: its records' slots go idle, and where the
RX entry is the record's, its standing is NONE and it is off the RX list (R72, R116). -/
theorem leave_cases (u : PeriodService) (h : Handle) (g : Byte) (f : Form) :
    let v := { u with txList := u.txList.map fun x => x.leave h g f }
    ((u.rxTable.get h).generation = g ∧ (u.rxTable.get h).form = f ∧ u.leave h g f =
      { v with
        rxTable := u.rxTable.set h.val { u.rxTable.get h with standing := .none } h.isLt
        rxList := u.rxList.filter fun k => k ≠ h }) ∨
    (¬((u.rxTable.get h).generation = g ∧ (u.rxTable.get h).form = f) ∧ u.leave h g f = v) := by
  unfold PeriodService.leave
  dsimp only
  split <;> simp_all

/-- Leaving the lists leaves the services in flight alone. -/
@[simp] theorem leave_flights (u : PeriodService) (h : Handle) (g : Byte) (f : Form) :
    (u.leave h g f).txNext = u.txNext ∧ (u.leave h g f).txFlight = u.txFlight ∧
    (u.leave h g f).rxFlight = u.rxFlight ∧ (u.leave h g f).rxOpen = u.rxOpen := by
  rcases leave_cases u h g f with ⟨-, -, e⟩ | ⟨-, e⟩ <;> rw [e] <;> exact ⟨rfl, rfl, rfl, rfl⟩

/-- The order of the period-end decisions has as many as the RX service list. -/
@[simp] theorem refill_length (test : Handle → Bool) (l ks : List Handle) :
    (refill test l ks).length = l.length := by
  induction l generalizing ks with
  | nil => rfl
  | cons h l ih => cases ks <;> simp only [refill] <;> (try split) <;> simp [ih]

/-- A handle whose drain does not end keeps its place in the walk (R127). -/
theorem refill_keeps (test : Handle → Bool) (l ks : List Handle) (k : Nat) (h : Handle)
    (e : l[k]? = some h) (n : test h = false) : (refill test l ks)[k]? = some h := by
  induction l generalizing ks k with
  | nil => simp at e
  | cons x l ih =>
    cases k with
    | zero =>
      simp only [List.getElem?_cons_zero, Option.some.injEq] at e
      subst e
      cases ks <;> simp [refill, n]
    | succ k =>
      simp only [List.getElem?_cons_succ] at e
      cases ks with
      | nil => simpa [refill] using ih [] k e
      | cons y ys =>
        by_cases c : test x <;> simp only [refill, c] <;> simpa using ih _ k e

/-! ### Notices (8.3) -/

/-- All that the queueing of a notice can do: coalesce, append, or set OVERFLOW (R159). -/
theorem enqueue_cases (q : NoticeQueue) (x : Report) (n : Period) :
    (q.entries.any (fun m => m.report.matches x) = true ∧
      q.enqueue x n = ⟨q.entries.map fun m =>
        if m.report.matches x then m.coalesce x n else m, q.overflow⟩) ∨
    (q.entries.any (fun m => m.report.matches x) = false ∧ q.entries.length < 32 ∧
      q.enqueue x n = { q with entries := q.entries ++ [⟨x, n, 1⟩] }) ∨
    (q.entries.any (fun m => m.report.matches x) = false ∧ 32 ≤ q.entries.length ∧
      q.enqueue x n = { q with overflow := true }) := by
  unfold NoticeQueue.enqueue Config.noticeCapacity
  split
  · exact .inl ⟨‹_›, rfl⟩
  · rename_i h
    split
    · exact .inr (.inl ⟨by simpa using h, ‹_›, rfl⟩)
    · exact .inr (.inr ⟨by simpa using h, by omega, rfl⟩)

/-! ### Ports (9.1) -/

/-- Placing a response leaves the outstanding count, when an entry is there to leave (R181). -/
theorem place_outstanding (x : PortInterface) (r : Response) (b : Bool) (h : x.requestQueue ≠ []) :
    (x.place r b).outstanding = x.outstanding := by
  cases hq : x.requestQueue with
  | nil => exact absurd hq h
  | cons e l => simp [PortInterface.place, PortInterface.outstanding, hq]; omega

end Sys2Proof.Machine
end

