-- ==== Sys2Proof/WellFormed.lean ====
section
/-! DEFINITION. Which commands are well formed: an arrival row names the kind of cell that its
operand is. The meanings do not rest on these checks: each takes its operand as it is. -/

namespace Sys2Proof

/-- The type of an idle cell, or a reserved type (R137, R209). -/
def idleType (type : Byte) : Bool := type = 0 || 4 < type.toNat

/-- The checks on a command's operands. -/
def Instr.wellFormed : Instr → Bool
  | .idleCellArrival type => idleType type
  | .markArrival cell => cell.echo != 1
  | .echoArrival cell => cell.echo == 1
  | .transactionStart _ | .transactionEnd _ _ | .badFrameEntry _ | .repeatEntry _
  | .unknownRequest _ | .openStream _ | .start _ | .stop _ | .close _ | .amend _ | .withdraw _
  | .findByTag _ | .findByChannel _ | .read _ | .put _ | .get _ | .handover _ | .loads _
  | .extents _ | .poll _ | .status _ | .quota _ | .linkctlEnable _ | .linkctlDisable _
  | .purge _ | .reset _ | .resetNAssert | .resetNRelease _ | .resetHoldExpiry _
  | .periodTimerExpiry | .lossTimerExpiry | .alignmentLapse | .trailerArrival _
  | .leadCellArrival _ _ | .payloadCellArrival _ _ | .badCheckCellArrival _
  | .markProcessing | .serviceStart | .txCompletion | .matchClaim | .rxCompletion | .periodEnd
  | .leavingUp | .enteringUp | .slip => true

end Sys2Proof
end

