-- ==== Sys2Proof/Tests/Slice0.lean ====
section
/-! SUPPORT. The model's own tests: the checks of WellFormed, steps of the manual's worked sequences,
and for each statement with hypotheses a state and operands that meet them. -/

namespace Sys2Proof.Tests

-- One theorem after another: elaborated side by side, their stacks exceed the memory limit.
set_option Elab.async false

open Sys2Proof.Machine

/-! ### Small states -/

/-- 8 cells every 2 periods at phase 1 (12.2), miss policy EMPTY, miss limit 3, lead 1. -/
def form : Params := ⟨8, 2, 1, 0, some .empty, 3, 1⟩

/-- Port 1's TX stream on channel 10, with tag 42. -/
def txArgs : OpenArgs := ⟨.tx, 10, form, .hold, ⟨true, true, true⟩, 42⟩

/-- Port 2's RX stream on channel 11, without a tag. -/
def rxArgs : OpenArgs :=
  ⟨.rx, 11, { form with missPolicy := none }, .hold, ⟨true, true, true⟩, 0⟩

/-- The TX stream as OPEN leaves it. -/
def tx : Stream := txArgs.stream 1 (⟨0, 2⟩, ⟨2, 2⟩)

/-- The RX stream as OPEN leaves it. -/
def rx : Stream := rxArgs.stream 2 (⟨4, 2⟩, ⟨6, 2⟩)

/-- Both streams open: handle 0 the TX one, handle 1 the RX one. -/
def opened : State :=
  State.enter (State.enter (State.reset.setFree [⟨8, 504⟩]) 1 txArgs 0 (⟨0, 2⟩, ⟨2, 2⟩))
    2 rxArgs 1 (⟨4, 2⟩, ⟨6, 2⟩)

/-- The RX stream LIVE with buffer A handed over. -/
def rxLive : Stream := { rx with state := .live, bufferA := ⟨⟨4, 2⟩, .link, 0⟩ }

/-- The TX stream LIVE with buffer A handed over, as at the start of 12.2. -/
def txLive : Stream := { tx with state := .live, bufferA := ⟨⟨0, 2⟩, .link, 8⟩ }

/-- A follower in UP at period 100, both streams LIVE. -/
def up : State :=
  { (opened.setStream 0 txLive).setStream 1 rxLive with
    link := ⟨.up, .follower, 100, false, true, 0, none, 0, true, true⟩ }

/-- A leader in UP at period 100, its period echoed. -/
def leader : State :=
  { up with link := ⟨.up, .leader, 100, true, false, 0, some 100, 0, true, true⟩ }

/-- The lists of period 101 built at a follower in UP, the service-start claim not yet made. -/
def listed : State := { up with link := { up.link with period := 101 } }.buildLists 101

/-- A follower that has taken its second mark in sequence, its mark processing claim taken. -/
def acquired : State := { up with link := { up.link with state := .acquire, acquire := 2 } }

/-- The state with both streams open, the TX stream replaced. -/
def withTx (st : Stream) : State := opened.setStream 0 st

/-- The request of a code and a body. -/
def ask (code : Byte) (body : List Byte) : Request := ⟨code, 7, body, 0⟩

/-- A state with one entry queued at a port. -/
def queued (s : State) (p : Port) (e : Entry) : State :=
  s.setPort p { s.port p with requestQueue := [e] }

/-- A state with a request of a code and a body queued at a port. -/
def asks (s : State) (p : Port) (code : Byte) (body : List Byte) : State :=
  queued s p (.request (ask code body))

/-- The state with a claim waiting. -/
def claimed (s : State) (c : Claim) : State := { s with claims := [c] }

/-- The state with the first service start of its list waiting. -/
def starting (s : State) : State := claimed s .serviceStart

/-- The TX stream with buffer A in SERVICE. -/
def txServed : Stream := { txLive with bufferA := ⟨⟨0, 2⟩, .service, 8⟩ }

/-- A burst of the TX stream in flight, so many payload cells of it still to be staged, in a slot of so
many cells still to be staged. -/
def sending (toSend : Nat) (cells : List LaneCell) : State :=
  { listed.setStream 0 txServed with
    psu := { listed.psu with txNext := 1, txFlight := some ⟨0, 0, .a, toSend⟩ }
    lane := ⟨.idle, some (.lead 10 8), cells, some 101⟩ }

/-- A burst in flight for the RX stream, with so many cells announced and arrived. -/
def bursting (announced arrived : Nat) : State :=
  { listed with psu := { listed.psu with
      rxFlight := some ⟨1, 0, .a, announced, arrived, arrived, false, false, false⟩ } }

/-- A transaction's start at a port, with so many bytes of an idle host. -/
def opening (p : Port) (bytes : Nat) : Instr := .transactionStart ⟨p, List.replicate bytes 0⟩

/-- The state that a step gives. -/
def out : Host.Outcome State Fault Refusal → Option State
  | .next t => some t
  | .fault _ => none
  | .refused _ => none

/-- The last response of a port, with the state it was placed in. -/
def reply (o : Host.Outcome State Fault Refusal) (p : Port) : Option (Status × List Byte) :=
  (out o).bind fun t => (t.port p).responseQueue.getLast?.map fun r => (r.status, r.body)

/-- A step gives the state it gives. -/
theorem next_of_out {o : Host.Outcome State Fault Refusal} (h : (out o).isSome = true) :
    ∃ t, o = .next t := by
  cases o <;> simp_all [out]

/-- The checks of a grant, computed. -/
theorem grants_of {s : State} {p : Port} {r : Request}
    (h : (decide (s.held = false) && decide (s.settle.nextPort = some p) &&
      decide ((s.settle.port p).requestQueue = [.request r])) = true) : s.Grants p r [] := by
  simpa [State.Grants, and_assoc] using h

/-- The checks of a name, computed. -/
theorem names_of {s : State} {x : List Byte} {h : Handle} {st : Stream}
    (e : (decide ((byteAt x 0).toNat = h.val) && decide ((s.record h).generation = byteAt x 1) &&
      decide (s.stream h = some st)) = true) : s.Names x h st := by
  simpa [State.Names, and_assoc] using e

/-! ### WellFormed and the formats -/

/-- A payload cell's type is no idle type. -/
theorem test_idle_type_refused : (Instr.idleCellArrival 3).wellFormed = false := by decide

/-- A mark arrival has no echo flag of 1. -/
theorem test_mark_with_echo_refused : (Instr.markArrival ⟨1, 0, 1, 700⟩).wellFormed = false := by
  decide

/-- An echo arrival has the echo flag 1. -/
theorem test_echo_without_flag_refused :
    (Instr.echoArrival ⟨1, 1, 0, 0⟩).wellFormed = false := by decide

/-- R177: the CRC over the ASCII characters "1" to "9" is 10673. -/
theorem test_crc_check_value :
    crc16 [0x31, 0x32, 0x33, 0x34, 0x35, 0x36, 0x37, 0x38, 0x39] = 10673 := by decide +kernel

/-- R209: a sound cell of type 5 is handled as an idle cell. -/
theorem test_reserved_type_is_idle :
    arrivalOf 0 (cellBytes 5 [1, 2, 3]) = .idleCellArrival 5 := by decide +kernel

/-- R137: a cell with a bad check is trusted in no field. -/
theorem test_bad_check :
    arrivalOf 0 (4 :: List.replicate 23 0) = .badCheckCellArrival (.replicate 16 0) := by
  decide +kernel

/-- R138, R208: the hunt passes over the end of the fill and finds the mark behind it. -/
theorem test_hunt :
    hunt (fillBits.drop 480 ++ bitsOf (markBytes 5 0 0) ++ [true]) = some (markBytes 5 0 0, [true]) :=
  by decide +kernel

/-! ### The worked sequences -/

/-- 12.1: the first OPEN, 64 cells at interval 1, gives handle 0 and generation 0. -/
theorem test_open_first :
    reply (exec (.openStream 1)
      (asks .reset 1 1 [0, 10, 64, 1, 0, 0, 0, 0, 0, 0, 0, 0, 0, 0, 0])) 1 =
      some (.done, [0, 0]) := by decide +kernel

/-- 12.1: and leaves the charge 2048 and the free list (32, 480). -/
theorem test_open_charges :
    ((out (exec (.openStream 1)
      (asks .reset 1 1 [0, 10, 64, 1, 0, 0, 0, 0, 0, 0, 0, 0, 0, 0, 0]))).map
      fun t => (t.charge 1 .tx, t.free)) = some (2048, [⟨32, 480⟩]) := by decide +kernel

/-- 12.5: n = 25 from (64, 32) and (160, 32). -/
theorem test_pair_of_25 :
    allocatePair 25 [⟨64, 32⟩, ⟨160, 32⟩] =
      some ((⟨64, 25⟩, ⟨160, 25⟩), [⟨89, 7⟩, ⟨185, 7⟩]) := by decide +kernel

/-- 12.5: n = 5 is refused where one entry of 7 is left beside one of 3. -/
theorem test_pair_refused : allocatePair 5 [⟨93, 3⟩, ⟨185, 7⟩] = none := by decide +kernel

/-- 12.5: both releases merge with (185, 7). -/
theorem test_release_merges :
    releasePair (⟨192, 32⟩, ⟨224, 32⟩) [⟨93, 3⟩, ⟨185, 7⟩] = [⟨93, 3⟩, ⟨185, 71⟩] := by
  decide +kernel

/-- 12.3: 48 cells every 4 periods at phase 3, amended to 96 every 2 at phase 1: 96 more at residue 1,
96 and not 144 at residue 3. -/
theorem test_amended_charge :
    [0, 1, 2, 3].map (Stream.amendedCharge
        { tx with params := ⟨48, 4, 3, 0, some .empty, 0, 0⟩ } ⟨96, 2, 1, 0, some .empty, 0, 0⟩).get =
      [0, 96, 0, 96] := by decide +kernel

/-- 12.2: the slot of period 101 is a lead cell and 8 payload cells, and buffer A is SERVICE. -/
theorem test_service_start :
    ((out (exec .serviceStart (starting listed))).map fun t => (t.lane.queue.take 2,
      t.lane.queue.length, (t.stream 0).map fun st => st.bufferA.owner)) =
      some ([.lead 10 8, .payload 0], 9, some .service) := by decide +kernel

/-- R72: a record listed, STOPped and STARTed again in one period leaves its slot idle. -/
theorem test_start_waits_for_mark :
    ((out (exec (.start 1) (asks (listed.setStream 0 { txLive with state := .standby }) 1 2
        [0, 0]))).bind fun t => (out (exec .serviceStart (starting t))).map fun u =>
      ((u.stream 0).map Stream.state, u.lane.queue)) =
      some (some .live, List.replicate 9 .idle) := by decide +kernel

/-- R80: so does one that CLOSE in mode DRAIN puts in service from STANDBY, and it stays. -/
theorem test_drain_waits_for_mark :
    ((out (exec (.close 1) (asks (listed.setStream 0 { txLive with state := .standby }) 1 4
        [0, 0, 1]))).bind fun t => (out (exec .serviceStart (starting t))).map fun u =>
      ((u.stream 0).map Stream.state, u.lane.queue)) =
      some (some (.closing .drain), List.replicate 9 .idle) := by decide +kernel

/-- R116: its RX standing is NONE, and it is off the RX list. -/
theorem test_start_leaves_lists :
    ((out (exec (.start 2) (asks (listed.setStream 1 { rxLive with state := .standby }) 2 2 [1, 0]))).map
      fun t => (listed.psu.rxList, t.psu.rxList, (t.psu.rxTable.get 1).standing)) =
      some ([1], [], .none) := by decide +kernel

/-- R117: after STOP, an AMEND applied at once and START, the entry is still there and its third row
leaves the slot idle. -/
theorem test_third_row :
    ((out (exec (.start 1) (asks (listed.setStream 0
        { txLive with state := .standby, params := { form with phase := 0 } }) 1 2 [0, 0]))).bind
      fun t => (out (exec .serviceStart (starting t))).map fun u =>
        (t.psu.txList.map TxEntry.absent, u.lane.queue)) =
      some ([false], List.replicate 9 .idle) := by decide +kernel

/-- Two RX drains due in one period, handle 1 of class 1 and handle 5 of class 0, neither with a buffer
handed over. -/
def draining : State :=
  let st := { rx with state := .closing .drain }
  (((up.setRecord 1 ⟨0, some { st with params := { st.params with serviceClass := 1 } }⟩).setRecord 5
    ⟨0, some { st with channel := 12 }⟩).buildLists 101)

/-- R23: the walk is by class, the retirements of one period end by handle. -/
theorem test_drains_by_handle :
    (draining.psu.rxList, (out (exec .periodEnd (claimed draining .periodEnd))).map fun t =>
      (t.noticesOf 2).entries.map Notice.report) =
      ([5, 1], some [.closed 1 0, .closed 5 0]) := by decide +kernel

/-- 12.2: the completion of period 101 returns A and moves the parity to B. -/
theorem test_tx_completion :
    ((out (exec .txCompletion (claimed (sending 0 []) .txCompletion))).map fun t =>
      ((t.stream 0).map fun st => (st.bufferA.owner, st.bufferA.fill, st.parity), t.noticesOf 1)) =
      some (some (.host, 8, .b),
        ⟨[⟨.done 0 0 .a 8 ⟨false, false⟩, 101, 1⟩], false⟩) := by decide +kernel

/-- The lane after so many cell times. -/
def after : Nat → State → Option State
  | 0, s => some s
  | n + 1, s => (out s.cellTime).bind (after n)

/-- R139, figure of 7.3: the mark in cell time 0, an idle cell in cell time 1, the first slot's lead cell
in cell time 2. -/
theorem test_first_slot :
    [0, 1, 2].map (fun n => (after n leader.emitMark).map fun t => t.lane.sending) =
      [some (.mark 101 .leader false), some .idle, some (.lead 10 8)] := by decide +kernel

/-- R119, R139: the completion claim waits once the last payload cell is staged, not before. -/
theorem test_completion_claim :
    [8, 9].map (fun n => (after n leader.emitMark).map fun t => t.claims) =
      [some [], some [.txCompletion]] := by decide +kernel

/-- 12.6: leaving UP suspends the HOLD records, before LINK(DOWN). -/
theorem test_leaving_up :
    ((out (exec .leavingUp (claimed up .leavingUp))).map fun t =>
      ((t.stream 0).map Stream.state, (t.noticesOf 1).entries.map Notice.report)) =
      some (some (.suspended .link), [.suspended 0 0 .link, .link .down]) := by decide +kernel

/-- R142: a second echo of one number changes nothing of the link. -/
theorem test_second_echo :
    ((out (exec (.echoArrival ⟨100, 1, 1, 3⟩) leader)).map State.link) = some leader.link := by
  decide +kernel

/-- R141: a mark 647 cell times after the last one is not taken. -/
theorem test_early_mark :
    ((out (exec (.markArrival ⟨101, 0, 0, 647⟩) up)).map fun t => t.link.period) = some 100 := by
  decide +kernel

/-- 7.6, R145: the second mark in sequence is processed in ACQUIRE, and ENTERING_UP brings UP and its
notice. -/
theorem test_acquire :
    ((out (exec (.markArrival ⟨101, 0, 0, 651⟩)
        { up with link := { up.link with state := .acquire, acquire := 1 } })).bind fun t =>
      (out (exec .markProcessing t)).bind fun u => (out (exec .enteringUp u)).map fun v =>
        (u.link.state, v.link.state, v.link.acquire, (v.noticesOf 3).entries)) =
      some (.acquire, .up, 0, [⟨.link .up, 101, 1⟩]) := by decide +kernel

/-- R153: a DISABLE taken before the entry into UP leaves ACQUIRE for OFF, with no notice. -/
theorem test_disable_before_entry :
    ((out (exec (.linkctlDisable 0) (asks acquired 0 0x11 [2, 0]))).map fun t =>
      (t.link.state, (t.noticesOf 3).entries)) = some (.off, []) := by decide +kernel

/-- R143, R149: a leader that loses its echoes keeps the period it has opened: its trailer makes the
period-end claim. -/
theorem test_trailer_after_loss :
    ((out (exec .periodTimerExpiry
        { leader with link := { leader.link with echoRecord := none, missingEchoes := 2 } })).bind
      fun t => (out (exec .leavingUp t)).bind fun t =>
        (out (exec (.trailerArrival 101)
          { t with link := { t.link with aligned := true } })).map fun t =>
          (t.link.state, t.claims)) = some (.acquire, [.periodEnd]) := by decide +kernel

/-- R209: a trailer whose number is above 4095 is ignored, also inside a burst; log 21: one of another
number up to 4095 ends it. -/
theorem test_trailer_numbers :
    [(4096 : BitVec 16), 4095].map (fun n => (out (exec (.trailerArrival n) (bursting 9 7))).map
      State.claims) = [some [], some [.rxCompletion]] := by decide +kernel

/-- A port with a response of no body unread. -/
def answered : State :=
  State.reset.setPort 1 { State.reset.port 1 with responseQueue := [⟨1, 7, .ok, []⟩] }

/-- R171, R196: a PURGE takes the place of a response with fill bytes from the next whole byte on. -/
theorem test_purge_in_delivery :
    (((out (exec (opening 1 6) answered)).map fun t => t.purge 1 false).bind fun t =>
      (t.port 1).transaction.map fun x => (List.range 9).map x.shiftedOut) =
      some [0x48, 1, 0, 0, 1, 7, 0, 0, 0] := by decide +kernel

/-- R189: so does a reset. -/
theorem test_reset_in_delivery :
    ((out (exec (opening 1 5) answered)).bind fun t => (out (exec .resetNAssert t)).bind fun t =>
      (t.port 1).transaction.map fun x => (List.range 9).map x.shiftedOut) =
      some [0x48, 1, 0, 0, 1, 0, 0, 0, 0] := by decide +kernel

/-- R170: the delivery record counts the bytes of the response clocked so far, and no byte of the header
or of the fill: 3, 6, 11 and 20 bytes clocked with a response of 7. -/
theorem test_delivery_count :
    [3, 6, 11, 20].map (fun n => (out (exec (opening 1 n) answered)).bind fun t =>
      (t.port 1).transaction.bind fun x => x.delivery.map Delivery.clocked) =
      [some 0, some 2, some 7, some 7] := by decide +kernel

/-! ### Witnesses: states and operands that meet the hypotheses of the statements -/

/-- StepRunsFrontCommand. -/
theorem witness_front_command :
    ∃ c rest t, State.pending { opened with pending := [.slip, .periodEnd] } = c :: rest ∧
      exec c { opened with pending := rest } = .next t :=
  ⟨.slip, [.periodEnd], _, rfl, rfl⟩

/-- EmptyQueueIsOneCellTime: held; OFF; no claim waiting; the last payload cell of a burst and one
before it, in the last slot and before another; the last idle cell of a slot; the last payload cell of
memory; nothing staged; the trailer. -/
theorem witness_cell_time :
    State.held { up with resetPin := true } = true ∧ State.reset.link.state = .off ∧
    (∀ n q, (sending n q).pending = [] ∧ (sending n q).claims = [] ∧
      (sending n q).held = false ∧ (sending n q).link.state ≠ .off ∧
      (sending n q).entryDue = false ∧ (sending n q).lane.queue = q ∧
      (sending n q).psu.txFlight = some ⟨0, 0, .a, n⟩) ∧
    (∀ m, (out (step (sending 1 [.payload 112, .idle]))).map State.claims = some [.txCompletion] ∧
      (LaneCell.payload 32752).onWire m = .ok (.payload (tabulate fun i => Memory.read m (32752 + i.val)))) ∧
    (out (step (sending 2 [.payload 96, .payload 112]))).map State.claims = some [] ∧
    (let s := sending 1 [.payload 112]
    s.psu.txList[s.psu.txNext]? = none ∧
      (out (step { s with psu := { s.psu with txNext := 0 } })).map State.claims =
        some [.txCompletion, .serviceStart] ∧
      (out (step { s with psu := { s.psu with txNext := 0, txFlight := none } })).map State.claims =
        some [.serviceStart]) ∧
    32752 + 16 ≤ 32768 ∧ (sending 0 []).lane.opened = some 101 ∧ up.lane.opened = none ∧
    up.lane.queue = [] := by
  refine ⟨by decide, by decide, fun n q => ⟨rfl, rfl, rfl, LinkState.noConfusion, rfl, rfl, rfl⟩,
    fun m => ⟨by decide +kernel, rfl⟩, ?_⟩
  decide +kernel

/-- FramesJudgedAsSent: a frame with no body and one of 2060 bytes; each way of being unsound, at its
boundary. -/
theorem witness_frames :
    (1 : Byte) ≠ 0 ∧ ([] : List Byte).length ≤ 2060 ∧ (List.replicate 2060 (7 : Byte)).length ≤ 2060 ∧
    [(1 : Byte), 2, 3].length < 4 ∧ 2060 < join16 8 13 ∧ [(0 : Byte)].length < join16 0 0 + 2 ∧
    join16 0 0 ≠ (crc16 [1, 0, 0, 0]).toNat := by
  refine ⟨by decide, by decide, ?_, by decide, by decide, by decide, by decide +kernel⟩
  rw [List.length_replicate]

/-- BytesReadAsWritten: a memory in canonical form with a byte listed. -/
theorem witness_memory : Memory.wf [(32767, 1)] := by decide

/-- FirstFitAllocation: an entry of just the length, after one that is too short; and none. -/
theorem witness_first_fit :
    1 ≤ 32 ∧ (∀ x ∈ [(⟨0, 31⟩ : Extent)], x.length < 32) ∧ 32 ≤ (⟨40, 32⟩ : Extent).length := by
  decide

/-- PairsAndReleases: two entries of the length, in the form of the list. -/
theorem witness_pairs :
    freeForm [⟨0, 2⟩, ⟨4, 2⟩] ∧ freeForm [⟨0, 4⟩] ∧ freeForm [⟨0, 3⟩] ∧
    Extent.sound ⟨6, 1⟩ ∧ Extent.sound ⟨510, 2⟩ ∧
    ∀ g < 512, ([⟨6, 1⟩, ⟨510, 2⟩, ⟨0, 2⟩, ⟨4, 2⟩] : List Extent).countP
      (fun e => e.covers g) ≤ 1 := by
  unfold freeForm Extent.sound
  decide +kernel

/-- PairsAndReleases: an extent between a neighbour below and one above, with entries beyond each. -/
theorem witness_neighbours :
    (∀ x ∈ [(⟨0, 2⟩ : Extent)], x.base + x.length < 4) ∧
    (∀ x ∈ [(⟨20, 2⟩ : Extent)], 8 + 2 + 3 < x.base) := by decide

/-- AdmissionTest: a parameter set in range; a charge 1 above the quota, one at the quota with an entry of
577, and one at both limits. -/
theorem witness_admission :
    let quota := fun n => State.setQuota .reset 1 .tx n
    let c : Residues := contribution ⟨64, 32, 0, 0, none, 0, 0⟩
    let e : Residues := tabulate fun r => if r.val = 0 then 577 else 0
    let m : Residues := tabulate fun r => if r.val = 0 then 576 else 0
    form.inRange = true ∧ Params.inRange ⟨128, 32, 31, 3, none, 15, 3⟩ = true ∧
    (quota 63).charge 1 .tx - units noCells + units c > (quota 63).quota 1 .tx ∧
    (quota 64).charge 1 .tx - units noCells + units c ≤ (quota 64).quota 1 .tx ∧
    576 < (State.reset.table.loads.get .tx).get 0 - noCells.get 0 + e.get 0 ∧
    ∀ r, (State.reset.table.loads.get .tx).get r - noCells.get r + m.get r ≤ 576 := by
  decide +kernel

/-- The records of the state with both streams open. -/
theorem opened_stream (h : Handle) :
    opened.stream h = if h = 0 then some tx else if h = 1 then some rx else none := by
  revert h; decide +kernel

/-- A record of the state with both streams open is one of the two. -/
theorem opened_cases {h : Handle} {st : Stream} (e : opened.stream h = some st) :
    (h = 0 ∧ st = tx) ∨ (h = 1 ∧ st = rx) := by
  rw [opened_stream] at e
  split at e
  · simp_all
  · split at e <;> simp_all

/-- The state with both streams open meets the law of the loads. -/
theorem opened_loadLaw : opened.loadLaw := by
  refine ⟨?_, ?_, ?_, ?_⟩
  · intro d; cases d <;> decide +kernel
  · intro p d; revert p; cases d <;> decide +kernel
  · intro d; cases d <;> decide +kernel
  · intro h st a e ha
    rcases opened_cases e with ⟨rfl, rfl⟩ | ⟨rfl, rfl⟩ <;> cases ha

/-- The state with both streams open meets the law of the extents. -/
theorem opened_extentLaw : opened.extentLaw := by
  unfold State.extentLaw freeForm Extent.sound
  decide +kernel

/-- The state with both streams open meets the laws of the maps. -/
theorem opened_mapLaws : opened.tagMapLaw ∧ opened.channelMapLaw := by
  have t : opened.table.tagMap = [⟨1, 42, 0⟩] := by decide +kernel
  have c : opened.table.channelMap = [⟨.tx, 10, 0⟩, ⟨.rx, 11, 1⟩] := by decide +kernel
  refine ⟨⟨by rw [t]; simp, fun e => ?_⟩, ⟨by rw [c]; decide, fun e => ?_⟩⟩
  · rw [t, List.mem_singleton]
    constructor
    · rintro rfl
      exact ⟨tx, by decide +kernel, by decide +kernel⟩
    · rintro ⟨st, h, a, b, n⟩
      cases e
      rcases opened_cases h with ⟨rfl, rfl⟩ | ⟨rfl, rfl⟩
      · cases a; cases b; rfl
      · cases b; exact absurd rfl n
  · rw [c]
    constructor
    · intro h
      rcases List.mem_cons.1 h with rfl | h
      · exact ⟨tx, by decide +kernel, by decide +kernel⟩
      · rcases List.mem_singleton.1 h with rfl
        exact ⟨rx, by decide +kernel, by decide +kernel⟩
    · rintro ⟨st, h, a, b⟩
      cases e
      rcases opened_cases h with ⟨rfl, rfl⟩ | ⟨rfl, rfl⟩ <;> (cases a; cases b; decide)

/-- The state with both streams open meets the law of its records. -/
theorem opened_recordsLaw : opened.recordsLaw := by
  intro h st e
  rcases opened_cases e with ⟨rfl, rfl⟩ | ⟨rfl, rfl⟩ <;>
    exact ⟨by decide, by unfold policyFits; decide, by unfold Stream.runLaw; decide, by decide,
      by decide, fun a ha => by cases ha⟩

/-- The laws that every step keeps: an open table with a START waiting meets each of them, and steps.
-/
theorem witness_laws :
    let s := { asks opened 1 2 [0, 0] with pending := [.start 1] }
    Memory.wf s.memory ∧ s.loadLaw ∧ s.extentLaw ∧ (s.tagMapLaw ∧ s.channelMapLaw) ∧
    s.noticeLaw ∧ s.flowLaw ∧ s.recordsLaw ∧ s.serviceLaw ∧ s.idleLaw ∧ s.linkLaw ∧ s.heldLaw ∧
    ∃ t, step s = .next t := by
  refine ⟨by decide, opened_loadLaw, opened_extentLaw, opened_mapLaws, ?_, ?_, opened_recordsLaw,
    ⟨?_, ⟨?_, ?_, ?_⟩, trivial⟩, ?_, ?_,
    fun h => absurd h (by decide), next_of_out (by decide +kernel)⟩
  · unfold State.noticeLaw NoticeQueue.law; decide +kernel
  · unfold State.flowLaw; decide +kernel
  · intro h st e n
    rcases opened_cases e with ⟨rfl, rfl⟩ | ⟨rfl, rfl⟩ <;> cases n <;>
      exact ⟨by decide, fun o => by cases o⟩
  · intro f h; cases h
  · intro f g h; cases h
  · intro f h; cases h
  · unfold State.idleLaw; decide +kernel
  · unfold State.linkLaw State.offLaw State.idleLaw; decide +kernel

/-- StepKeepsRecords: a burst in flight of a buffer in SERVICE meets the law of service, and steps. -/
theorem witness_service_law :
    (sending 8 []).serviceLaw ∧ (sending 8 []).idleLaw ∧ ∃ t, step (sending 8 []) = .next t := by
  have e : ∀ h : Handle, (sending 8 []).stream h =
      if h = 0 then some txServed else if h = 1 then some rxLive else none := by decide +kernel
  refine ⟨⟨?_, ⟨?_, ?_, ?_⟩, trivial⟩, fun h => absurd rfl h,
    next_of_out (by decide +kernel)⟩
  · intro h st hs n
    rw [e] at hs
    split at hs
    · cases hs; subst_vars
      cases n
      · exact ⟨by decide, fun _ => ⟨rfl, .inl ⟨_, rfl, rfl, by decide +kernel, rfl⟩⟩⟩
      · exact ⟨by decide, fun o => by cases o⟩
    · split at hs <;> cases hs
      cases n <;> exact ⟨by decide, fun o => by cases o⟩
  · intro f h
    cases h
    exact ⟨txServed, by decide +kernel, by decide +kernel, rfl⟩
  · intro f g _ h; cases h
  · intro f h; cases h

/-- StepKeepsReset: a part held in reset, and a transaction that begins. -/
theorem witness_held :
    let s := { State.reset with resetPin := true, pending := [opening 0 0] }
    s.heldLaw ∧ s.held = true ∧ ∃ t, step s = .next t :=
  ⟨fun _ => by decide +kernel, by decide, next_of_out (by decide +kernel)⟩

/-- RecordsKeepIdentity: the record of handle 0 is open before a START and after it. -/
theorem witness_identity :
    let s := { asks opened 1 2 [0, 0] with pending := [.start 1] }
    (s.stream 0).isSome = true ∧ ((out (step s)).bind fun t => t.stream 0).isSome = true ∧
    (out (step s)).map (fun t => (t.record 0).generation) = some (s.record 0).generation := by
  decide +kernel

/-- NoticeQueued: a queue with one matching entry; one with none of 31 entries; and a full one. -/
theorem witness_notices :
    (Report.closed 1 0).matches (.closed 1 3) = true ∧
    (∀ k ∈ [(⟨.closed 0 0, 5, 255⟩ : Notice)], k.report.matches (.closed 1 3) = false) ∧
    (∀ k ∈ List.replicate 31 (⟨.link .up, 5, 1⟩ : Notice), k.report.matches (.closed 1 3) = false) ∧
    (List.replicate 31 (⟨.link .up, 5, 1⟩ : Notice)).length < 32 ∧
    32 ≤ (List.replicate 32 (⟨.link .up, 5, 1⟩ : Notice)).length := by decide

/-- RetirementStep. -/
theorem witness_retirement : opened.loadLaw ∧ opened.stream 0 = some tx :=
  ⟨opened_loadLaw, by decide +kernel⟩

/-- MissRule: a run that the miss brings to its limit, and one that it does not. -/
theorem witness_miss :
    (withTx { txLive with missRun := 2 }).stream 0 = some { txLive with missRun := 2 } ∧
    Stream.runLaw { txLive with missRun := 2 } ∧
    (txLive.state = .live ∧ txLive.params.missLimit ≠ 0 ∧ 2 + 1 = txLive.params.missLimit) ∧
    (withTx txLive).stream 0 = some txLive ∧ txLive.runLaw ∧
    ¬(txLive.missRun + 1 = txLive.params.missLimit) := by
  unfold Stream.runLaw
  decide +kernel

/-- A transaction in progress, with a response of no body in delivery and nothing clocked yet. -/
def exchange (cut : Bool) : Transaction :=
  ⟨[0x40, 1, 0, 0], true, false, cut, some ⟨⟨1, 7, .ok, []⟩, 0⟩, [], []⟩

/-- TransactionStart: a transaction in progress and none; and what is shifted out of each. -/
theorem witness_transaction_start :
    ((State.reset.setPort 1 { State.reset.port 1 with transaction := some (exchange false) }).port
      1).transaction = some (exchange false) ∧
    (State.reset.port 1).transaction = none ∧ (exchange true).header.length = 4 ∧
    (exchange true).cut = true ∧ (exchange false).cut = false ∧
    { exchange false with delivery := none }.delivery = none ∧
    (exchange false).delivery = some ⟨⟨1, 7, .ok, []⟩, 0⟩ ∧
    (exchange false).shifted.length = (exchange false).taken.length ∧
    ((exchange false).clock [9, 9]).shifted.length = ((exchange false).clock [9, 9]).taken.length ∧
    ¬3 < ((exchange false).clock [9, 9]).shifted.length ∧
    1 < ((exchange false).clock [9, 9]).shifted.length := by decide +kernel

/-- TransactionEnd: no transaction, a cut one and a whole one; every judgement; a queue of 3 and one of
4; a repeat, a new frame, and a RESET of port 0. -/
theorem witness_transaction_end :
    let crc := crc16 [0x13, 7, 0, 0]
    let three : PortInterface :=
      { PortInterface.reset with requestQueue := List.replicate 3 (.badFrame 1 1) }
    (State.reset.port 1).transaction = none ∧ (exchange true).cut = true ∧
    (exchange false).cut = false ∧ judge [] = .noRequest ∧ judge [1, 7, 0, 0] = .unsound 1 7 ∧
    judge (requestFrame 0x13 7 []) = .sound ⟨0x13, 7, [], crc⟩ ∧
    three.outstanding < 4 ∧ 4 ≤ { three with responseQueue := [⟨1, 7, .ok, []⟩] }.outstanding ∧
    three.lastAccepted ≠ some (7, crc) ∧
    { three with lastAccepted := some (7, crc) }.lastAccepted = some (7, crc) := by decide +kernel

/-- GrantsThatRunNothing: the third port in turn, an empty part, and an entry of each kind, the codes of
UNKNOWN at their ends. -/
theorem witness_grants :
    let s := fun e => queued
      (State.reset.setPort 1 { State.reset.port 1 with retained := some ⟨1, 7, .ok, []⟩ }) 1 e
    (∀ j : Port, j < 2 → ((asks .reset 2 1 []).port ((asks .reset 2 1 []).table.arbiter + j)).requestQueue
      = []) ∧
    ((asks .reset 2 1 []).port ((asks .reset 2 1 []).table.arbiter + 2)).requestQueue ≠ [] ∧
    (∀ p : Port, (State.reset.port p).requestQueue = []) ∧
    ([.badFrame 1 7, .repeatOf 1 7, .request (ask 0x14 []), .request (ask 0xFF [])].all fun e =>
      decide ((s e).held = false) && decide ((s e).settle.nextPort = some 1) &&
      decide (((s e).settle.port 1).requestQueue = [e])) = true ∧
    ((s (.repeatOf 1 7)).settle.port 1).retained = some ⟨1, 7, .ok, []⟩ ∧
    0x14 ≤ (ask 0x14 []).code.toNat ∧ 0x14 ≤ (ask 0xFF []).code.toNat := by decide +kernel

/-- RefusalsChangeNothing and TenantIsolation: a START of port 1 refused, and one of its records
accepted, in a table that meets the laws. -/
theorem witness_refused :
    requestRow (.start 1) = some 1 ∧ (1 : Port) ≠ 0 ∧
    (∃ t, exec (.start 1) (asks opened 1 2 [9, 0]) = .next t) ∧
    reply (exec (.start 1) (asks opened 1 2 [9, 0])) 1 = some (.stale, []) ∧
    reply (exec (.start 1) (asks opened 1 2 [0, 0])) 1 = some (.done, []) ∧
    (asks opened 1 2 [0, 0]).settle.recordsLaw ∧ (asks opened 1 2 [0, 0]).settle.extentLaw :=
  ⟨rfl, by decide, next_of_out (by decide +kernel), by decide +kernel, by decide +kernel,
    opened_recordsLaw, opened_extentLaw⟩

/-- Bodies that the argument checks refuse: by length, by a reserved value or by a number just above its
range, by code. -/
def badBodies : List (Byte × List Byte) :=
  [(1, [0, 10, 129, 2, 1, 0, 0, 3, 1, 0, 7, 0, 0, 0, 0]),
    (1, [2, 10, 8, 2, 1, 0, 0, 3, 1, 0, 7, 0, 0, 0, 0]),
    (1, [0, 10, 8, 2, 2, 0, 0, 3, 1, 0, 7, 0, 0, 0, 0]),
    (1, [0, 10, 8, 2, 1, 0, 2, 3, 1, 0, 7, 0, 0, 0, 0]),
    (1, [0, 10, 8, 2, 1, 0, 0, 3, 1, 0, 8, 0, 0, 0, 0]), (2, [0]), (3, [0, 0, 0]), (4, [0, 0, 2]),
    (5, [0, 0, 8, 3, 0, 0, 0, 0, 0, 0, 0, 0]), (5, [0, 0, 8, 2, 1, 0, 0, 0, 0, 1, 16, 0]),
    (6, []), (7, [2, 0, 0, 0, 0, 0, 1]), (7, [0, 0, 0, 0, 0, 0, 0]), (7, [1, 2, 0, 0, 0, 0, 0]),
    (8, [0]), (9, [0, 0, 0, 8, 0, 1]), (9, [0, 0, 0, 0, 0]), (10, [0, 0, 0, 0, 0, 8, 1]),
    (11, [0, 0, 0, 129]), (12, [2]), (13, [0]), (14, [0]), (15, [0]), (16, [4, 0, 0, 0]),
    (16, [0, 0, 72, 1]), (17, [3, 0]), (17, [1, 3]), (17, [2, 3]), (18, [4])]

/-- ArgumentRefusals: each of those bodies is granted to port 0. -/
theorem witness_arguments : ∀ x ∈ badBodies,
    (asks opened 0 x.1 x.2).Grants 0 (ask x.1 x.2) [] := by
  intro x hx
  refine grants_of ?_
  have h : (badBodies.all fun x =>
    decide ((asks opened 0 x.1 x.2).held = false) &&
      decide ((asks opened 0 x.1 x.2).settle.nextPort = some 0) &&
      decide (((asks opened 0 x.1 x.2).settle.port 0).requestQueue = [.request (ask x.1 x.2)])) =
        true := by decide +kernel
  exact List.all_eq_true.1 h x hx

/-- NameCheckRefusals: handle 64; a VACANT record and one of another generation; another port's record;
and bodies that the argument checks pass. -/
theorem witness_names :
    (asks opened 2 2 [64, 0]).Grants 2 (ask 2 [64, 0]) [] ∧ 64 ≤ (byteAt [64, 0] 0).toNat ∧
    (asks opened 2 2 [63, 0]).Grants 2 (ask 2 [63, 0]) [] ∧
    (asks opened 2 2 [63, 0]).settle.stream 63 = none ∧
    (asks opened 2 2 [0, 1]).Grants 2 (ask 2 [0, 1]) [] ∧
    ((asks opened 2 2 [0, 1]).settle.record 0).generation ≠ byteAt [0, 1] 1 ∧
    (asks opened 2 2 [0, 0]).Grants 2 (ask 2 [0, 0]) [] ∧
    (asks opened 2 2 [0, 0]).settle.Names [0, 0] 0 tx ∧ tx.owner ≠ 2 ∧
    (readClose [0, 0, 1]).isSome = true ∧
    (readAmend [0, 0, 128, 32, 31, 3, 1, 15, 3, 1, 15, 255]).isSome = true ∧
    (readPut [0, 0, 1, 7, 255, 9]).isSome = true ∧ (readGet [0, 0, 1, 7, 255, 8, 0]).isSome = true ∧
    (readHandover [0, 0, 1, 128]).isSome = true :=
  ⟨grants_of (by decide +kernel), by decide, grants_of (by decide +kernel), by decide +kernel,
    grants_of (by decide +kernel), by decide +kernel, grants_of (by decide +kernel),
    names_of (by decide +kernel), by decide, by decide +kernel⟩

/-- The body of the OPEN of the TX stream. -/
def txBody : List Byte := [0, 10, 8, 2, 1, 0, 0, 3, 1, 0, 7, 0, 0, 0, 42]

/-- The body spells the arguments. -/
theorem txBody_spells : txArgs.speltIn txBody :=
  ⟨rfl, rfl, rfl, ⟨rfl, rfl, rfl, rfl, rfl, rfl, by decide, .empty, rfl, rfl⟩, rfl, rfl, by decide⟩

/-- OpenAdmitted: the TX stream in an empty table; and beside the RX stream, in a second handle. -/
theorem witness_open :
    let s := asks .reset 1 1 txBody
    s.Grants 1 (ask 1 txBody) [] ∧ txArgs.speltIn txBody ∧ s.settle.stream 0 = none ∧
    (∀ k : Handle, k < 0 → s.settle.stream k ≠ none) ∧
    (∀ e ∈ s.settle.table.tagMap, ¬(e.port = 1 ∧ e.tag = 42)) ∧
    (∀ e ∈ s.settle.table.channelMap, ¬(e.direction = .tx ∧ e.channel = 10)) ∧
    s.settle.admission 1 .tx (.replicate 32 0) (contribution form) = none ∧
    allocatePair ((8 + 3) / 4) s.settle.free = some ((⟨0, 2⟩, ⟨2, 2⟩), [⟨4, 508⟩]) ∧
    0 + 2 ≤ 512 ∧ 2 + 2 ≤ 512 :=
  ⟨grants_of (by decide +kernel), txBody_spells, by decide +kernel⟩

/-- A table with no record VACANT. -/
def full : State :=
  { State.reset with table := { State.reset.table with records := .replicate 64 ⟨0, some tx⟩ } }

/-- OpenRefusals: each refusal in turn. -/
theorem witness_open_refused :
    (asks full 1 1 txBody).Grants 1 (ask 1 txBody) [] ∧
    (∀ h, (asks full 1 1 txBody).settle.stream h ≠ none) ∧
    (asks opened 1 1 txBody).Grants 1 (ask 1 txBody) [] ∧
    (asks opened 1 1 txBody).settle.stream 2 = none ∧
    (asks opened 1 1 txBody).settle.findTag 1 42 = some 0 ∧
    (asks opened 3 1 txBody).Grants 3 (ask 1 txBody) [] ∧
    (asks opened 3 1 txBody).settle.findTag 3 42 = none ∧
    (asks opened 3 1 txBody).settle.findChannel .tx 10 ≠ none ∧
    (asks .reset 1 1 txBody).settle.findChannel .tx 10 = none ∧
    (State.admission (State.setQuota .reset 1 .tx 127) 1 .tx (.replicate 32 0)
      (contribution form)).isSome = true ∧
    allocatePair ((8 + 3) / 4) (State.reset.setFree [⟨0, 3⟩]).free = none :=
  ⟨grants_of (by decide +kernel), by decide +kernel, grants_of (by decide +kernel),
    by decide +kernel, by decide +kernel, grants_of (by decide +kernel), by decide +kernel⟩

/-- A request of port 1 that names its TX stream finds it as it is. -/
def meets (st : Stream) (code : Byte) (more : List Byte) : Prop :=
  let s := asks (withTx st) 1 code (0 :: 0 :: more)
  s.Grants 1 (ask code (0 :: 0 :: more)) [] ∧ s.settle.Names (0 :: 0 :: more) 0 st

/-- The grant and the name of such a request do not depend on the stream. -/
theorem meets_of (st : Stream) (code : Byte) (more : List Byte) : meets st code more := by
  have c : (asks (withTx st) 1 code (0 :: 0 :: more)).settle =
      asks (withTx st) 1 code (0 :: 0 :: more) := settle_nil rfl
  refine ⟨⟨rfl, ?_, ?_⟩, ?_, ?_, ?_⟩
  · rw [c]
    have e : State.nextPort (asks opened 1 0 []) = some 1 := by decide +kernel
    have q : ∀ p, (((asks (withTx st) 1 code (0 :: 0 :: more)).port p).requestQueue.isEmpty) =
        ((asks opened 1 0 []).port p).requestQueue.isEmpty := by
      intro p
      by_cases h : p = 1
      · subst h; simp [asks, queued]
      · simp [asks, queued, h, withTx]
    have t : (asks (withTx st) 1 code (0 :: 0 :: more)).turns = (asks opened 1 0 []).turns := rfl
    simpa only [State.nextPort, q, t] using e
  · rw [c]; simp [asks, queued]
  · rfl
  · have g : (opened.record 0).generation = 0 := by decide +kernel
    rw [c]; simpa [asks, queued, withTx, byteAt] using g
  · rw [c]; simp [asks, queued, withTx]

/-- StartAndStop, and the requests that name a record of their port: the record in each state,
and a record that is on the lists. -/
theorem witness_start_and_stop :
    (∀ st, meets st 2 [] ∧ meets st 3 []) ∧ (ask 2 [0, 0]).body.length = 2 ∧ tx.owner = 1 ∧
    tx.state = .standby ∧ txLive.state = .live ∧
    { tx with state := .suspended .link }.state = .suspended .link ∧
    Stream.isClosing { tx with state := .closing .drain } = true ∧ listed.stream 0 = some txLive ∧
    (listed.leaveLists 0).psu.txList.map TxEntry.absent = [true] ∧
    (listed.leaveLists 1).psu.rxList = [] :=
  ⟨fun st => ⟨meets_of st 2 [], meets_of st 3 []⟩, rfl, by decide +kernel⟩

/-- CloseRequests: a close that waits, one that does not, DRAIN to IMMEDIATE with a buffer in SERVICE and
without, a refusal, and a forced close, with a burst in flight and without. -/
theorem witness_close :
    (∀ st m, meets st 4 [closeModeByte m]) ∧ txLive.isClosing = false ∧
    Stream.hasOwner { txLive with bufferA := ⟨⟨0, 2⟩, .service, 8⟩ } .service = true ∧
    txLive.hasOwner .service = false ∧ up.link.state = .up ∧ txLive.hasOwner .link = true ∧
    { tx with state := .closing .drain }.state = .closing .drain ∧
    { tx with state := .closing .immediate }.state = .closing .immediate ∧
    (asks opened 0 4 [0, 0, 0]).Grants 0 (ask 4 [0, 0, 0]) [] ∧
    (asks opened 0 4 [0, 0, 0]).settle.Names [0, 0, 0] 0 tx ∧ tx.owner ≠ 0 ∧
    (∀ cells ∈ [[LaneCell.payload 0], [.lead 10 1, .payload 0]],
      let s := asks (sending 1 cells) 0 4 [0, 0, 0]
      s.Grants 0 (ask 4 [0, 0, 0]) [] ∧ s.settle.Names [0, 0, 0] 0 txServed ∧
        s.settle.psu.txFlight = some ⟨0, 0, .a, 1⟩) := by
  refine ⟨fun st m => meets_of st 4 [closeModeByte m], by decide, by decide, by decide, by decide,
    by decide, rfl, rfl, grants_of (by decide +kernel), names_of (by decide +kernel), by decide, ?_⟩
  intro cells hc
  simp only [List.mem_cons, List.not_mem_nil, or_false] at hc
  rcases hc with rfl | rfl <;>
    exact ⟨grants_of (by decide +kernel), names_of (by decide +kernel), by decide +kernel⟩

/-- 12 cells every 4 periods at phase 3. -/
def form' : Params := ⟨12, 4, 3, 1, some .silent, 0, 0⟩

/-- AmendAccepted: at the ends of the window and for NEXT, on a LIVE record and on one in STANDBY, with a
new pair and without. -/
theorem witness_amend :
    (∀ st x, meets st 5 ([12, 4, 3, 1, 1, 0, 0] ++ x)) ∧
    form'.speltIn .tx [0, 0, 12, 4, 3, 1, 1, 0, 0, 0, 0, 0] ∧
    EffectivePoint.speltIn [0, 0, 12, 4, 3, 1, 1, 0, 0, 0, 9, 9] .next ∧
    EffectivePoint.speltIn [0, 0, 12, 4, 3, 1, 1, 0, 0, 1, 0, 1] (.period 1) ∧
    EffectivePoint.speltIn [0, 0, 12, 4, 3, 1, 1, 0, 0, 1, 7, 255] (.period 2047) ∧
    (1 ≤ ((1 : Period) - opened.link.period).toNat ∧
      ((2047 : Period) - opened.link.period).toNat ≤ 2047) ∧
    tx.owner = 1 ∧ tx.isClosing = false ∧ tx.pending = none ∧ txLive.isClosing = false ∧
    txLive.pending = none ∧ txLive.state = .live ∧ tx.state ≠ .live ∧
    (tx.bufferA.owner ≠ .service ∧ tx.bufferB.owner ≠ .service) ∧
    opened.admission 1 .tx (contribution form) (larger (contribution form) (contribution form')) =
      none ∧
    (∃ v g, opened.GrantsPair v 8 12 (some g)) ∧ opened.GrantsPair opened 8 7 none := by
  refine ⟨fun st x => meets_of st 5 _, ⟨rfl, rfl, rfl, rfl, rfl, rfl, by decide, .silent, rfl, rfl⟩,
    rfl, ⟨rfl, by decide⟩, ⟨rfl, by decide⟩, by decide, ?_⟩
  refine ⟨rfl, rfl, rfl, rfl, rfl, rfl, by decide, by decide, by decide +kernel, ?_, .inl ⟨by decide, rfl, rfl⟩⟩
  exact ⟨_, _, .inr ⟨by decide, ⟨8, 3⟩, ⟨11, 3⟩, [⟨14, 498⟩], by decide +kernel, by decide,
    by decide, rfl, rfl⟩⟩

/-- AmendRefusals: each refusal in turn, the window just missed at both ends. -/
theorem witness_amend_refused :
    readAmend [0, 0, 12, 4, 3, 1, 2, 0, 0, 0, 0, 0] = some .next ∧
    readAmend [0, 0, 12, 4, 3, 1, 1, 0, 0, 1, 0, 0] = some (.period 0) ∧
    readAmend [0, 0, 12, 4, 3, 1, 1, 0, 0, 1, 8, 0] = some (.period 2048) ∧
    Stream.isClosing { tx with state := .closing .drain } = true ∧
    { tx with pending := some ⟨form', .next, none, noCells⟩ }.pending ≠ none ∧
    ¬(byteAt [0, 0, 12, 4, 3, 1, 2, 0, 0, 0, 0, 0] 6).toNat ≤ 1 ∧
    { tx with bufferA := ⟨⟨0, 2⟩, .service, 8⟩ }.bufferA.owner = .service ∧
    ¬1 ≤ ((0 : Period) - opened.link.period).toNat ∧
    ¬((2048 : Period) - opened.link.period).toNat ≤ 2047 ∧
    ((opened.setQuota 1 .tx 0).admission 1 .tx (contribution form)
      (larger (contribution form) (contribution form'))).isSome = true ∧
    (12 + 3) / 4 ≠ (8 + 3) / 4 ∧ allocatePair ((12 + 3) / 4) (opened.setFree [⟨8, 2⟩]).free = none := by
  decide +kernel

/-- WithdrawRequest: an amendment pending, and none. -/
theorem witness_withdraw :
    (∀ st, meets st 6 []) ∧ tx.pending = none ∧
    { tx with pending := some ⟨form', .period 9, none, contribution form⟩ }.pending =
      some ⟨form', .period 9, none, contribution form⟩ :=
  ⟨fun st => meets_of st 6 [], rfl, rfl⟩

/-- FindRequests: the record found, by tag and by channel, and none. -/
theorem witness_find :
    (asks opened 1 7 ([0, 9, 9] ++ be32 42)).Grants 1 (ask 7 ([0, 9, 9] ++ be32 42)) [] ∧
    (asks opened 1 7 ([0, 9, 9] ++ be32 42)).settle.tagMapLaw ∧ (42 : BitVec 32) ≠ 0 ∧
    (asks opened 1 7 ([0, 9, 9] ++ be32 42)).settle.stream 0 = some tx ∧ tx.owner = 1 ∧
    tx.tag = 42 ∧ rx.tag ≠ 43 ∧ tx.tag ≠ 43 ∧
    (asks opened 1 7 [1, 1, 11, 0, 0, 0, 0]).Grants 1 (ask 7 [1, 1, 11, 0, 0, 0, 0]) [] ∧
    (asks opened 1 7 [1, 1, 11, 0, 0, 0, 0]).settle.channelMapLaw ∧
    (asks opened 1 7 [1, 1, 11, 0, 0, 0, 0]).settle.stream 1 = some rx ∧ rx.direction = .rx ∧
    rx.channel = 11 :=
  ⟨grants_of (by decide +kernel), opened_mapLaws.1, by decide, by decide +kernel, rfl, rfl,
    by decide, by decide, grants_of (by decide +kernel), opened_mapLaws.2, by decide +kernel, rfl,
    rfl⟩

/-- ReadingRequests, LoadsRequest and PollRequest. -/
theorem witness_reading :
    (∀ st, meets st 8 []) ∧ (asks opened 3 13 []).Grants 3 (ask 13 []) [] ∧
    (asks opened 3 15 []).Grants 3 (ask 15 []) [] ∧ (asks opened 3 14 []).Grants 3 (ask 14 []) [] ∧
    (asks opened 3 12 [0]).Grants 3 (ask 12 [0]) [] ∧
    (asks opened 3 12 [1]).Grants 3 (ask 12 [1]) [] ∧
    (asks opened 3 12 [2]).Grants 3 (ask 12 [2]) [] ∧ 1 < (2 : Byte).toNat :=
  ⟨fun st => meets_of st 8 [], grants_of (by decide +kernel), grants_of (by decide +kernel),
    grants_of (by decide +kernel), grants_of (by decide +kernel), grants_of (by decide +kernel),
    grants_of (by decide +kernel), by decide⟩

/-- BufferRequests: PUT and GET at the last valid byte and just beyond, an RX record, a buffer of LINK,
and the ends of HANDOVER's fill. -/
theorem witness_buffers :
    (∀ st, meets st 9 ([0, 0, 127] ++ [5]) ∧ meets st 9 ([0, 0, 127] ++ [5, 6]) ∧
      meets st 10 [0, 0, 127, 0, 1] ∧ meets st 10 [0, 0, 128, 0, 1] ∧ meets st 11 [0, 8] ∧
      meets st 11 [0, 9] ∧ meets st 11 [1, 0]) ∧
    127 ≤ 2047 ∧ tx.direction = .tx ∧ (tx.buffer .a).owner = .host ∧
    (txLive.buffer .a).owner ≠ .host ∧ 127 + 1 ≤ 16 * tx.params.cells ∧
    16 * tx.params.cells < 127 + 2 ∧ 64 * (tx.buffer .a).extent.base + 127 + 1 ≤ 32768 ∧
    tx.isClosing = false ∧ Stream.isClosing { tx with state := .closing .drain } = true ∧
    1 ≤ 8 ∧ 8 ≤ tx.params.cells ∧ ¬9 ≤ tx.params.cells ∧ ¬1 ≤ 0 ∧
    { tx with direction := .rx }.direction = .rx :=
  ⟨fun st => ⟨meets_of st 9 _, meets_of st 9 _, meets_of st 10 _, meets_of st 10 _, meets_of st 11 _,
    meets_of st 11 _, meets_of st 11 _⟩, by decide⟩

/-- QuotaRequest: a quota at its end, one beyond, and a port other than 0. -/
theorem witness_quota :
    (asks opened 0 16 [3, 1, 72, 0]).Grants 0 (ask 16 [3, 1, 72, 0]) [] ∧
    [byte (3 : Port).val, directionByte .rx] ++ be16 18432 = [3, 1, 72, 0] ∧
    (asks opened 0 16 [3, 1, 72, 1]).Grants 0 (ask 16 [3, 1, 72, 1]) [] ∧
    18432 < numberAt [3, 1, 72, 1] 2 ∧ (asks opened 1 16 []).Grants 1 (ask 16 []) [] :=
  ⟨grants_of (by decide +kernel), by decide, grants_of (by decide +kernel), by decide,
    grants_of (by decide +kernel)⟩

/-- LinkctlRequest: each action in OFF and out of it, for each role, and a port other than 0. -/
theorem witness_linkctl :
    (∀ x ∈ [[(1 : Byte), 0], [1, 1], [1, 2], [2, 0], [2, 1]],
      (asks opened 0 17 x).Grants 0 (ask 17 x) [] ∧ (asks up 0 17 x).Grants 0 (ask 17 x) []) ∧
    (asks opened 0 17 []).settle.link.state = .off ∧ (asks up 0 17 []).settle.link.state = .up ∧
    (asks opened 1 17 [1, 0]).Grants 1 (ask 17 [1, 0]) [] ∧ [(1 : Byte), 0] ≠ [2, 0] := by
  refine ⟨fun x hx => ?_, by decide +kernel, by decide +kernel, grants_of (by decide +kernel),
    by decide⟩
  simp only [List.mem_cons, List.not_mem_nil, or_false] at hx
  rcases hx with rfl | rfl | rfl | rfl | rfl <;>
    exact ⟨grants_of (by decide +kernel), grants_of (by decide +kernel)⟩

/-- PurgeRequest: port 0 purges port 1, port 1 itself, and port 2 port 1; and a burst of port 1's record
in flight, its lead cell staged already and still to be staged. -/
theorem witness_purge :
    (asks opened 0 18 [1]).Grants 0 (ask 18 [1]) [] ∧ (asks opened 0 18 [1]).settle.loadLaw ∧
    (asks opened 1 18 [1]).Grants 1 (ask 18 [1]) [] ∧ (asks opened 1 18 [1]).settle.loadLaw ∧
    (asks opened 2 18 [1]).Grants 2 (ask 18 [1]) [] ∧ (1 : Port) ≠ 2 ∧
    [[LaneCell.payload 0], [.lead 10 1, .payload 0]].map (fun cells =>
      (out (exec (.purge 1) (asks (sending 1 cells) 1 18 [1]))).map fun t =>
        (t.psu.txFlight, t.lane)) =
      [some (none, ⟨.idle, some .idle, [.idle], some 101⟩),
        some (none, ⟨.idle, some (.lead 10 8), [.idle, .idle], some 101⟩)] :=
  ⟨grants_of (by decide +kernel), opened_loadLaw, grants_of (by decide +kernel), opened_loadLaw,
    grants_of (by decide +kernel), by decide, by decide +kernel⟩

/-- ResetBeginsAndEnds: each hold alone, both and neither, and a RESET of another port. -/
theorem witness_reset :
    State.reset.held = false ∧ { State.reset with resetPin := true }.resetHold = false ∧
    { State.reset with resetHold := true }.resetPin = false ∧
    State.held { State.reset with resetPin := true, resetHold := true } = true ∧
    (asks opened 1 19 []).Grants 1 (ask 19 []) [] :=
  ⟨by decide, by decide, by decide, by decide, grants_of (by decide +kernel)⟩

/-! ### Witnesses of the link and of the claims -/

/-- PeriodTimerExpiry: a leader whose period was echoed, one at its third missing echo, a follower, and
OFF. -/
theorem witness_period_timer :
    leader.held = false ∧ leader.link.state ≠ .off ∧ leader.link.role = .leader ∧
    leader.link.periodTimer = true ∧ leader.catchUp.link.echoRecord = some leader.catchUp.link.period ∧
    3 ≤ 2 + 1 ∧ up.link.role = .follower ∧ State.reset.link.state = .off := by decide +kernel

/-- MarkArrival and EchoesAndTimers: a mark at 648 cell times and at 647, numbers at the ends, an echo of
the current number, and the follower's timers in UP and out of it. -/
theorem witness_marks :
    up.held = false ∧ up.link.state ≠ .off ∧ up.link.role = .follower ∧
    (let valid := fun (c : MarkCell) => c.echo = 0 ∧ c.role = 0 ∧ c.number.toNat < 4096 ∧
      (up.catchUp.link.markTaken = false ∨ 648 ≤ c.elapsed)
    valid ⟨101, 0, 0, 648⟩ ∧ valid ⟨4095, 0, 0, 648⟩ ∧ ¬valid ⟨101, 0, 0, 647⟩ ∧
      ¬valid ⟨4096, 0, 0, 648⟩ ∧ ¬valid ⟨101, 1, 0, 648⟩) ∧
    (⟨101, 0, 0, 648⟩ : MarkCell).echo ≠ 1 ∧ leader.link.role = .leader ∧
    (let c : MarkCell := ⟨100, 1, 1, 0⟩
    c.echo = 1 ∧ c.role = 1 ∧ c.number.toNat = leader.catchUp.link.period.toNat) ∧
    State.reset.link.echoRecord ≠ some 100 ∧ up.link.lossTimer = true ∧ up.catchUp.link.state = .up ∧
    leader.link.lossTimer = false := by
  decide +kernel

/-- CellsThatEndBursts: a trailer of the current number, one of another and one above 4095, lead cells at 128 and beyond,
an open period and a closed one, a channel held and one not. -/
theorem witness_cells :
    listed.held = false ∧ listed.link.state ≠ .off ∧ listed.link.aligned = true ∧
    (101 : BitVec 16).toNat = listed.catchUp.link.period.toNat ∧
    (102 : BitVec 16).toNat ≠ listed.catchUp.link.period.toNat ∧ (4095 : BitVec 16).toNat < 4096 ∧
    (4095 : BitVec 16).toNat ≠ listed.catchUp.link.period.toNat ∧ 4096 ≤ (4096 : BitVec 16).toNat ∧
    listed.catchUp.psu.rxOpen = false ∧
    { listed with psu := { listed.psu with rxOpen := true } }.psu.rxOpen = true ∧
    128 < (129 : Byte).toNat ∧ (128 : Byte).toNat ≤ 128 ∧
    (listed.catchUp.psu.rxTable.get 1).standing ≠ .none ∧
    listed.catchUp.findChannel .rx 11 = some 1 ∧ listed.catchUp.findChannel .rx 12 = none ∧
    State.reset.link.aligned = false := by decide +kernel

/-- PayloadCells: no burst, an ended one, the last stored cell, the first excess one, and a record of
another generation. -/
theorem witness_payload :
    (bursting 9 7).held = false ∧ (bursting 9 7).link.state ≠ .off ∧
    (bursting 9 7).link.aligned = true ∧ listed.catchUp.psu.rxFlight = none ∧
    (bursting 9 7).catchUp.psu.rxFlight =
      some ⟨1, 0, .a, 9, 7, 7, false, false, false⟩ ∧
    7 < ((bursting 9 7).catchUp.psu.rxTable.get 1).form.cells ∧
    ((bursting 9 8).catchUp.psu.rxTable.get 1).form.cells ≤ 8 ∧
    (bursting 9 7).catchUp.stream 1 = some rxLive ∧ ((bursting 9 7).catchUp.record 1).generation = 0 ∧
    64 * (rxLive.buffer .a).extent.base + 16 * 7 + 16 ≤ 32768 ∧
    ((bursting 9 7).setRecord 1 ⟨1, some rxLive⟩).catchUp.stream 1 = some rxLive ∧
    (((bursting 9 7).setRecord 1 ⟨1, some rxLive⟩).catchUp.record 1).generation ≠ 0 := by
  decide +kernel

/-- ClaimsTakenInOrder: no claim waiting and one; an entry due and one not due; a claim of the kind in
front, one behind another, and none; for the lane's rows too. -/
theorem witness_claims :
    up.claims = [] ∧ acquired.settle.entryDue = true ∧
    (claimed acquired (.markProcessing 5)).entryDue = false ∧
    up.held = false ∧ (claimed up .slip).claims = .slip :: [] ∧
    { up with claims := [.slip, .periodEnd] }.claims = .slip :: [.periodEnd] ∧
    ¬(Claim.slip = .periodEnd) ∧ (∃ d ∈ [Claim.periodEnd], d = .periodEnd) ∧
    (∀ c ∈ (claimed up .slip).claims, ¬(c = .periodEnd)) ∧ up.settle.entryDue = false ∧
    (starting up).claims = .serviceStart :: [] ∧
    { up with claims := [.txCompletion, .serviceStart] }.claims = .txCompletion :: [.serviceStart] ∧
    ¬(Claim.txCompletion = .serviceStart) := by
  decide +kernel

/-- TakeEffect: a point reached by 0 and by 2047 periods, one not reached, and both kinds of pair. -/
theorem witness_take_effect :
    (∀ a, (withTx { txLive with pending := some a }).stream 0 =
      some { txLive with pending := some a }) ∧
    ((9 : Period) - 9).toNat < 2048 ∧ ((2047 : Period) - 0).toNat < 2048 ∧
    ¬((8 : Period) - 9).toNat < 2048 ∧
    (Amendment.mk form' .next (some (⟨8, 3⟩, ⟨11, 3⟩)) (contribution form)).pair =
      some (⟨8, 3⟩, ⟨11, 3⟩) ∧
    (Amendment.mk { form with phase := 0 } .next none (contribution form)).pair = none :=
  ⟨fun a => by simp [withTx], by decide, by decide, by decide, rfl, rfl⟩

/-- The TX stream with an amendment to phase 0 pending for the next mark. -/
def amending : State :=
  withTx { tx with pending := some ⟨{ form with phase := 0 }, .next, none, contribution form⟩ }

/-- MarkProcessing: in UP and out of it, records with no amendment pending; one with an amendment that
takes effect, and its AMENDED notice; and a record warned, the other not. -/
theorem witness_mark_processing :
    (claimed opened (.markProcessing 5)).held = false ∧
    (claimed opened (.markProcessing 5)).claims = .markProcessing 5 :: [] ∧
    (claimed opened (.markProcessing 5)).recordsLaw ∧
    (claimed { opened with link := up.link } (.markProcessing 5)).recordsLaw ∧
    (claimed { opened with link := up.link } (.markProcessing 5)).link.state = .up ∧
    opened.link.state ≠ .up ∧ amending.recordsLaw ∧ EffectivePoint.next.reached 5 = true ∧
    (∀ a, tx.pending = some a → a.point.reached 5 = false) ∧
    (out (exec .markProcessing (claimed amending (.markProcessing 5)))).map (fun t =>
        (t.noticesOf 1).entries.map Notice.report) = some [.amended 0 0 5 0 false] ∧
    (out (exec .markProcessing (claimed (up.setStream 0 { txLive with bufferA := tx.bufferA })
        (.markProcessing 6)))).map (fun t => ((t.noticesOf 1).entries.map Notice.report,
          (t.noticesOf 2).entries)) = some ([.warn 0 0 1], []) := by
  refine ⟨by decide, rfl, opened_recordsLaw, opened_recordsLaw, rfl, by decide, ?_, rfl,
    fun a h => (by cases h), by decide +kernel⟩
  intro h st e
  rw [amending, withTx, State.setStream_stream] at e
  split at e
  · cases e
    refine ⟨by decide, by unfold policyFits; decide, by unfold Stream.runLaw; decide, by decide, by decide,
      fun a ha => ?_⟩
    cases ha
    exact ⟨⟨by decide, by unfold policyFits; decide, rfl, by decide, fun _ h => by cases h⟩, by decide⟩
  · exact opened_recordsLaw h st e

/-- The TX list's one entry for period 101. -/
def entry : TxEntry := ⟨0, 0, ⟨8, 2, 1⟩, 0, false⟩

/-- ServiceStart: no entry left, with a claim waiting and without; an entry left and no claim yet; and the
entry of period 101 with its claim, its record in each case, and the entry no longer on the list. -/
theorem witness_service_start :
    (let s := sending 0 []
    s.held = false ∧ s.link.state ≠ .off ∧ s.claims = [] ∧ s.entryDue = false ∧
      s.psu.txList[s.psu.txNext]? = none ∧ (starting s).claims = .serviceStart :: [] ∧
      (starting s).psu.txList[(starting s).psu.txNext]? = none) ∧
    (let s := { sending 0 [.idle] with psu := { (sending 0 [.idle]).psu with txNext := 0 } }
    s.held = false ∧ s.link.state ≠ .off ∧ s.claims = [] ∧ s.entryDue = false ∧
      s.psu.txList[s.psu.txNext]? = some entry ∧ s.lane.queue = .idle :: [] ∧
      (out s.cellTime).isSome = true) ∧
    (∀ st ∈ [txLive, tx, { txLive with bufferA := ⟨⟨0, 2⟩, .host, 0⟩ },
        { txLive with state := .closing .drain, bufferA := ⟨⟨0, 2⟩, .host, 0⟩ }],
      let s := starting (listed.setStream 0 st)
      s.held = false ∧ s.claims = .serviceStart :: [] ∧
        s.psu.txList[s.psu.txNext]? = some entry ∧ s.stream 0 = some st ∧
        (s.record 0).generation = entry.generation) ∧
    ((starting listed).leaveLists 0).psu.txList[((starting listed).leaveLists 0).psu.txNext]? =
      some { entry with absent := true } ∧ entry.absent = false ∧
    entry.form = ⟨txLive.params.cells, txLive.params.interval, txLive.params.phase⟩ ∧
    txLive.state = .live ∧ (txLive.buffer txLive.parity).owner = .link ∧ tx.state = .standby := by
  decide +kernel

/-- TxCompletion: none in flight, with a claim waiting and without; a burst still to be staged; and a
service to be completed, its record LIVE, in CLOSING in each mode, and of another generation. -/
theorem witness_tx_completion :
    (listed.claims = [] ∧ listed.entryDue = false ∧ listed.psu.txFlight = none ∧
      (claimed listed .txCompletion).claims = .txCompletion :: [] ∧
      (claimed listed .txCompletion).psu.txFlight = none) ∧
    (let s := sending 1 [.payload 112, .idle]
    s.held = false ∧ s.link.state ≠ .off ∧ s.claims = [] ∧ s.entryDue = false ∧
      s.psu.txFlight = some ⟨0, 0, .a, 1⟩ ∧ s.lane.queue = .payload 112 :: [.idle] ∧
      (out s.cellTime).isSome = true) ∧
    (∀ x ∈ [StreamState.live, .closing .immediate, .closing .drain],
      let s := claimed ((sending 0 []).setStream 0 { txServed with state := x }) .txCompletion
      s.held = false ∧ s.claims = .txCompletion :: [] ∧
        s.psu.txFlight = some ⟨0, 0, .a, 0⟩ ∧ s.stream 0 = some { txServed with state := x } ∧
        (s.record 0).generation = 0) ∧
    (((sending 0 []).setRecord 0 ⟨1, some txServed⟩).record 0).generation ≠ 0 := by decide +kernel

/-- MatchClaim: the RX record listed and DUE, with each owner of its due buffer; and an entry of no
standing, also once the record has left the lists. -/
theorem witness_match :
    (∀ st ∈ [rxLive, { rxLive with bufferA := ⟨⟨4, 2⟩, .host, 0⟩ },
        { rxLive with state := .closing .drain, bufferA := ⟨⟨4, 2⟩, .host, 0⟩ }],
      let s := claimed (listed.setStream 1 st) (.matchLead 1 0)
      s.held = false ∧ s.claims = .matchLead 1 0 :: [] ∧ s.stream 1 = some st ∧
        (s.record 1).generation = (s.psu.rxTable.get 1).generation ∧
        (st.state = .live ∨ st.state = .closing .drain) ∧
        (s.psu.rxTable.get 1).standing = .due ∧
        (s.psu.rxTable.get 1).form = ⟨st.params.cells, st.params.interval, st.params.phase⟩) ∧
    ((listed.leaveLists 1).psu.rxTable.get 1).standing = .none ∧
    ((listed.setStanding 1 .received).psu.rxTable.get 1).standing = .received ∧
    (up.psu.rxTable.get 1).standing = .none := by decide +kernel

/-- RxCompletion: no burst; a burst of the RX record; and one of another generation. -/
theorem witness_rx_completion :
    (claimed (bursting 0 0) .rxCompletion).held = false ∧
    (claimed (bursting 0 0) .rxCompletion).claims = .rxCompletion :: [] ∧
    (claimed listed .rxCompletion).psu.rxFlight = none ∧
    (claimed (bursting 0 0) .rxCompletion).psu.rxFlight =
      some ⟨1, 0, .a, 0, 0, 0, false, false, false⟩ ∧
    (bursting 0 0).stream 1 = some rxLive ∧ ((bursting 0 0).record 1).generation = 0 ∧
    (((bursting 0 0).setRecord 1 ⟨1, some rxLive⟩).record 1).generation ≠ 0 := by decide +kernel

/-- PeriodEnd: the RX record listed and still DUE, with each owner of its due buffer, and with
a run that the miss brings to its limit, and the notices queued then; and two drains that end at once. -/
theorem witness_period_end :
    (∀ st ∈ [rxLive, { rxLive with missRun := 2 }, { rxLive with bufferA := ⟨⟨4, 2⟩, .host, 0⟩ },
        { rxLive with state := .closing .drain, bufferA := ⟨⟨4, 2⟩, .host, 0⟩ }],
      let s := claimed (listed.setStream 1 st) .periodEnd
      s.held = false ∧ s.claims = .periodEnd :: [] ∧ s.psu.rxList.Nodup ∧ 1 ∈ s.psu.rxList ∧
        s.stream 1 = some st ∧ (s.psu.rxTable.get 1).standing = .due ∧
        (s.record 1).generation = (s.psu.rxTable.get 1).generation ∧
        (s.psu.rxTable.get 1).form = ⟨st.params.cells, st.params.interval, st.params.phase⟩) ∧
    (Stream.missed { rxLive with missRun := 2 }).missRun = rxLive.params.missLimit ∧
    (out (exec .periodEnd (claimed (listed.setStream 1 { rxLive with missRun := 2 }) .periodEnd))).map
      (fun t => (t.noticesOf 2).entries.map Notice.report) =
        some [.miss 1 0 .absent 3, .suspended 1 0 .misses] ∧
    (claimed draining .periodEnd).psu.rxList.Nodup ∧
    [5, 1].map draining.endsDrain = [true, true] := by
  decide +kernel

/-- LinkClaims: each claim in front; a follower whose acquire is complete; leaving UP in UP and out of
it, with a mark behind it and without, with a LIVE record that holds, one in CLOSING, and a service in
flight. -/
theorem witness_link_claims :
    up.held = false ∧ (claimed up .enteringUp).claims = .enteringUp :: [] ∧
    (acquired.held = false ∧ acquired.claims = [] ∧ acquired.link.state = .acquire ∧
      acquired.link.role = .follower ∧ acquired.link.acquire = 2) ∧
    (claimed up .slip).claims = .slip :: [] ∧ (claimed up .leavingUp).claims = .leavingUp :: [] ∧
    up.link.state = .up ∧ opened.link.state ≠ .up ∧ (∀ n, .markProcessing n ∉ ([] : List Claim)) ∧
    .markProcessing 5 ∈ [Claim.markProcessing 5] ∧ up.stream 0 = some txLive ∧
    txLive.isClosing = false ∧ Stream.isClosing { txLive with state := .closing .drain } = true ∧
    txLive.state = .live ∧ txLive.linkPolicy = .hold ∧
    (sending 1 []).psu.txFlight = some ⟨0, 0, .a, 1⟩ ∧ (sending 1 []).stream 0 = some txServed ∧
    ((sending 1 []).record 0).generation = 0 := by
  refine ⟨by decide, rfl, ⟨by decide, rfl, rfl, rfl, rfl⟩, rfl, rfl, rfl, by decide, fun n => by simp,
    by decide, ?_⟩
  decide +kernel

end Sys2Proof.Tests
end

