-- ==== Sys2Proof/Proofs/Records.lean ====
section
/-! SUPPORT. What the shared operations do to a whole record and to the two maps: what the statements
about every step turn on. -/

namespace Sys2Proof.Machine

/-! ### Records -/

/-- A record is its generation and its stream. -/
theorem record_ext {s t : State} {h k : Handle}
    (hg : (t.record k).generation = (s.record h).generation) (hs : t.stream k = s.stream h) :
    t.record k = s.record h := by
  calc t.record k = ⟨(t.record k).generation, t.stream k⟩ := rfl
    _ = ⟨(s.record h).generation, s.stream h⟩ := by rw [hg, hs]
    _ = s.record h := rfl

/-- An open record is its generation with its stream. -/
theorem record_of_stream {s : State} {h : Handle} {st : Stream} (hs : s.stream h = some st) :
    s.record h = ⟨(s.record h).generation, some st⟩ := by
  rw [← hs]; rfl

/-- A VACANT record is its generation. -/
theorem record_of_vacant {s : State} {h : Handle} (hs : s.stream h = none) :
    s.record h = ⟨(s.record h).generation, none⟩ := by
  rw [← hs]; rfl

/-- The same table holds the same records. -/
theorem record_of_table {s t : State} (e : t.table = s.table) (k : Handle) :
    t.record k = s.record k := by
  simp only [State.record, e]

/-- The same table holds the same streams. -/
theorem stream_of_table {s t : State} (e : t.table = s.table) (k : Handle) :
    t.stream k = s.stream k := by
  simp only [State.stream, record_of_table e]

/-- A notice of an optional kind touches no record. -/
@[simp] theorem notifyIf_record (s : State) (c : Bool) (p : Port) (x : Report) (k : Handle) :
    (s.notifyIf c p x).record k = s.record k :=
  record_of_table (s.notifyIf_keeps c p x).1 k

/-- The abort of a service touches no record. -/
@[simp] theorem abortFlight_record (s : State) (h k : Handle) :
    (s.abortFlight h).record k = s.record k := rfl

/-- The stream without its pending amendment. -/
def Stream.withdrawn (st : Stream) : Stream := { st with pending := none }

/-- A withdrawal takes the pending amendment off its record alone. -/
theorem withdrawAmendment_record (s : State) (h k : Handle) :
    (s.withdrawAmendment h).record k =
      if k = h then ⟨(s.record h).generation, (s.stream h).map Stream.withdrawn⟩
      else s.record k := by
  have hs := withdrawAmendment_stream s h k
  have hg := withdrawAmendment_generation s h k
  by_cases e : k = h
  · subst e
    rw [if_pos rfl] at hs ⊢
    calc (s.withdrawAmendment k).record k
        = ⟨((s.withdrawAmendment k).record k).generation, (s.withdrawAmendment k).stream k⟩ := rfl
      _ = _ := by rw [hg, hs]; rfl
  · rw [if_neg e] at hs ⊢
    exact record_ext hg hs

/-- Parts 1 to 4, 6 and 7 of a retirement: an open record becomes VACANT with its generation
advanced, and no other record changes (R20). -/
theorem vacate_record (s : State) (h k : Handle) :
    (s.vacate h).record k =
      if k = h ∧ (s.stream h).isSome = true then ⟨(s.record h).generation + 1, none⟩
      else s.record k := by
  have hs := vacate_stream s h k
  have hg := vacate_generation s h k
  by_cases e : k = h
  · subst e
    rw [if_pos rfl] at hs
    cases ho : s.stream k with
    | none =>
      rw [if_neg (by simp)]
      exact record_ext (by simpa [ho] using hg) (by rw [hs, ho])
    | some st =>
      rw [if_pos (by simp)]
      calc (s.vacate k).record k
          = ⟨((s.vacate k).record k).generation, (s.vacate k).stream k⟩ := rfl
        _ = _ := by rw [hg, hs]; simp [ho]
  · rw [if_neg e] at hs
    rw [if_neg (fun c => e c.1)] at hg ⊢
    exact record_ext hg hs

/-- A miss changes its record as the miss rule says, and no other. -/
theorem miss_record (s : State) (h k : Handle) (c : MissCause) :
    (s.miss h c).record k =
      if k = h then ⟨(s.record h).generation, (s.stream h).map Stream.missed⟩ else s.record k := by
  have hs := miss_stream s h k c
  have hg : ((s.miss h c).record k).generation = (s.record k).generation := by
    unfold State.miss
    split
    · dsimp only
      split <;> simp only [notifyIf_record, State.notify_record, State.setStream_record] <;>
        split <;> simp_all
    · rfl
  by_cases e : k = h
  · subst e
    rw [if_pos rfl] at hs ⊢
    calc (s.miss k c).record k = ⟨((s.miss k c).record k).generation, (s.miss k c).stream k⟩ := rfl
      _ = _ := by rw [hg, hs]
  · rw [if_neg e] at hs ⊢
    exact record_ext hg hs

/-! ### Maps -/

/-- A withdrawal leaves the maps. -/
@[simp] theorem withdrawAmendment_maps (s : State) (h : Handle) :
    (s.withdrawAmendment h).table.tagMap = s.table.tagMap ∧
      (s.withdrawAmendment h).table.channelMap = s.table.channelMap := by
  unfold State.withdrawAmendment
  repeat' split
  all_goals exact ⟨rfl, rfl⟩

/-- The retirement of an open record takes its entries out of the maps (R20, part 4). -/
theorem vacate_maps {s : State} {h : Handle} {st : Stream} (hs : s.stream h = some st) :
    (s.vacate h).table.tagMap = s.table.tagMap.filter (fun e => e.handle ≠ h) ∧
      (s.vacate h).table.channelMap = s.table.channelMap.filter (fun e => e.handle ≠ h) := by
  have hw : (s.withdrawAmendment h).stream h = some st.withdrawn := by
    simp [withdrawAmendment_stream, hs, Stream.withdrawn]
  unfold State.vacate
  simp only [hw]
  simp [State.removeMapEntries]

/-- Where no record is open there is nothing to retire. -/
theorem vacate_none {s : State} {h : Handle} (hs : s.stream h = none) : s.vacate h = s := by
  have hw : s.withdrawAmendment h = s := by unfold State.withdrawAmendment; simp [hs]
  unfold State.vacate
  simp [hw, hs]

/-- Retirement does to the table what its parts 1 to 4, 6 and 7 do. -/
theorem retire_table (s : State) (h : Handle) (c : Bool) :
    (s.retire h c).table = (s.vacate h).table := by
  unfold State.retire
  split
  · simp
  · rw [vacate_none ‹_›]

/-- A miss leaves the maps. -/
@[simp] theorem miss_maps (s : State) (h : Handle) (c : MissCause) :
    (s.miss h c).table.tagMap = s.table.tagMap ∧
      (s.miss h c).table.channelMap = s.table.channelMap := by
  unfold State.miss
  split
  · dsimp only
    split <;> simp
  · exact ⟨rfl, rfl⟩

end Sys2Proof.Machine
end

