-- ==== Sys2Proof/Proofs/Follows.lean ====
section
/-! SUPPORT. What every claim and every request but OPEN can do to the records and the maps: a record
that stays open keeps its identity and its law, one that is retired becomes VACANT, with its entries out
of the maps, and a VACANT one stays as it is. -/

namespace Sys2Proof.Machine

/-- The record of a handle was not retired on the way from one state to another. -/
def State.outlives (s t : State) (h : Handle) : Bool := (s.stream h).isNone || (t.stream h).isSome

/-- The stream goes on as another: the same record in a later state. -/
structure Stream.GoesOn (x y : Stream) : Prop where
  identity : x.sameIdentity y
  law : x.recordLaw → y.recordLaw

/-- The records and the maps of the second state are those of the first, but for records that went on
under their generation and records that were retired, once each. -/
structure State.Follows (s t : State) : Prop where
  vacant : ∀ h, s.stream h = none → t.record h = s.record h
  opened : ∀ h x, s.stream h = some x →
    (∃ y, t.record h = ⟨(s.record h).generation, some y⟩ ∧ x.GoesOn y) ∨
      t.record h = ⟨(s.record h).generation + 1, none⟩
  tags : t.table.tagMap = s.table.tagMap.filter fun e => s.outlives t e.handle
  channels : t.table.channelMap = s.table.channelMap.filter fun e => s.outlives t e.handle

/-! ### Streams that go on -/

theorem Stream.GoesOn.refl (x : Stream) : x.GoesOn x :=
  ⟨⟨rfl, rfl, rfl, rfl, rfl, rfl⟩, id⟩

theorem Stream.GoesOn.trans {x y z : Stream} (a : x.GoesOn y) (b : y.GoesOn z) : x.GoesOn z := by
  obtain ⟨o, t, d, c, l, n⟩ := a.identity
  obtain ⟨o', t', d', c', l', n'⟩ := b.identity
  exact ⟨⟨o.trans o', t.trans t', d.trans d', c.trans c', l.trans l', n.trans n'⟩, b.law ∘ a.law⟩

/-- Where the parameters, the extents, the run and the state stay, and the pending amendment too, the law
of the record does. -/
theorem Stream.GoesOn.of_eq {x y : Stream} (identity : x.sameIdentity y) (hp : y.params = x.params)
    (ha : y.bufferA.extent = x.bufferA.extent) (hb : y.bufferB.extent = x.bufferB.extent)
    (hr : y.runLaw ∨ (y.missRun = x.missRun ∧ y.state = x.state))
    (hn : y.pending = none ∨ (y.pending = x.pending ∧ y.isClosing = x.isClosing)) :
    x.GoesOn y := by
  refine ⟨identity, fun ⟨range, policy, run, ea, eb, pend⟩ => ?_⟩
  have hd : x.direction = y.direction := identity.2.2.1
  refine ⟨hp ▸ range, by rw [hp, ← hd]; exact policy, ?_, by rw [ha, hp, ea], by rw [hb, hp, eb], ?_⟩
  · rcases hr with hr | ⟨hm, hs⟩
    · exact hr
    · unfold Stream.runLaw at run ⊢
      rwa [hm, hs, hp]
  · intro a h
    rcases hn with hn | ⟨hn, hc⟩
    · rw [hn] at h; cases h
    · obtain ⟨l, c⟩ := pend a (hn ▸ h)
      refine ⟨?_, hc ▸ c⟩
      unfold Stream.amendmentLaw at l ⊢
      rwa [hp, ← hd]

/-- A stream goes on when its buffers change owner or fill. -/
theorem goesOn_setBuffer (st : Stream) (n : BufferName) (x : Buffer)
    (he : x.extent = (st.buffer n).extent) : st.GoesOn (st.setBuffer n x) := by
  cases n with
  | a => exact .of_eq ⟨rfl, rfl, rfl, rfl, rfl, rfl⟩ rfl he rfl (.inr ⟨rfl, rfl⟩) (.inr ⟨rfl, rfl⟩)
  | b => exact .of_eq ⟨rfl, rfl, rfl, rfl, rfl, rfl⟩ rfl rfl he (.inr ⟨rfl, rfl⟩) (.inr ⟨rfl, rfl⟩)

/-- A stream without its pending amendment goes on. -/
theorem goesOn_withdrawn (st : Stream) : st.GoesOn st.withdrawn :=
  .of_eq ⟨rfl, rfl, rfl, rfl, rfl, rfl⟩ rfl rfl rfl (.inr ⟨rfl, rfl⟩) (.inl rfl)

/-- A run of 0 keeps to every limit. -/
theorem runLaw_of_zero {st : Stream} (h : st.missRun = 0) : st.runLaw := by
  unfold Stream.runLaw; omega

/-- The run after one more miss keeps to 15 and to a limit that is not 0 (R128). -/
theorem nextRun_le (st : Stream) (h : st.recordLaw) :
    st.nextRun ≤ 15 ∧ (st.params.missLimit ≠ 0 → st.nextRun ≤ st.params.missLimit) := by
  have range := h.1
  have limit : st.params.missLimit ≤ 15 := by
    simp only [Params.inRange, Bool.and_eq_true, decide_eq_true_eq] at range
    exact range.1.2
  unfold Stream.nextRun
  split <;> omega

/-- A miss SUSPENDS a LIVE record whose run meets its limit, and leaves every other's state (R128). -/
theorem missed_state_cases (st : Stream) :
    st.missed.state = .suspended .misses ∨
      (st.missed.state = st.state ∧
        ¬(st.state = .live ∧ st.params.missLimit ≠ 0 ∧ st.nextRun = st.params.missLimit)) := by
  by_cases c : st.state = .live ∧ st.params.missLimit ≠ 0 ∧ st.nextRun = st.params.missLimit
  · exact .inl (if_pos c)
  · exact .inr ⟨if_neg c, c⟩

/-- A stream goes on after a miss (R128). -/
theorem goesOn_missed (st : Stream) : st.GoesOn st.missed := by
  refine ⟨⟨rfl, rfl, rfl, rfl, rfl, rfl⟩, fun h => ?_⟩
  obtain ⟨bound, limit⟩ := nextRun_le st h
  obtain ⟨range, policy, -, ea, eb, pend⟩ := h
  refine ⟨range, policy, ⟨bound, limit, fun nonzero live => ?_⟩, ea, eb, fun a e => ?_⟩
  · rcases missed_state_cases st with e | ⟨e, below⟩
    · rw [e] at live; cases live
    · exact lt_of_le_of_ne (limit nonzero) fun met => below ⟨e ▸ live, nonzero, met⟩
  · obtain ⟨law, closing⟩ := pend a e
    refine ⟨law, ?_⟩
    rcases missed_state_cases st with e | ⟨e, -⟩
    · simp [Stream.isClosing, e]
    · rw [← closing, Stream.isClosing, Stream.isClosing, e]

/-! ### Following -/

theorem State.Follows.stream_none {s t : State} (f : s.Follows t) {h : Handle}
    (hs : s.stream h = none) : t.stream h = none := by
  rw [State.stream, f.vacant h hs]; exact hs

/-- The records and the maps as they were. -/
theorem State.Follows.of_eq {s t : State} (hr : ∀ k, t.record k = s.record k)
    (ht : t.table.tagMap = s.table.tagMap) (hc : t.table.channelMap = s.table.channelMap) :
    s.Follows t := by
  have ho : ∀ h, s.outlives t h = true := fun h => by
    unfold State.outlives State.stream
    rw [hr]
    cases (s.record h).stream <;> rfl
  exact ⟨fun h _ => hr h, fun h x hx => .inl ⟨x, by rw [hr, record_of_stream hx], .refl x⟩,
    by simp [ht, ho], by simp [hc, ho]⟩

/-- The same table. -/
theorem State.Follows.of_table {s t : State} (e : t.table = s.table) : s.Follows t :=
  .of_eq (record_of_table e) (by rw [e]) (by rw [e])

/-- From a state of the same table. -/
theorem State.Follows.after {s t u : State} (f : t.Follows u) (e : t.table = s.table) :
    s.Follows u where
  vacant h hs := by
    rw [f.vacant h (by rw [stream_of_table e, hs]), record_of_table e]
  opened h x hs := by
    simpa only [record_of_table e] using f.opened h x (by rw [stream_of_table e, hs])
  tags := by simp only [f.tags, State.outlives, stream_of_table e, e]
  channels := by simp only [f.channels, State.outlives, stream_of_table e, e]

theorem State.Follows.refl (s : State) : s.Follows s := .of_table rfl

theorem State.Follows.trans {s t u : State} (f : s.Follows t) (g : t.Follows u) : s.Follows u := by
  have ho : ∀ h, (t.outlives u h && s.outlives t h) = s.outlives u h := fun h => by
    unfold State.outlives
    cases hs : s.stream h with
    | none => simp [f.stream_none hs]
    | some x =>
      cases ht : t.stream h with
      | none => simp [g.stream_none ht]
      | some y => simp
  refine ⟨fun h hs => ?_, fun h x hs => ?_, ?_, ?_⟩
  · rw [g.vacant h (f.stream_none hs), f.vacant h hs]
  · rcases f.opened h x hs with ⟨y, hy, xy⟩ | ht
    · rcases g.opened h y (congrArg Record.stream hy) with ⟨z, hz, yz⟩ | hu
      · exact .inl ⟨z, by rw [hz, hy], xy.trans yz⟩
      · exact .inr (by rw [hu, hy])
    · exact .inr (by rw [g.vacant h (congrArg Record.stream ht), ht])
  · rw [g.tags, f.tags, List.filter_filter]; simp only [ho]
  · rw [g.channels, f.channels, List.filter_filter]; simp only [ho]

/-- A walk whose every step follows. -/
theorem State.Follows.foldl {α : Type} {f : State → α → State}
    (hf : ∀ (s : State) (a : α), s.Follows (f s a))
    (l : List α) (s : State) : s.Follows (l.foldl f s) := by
  induction l generalizing s with
  | nil => exact .refl s
  | cons a l ih => exact (hf s a).trans (ih (f s a))

/-- One record goes on, and the maps stay. -/
theorem State.Follows.of_record {s t : State} {h : Handle} {x y : Stream} (hs : s.stream h = some x)
    (xy : x.GoesOn y)
    (hr : ∀ k, t.record k = if k = h then ⟨(s.record h).generation, some y⟩ else s.record k)
    (ht : t.table.tagMap = s.table.tagMap) (hc : t.table.channelMap = s.table.channelMap) :
    s.Follows t := by
  have ho : ∀ k, s.outlives t k = true := fun k => by
    unfold State.outlives State.stream
    rw [hr]
    split
    · simp
    · cases (s.record k).stream <;> rfl
  refine ⟨fun k hk => ?_, fun k z hk => .inl ?_, by simp [ht, ho], by simp [hc, ho]⟩
  · rw [hr, if_neg fun e => by simp [e ▸ hk] at hs]
  · by_cases e : k = h
    · subst e
      obtain rfl : x = z := Option.some.inj (hs.symm.trans hk)
      exact ⟨y, by rw [hr, if_pos rfl], xy⟩
    · exact ⟨z, by rw [hr, if_neg e, record_of_stream hk], .refl z⟩

/-- The record of a handle replaced by one that its stream goes on as. -/
theorem setStream_follows {s : State} {h : Handle} {x y : Stream} (hs : s.stream h = some x)
    (xy : x.GoesOn y) : s.Follows (s.setStream h y) :=
  .of_record hs xy (fun k => by simp) rfl rfl

/-- Parts 1 to 4, 6 and 7 of a retirement follow (R20). -/
theorem vacate_follows (s : State) (h : Handle) : s.Follows (s.vacate h) := by
  cases hs : s.stream h with
  | none => rw [vacate_none hs]; exact .refl s
  | some x =>
    have hr := vacate_record s h
    have ho : ∀ k, s.outlives (s.vacate h) k = decide (k ≠ h) := fun k => by
      unfold State.outlives
      rw [vacate_stream]
      by_cases e : k = h
      · simp [e, hs]
      · cases hk : s.stream k <;> simp [e]
    obtain ⟨ht, hc⟩ := vacate_maps hs
    refine ⟨fun k hk => ?_, fun k z hk => ?_, by simp [ht, ho], by simp [hc, ho]⟩
    · rw [hr, if_neg fun e => by simp [e.1 ▸ hk] at hs]
    · by_cases e : k = h
      · subst e; exact .inr (by rw [hr, if_pos ⟨rfl, by simp [hs]⟩])
      · exact .inl ⟨z, by rw [hr, if_neg fun c => e c.1, record_of_stream hk], .refl z⟩

/-- Retirement follows. -/
theorem retire_follows (s : State) (h : Handle) (c : Bool) : s.Follows (s.retire h c) :=
  (vacate_follows s h).trans (.of_table (retire_table s h c))

/-- The abort of a service follows. -/
theorem abortFlight_follows (s : State) (h : Handle) : s.Follows (s.abortFlight h) := .of_table rfl

/-- A withdrawal follows. -/
theorem withdrawAmendment_follows (s : State) (h : Handle) : s.Follows (s.withdrawAmendment h) := by
  obtain ⟨ht, hc⟩ := withdrawAmendment_maps s h
  have hr := withdrawAmendment_record s h
  cases hs : s.stream h with
  | none =>
    refine .of_eq (fun k => ?_) ht hc
    rw [hr]
    split
    · subst_vars; rw [hs]; exact (record_of_vacant hs).symm
    · rfl
  | some x => exact .of_record hs (goesOn_withdrawn x) (by simpa [hs] using hr) ht hc

/-- A miss follows. -/
theorem miss_follows (s : State) (h : Handle) (c : MissCause) : s.Follows (s.miss h c) := by
  cases hs : s.stream h with
  | none => 
    have e : s.miss h c = s := by unfold State.miss; simp [hs]
    rw [e]; exact .refl s
  | some x =>
    obtain ⟨ht, hc⟩ := miss_maps s h c
    exact .of_record hs (goesOn_missed x) (by simpa [hs] using miss_record s h (c := c)) ht hc

end Sys2Proof.Machine
end

