-- ==== Sys2Proof/Proofs/FollowsClaims.lean ====
section
/-! SUPPORT. Every claim, every cell time and every event of the link follows the records and the
maps. -/

namespace Sys2Proof.Machine

/-! ### Parts of the state that are no table -/

/-- Another link state follows. -/
theorem State.Follows.with_link (s : State) (l : LinkController) : s.Follows { s with link := l } :=
  .of_table rfl

/-- The cutting off of the period follows. -/
theorem cutPeriod_follows (s : State) : s.Follows s.cutPeriod := .of_table rfl

/-! ### Services dropped and completed -/

/-- The TX service in flight dropped. -/
def State.dropTx (s : State) : State := { s with psu := { s.psu with txFlight := none } }

/-- The RX service in flight dropped. -/
def State.dropRx (s : State) : State := { s with psu := { s.psu with rxFlight := none } }

theorem dropTx_follows (s : State) : s.Follows s.dropTx := .of_table rfl

theorem dropRx_follows (s : State) : s.Follows s.dropRx := .of_table rfl

/-- All that the TX completion claim can do (R119): nothing, the service dropped, or its record
completed. -/
theorem takeTxCompletion_cases (s : State) :
    (s.psu.txFlight = none ∧ s.takeTxCompletion = s) ∨
    ∃ f, s.psu.txFlight = some f ∧ (((∀ st, s.stream f.handle = some st →
        (s.record f.handle).generation ≠ f.generation) ∧ s.takeTxCompletion = s.dropTx) ∨
      ∃ st, s.stream f.handle = some st ∧ (s.record f.handle).generation = f.generation ∧
        s.takeTxCompletion = ((s.dropTx.setStream f.handle (st.completeTx f.buffer)).notifyIf
          st.notify.done st.owner (.done f.handle f.generation f.buffer (st.buffer f.buffer).fill
            ⟨false, false⟩)).closeAfterService f.handle) := by
  unfold State.takeTxCompletion
  split
  · exact .inl ⟨‹_›, rfl⟩
  · rename_i f hf
    refine .inr ⟨f, hf, ?_⟩
    dsimp only
    split
    · rename_i hs
      exact .inl ⟨fun st e => (nomatch hs.symm.trans e), rfl⟩
    · rename_i st hs
      split
      · exact .inl ⟨fun _ _ => ‹_›, rfl⟩
      · rename_i hg
        exact .inr ⟨st, hs, not_not.mp hg, rfl⟩

/-- All that the RX completion claim can do (R125, R126): nothing, the service dropped, or its record
completed, damaged or sound. -/
theorem takeRxCompletion_cases (s : State) :
    (s.psu.rxFlight = none ∧ s.takeRxCompletion = s) ∨
    ∃ f, s.psu.rxFlight = some f ∧ (((∀ st, s.stream f.handle = some st →
        (s.record f.handle).generation ≠ f.generation) ∧ s.takeRxCompletion = s.dropRx) ∨
      ∃ st, s.stream f.handle = some st ∧ (s.record f.handle).generation = f.generation ∧
        ((f.damaged = true ∧ s.takeRxCompletion =
          ((s.dropRx.setStream f.handle (st.damageRx f.buffer f.excess)).miss f.handle
            .damaged).closeAfterService f.handle) ∨
        (f.damaged = false ∧ s.takeRxCompletion =
          ((s.dropRx.setStream f.handle (st.completeRx f.buffer f.stored)).notifyIf st.notify.done
            st.owner (.done f.handle f.generation f.buffer f.stored
              (st.policing.addExcess f.excess))).closeAfterService f.handle))) := by
  unfold State.takeRxCompletion
  split
  · exact .inl ⟨‹_›, rfl⟩
  · rename_i f hf
    refine .inr ⟨f, hf, ?_⟩
    dsimp only
    split
    · rename_i hs
      exact .inl ⟨fun st e => (nomatch hs.symm.trans e), rfl⟩
    · rename_i st hs
      split
      · exact .inl ⟨fun _ _ => ‹_›, rfl⟩
      · rename_i hg
        refine .inr ⟨st, hs, not_not.mp hg, ?_⟩
        split
        · exact .inl ⟨‹_›, rfl⟩
        · exact .inr ⟨by simpa using ‹¬f.damaged = true›, rfl⟩

/-- The buffer of the TX service in flight back in LINK (R134, R150). -/
def State.abortTx (s : State) : State :=
  match s.psu.txFlight with
  | some f => s.abortBuffer f.handle f.generation f.buffer
  | none => s

/-- The buffer of the RX service in flight back in LINK (R134, R150). -/
def State.abortRx (s : State) : State :=
  match s.psu.rxFlight with
  | some f => s.abortBuffer f.handle f.generation f.buffer
  | none => s

/-- The abort of the TX service touches records alone. -/
@[simp] theorem abortTx_psu (s : State) : s.abortTx.psu = s.psu := by
  unfold State.abortTx; split <;> simp

/-- The abort of the RX service touches records alone. -/
@[simp] theorem abortRx_psu (s : State) : s.abortRx.psu = s.psu := by
  unfold State.abortRx; split <;> simp

/-- The return of a buffer and the dropping of the TX service do not meet. -/
theorem dropTx_abortBuffer (s : State) (h : Handle) (g : Byte) (n : BufferName) :
    s.dropTx.abortBuffer h g n = (s.abortBuffer h g n).dropTx := by
  have stream : s.dropTx.stream h = s.stream h := rfl
  have record : s.dropTx.record h = s.record h := rfl
  unfold State.abortBuffer
  rw [stream, record]
  split
  · split <;> rfl
  · rfl

/-- The abort of period service: each service's buffer back in LINK and the service dropped, and then the
lists and the standings (R134, R150). -/
theorem abortService_eq (s : State) :
    s.abortService = s.abortTx.dropTx.abortRx.dropRx.dropLists := by
  have rx : s.abortTx.dropTx.psu.rxFlight = s.psu.rxFlight := by simp [State.dropTx]
  unfold State.abortService
  conv_rhs => unfold State.abortRx
  rw [rx]
  cases s.psu.rxFlight with
  | none => rfl
  | some f =>
    dsimp only
    rw [dropTx_abortBuffer]
    rfl

/-! ### Amendments -/

/-- A stream takes a new form by an amendment that is well made for it (R100 to R102). -/
theorem goesOn_reshape {st : Stream} {a : Amendment} (well : st.recordLaw → st.amendmentLaw a) :
    st.GoesOn (st.reshape a.params a.pair) := by
  refine ⟨?_, fun h => ?_⟩
  · unfold Stream.reshape
    split <;> exact ⟨rfl, rfl, rfl, rfl, rfl, rfl⟩
  · obtain ⟨range, policy, -, same, lengths⟩ := well h
    obtain ⟨-, -, -, ea, eb, -⟩ := h
    unfold Stream.reshape
    cases hp : a.pair with
    | none =>
      have count := same.1 hp
      exact ⟨range, policy, runLaw_of_zero rfl, ea.trans count.symm,
        eb.trans count.symm, fun _ e => nomatch e⟩
    | some p =>
      obtain ⟨la, lb⟩ := lengths p hp
      exact ⟨range, policy, runLaw_of_zero rfl, la, lb, fun _ e => nomatch e⟩

/-- A stream holds an amendment that is well made for it (R94). -/
theorem goesOn_hold {st : Stream} {a : Amendment} (well : st.recordLaw → st.amendmentLaw a)
    (hs : st.isClosing = false) : st.GoesOn { st with pending := some a } := by
  refine ⟨⟨rfl, rfl, rfl, rfl, rfl, rfl⟩, fun h => ?_⟩
  have wella := well h
  obtain ⟨range, policy, run, ea, eb, -⟩ := h
  exact ⟨range, policy, run, ea, eb, fun b e => by cases e; exact ⟨wella, hs⟩⟩

/-- A record reshaped is its record with the new form. -/
theorem reshape_record (s : State) (h : Handle) (st : Stream) (x : Params)
    (g : Option (Extent × Extent)) (k : Handle) :
    (s.reshape h st x g).record k =
      if k = h then ⟨(s.record h).generation, some (st.reshape x g)⟩ else s.record k := by
  unfold State.reshape; simp

/-- A record takes a new form by an amendment that is well made for it. -/
theorem reshape_follows {s : State} {h : Handle} {st : Stream} {a : Amendment}
    (hs : s.stream h = some st) (well : st.recordLaw → st.amendmentLaw a) :
    s.Follows (s.reshape h st a.params a.pair) :=
  .of_record hs (goesOn_reshape well) (reshape_record s h st a.params a.pair) rfl rfl

/-- The take-effect of an amendment follows: a pending amendment is well made. -/
theorem takeEffect_follows (m : Period) (s : State) (h : Handle) : s.Follows (s.takeEffect m h) := by
  unfold State.takeEffect
  split
  · split
    · rename_i st hs _ a hp
      split
      · exact (reshape_follows hs fun law => (law.2.2.2.2.2 a hp).1).trans (.of_table rfl)
      · exact .refl s
    · exact .refl s
  · exact .refl s

/-! ### The claims of the Period Service Unit -/

/-- The building of the lists follows. -/
theorem buildLists_follows (s : State) (n : Period) : s.Follows (s.buildLists n) := .of_table rfl

/-- The dropping of the lists follows. -/
theorem dropLists_follows (s : State) : s.Follows s.dropLists := .of_table rfl

/-- The opening of the TX list follows. -/
theorem openList_follows (s : State) : s.Follows s.openList := .of_table s.openList_keeps.1

/-- The starve warnings follow. -/
theorem starveWarning_follows (n : Period) (s : State) (h : Handle) :
    s.Follows (s.starveWarning n h) := .of_table (s.starveWarning_keeps n h).1

/-- Mark processing follows. -/
theorem takeMarkProcessing_follows (s : State) (n : Period) :
    s.Follows (s.takeMarkProcessing n) := by
  have effects := State.Follows.foldl (takeEffect_follows n) handles s
  unfold State.takeMarkProcessing
  dsimp only
  split
  · exact effects.trans ((buildLists_follows _ n).trans
      ((State.Follows.foldl (starveWarning_follows n) handles _).trans (openList_follows _)))
  · exact effects.trans (dropLists_follows _)

/-- The retirement at the end of a service follows. -/
theorem closeAfterService_follows (s : State) (h : Handle) : s.Follows (s.closeAfterService h) := by
  unfold State.closeAfterService
  split
  · split
    · exact retire_follows s h true
    · exact .refl s
  · exact .refl s

/-- A stream with the due buffer in SERVICE goes on. -/
theorem startBurst_follows {s : State} {e : TxEntry} {st : Stream} (hs : s.stream e.handle = some st) :
    s.Follows (s.startBurst e st) := by
  have due := goesOn_setBuffer st st.parity { st.dueBuffer with owner := .service } rfl
  have offset : (st.setBuffer st.parity { st.dueBuffer with owner := .service }).GoesOn
      { st.setBuffer st.parity { st.dueBuffer with owner := .service } with lastSlot := some e.offset } :=
    .of_eq ⟨rfl, rfl, rfl, rfl, rfl, rfl⟩ rfl rfl rfl (.inr ⟨rfl, rfl⟩) (.inr ⟨rfl, rfl⟩)
  exact (setStream_follows hs (due.trans offset)).trans (.of_table rfl)

/-- Cells staged follow. -/
theorem stage_follows (s : State) (cells : List LaneCell) : s.Follows (s.stage cells) := .of_table rfl

/-- A service start follows. -/
theorem takeServiceStart_follows (s : State) (e : TxEntry) : s.Follows (s.takeServiceStart e) := by
  unfold State.takeServiceStart
  split
  · exact stage_follows s _
  · rename_i st hs
    split
    · exact stage_follows s _
    split
    · exact stage_follows s _
    split
    · exact stage_follows s _
    split
    · exact startBurst_follows hs
    · split
      · exact (miss_follows s _ _).trans (stage_follows _ _)
      · exact (retire_follows s _ _).trans (stage_follows _ _)
    · exact stage_follows s _

/-- The turn of an entry follows. -/
theorem startNext_follows (s : State) (e : TxEntry) : s.Follows (s.startNext e) := by
  unfold State.startNext
  dsimp only
  split
  · exact .of_table rfl
  · exact (takeServiceStart_follows _ e).after rfl

/-- The service-start claim follows. -/
theorem takeNextStart_follows (s : State) : s.Follows s.takeNextStart := by
  unfold State.takeNextStart
  split
  · exact startNext_follows s _
  · exact .refl s

/-- A stream whose TX service is completed goes on. -/
theorem goesOn_completeTx (st : Stream) (n : BufferName) : st.GoesOn (st.completeTx n) := by
  refine (goesOn_setBuffer st n { st.buffer n with owner := .host } rfl).trans ?_
  exact .of_eq ⟨rfl, rfl, rfl, rfl, rfl, rfl⟩ rfl rfl rfl
    (.inl (runLaw_of_zero rfl)) (.inr ⟨rfl, rfl⟩)

/-- The TX completion claim follows. -/
theorem takeTxCompletion_follows (s : State) : s.Follows s.takeTxCompletion := by
  rcases takeTxCompletion_cases s with ⟨-, e⟩ | ⟨f, -, ⟨-, e⟩ | ⟨st, hs, -, e⟩⟩ <;> rw [e]
  · exact .refl s
  · exact dropTx_follows s
  · exact (dropTx_follows s).trans ((setStream_follows (s := s.dropTx) hs
      (goesOn_completeTx st f.buffer)).trans
      (.trans (.of_table (State.notifyIf_keeps _ _ _ _).1) (closeAfterService_follows _ _)))

/-- A stream whose due buffer receives a burst goes on. -/
theorem startReceive_follows {s : State} {h : Handle} {st : Stream} (hs : s.stream h = some st)
    (count : Nat) : s.Follows (s.startReceive h st count) :=
  (setStream_follows hs (goesOn_setBuffer st st.parity
    { st.dueBuffer with owner := .service, fill := 0 } rfl)).trans (.of_table rfl)

/-- A standing follows. -/
theorem setStanding_follows (s : State) (h : Handle) (x : Standing) :
    s.Follows (s.setStanding h x) := .of_table rfl

/-- Other policing flags let a stream go on. -/
theorem goesOn_policing (st : Stream) (x : Policing) : st.GoesOn { st with policing := x } :=
  .of_eq ⟨rfl, rfl, rfl, rfl, rfl, rfl⟩ rfl rfl rfl (.inr ⟨rfl, rfl⟩) (.inr ⟨rfl, rfl⟩)

/-- The match claim follows. -/
theorem takeMatch_follows (s : State) (h : Handle) (count : Nat) :
    s.Follows (s.takeMatch h count) := by
  unfold State.takeMatch
  dsimp only
  split
  · exact .refl s
  · rename_i st hs
    split
    · exact .refl s
    split
    · exact .refl s
    split
    · exact .refl s
    split
    · exact setStream_follows hs (goesOn_policing st _)
    split
    · split
      · exact (setStanding_follows s h _).trans (miss_follows _ h _)
      · exact retire_follows s h true
    · exact (setStanding_follows s h .received).trans
        (startReceive_follows (s := s.setStanding h .received) hs count)
    · exact .refl s

/-- A stream whose RX service is completed sound goes on. -/
theorem goesOn_completeRx (st : Stream) (n : BufferName) (stored : Nat) :
    st.GoesOn (st.completeRx n stored) :=
  (goesOn_setBuffer st n { st.buffer n with owner := .host, fill := stored } rfl).trans
    (.of_eq ⟨rfl, rfl, rfl, rfl, rfl, rfl⟩ rfl rfl rfl (.inl (runLaw_of_zero rfl)) (.inr ⟨rfl, rfl⟩))

/-- A stream whose RX service is completed damaged goes on. -/
theorem goesOn_damageRx (st : Stream) (n : BufferName) (excess : Bool) :
    st.GoesOn (st.damageRx n excess) :=
  (goesOn_setBuffer st n { st.buffer n with owner := .link, fill := 0 } rfl).trans
    (goesOn_policing _ _)

/-- The RX completion claim follows. -/
theorem takeRxCompletion_follows (s : State) : s.Follows s.takeRxCompletion := by
  rcases takeRxCompletion_cases s with ⟨-, e⟩ | ⟨f, -, ⟨-, e⟩ | ⟨st, hs, -, ⟨-, e⟩ | ⟨-, e⟩⟩⟩ <;> rw [e]
  · exact .refl s
  · exact dropRx_follows s
  · exact (dropRx_follows s).trans ((setStream_follows (s := s.dropRx) hs
      (goesOn_damageRx st f.buffer f.excess)).trans
      ((miss_follows _ _ _).trans (closeAfterService_follows _ _)))
  · exact (dropRx_follows s).trans ((setStream_follows (s := s.dropRx) hs
      (goesOn_completeRx st f.buffer f.stored)).trans
      (.trans (.of_table (State.notifyIf_keeps _ _ _ _).1) (closeAfterService_follows _ _)))

/-- The period-end decision of a handle follows. -/
theorem decideHandle_follows (s : State) (h : Handle) : s.Follows (s.decideHandle h) := by
  unfold State.decideHandle
  dsimp only
  split
  · exact .refl s
  split
  · exact .refl s
  split
  · exact .refl s
  split
  · exact .refl s
  split
  · exact .refl s
  split
  · split
    · exact miss_follows s h _
    · exact retire_follows s h true
  · exact miss_follows s h _
  · exact .refl s

/-- The period-end claim follows. -/
theorem takePeriodEnd_follows (s : State) : s.Follows s.takePeriodEnd :=
  (State.Follows.foldl decideHandle_follows s.periodEndOrder s).trans (.of_table rfl)

/-! ### The claims of the Link Controller -/

/-- The return of an aborted service's buffer follows. -/
theorem abortBuffer_follows (s : State) (h : Handle) (g : Byte) (n : BufferName) :
    s.Follows (s.abortBuffer h g n) := by
  unfold State.abortBuffer
  split
  · rename_i st hs
    split
    · exact setStream_follows hs (goesOn_setBuffer st n _ rfl)
    · exact .refl s
  · exact .refl s

/-- The abort of the TX service follows. -/
theorem abortTx_follows (s : State) : s.Follows s.abortTx := by
  unfold State.abortTx
  split
  · exact abortBuffer_follows s _ _ _
  · exact .refl s

/-- The abort of the RX service follows. -/
theorem abortRx_follows (s : State) : s.Follows s.abortRx := by
  unfold State.abortRx
  split
  · exact abortBuffer_follows s _ _ _
  · exact .refl s

/-- The abort of period service follows. -/
theorem abortService_follows (s : State) : s.Follows s.abortService := by
  rw [abortService_eq]
  exact (abortTx_follows s).trans ((dropTx_follows _).trans ((abortRx_follows _).trans
    ((dropRx_follows _).trans (dropLists_follows _))))

/-- A stream goes on in another state than LIVE: it enters CLOSING without a pending amendment. -/
theorem goesOn_state {st : Stream} {x : StreamState} (live : x ≠ .live)
    (pend : ∀ a, st.pending = some a → st.isClosing = false →
      ({ st with state := x } : Stream).isClosing = false) : st.GoesOn { st with state := x } := by
  refine ⟨⟨rfl, rfl, rfl, rfl, rfl, rfl⟩, ?_⟩
  rintro ⟨range, policy, ⟨bound, limit, -⟩, ea, eb, law⟩
  exact ⟨range, policy, ⟨bound, limit, fun _ e => absurd e live⟩, ea, eb,
    fun a e => ⟨(law a e).1, pend a e (law a e).2⟩⟩

/-- What leaving UP does to one record follows. -/
theorem departRecord_follows (s : State) (h : Handle) : s.Follows (s.departRecord h) := by
  unfold State.departRecord
  split
  · rename_i st hs
    split
    · split
      · exact (setStream_follows hs (goesOn_state (by simp) fun _ _ _ => rfl)).trans (.of_table rfl)
      · exact .refl s
    · exact retire_follows s h true
    · exact .refl s
  · exact .refl s

/-- A notice to every port follows. -/
theorem notifyAll_follows (s : State) (x : LinkEvent) : s.Follows (s.notifyAll x) :=
  .of_table (s.notifyAll_keeps x).1

/-- Leaving UP follows. -/
theorem leaveUp_follows (s : State) : s.Follows s.leaveUp :=
  (abortService_follows s).trans
    ((State.Follows.foldl departRecord_follows handles _).trans (notifyAll_follows _ _))

/-- The leaving-UP claim follows. -/
theorem takeLeavingUp_follows (s : State) : s.Follows s.takeLeavingUp := by
  unfold State.takeLeavingUp
  split
  · refine (leaveUp_follows s).trans ?_
    dsimp only
    split
    · exact .with_link _ _
    · exact (cutPeriod_follows s.leaveUp).trans (.with_link _ _)
  · exact .refl s

/-! ### The claims taken, and the lane -/

/-- Every claim follows. -/
theorem takeClaim_follows (s : State) (c : Claim) : s.Follows (s.takeClaim c) := by
  cases c with
  | markProcessing n => exact takeMarkProcessing_follows s n
  | serviceStart => exact takeNextStart_follows s
  | txCompletion => exact takeTxCompletion_follows s
  | matchLead h count => exact takeMatch_follows s h count
  | rxCompletion => exact takeRxCompletion_follows s
  | periodEnd => exact takePeriodEnd_follows s
  | leavingUp => exact takeLeavingUp_follows s
  | enteringUp => exact notifyAll_follows s .up
  | slip => exact notifyAll_follows s .slip

/-- The claim at the front taken follows. -/
theorem front_follows (s : State) (c : Claim) (rest : List Claim) :
    s.Follows (State.takeClaim { s with claims := rest } c) :=
  (takeClaim_follows { s with claims := rest } c).after (s := s) rfl

/-- The claims taken follow. -/
theorem settleFor_follows (n : Nat) (s : State) : s.Follows (State.settleFor n s) := by
  induction n generalizing s with
  | zero => exact .refl s
  | succ n ih =>
    unfold State.settleFor
    split
    · exact .refl s
    · rename_i c rest _
      exact (front_follows s c rest).trans (ih _)

/-- The taking of all waiting claims follows. -/
theorem settle_follows (s : State) : s.Follows s.settle := settleFor_follows _ s

/-- Catching up follows. -/
theorem catchUp_follows (s : State) : s.Follows s.catchUp :=
  (settle_follows s).trans
    ((State.Follows.of_table (State.enterUp_keeps _).1).trans (settle_follows _))

/-- The claims taken up to one of a kind follow. -/
theorem through_follows {s t : State} {kind : Claim → Bool} (h : s.through kind = some t) :
    s.Follows t := by
  unfold State.through at h
  generalize 2 * s.claims.length = n at h
  induction n generalizing s with
  | zero => cases h
  | succ n ih =>
    unfold State.takeThroughFor at h
    split at h
    · cases h
    · rename_i c rest _
      dsimp only at h
      split at h
      · cases h; exact front_follows s c rest
      · exact (front_follows s c rest).trans (ih h)

/-- A row that takes a claim follows. -/
theorem takeThrough_follows (s : State) (kind : Claim → Bool) : s.Follows (s.takeThrough kind) := by
  unfold State.takeThrough
  split
  · exact .refl s
  · split
    · cases h : s.through kind with
      | none => exact .refl s
      | some t => exact through_follows h
    · exact .refl s

/-- A cell time follows. -/
theorem cellTime_follows {s t : State} (h : s.cellTime = .next t) : s.Follows t := by
  rcases cellTime_cases h with ⟨-, rfl⟩ | ⟨-, -, h⟩
  · exact .of_table rfl
  · exact (catchUp_follows s).trans (.of_table (State.stageNext_keeps h).1)

/-- The cell times up to a claim follow. -/
theorem passTo_follows {kind : Claim → Bool} {n : Nat} {s t : State}
    (h : s.passTo kind n = .next t) : s.Follows t := by
  induction n generalizing s with
  | zero => cases h; exact .refl _
  | succ n ih =>
    unfold State.passTo at h
    split at h
    · cases h; exact .refl _
    · split at h
      · exact (cellTime_follows ‹_›).trans (ih h)
      · cases h
      · cases h

end Sys2Proof.Machine
end

