-- ==== Sys2Proof/Proofs/FollowsLink.lean ====
section
/-! SUPPORT. The lane's rows and the events of the link follow the records and the maps. -/

namespace Sys2Proof.Machine

/-- A row of the lane follows. -/
theorem takeOfLane_follows {s t : State} {kind : Claim → Bool} {toCome : State → Bool}
    (h : s.takeOfLane kind toCome = .next t) : s.Follows t := by
  unfold State.takeOfLane at h
  split at h
  · cases h; exact through_follows ‹_›
  · dsimp only at h
    split at h
    · split at h
      · rename_i u hu
        cases h
        cases ht : u.through kind with
        | none => exact .refl s
        | some v => exact (catchUp_follows s).trans ((passTo_follows hu).trans (through_follows ht))
      · cases h
      · cases h
    · cases h; exact .refl s

/-- The end of a slot follows. -/
theorem finishSlot_follows (s : State) : s.Follows s.finishSlot :=
  (takeTxCompletion_follows s).trans (.of_table rfl)

/-- The slots that run out follow. -/
theorem runSlots_follows (n : Nat) (s : State) : s.Follows (State.runSlots n s) := by
  induction n generalizing s with
  | zero => exact finishSlot_follows s
  | succ n ih =>
    unfold State.runSlots
    dsimp only
    split
    · exact finishSlot_follows s
    · exact (finishSlot_follows s).trans ((startNext_follows _ _).trans (ih _))

/-- The running out of a transmit period follows. -/
theorem runOut_follows (s : State) : s.Follows s.runOut := runSlots_follows _ s

/-- A claim made follows. -/
theorem makeClaim_follows (s : State) (c : Claim) : s.Follows (s.makeClaim c) := .of_table rfl

/-- A burst cut short follows. -/
theorem cutBurst_follows (s : State) : s.Follows s.cutBurst := .of_table s.cutBurst_keeps.1

/-- The end of a receive period follows. -/
theorem endReceive_follows (s : State) : s.Follows s.endReceive := .of_table s.endReceive_keeps.1

/-- A mark emitted follows. -/
theorem emitMark_follows (s : State) : s.Follows s.emitMark := .of_table s.emitMark_keeps.1

/-- A period settled at the leader follows. -/
theorem settlePeriod_follows (s : State) : s.Follows s.settlePeriod := by
  unfold State.settlePeriod
  dsimp only
  split
  · exact (State.Follows.with_link s _).trans (makeClaim_follows _ _)
  split
  · exact (State.Follows.with_link s _).trans (runOut_follows _)
  · exact .with_link s _

/-- A mark reported follows. -/
theorem reportMark_follows (s : State) (n : Period) : s.Follows (s.reportMark n) :=
  .of_table (s.reportMark_keeps n).1

/-- Either of two states follows. -/
theorem State.Follows.ite {s t u : State} {c : Prop} [Decidable c] (ht : s.Follows t)
    (hu : s.Follows u) : s.Follows (if c then t else u) := by
  split
  · exact ht
  · exact hu

/-- Another state of the lane follows. -/
theorem State.Follows.with_lane (s : State) (l : TransmitLane) : s.Follows { s with lane := l } :=
  .of_table rfl

/-- A mark taken by a follower follows. -/
theorem takeMark_follows (s : State) (m : Period) : s.Follows (s.takeMark m) :=
  (State.Follows.ite (runOut_follows s) (.refl s)).trans
    ((State.Follows.ite (makeClaim_follows _ _) (.refl _)).trans
      ((State.Follows.with_link _ _).trans ((reportMark_follows _ m).trans (.with_lane _ _))))

/-- An echo accepted follows. -/
theorem acceptEcho_follows (s : State) : s.Follows s.acceptEcho := .of_table s.acceptEcho_keeps.1

/-- A cell of type mark follows. -/
theorem receiveMark_follows (s : State) (c : MarkCell) : s.Follows (s.receiveMark c) := by
  unfold State.receiveMark
  split
  · have caught := (catchUp_follows s).trans
      (.with_link s.catchUp { s.catchUp.link with aligned := true })
    dsimp only
    split
    · exact caught.trans (.ite (takeMark_follows _ _) (cutBurst_follows _))
    · exact caught.trans ((cutBurst_follows _).trans (.ite (acceptEcho_follows _) (.refl _)))
  · exact .refl s

/-- All that a payload cell can do to the parts that statements about records and services read: nothing
outside a burst; else the burst moves on, with its completion claim at its end, and bytes may be
stored (R124). -/
theorem receivePayload_cases {s t : State} {data : Payload} {sound : Bool}
    (h : s.receivePayload data sound = .next t) :
    t = s ∨ ∃ f m, s.psu.rxFlight = some f ∧ f.ended = false ∧
      let f' := f.advance (s.psu.rxTable.get f.handle).form.cells sound
      let u := { s with psu := { s.psu with rxFlight := some f' } }
      t = { (if f'.ended then u.makeClaim .rxCompletion else u) with memory := m } := by
  unfold State.receivePayload at h
  split at h
  · cases h; exact .inl rfl
  · rename_i f hf
    split at h
    · cases h; exact .inl rfl
    · rename_i live
      refine .inr ⟨f, ?_⟩
      dsimp only at h ⊢
      split at h
      · cases h
        exact ⟨s.memory, hf, by simpa using live, by split <;> rfl⟩
      · split at h
        · cases h
          exact ⟨_, hf, by simpa using live, rfl⟩
        · cases h

/-- A payload cell follows. -/
theorem receivePayload_follows {s t : State} {data : Payload} {sound : Bool}
    (h : s.receivePayload data sound = .next t) : s.Follows t := by
  rcases receivePayload_cases h with rfl | ⟨f, m, -, -, e⟩
  · exact .refl _
  · rw [e]
    dsimp only
    split
    · exact .of_table rfl
    · exact .of_table rfl

/-- The link turned off follows. -/
theorem turnOff_follows (s : State) : s.Follows s.turnOff := .of_table s.turnOff_keeps.1

/-- DISABLE follows. -/
theorem disable_follows (s : State) : s.Follows s.disable := by
  unfold State.disable
  split
  · exact (leaveUp_follows s).trans (turnOff_follows _)
  · exact turnOff_follows s
  · exact .refl s

/-- ENABLE follows. -/
theorem enable_follows (s : State) : s.Follows s.enable := .of_table s.enable_keeps.1

/-- The role of a LINKCTL follows. -/
theorem applyRole_follows (s : State) (x : Option Role) : s.Follows (s.applyRole x) :=
  .of_table (s.applyRole_keeps x).1

end Sys2Proof.Machine
end

