-- ==== Sys2Proof/Proofs/Requests.lean ====
section
/-! SUPPORT. The handlers of the requests, and all that a request can do: refused, it leaves the state
as it met it; accepted, it does one of a few things. -/

namespace Sys2Proof.Machine

/-! ### The rows that take requests -/

/-- The handlers that the rows of requests run for a port. -/
inductive Handles (p : Port) : (Request → State → Answer) → Prop where
  | unknownRequest : Handles p fun _ t => .ok (refuse t .unknown)
  | openStream : Handles p (openRequest p)
  | start : Handles p fun r t => .ok (startRequest p r t)
  | stop : Handles p fun r t => .ok (stopRequest p r t)
  | close : Handles p fun r t => .ok (closeRequest p r t)
  | amend : Handles p (amendRequest p)
  | withdraw : Handles p fun r t => .ok (withdrawRequest p r t)
  | findByTag : Handles p fun r t => .ok (findByTagRequest p r t)
  | findByChannel : Handles p fun r t => .ok (findByChannelRequest r t)
  | read : Handles p fun r t => .ok (readRequest p r t)
  | put : Handles p (putRequest p)
  | get : Handles p (getRequest p)
  | handover : Handles p fun r t => .ok (handoverRequest p r t)
  | loads : Handles p fun r t => .ok (loadsRequest r t)
  | extents : Handles p fun r t => .ok (extentsRequest r t)
  | poll : Handles p fun r t => .ok (pollRequest p r t)
  | status : Handles p fun r t => .ok (statusRequest p r t)
  | quota : Handles p fun r t => .ok (quotaRequest p r t)
  | linkctlEnable : Handles p fun r t => .ok (linkctlRequest p 1 State.enable r t)
  | linkctlDisable : Handles p fun r t => .ok (linkctlRequest p 2 State.disable r t)
  | purge : Handles p fun r t => .ok (purgeRequest p r t)
  | reset : Handles p fun _ t => .ok (refuse t .denied)

/-- Every row of requests is a grant that runs one of the handlers. -/
theorem requestRow_grants {i : Instr} {p : Port} (h : requestRow i = some p) :
    ∃ takes run, Handles p run ∧ ∀ s, exec i s = s.grant p takes run := by
  cases i <;> simp only [requestRow, Option.some.injEq, reduceCtorEq] at h
  case reset q =>
    split at h
    · cases h
    · cases h
      exact ⟨_, _, .reset, fun s => if_neg ‹_›⟩
  all_goals subst h
  case unknownRequest => exact ⟨_, _, .unknownRequest, fun _ => rfl⟩
  case openStream => exact ⟨_, _, .openStream, fun _ => rfl⟩
  case start => exact ⟨_, _, .start, fun _ => rfl⟩
  case stop => exact ⟨_, _, .stop, fun _ => rfl⟩
  case close => exact ⟨_, _, .close, fun _ => rfl⟩
  case amend => exact ⟨_, _, .amend, fun _ => rfl⟩
  case withdraw => exact ⟨_, _, .withdraw, fun _ => rfl⟩
  case findByTag => exact ⟨_, _, .findByTag, fun _ => rfl⟩
  case findByChannel => exact ⟨_, _, .findByChannel, fun _ => rfl⟩
  case read => exact ⟨_, _, .read, fun _ => rfl⟩
  case put => exact ⟨_, _, .put, fun _ => rfl⟩
  case get => exact ⟨_, _, .get, fun _ => rfl⟩
  case handover => exact ⟨_, _, .handover, fun _ => rfl⟩
  case loads => exact ⟨_, _, .loads, fun _ => rfl⟩
  case extents => exact ⟨_, _, .extents, fun _ => rfl⟩
  case poll => exact ⟨_, _, .poll, fun _ => rfl⟩
  case status => exact ⟨_, _, .status, fun _ => rfl⟩
  case quota => exact ⟨_, _, .quota, fun _ => rfl⟩
  case linkctlEnable => exact ⟨_, _, .linkctlEnable, fun _ => rfl⟩
  case linkctlDisable => exact ⟨_, _, .linkctlDisable, fun _ => rfl⟩
  case purge => exact ⟨_, _, .purge, fun _ => rfl⟩

/-! ### Checks -/

/-- The name check passes exactly for the open record named, under its generation, of the caller's or
where the third step does not apply (R6). -/
theorem nameCheck_ok {s : State} {p : Port} {any : Bool} {x : List Byte} {h : Handle} {st : Stream}
    (e : s.nameCheck p any x = .ok (h, st)) :
    s.Names x h st ∧ (any = true ∨ st.owner = p) := by
  unfold State.nameCheck handleOf at e
  split at e
  · cases e
  · rename_i k hk
    split at hk
    · cases hk
      split at e
      · cases e
      · rename_i hs
        split at e
        · cases e
        · split at e
          · cases e
          · rename_i hg ho
            cases e
            refine ⟨⟨rfl, not_not.mp hg, hs⟩, ?_⟩
            cases any <;> simp_all
    · cases hk

/-- The statuses that the name check refuses with (R6). -/
theorem nameCheck_error {s : State} {p : Port} {any : Bool} {x : List Byte} {y : Status}
    (e : s.nameCheck p any x = .error y) : y.accepts = false := by
  unfold State.nameCheck at e
  split at e
  · cases e; rfl
  · split at e
    · cases e; rfl
    · split at e
      · cases e; rfl
      · split at e
        · cases e; rfl
        · cases e

/-- The name check of a request whose body is a name alone. -/
theorem nameOnly_ok {s : State} {p : Port} {any : Bool} {x : List Byte} {h : Handle} {st : Stream}
    (e : s.nameOnly p any x = .ok (h, st)) : s.stream h = some st := by
  unfold State.nameOnly at e
  split at e
  · exact (nameCheck_ok e).1.2.2
  · cases e

/-- The statuses that refuse a request whose body is a name alone. -/
theorem nameOnly_error {s : State} {p : Port} {any : Bool} {x : List Byte} {y : Status}
    (e : s.nameOnly p any x = .error y) : y.accepts = false := by
  unfold State.nameOnly at e
  split at e
  · exact nameCheck_error e
  · cases e; rfl

/-- The statuses that the admission test refuses with (R33, R34). -/
theorem admission_error {s : State} {p : Port} {d : Direction} {x y : Residues} {r : Reply}
    (e : s.admission p d x y = some r) : r.status.accepts = false := by
  unfold State.admission at e
  split at e
  · cases e; rfl
  · cases ho : s.overload d x y with
    | none => simp [ho] at e
    | some k => simp only [ho, Option.map_some, Option.some.injEq] at e; cases e; rfl

/-- A pair granted has extents of the granules asked for; a pair refused gives NO_SPACE (R51). -/
theorem pair_cases (s : State) (n : Nat) :
    (∃ g, s.pair n = .ok g ∧ g.1.1.length = n ∧ g.1.2.length = n) ∨ s.pair n = .error (s.noSpace n) := by
  unfold State.pair allocatePair
  split
  · rename_i g hg
    refine .inl ⟨g, rfl, ?_⟩
    split at hg
    · cases hg
    · split at hg
      · cases hg
      · cases hg; exact ⟨rfl, rfl⟩
  · exact .inr rfl

/-- A pair taken changes the free list and Stream Memory alone. -/
theorem takePair_ok {s t : State} {g : (Extent × Extent) × List Extent} (e : s.takePair g = .ok t) :
    ∃ m, t = { s with free := g.2, memory := m } := by
  unfold State.takePair at e
  split at e
  · cases e; exact ⟨_, rfl⟩
  · cases e

/-- The parameter ranges do not rest on the miss policy (R67). -/
theorem readParams_inRange (x : List Byte) (m : Option MissPolicy) :
    (readParams x m).inRange = (readParams x none).inRange := rfl

/-- The miss policy is read for a TX record alone (R67). -/
theorem policyFits_read {d : Direction} {x : List Byte}
    (h : d = .tx → (readPolicy x d).isSome = true) :
    policyFits d (readParams x (readPolicy x d)) := by
  cases d with
  | tx => exact Iff.intro (fun _ => rfl) fun _ => h rfl
  | rx => exact Iff.intro (fun e => nomatch e) fun e => nomatch e

/-- The arguments of an OPEN that passes its check are in range (R67). -/
theorem readOpen_range {x : List Byte} {a : OpenArgs} (e : readOpen x = some a) :
    a.params.inRange = true ∧ policyFits a.direction a.params := by
  unfold readOpen at e
  split at e
  · split at e
    · rename_i c
      cases e
      exact ⟨c.2.1, policyFits_read c.2.2⟩
    · cases e
  · cases e

/-- What the tests of an OPEN found (R68): a VACANT handle, no clash in the maps, and a pair of the
granules its cells need; or the refusal. -/
theorem openTests_cases (s : State) (p : Port) (a : OpenArgs) :
    (∃ h g, s.openTests p a = .ok (h, g) ∧ s.stream h = none ∧ s.tagHolder p a.tag = none ∧
      s.findChannel a.direction a.channel = none ∧ g.1.1.length = granulesFor a.params.cells ∧
      g.1.2.length = granulesFor a.params.cells) ∨
    ∃ r, s.openTests p a = .error r ∧ r.status.accepts = false := by
  unfold State.openTests
  split
  · exact .inr ⟨_, rfl, rfl⟩
  · rename_i h hv
    split
    · exact .inr ⟨_, rfl, rfl⟩
    · split
      · exact .inr ⟨_, rfl, rfl⟩
      · rename_i ht hc
        split
        · exact .inr ⟨_, rfl, admission_error ‹_›⟩
        · rcases pair_cases s (granulesFor a.params.cells) with ⟨g, hg, la, lb⟩ | hg
          · refine .inl ⟨h, g, by rw [hg]; rfl, ?_, ht, by simpa using hc, la, lb⟩
            simpa using List.find?_some hv
          · exact .inr ⟨_, by rw [hg]; rfl, rfl⟩

/-- The parameters of an AMEND that passes its check are in range (R90). -/
theorem readAmend_range {x : List Byte} {e : EffectivePoint} (h : readAmend x = some e) :
    (readParams x none).inRange = true := by
  unfold readAmend at h
  split at h
  · exact ‹_ ∧ _›.2
  · cases h

/-- The pair of an amendment is there exactly when the granule count differs, and of the new count (R93);
or it cannot be granted. -/
theorem amendPair_cases (s : State) (st : Stream) (new : Params) :
    (∃ g, s.amendPair st new = .ok g ∧
      (g.map Prod.fst = none ↔ granulesFor new.cells = granulesFor st.params.cells) ∧
      ∀ p, g.map Prod.fst = some p →
        p.1.length = granulesFor new.cells ∧ p.2.length = granulesFor new.cells) ∨
    s.amendPair st new = .error (s.noSpace (granulesFor new.cells)) := by
  unfold State.amendPair
  split
  · exact .inl ⟨none, rfl, by simpa using ‹_›, fun p e => nomatch e⟩
  · rename_i differs
    rcases pair_cases s (granulesFor new.cells) with ⟨g, hg, la, lb⟩ | hg
    · refine .inl ⟨some g, by rw [hg]; rfl, by simpa using differs, fun p e => ?_⟩
      cases e
      exact ⟨la, lb⟩
    · exact .inr (by rw [hg]; rfl)

/-- What the tests of an AMEND found (R91): an amendment that is well made for the record, which is not
in CLOSING, and LIVE or with no buffer in SERVICE; or the refusal. -/
theorem amendTests_cases {s : State} {st : Stream} {x : List Byte} {point : EffectivePoint}
    (range : (readParams x none).inRange = true) :
    (∃ new g, s.amendTests st x point = .ok (new, g) ∧
      st.amendmentLaw ⟨new, point, g.map Prod.fst, contribution st.params⟩ ∧
      st.isClosing = false ∧ (st.state = .live ∨ st.hasOwner .service = false)) ∨
    ∃ r, s.amendTests st x point = .error r ∧ r.status.accepts = false := by
  unfold State.amendTests
  split
  · exact .inr ⟨_, rfl, rfl⟩
  all_goals
    rename_i hstate
    have closing : st.isClosing = false := by simp [Stream.isClosing, hstate]
    split
    · exact .inr ⟨_, rfl, rfl⟩
    split
    · exact .inr ⟨_, rfl, rfl⟩
    split
    · exact .inr ⟨_, rfl, rfl⟩
    split
    · exact .inr ⟨_, rfl, rfl⟩
    rename_i policy owner _
    dsimp only
    split
    · exact .inr ⟨_, rfl, admission_error ‹_›⟩
    rcases amendPair_cases s st (readParams x (readPolicy x st.direction)) with
      ⟨g, hg, same, lengths⟩ | hg
    · refine .inl ⟨readParams x (readPolicy x st.direction), g, by rw [hg]; rfl,
        ⟨(readParams_inRange x _).trans range, policyFits_read fun d => ?_, rfl, same, lengths⟩,
        closing, ?_⟩
      · rw [d, Option.isSome_iff_ne_none]
        exact fun e => policy ⟨d, e⟩
      · exact or_iff_not_imp_left.mpr fun live => Bool.not_eq_true _ ▸ fun e => owner ⟨live, e⟩
    · exact .inr ⟨_, by rw [hg]; rfl, rfl⟩

/-! ### All that a request can do -/

/-- What a request that is accepted does to the state it meets (chapters 1 to 5 and 10). -/
inductive RequestEffect (s : State) : State → Prop where
  /-- the requests that only read -/
  | read : RequestEffect s s
  | put (m : List Host.Cell) : RequestEffect s { s with memory := m }
  | poll (p : Port) (q : NoticeQueue) : RequestEffect s (s.setNotices p q)
  | quota (n : Port) (d : Direction) (q : Nat) : RequestEffect s (s.setQuota n d q)
  | openStream (p : Port) (a : OpenArgs) (h : Handle) (pair : Extent × Extent) (free : List Extent)
      (m : List Host.Cell) (vacant : s.stream h = none) (tag : s.tagHolder p a.tag = none)
      (channel : s.findChannel a.direction a.channel = none)
      (range : a.params.inRange = true ∧ policyFits a.direction a.params)
      (lengths : pair.1.length = granulesFor a.params.cells ∧
        pair.2.length = granulesFor a.params.cells) :
      RequestEffect s (State.enter { s with free := free, memory := m } p a h pair)
  | start (h : Handle) (st : Stream) (hs : s.stream h = some st) :
      RequestEffect s ((s.leaveLists h).setStream h { st with state := .live, missRun := 0 })
  | stop (h : Handle) (st : Stream) (hs : s.stream h = some st) :
      RequestEffect s (s.setStream h { st with state := .standby })
  | withdraw (h : Handle) : RequestEffect s (s.withdrawAmendment h)
  | handover (h : Handle) (st : Stream) (n : BufferName) (fill : Nat) (hs : s.stream h = some st)
      (host : (st.buffer n).owner = .host) (fits : fill ≤ st.params.cells) :
      RequestEffect s (s.setStream h (st.setBuffer n ⟨(st.buffer n).extent, .link, fill⟩))
  /-- a CLOSE that does not wait -/
  | close (h : Handle) (st : Stream) (hs : s.stream h = some st)
      (free : st.hasOwner .service = false ∨ s.link.state ≠ .up) :
      RequestEffect s ((s.withdrawAmendment h).retire h false)
  /-- a CLOSE that waits, in the mode it gives -/
  | closing (h : Handle) (st : Stream) (m : CloseMode) (hs : s.stream h = some st) :
      RequestEffect s ((s.withdrawAmendment h).setStream h { st.withdrawn with state := .closing m })
  /-- a CLOSE in mode DRAIN that waits, of a record that is not LIVE -/
  | draining (h : Handle) (st : Stream) (hs : s.stream h = some st) :
      RequestEffect s (((s.withdrawAmendment h).leaveLists h).setStream h
        { st.withdrawn with state := .closing .drain })
  /-- a CLOSE in mode IMMEDIATE of a record that drains -/
  | upgrade (h : Handle) (st : Stream) (hs : s.stream h = some st)
      (closing : st.isClosing = true) :
      RequestEffect s (s.setStream h { st with state := .closing .immediate })
  /-- such a CLOSE that does not wait -/
  | closeDraining (h : Handle) (st : Stream) (hs : s.stream h = some st)
      (free : st.hasOwner .service = false) : RequestEffect s (s.retire h false)
  | closeForced (h : Handle) : RequestEffect s (s.forceRetire h)
  /-- an AMEND of a LIVE record -/
  | hold (h : Handle) (st : Stream) (a : Amendment) (free : List Extent) (m : List Host.Cell)
      (hs : s.stream h = some st) (well : st.amendmentLaw a) (closing : st.isClosing = false) :
      RequestEffect s (({ s with free := free, memory := m } : State).holdAmendment h st a.params
        a.point a.pair)
  /-- an AMEND of a record that is not LIVE -/
  | reshape (h : Handle) (st : Stream) (a : Amendment) (free : List Extent) (m : List Host.Cell)
      (hs : s.stream h = some st) (well : st.amendmentLaw a)
      (idle : st.hasOwner .service = false) :
      RequestEffect s (({ s with free := free, memory := m } : State).reshape h st a.params a.pair)
  | enable (role : Option Role) (off : role.isSome = true → s.link.state = .off) :
      RequestEffect s (s.applyRole role).enable
  | disable (role : Option Role) (off : role.isSome = true → s.link.state = .off) :
      RequestEffect s (s.applyRole role).disable
  | purge (p n : Port) (self : Bool) (r : Request) :
      RequestEffect s ((s.purge n self).keepAccepted p self r)

/-- A request answered: refused with the state as it was, or accepted with one of the effects. -/
def State.Answers (s : State) (x : State × Reply) : Prop :=
  (x.2.status.accepts = false ∧ x.1 = s) ∨ (x.2.status.accepts = true ∧ RequestEffect s x.1)

/-- A refusal. -/
theorem answers_refused {s : State} {r : Reply} (h : r.status.accepts = false) : s.Answers (s, r) :=
  .inl ⟨h, rfl⟩

/-- An acceptance. -/
theorem answers_accepted {s t : State} {r : Reply} (e : RequestEffect s t)
    (h : r.status.accepts = true) : s.Answers (t, r) := .inr ⟨h, e⟩

theorem openRequest_answers {p : Port} {r : Request} {s : State} {x : State × Reply}
    (e : openRequest p r s = .ok x) : s.Answers x := by
  unfold openRequest at e
  split at e
  · cases e; exact answers_refused rfl
  · rename_i a ha
    rcases openTests_cases s p a with ⟨h, g, hg, vacant, tag, channel, lengths⟩ | ⟨reply, hr, refused⟩
    · rw [hg] at e
      dsimp only at e
      split at e
      · cases e
      · rename_i t ht
        obtain ⟨m, rfl⟩ := takePair_ok ht
        cases e
        exact answers_accepted (.openStream p a h _ _ m vacant tag channel (readOpen_range ha) lengths)
          rfl
    · rw [hr] at e
      cases e
      exact answers_refused refused

theorem startRequest_answers (p : Port) (r : Request) (s : State) :
    s.Answers (startRequest p r s) := by
  unfold startRequest
  split
  · exact answers_refused (nameOnly_error ‹_›)
  · rename_i h st e
    have hs := nameOnly_ok e
    split
    · exact answers_accepted (.start h st hs) rfl
    · exact answers_accepted (.start h st hs) rfl
    · exact answers_refused rfl
    · exact answers_refused rfl

theorem stopRequest_answers (p : Port) (r : Request) (s : State) :
    s.Answers (stopRequest p r s) := by
  unfold stopRequest
  split
  · exact answers_refused (nameOnly_error ‹_›)
  · rename_i h st e
    have hs := nameOnly_ok e
    split
    · exact answers_accepted (.stop h st hs) rfl
    · exact answers_accepted (.stop h st hs) rfl
    · exact answers_refused rfl
    · exact answers_refused rfl

/-- A CLOSE that does not wait finds no buffer in SERVICE, or the link not UP (R79, R80). -/
theorem closeWaits_false {s : State} {st : Stream} {m : CloseMode} (e : ¬s.closeWaits st m = true) :
    st.hasOwner .service = false ∨ s.link.state ≠ .up := by
  cases m with
  | immediate => exact .inl (by simpa [State.closeWaits] using e)
  | drain =>
    by_cases up : s.link.state = .up
    · simp only [State.closeWaits, up, decide_true, Bool.true_and, Bool.or_eq_true, not_or] at e
      exact .inl (by simpa using e.1)
    · exact .inr up

theorem closeOpen_answers {s : State} {h : Handle} {st : Stream} (m : CloseMode)
    (hs : s.stream h = some st) : s.Answers (s.closeOpen h st m) := by
  unfold State.closeOpen
  dsimp only
  split
  · split
    · rename_i c
      rw [c.1]
      exact answers_accepted (.draining h st hs) rfl
    · exact answers_accepted (.closing h st m hs) rfl
  · rename_i waits
    exact answers_accepted (.close h st hs (by simpa using closeWaits_false waits)) rfl

theorem closeAgain_answers {s : State} {h : Handle} {st : Stream} {old : CloseMode} (m : CloseMode)
    (hs : s.stream h = some st) (hc : st.state = .closing old) :
    s.Answers (s.closeAgain h st old m) := by
  unfold State.closeAgain
  split
  · split
    · exact answers_accepted (.upgrade h st hs (by simp [Stream.isClosing, hc])) rfl
    · rename_i free
      exact answers_accepted (.closeDraining h st hs (by simpa using free)) rfl
  · exact answers_refused rfl

theorem closeRequest_answers (p : Port) (r : Request) (s : State) :
    s.Answers (closeRequest p r s) := by
  unfold closeRequest
  split
  · exact answers_refused rfl
  · rename_i m _
    split
    · exact answers_refused (nameCheck_error ‹_›)
    · rename_i h st e
      have hs := (nameCheck_ok e).1.2.2
      split
      · exact answers_accepted (.closeForced h) rfl
      · split
        · exact closeAgain_answers m hs ‹_›
        · exact closeOpen_answers m hs
        · exact closeOpen_answers m hs
        · exact closeOpen_answers m hs

/-- The pair of an amendment taken changes the free list and Stream Memory alone. -/
theorem takeAmendPair_ok {s t : State} {g : Option ((Extent × Extent) × List Extent)}
    (e : s.takeAmendPair g = .ok t) : ∃ free m, t = { s with free := free, memory := m } := by
  cases g with
  | none => cases e; exact ⟨s.free, s.memory, rfl⟩
  | some g =>
    obtain ⟨m, h⟩ := takePair_ok (s := s) (g := g) e
    exact ⟨g.2, m, h⟩

/-- An amendment whose tests passed is held on a LIVE record, and carried through on another (R94,
R105). -/
theorem amend_answers {s : State} {h : Handle} {st : Stream} {new : Params} {point : EffectivePoint}
    {pair : Option (Extent × Extent)} (free : List Extent) (m : List Host.Cell)
    (hs : s.stream h = some st)
    (well : st.amendmentLaw ⟨new, point, pair, contribution st.params⟩)
    (closing : st.isClosing = false) (live : st.state = .live ∨ st.hasOwner .service = false) :
    s.Answers (({ s with free := free, memory := m } : State).amend h st new point pair) := by
  unfold State.amend
  split
  · exact answers_accepted (.hold h st ⟨new, point, pair, contribution st.params⟩ free m hs well closing) rfl
  · exact answers_accepted (.reshape h st ⟨new, point, pair, contribution st.params⟩ free m hs well
      (live.resolve_left ‹_›)) rfl

theorem amendRequest_answers {p : Port} {r : Request} {s : State} {x : State × Reply}
    (e : amendRequest p r s = .ok x) : s.Answers x := by
  unfold amendRequest at e
  split at e
  · cases e; exact answers_refused rfl
  · rename_i point hpoint
    split at e
    · cases e; exact answers_refused (nameCheck_error ‹_›)
    · rename_i h st hn
      have hs := (nameCheck_ok hn).1.2.2
      rcases amendTests_cases (s := s) (st := st) (point := point) (readAmend_range hpoint) with
        ⟨new, g, hg, well, closing, live⟩ | ⟨reply, hr, refused⟩
      · rw [hg] at e
        dsimp only at e
        split at e
        · cases e
        · rename_i t ht
          obtain ⟨free, m, rfl⟩ := takeAmendPair_ok ht
          cases e
          exact amend_answers free m hs well closing live
      · rw [hr] at e
        cases e
        exact answers_refused refused

theorem withdrawRequest_answers (p : Port) (r : Request) (s : State) :
    s.Answers (withdrawRequest p r s) := by
  unfold withdrawRequest
  split
  · exact answers_refused (nameOnly_error ‹_›)
  · split
    · exact answers_refused rfl
    · exact answers_accepted (.withdraw _) rfl

theorem putRequest_answers {p : Port} {r : Request} {s : State} {x : State × Reply}
    (e : putRequest p r s = .ok x) : s.Answers x := by
  unfold putRequest at e
  split at e
  · cases e; exact answers_refused rfl
  split at e
  · cases e; exact answers_refused (nameCheck_error ‹_›)
  split at e
  · cases e; exact answers_refused rfl
  split at e
  · cases e; exact answers_refused rfl
  split at e
  · cases e; exact answers_refused rfl
  split at e
  · cases e; exact answers_accepted (.put _) rfl
  · cases e

theorem getRequest_answers {p : Port} {r : Request} {s : State} {x : State × Reply}
    (e : getRequest p r s = .ok x) : s.Answers x := by
  unfold getRequest at e
  split at e
  · cases e; exact answers_refused rfl
  split at e
  · cases e; exact answers_refused (nameCheck_error ‹_›)
  split at e
  · cases e; exact answers_refused rfl
  split at e
  · cases e; exact answers_refused rfl
  split at e
  · cases e; exact answers_accepted .read rfl
  · cases e

/-- The fill that a HANDOVER gives is within the record's cells: none to an RX record (R59). -/
theorem handover_fill {st : Stream} {fill : Nat} (rx : ¬(st.direction = .rx ∧ fill ≠ 0))
    (tx : ¬(st.direction = .tx ∧ (fill = 0 ∨ st.params.cells < fill))) : fill ≤ st.params.cells := by
  cases hd : st.direction <;> simp only [hd] at rx tx <;> simp at rx tx <;> omega

theorem handoverRequest_answers (p : Port) (r : Request) (s : State) :
    s.Answers (handoverRequest p r s) := by
  unfold handoverRequest
  split
  · exact answers_refused rfl
  · rename_i n fill _
    split
    · exact answers_refused (nameCheck_error ‹_›)
    · rename_i h st e
      have hs := (nameCheck_ok e).1.2.2
      split
      · exact answers_refused rfl
      all_goals
        split
        · exact answers_refused rfl
        split
        · exact answers_refused rfl
        split
        · exact answers_refused rfl
        · rename_i rx host tx
          exact answers_accepted (.handover h st n fill hs (not_not.mp host) (handover_fill rx tx)) rfl

theorem quotaRequest_answers (p : Port) (r : Request) (s : State) :
    s.Answers (quotaRequest p r s) := by
  unfold quotaRequest
  split
  · exact answers_refused rfl
  · split
    · exact answers_refused rfl
    · exact answers_accepted (.quota _ _ _) rfl

/-- A LINKCTL answered: where a role is given the link is OFF (R152). -/
theorem linkctlRequest_answers (p : Port) (action : Byte) {act : State → State} (r : Request)
    (s : State) (accepted : ∀ role : Option Role, (role.isSome = true → s.link.state = .off) →
      RequestEffect s (act (s.applyRole role))) :
    s.Answers (linkctlRequest p action act r s) := by
  unfold linkctlRequest
  split
  · exact answers_refused rfl
  · split
    · exact answers_refused rfl
    · split
      · exact answers_refused rfl
      · rename_i off
        exact answers_accepted (accepted _ fun some => not_not.mp fun e => off ⟨some, e⟩) rfl

theorem purgeRequest_answers (p : Port) (r : Request) (s : State) :
    s.Answers (purgeRequest p r s) := by
  unfold purgeRequest
  split
  · exact answers_refused rfl
  · split
    · exact answers_refused rfl
    · exact answers_accepted (.purge p _ _ r) rfl

/-- Whatever a row of requests runs answers the request: refused with the state as it was, or accepted
with one of the effects. -/
theorem Handles.answers {p : Port} {run : Request → State → Answer} (hr : Handles p run)
    {r : Request} {s : State} {x : State × Reply} (e : run r s = .ok x) : s.Answers x := by
  cases hr with
  | unknownRequest => cases e; exact answers_refused rfl
  | openStream => exact openRequest_answers e
  | start => cases e; exact startRequest_answers p r s
  | stop => cases e; exact stopRequest_answers p r s
  | close => cases e; exact closeRequest_answers p r s
  | amend => exact amendRequest_answers e
  | withdraw => cases e; exact withdrawRequest_answers p r s
  | findByTag =>
    cases e
    unfold findByTagRequest
    split
    · exact answers_refused rfl
    · unfold State.found
      split
      · exact answers_accepted .read rfl
      · exact answers_refused rfl
  | findByChannel =>
    cases e
    unfold findByChannelRequest
    split
    · exact answers_refused rfl
    · split
      · exact answers_refused rfl
      · unfold State.found
        split
        · exact answers_accepted .read rfl
        · exact answers_refused rfl
  | read =>
    cases e
    unfold readRequest
    split
    · exact answers_refused (nameOnly_error ‹_›)
    · exact answers_accepted .read rfl
  | put => exact putRequest_answers e
  | get => exact getRequest_answers e
  | handover => cases e; exact handoverRequest_answers p r s
  | loads =>
    cases e
    unfold loadsRequest
    split
    · exact answers_refused rfl
    · split
      · exact answers_refused rfl
      · exact answers_accepted .read rfl
  | extents =>
    cases e
    unfold extentsRequest
    split
    · exact answers_refused rfl
    · exact answers_accepted .read rfl
  | poll =>
    cases e
    unfold pollRequest
    split
    · exact answers_refused rfl
    · exact answers_accepted (.poll p _) rfl
  | status =>
    cases e
    unfold statusRequest
    split
    · exact answers_refused rfl
    · exact answers_accepted .read rfl
  | quota => cases e; exact quotaRequest_answers p r s
  | linkctlEnable => cases e; exact linkctlRequest_answers p 1 r s fun role off => .enable role off
  | linkctlDisable => cases e; exact linkctlRequest_answers p 2 r s fun role off => .disable role off
  | purge => cases e; exact purgeRequest_answers p r s
  | reset => cases e; exact answers_refused rfl

end Sys2Proof.Machine
end

