-- ==== Sys2Proof/Proofs/Moves.lean ====
section
/-! SUPPORT. What a step can do to the records and the maps: they follow, or a record is opened behind
claims that follow, or every record is VACANT by a reset. -/

namespace Sys2Proof.Machine

/-! ### Records opened -/

/-- A record is opened: a VACANT one gets a lawful stream, under its generation, with its entries at the
ends of the maps, where nothing has its keys (R9, R10, R69). -/
structure State.Opens (s t : State) (h : Handle) (st : Stream) : Prop where
  vacant : s.stream h = none
  record : ∀ k, t.record k = if k = h then ⟨(s.record h).generation, some st⟩ else s.record k
  law : st.recordLaw
  tags : t.table.tagMap =
    if st.tag = 0 then s.table.tagMap else s.table.tagMap ++ [⟨st.owner, st.tag, h⟩]
  channels : t.table.channelMap = s.table.channelMap ++ [⟨st.direction, st.channel, h⟩]
  tagFree : st.tag ≠ 0 → ∀ e ∈ s.table.tagMap, ¬(e.port = st.owner ∧ e.tag = st.tag)
  channelFree : ∀ e ∈ s.table.channelMap, ¬(e.direction = st.direction ∧ e.channel = st.channel)

theorem State.Opens.stream {s t : State} {h : Handle} {st : Stream} (o : s.Opens t h st)
    (k : Handle) : t.stream k = if k = h then some st else s.stream k := by
  rw [State.stream, o.record]
  split <;> rfl

/-- A tag that no other record of the port has is in no entry of the tag map (R68). -/
theorem tagHolder_none {s : State} {p : Port} {tag : BitVec 32} (h : s.tagHolder p tag = none)
    (nonzero : tag ≠ 0) : ∀ e ∈ s.table.tagMap, ¬(e.port = p ∧ e.tag = tag) := by
  intro e he
  simp only [State.tagHolder, if_neg nonzero, State.findTag, Option.map_eq_none_iff,
    List.find?_eq_none, Bool.and_eq_true, decide_eq_true_eq] at h
  exact h e he

/-- A channel that no record of the direction has is in no entry of the channel map (R68). -/
theorem findChannel_none {s : State} {d : Direction} {c : Byte} (h : s.findChannel d c = none) :
    ∀ e ∈ s.table.channelMap, ¬(e.direction = d ∧ e.channel = c) := by
  intro e he
  simp only [State.findChannel, Option.map_eq_none_iff, List.find?_eq_none, Bool.and_eq_true,
    decide_eq_true_eq] at h
  exact h e he

/-- The fields of a newly opened record are lawful. -/
theorem open_recordLaw {a : OpenArgs} (p : Port) {pair : Extent × Extent}
    (range : a.params.inRange = true ∧ policyFits a.direction a.params)
    (lengths : pair.1.length = granulesFor a.params.cells ∧
      pair.2.length = granulesFor a.params.cells) : (a.stream p pair).recordLaw :=
  ⟨range.1, range.2, runLaw_of_zero rfl, lengths.1, lengths.2, fun _ e => nomatch e⟩

/-! ### Requests -/

/-- The state of a PURGE with its records retired and nothing else done. -/
def State.purgeRecords (s : State) (n : Port) (self : Bool) : State :=
  (s.ownedBy n).foldl State.purgeRecord (s.setPort n ((s.port n).purgeRequests self))

/-- A PURGE touches nothing but its records, the notices and the ports. -/
theorem purge_eq (s : State) (n : Port) (self : Bool) :
    s.purge n self = { s.purgeRecords n self with
      notices := (s.purge n self).notices, ports := (s.purge n self).ports } := rfl

theorem purge_follows (s : State) (n : Port) (self : Bool) : s.Follows (s.purge n self) := by
  have records : s.Follows (s.purgeRecords n self) :=
    (State.Follows.foldl (fun t h => (abortFlight_follows t h).trans (vacate_follows _ h))
      (s.ownedBy n) (s.setPort n ((s.port n).purgeRequests self))).after (s := s) rfl
  rw [purge_eq]
  exact records.trans (.of_table rfl)

theorem keepAccepted_follows (s : State) (p : Port) (self : Bool) (r : Request) :
    s.Follows (s.keepAccepted p self r) := by
  unfold State.keepAccepted
  split
  · exact .of_table rfl
  · exact .refl s

/-- An OPEN gives the VACANT record its stream, under its generation (R69). -/
theorem enter_record (s : State) (p : Port) (a : OpenArgs) (h : Handle) (pair : Extent × Extent)
    (k : Handle) : (s.enter p a h pair).record k =
      if k = h then ⟨(s.record h).generation, some (a.stream p pair)⟩ else s.record k := by
  simp [State.enter]

/-- An AMEND of a LIVE record leaves it pending (R94). -/
theorem holdAmendment_record (s : State) (h : Handle) (st : Stream) (new : Params)
    (point : EffectivePoint) (pair : Option (Extent × Extent)) (k : Handle) :
    (s.holdAmendment h st new point pair).record k =
      if k = h then ⟨(s.record h).generation,
        some { st with pending := some ⟨new, point, pair, contribution st.params⟩ }⟩
      else s.record k := by
  simp [State.holdAmendment]

/-- The accepted requests but OPEN follow the records and the maps; OPEN opens a record. -/
theorem RequestEffect.records {s t : State} (e : RequestEffect s t) :
    s.Follows t ∨ ∃ h st, s.Opens t h st := by
  cases e with
  | openStream p a h pair free m vacant tag channel range lengths =>
    exact .inr ⟨h, a.stream p pair, vacant, enter_record { s with free := free, memory := m } p a h pair,
      open_recordLaw p range lengths, rfl, rfl, tagHolder_none tag, findChannel_none channel⟩
  | read => exact .inl (.refl s)
  | put => exact .inl (.of_table rfl)
  | poll => exact .inl (.of_table rfl)
  | quota => exact .inl (.of_eq (fun _ => rfl) rfl rfl)
  | start h st hs =>
    refine .inl (State.Follows.after (setStream_follows (s := s.leaveLists h) hs ⟨?_, ?_⟩) rfl)
    · exact ⟨rfl, rfl, rfl, rfl, rfl, rfl⟩
    · rintro ⟨range, policy, -, ea, eb, pend⟩
      exact ⟨range, policy, runLaw_of_zero rfl, ea, eb, fun a e => ⟨(pend a e).1, rfl⟩⟩
  | stop h st hs => exact .inl (setStream_follows hs (goesOn_state (by simp) fun _ _ _ => rfl))
  | withdraw h => exact .inl (withdrawAmendment_follows s h)
  | handover h st n fill hs => exact .inl (setStream_follows hs (goesOn_setBuffer st n _ rfl))
  | close h =>
    exact .inl ((withdrawAmendment_follows s h).trans (retire_follows _ h false))
  | closing h st m hs =>
    refine .inl ((withdrawAmendment_follows s h).trans
      (setStream_follows (x := st.withdrawn) ?_ (goesOn_state (by simp) fun _ e => nomatch e)))
    simp [withdrawAmendment_stream, hs, Stream.withdrawn]
  | draining h st hs =>
    refine .inl ((withdrawAmendment_follows s h).trans (State.Follows.after
      (setStream_follows (x := st.withdrawn) ?_ (goesOn_state (by simp) fun _ e => nomatch e)) rfl))
    simp [withdrawAmendment_stream, hs, Stream.withdrawn]
  | upgrade h st hs closing =>
    refine .inl (setStream_follows hs (goesOn_state (by simp) fun _ _ e => ?_))
    rw [closing] at e; cases e
  | closeDraining h => exact .inl (retire_follows s h false)
  | closeForced h => exact .inl ((abortFlight_follows s h).trans (retire_follows _ h true))
  | hold h st a free m hs well closing =>
    have he : a = ⟨a.params, a.point, a.pair, contribution st.params⟩ := by rw [← well.2.2.1]
    refine .inl (.of_record hs (goesOn_hold (a := a) (fun _ => well) closing) (fun k => ?_) rfl rfl)
    rw [he]
    exact holdAmendment_record { s with free := free, memory := m } h st a.params a.point a.pair k
  | reshape h st a free m hs well =>
    exact .inl (State.Follows.after (reshape_follows hs fun _ => well) rfl)
  | enable role => exact .inl ((applyRole_follows s role).trans (enable_follows _))
  | disable role => exact .inl ((applyRole_follows s role).trans (disable_follows _))
  | purge p n self r =>
    exact .inl ((purge_follows s n self).trans (keepAccepted_follows _ p self r))

end Sys2Proof.Machine
end

