-- ==== Sys2Proof/Proofs/StepMoves.lean ====
section
/-! SUPPORT. What a step can do to the records and the maps. -/

namespace Sys2Proof.Machine

/-- Every record VACANT and the maps empty, as a reset leaves them (R24). -/
structure State.Blank (t : State) : Prop where
  vacant : ∀ h, t.stream h = none
  tags : t.table.tagMap = []
  channels : t.table.channelMap = []

/-- The records and the maps follow, or a record is opened behind claims that follow, or a reset leaves
every record VACANT. -/
def State.Moves (s t : State) : Prop :=
  s.Follows t ∨ (∃ u h st, s.Follows u ∧ u.Opens t h st) ∨ t.Blank

/-- A record of the table after reset. -/
theorem reset_record (h : Handle) : Table.reset.records.get h = ⟨0, none⟩ := by
  simp [Table.reset, Vector.get]

/-- A state of the table after reset is blank. -/
theorem blank_of_table {t : State} (e : t.table = .reset) : t.Blank where
  vacant h := by rw [State.stream, State.record, e, reset_record]
  tags := by rw [e]; rfl
  channels := by rw [e]; rfl

/-- Only the answer to a request granted changes with it: its port. -/
theorem grant_moves {s t : State} {p : Port} {takes : Request → Bool} {run : Request → State → Answer}
    (hr : Handles p run) (h : s.grant p takes run = .next t) : s.Moves t := by
  rcases grant_cases h with rfl | ⟨r, u, a, -, -, -, e, rfl⟩
  · exact .inl (.refl _)
  · have met : s.Follows (s.settle.advance p) :=
      (settle_follows s).trans (.of_eq (fun _ => rfl) rfl rfl)
    rcases hr.answers e with ⟨-, rfl⟩ | ⟨-, effect⟩
    · exact .inl (met.trans (.of_table rfl))
    · rcases effect.records with f | ⟨k, st, o⟩
      · exact .inl (met.trans (f.trans (.of_table rfl)))
      · exact .inr (.inl ⟨_, k, st, met, { o with }⟩)

/-- A frame judged leaves the table, but for one that starts a reset. -/
theorem judgeFrame_moves (s : State) (p : Port) (mosi : List Byte) : s.Moves (s.judgeFrame p mosi) := by
  unfold State.judgeFrame
  split
  · exact .inl (.refl s)
  · exact .inl (.of_table rfl)
  · unfold State.takeFrame
    dsimp only
    split
    · exact .inl (.of_table rfl)
    split
    · exact .inl (.of_table rfl)
    split
    · exact .inr (.inr (blank_of_table rfl))
    · exact .inl (.of_table rfl)

/-- The end of a reset leaves the table. -/
theorem endReset_table (s : State) (high : Bool) : (s.endReset high).table = s.table := by
  unfold State.endReset
  split <;> rfl

/-- The start of a transaction leaves the table. -/
theorem transactionStart_moves {x : TransactionStart} {s t : State}
    (h : execTransactionStart x s = .next t) : s.Moves t := by
  unfold execTransactionStart at h
  split at h
  · cases h; exact .inl (.refl _)
  · cases h; exact .inl (.of_table rfl)

theorem State.Moves.after {s t u : State} (m : t.Moves u) (e : t.table = s.table) : s.Moves u := by
  rcases m with f | ⟨v, h, st, f, o⟩ | b
  · exact .inl (f.after e)
  · exact .inr (.inl ⟨v, h, st, f.after e, o⟩)
  · exact .inr (.inr b)

/-- The end of a transaction leaves the table, but for a frame that starts a reset. -/
theorem transactionEnd_moves {p : Port} {mosi : List Byte} {s t : State}
    (h : execTransactionEnd p mosi s = .next t) : s.Moves t := by
  unfold execTransactionEnd at h
  dsimp only at h
  split at h
  · cases h; exact .inl (.refl _)
  · split at h
    · cases h; exact .inl (.of_table rfl)
    · cases h; exact (judgeFrame_moves _ p _).after rfl

/-- An entry that runs nothing changes but the claims taken, the arbiter pointer and its port. -/
theorem badFrameEntry_follows {p : Port} {s t : State} (h : execBadFrameEntry p s = .next t) :
    s.Follows t := by
  unfold execBadFrameEntry at h
  split at h
  · cases h; exact .refl _
  · dsimp only at h
    split at h
    · cases h; exact (settle_follows s).trans (.of_eq (fun _ => rfl) rfl rfl)
    · cases h; exact .refl _

theorem repeatEntry_follows {p : Port} {s t : State} (h : execRepeatEntry p s = .next t) :
    s.Follows t := by
  unfold execRepeatEntry at h
  split at h
  · cases h; exact .refl _
  · dsimp only at h
    split at h
    · cases h; exact (settle_follows s).trans (.of_eq (fun _ => rfl) rfl rfl)
    · cases h; exact .refl _

theorem periodTimerExpiry_follows {s t : State} (h : execPeriodTimerExpiry s = .next t) :
    s.Follows t := by
  unfold execPeriodTimerExpiry at h
  split at h
  · cases h
    exact (catchUp_follows s).trans ((settlePeriod_follows _).trans (emitMark_follows _))
  · cases h; exact .refl _

theorem lossTimerExpiry_follows {s t : State} (h : execLossTimerExpiry s = .next t) :
    s.Follows t := by
  unfold execLossTimerExpiry at h
  split at h
  · dsimp only at h
    split at h
    · cases h
      exact (catchUp_follows s).trans ((State.Follows.with_link _ _).trans (makeClaim_follows _ _))
    · cases h
      exact (catchUp_follows s).trans (.with_link _ _)
  · cases h; exact .refl _

theorem trailerArrival_follows {n : BitVec 16} {s t : State}
    (h : execTrailerArrival n s = .next t) : s.Follows t := by
  unfold execTrailerArrival at h
  split at h
  · dsimp only at h
    split at h
    · cases h; exact catchUp_follows s
    · cases h
      exact (catchUp_follows s).trans
        ((cutBurst_follows _).trans (.ite (endReceive_follows _) (.refl _)))
  · cases h; exact .refl _

theorem leadCellArrival_follows {channel count : Byte} {s t : State}
    (h : execLeadCellArrival channel count s = .next t) : s.Follows t := by
  have cut : s.Follows s.catchUp.cutBurst := (catchUp_follows s).trans (cutBurst_follows _)
  unfold execLeadCellArrival at h
  split at h
  · dsimp only at h
    split at h
    · cases h; exact cut
    split at h
    · cases h; exact cut
    split at h
    · cases h; exact cut.trans (makeClaim_follows _ _)
    · cases h; exact cut
  · cases h; exact .refl _

theorem enteringUp_follows {s t : State} (h : execEnteringUp s = .next t) : s.Follows t := by
  unfold execEnteringUp at h
  split at h
  · cases h; exact .refl _
  split at h
  · cases h; exact takeThrough_follows s _
  split at h
  · cases h; exact catchUp_follows s
  · cases h; exact .refl _

/-- Whatever a command does moves the records and the maps so. -/
theorem exec_moves {i : Instr} {s t : State} (h : exec i s = .next t) : s.Moves t := by
  cases hi : requestRow i with
  | some p =>
    obtain ⟨takes, run, hr, e⟩ := requestRow_grants hi
    exact grant_moves hr (e s ▸ h)
  | none =>
    cases i <;> simp only [requestRow, reduceCtorEq] at hi <;> simp only [exec] at h
    case transactionStart => exact transactionStart_moves h
    case transactionEnd => exact transactionEnd_moves h
    case badFrameEntry => exact .inl (badFrameEntry_follows h)
    case repeatEntry => exact .inl (repeatEntry_follows h)
    case reset p =>
      unfold execReset at h
      split at h
      · split at h
        · cases h; exact .inl (.refl _)
        · cases h; exact .inr (.inr (blank_of_table rfl))
      · simp [‹¬p = 0›] at hi
    case resetNAssert => cases h; exact .inr (.inr (blank_of_table rfl))
    case resetNRelease high =>
      unfold execResetNRelease at h
      split at h
      · cases h; exact .inl (.of_table (endReset_table { s with resetPin := false } high))
      · cases h; exact .inl (.refl _)
    case resetHoldExpiry high =>
      unfold execResetHoldExpiry at h
      split at h
      · cases h; exact .inl (.of_table (endReset_table { s with resetHold := false } high))
      · cases h; exact .inl (.refl _)
    case periodTimerExpiry => exact .inl (periodTimerExpiry_follows h)
    case markArrival => cases h; exact .inl (receiveMark_follows s _)
    case echoArrival => cases h; exact .inl (receiveMark_follows s _)
    case lossTimerExpiry => exact .inl (lossTimerExpiry_follows h)
    case alignmentLapse =>
      unfold execAlignmentLapse at h
      split at h
      · cases h; exact .inl (.with_link _ _)
      · cases h; exact .inl (.refl _)
    case trailerArrival => exact .inl (trailerArrival_follows h)
    case leadCellArrival => exact .inl (leadCellArrival_follows h)
    case payloadCellArrival =>
      unfold execPayloadCellArrival at h
      split at h
      · exact .inl ((catchUp_follows s).trans (receivePayload_follows h))
      · cases h; exact .inl (.refl _)
    case idleCellArrival =>
      unfold execIdleCellArrival at h
      split at h
      · cases h; exact .inl ((catchUp_follows s).trans (cutBurst_follows _))
      · cases h; exact .inl (.refl _)
    case badCheckCellArrival =>
      unfold execBadCheckCellArrival at h
      split at h
      · exact .inl ((catchUp_follows s).trans (receivePayload_follows h))
      · cases h; exact .inl (.refl _)
    case markProcessing => cases h; exact .inl (takeThrough_follows s _)
    case serviceStart =>
      unfold execServiceStart at h
      split at h
      · cases h; exact .inl (.refl _)
      · exact .inl (takeOfLane_follows h)
    case txCompletion =>
      unfold execTxCompletion at h
      split at h
      · cases h; exact .inl (.refl _)
      · exact .inl (takeOfLane_follows h)
    case matchClaim => cases h; exact .inl (takeThrough_follows s _)
    case rxCompletion => cases h; exact .inl (takeThrough_follows s _)
    case periodEnd => cases h; exact .inl (takeThrough_follows s _)
    case leavingUp => cases h; exact .inl (takeThrough_follows s _)
    case enteringUp => exact .inl (enteringUp_follows h)
    case slip => cases h; exact .inl (takeThrough_follows s _)

/-- All that a step can do to the records and the maps. -/
theorem step_moves {s t : State} (h : step s = .next t) : s.Moves t := by
  unfold step at h
  split at h
  · exact .inl (cellTime_follows h)
  · exact (exec_moves h).after rfl

/-! ### What moves keep -/

/-- A record that was not retired is open after as it was before, with its identity. -/
theorem State.Follows.outlives_iff {s t : State} (f : s.Follows t) {h : Handle} {x : Stream}
    (hs : s.stream h = some x) :
    s.outlives t h = true ↔ ∃ y, t.stream h = some y ∧ x.sameIdentity y := by
  simp only [State.outlives, hs, Option.isNone_some, Bool.false_or]
  constructor
  · intro o
    rcases f.opened h x hs with ⟨y, hy, xy⟩ | ht
    · exact ⟨y, congrArg Record.stream hy, xy.identity⟩
    · have none : t.stream h = none := congrArg Record.stream ht
      simp [none] at o
  · rintro ⟨y, hy, -⟩
    simp [hy]

/-- A record open after was open before, with its identity. -/
theorem State.Follows.stream_some {s t : State} (f : s.Follows t) {h : Handle} {y : Stream}
    (ht : t.stream h = some y) : ∃ x, s.stream h = some x ∧ x.GoesOn y ∧
      (t.record h).generation = (s.record h).generation := by
  cases hs : s.stream h with
  | none => rw [f.stream_none hs] at ht; cases ht
  | some x =>
    rcases f.opened h x hs with ⟨z, hz, xz⟩ | hz
    · obtain rfl : z = y := Option.some.inj ((congrArg Record.stream hz).symm.trans ht)
      exact ⟨x, rfl, xz, by rw [hz]⟩
    · cases (congrArg Record.stream hz).symm.trans ht

/-- Records that follow keep the law of the tag map. -/
theorem State.Follows.tagMapLaw {s t : State} (f : s.Follows t) (law : s.tagMapLaw) :
    t.tagMapLaw := by
  obtain ⟨keys, entries⟩ := law
  refine ⟨f.tags ▸ keys.filter _, fun e => ?_⟩
  rw [f.tags, List.mem_filter, entries e]
  constructor
  · rintro ⟨⟨x, hs, owner, tag, nonzero⟩, o⟩
    obtain ⟨y, hy, id⟩ := (f.outlives_iff hs).mp o
    exact ⟨y, hy, id.1 ▸ owner, id.2.1 ▸ tag, nonzero⟩
  · rintro ⟨y, hy, owner, tag, nonzero⟩
    obtain ⟨x, hs, xy, -⟩ := f.stream_some hy
    have id := xy.identity
    exact ⟨⟨x, hs, id.1.trans owner, id.2.1.trans tag, nonzero⟩,
      (f.outlives_iff hs).mpr ⟨y, hy, id⟩⟩

/-- Records that follow keep the law of the channel map. -/
theorem State.Follows.channelMapLaw {s t : State} (f : s.Follows t) (law : s.channelMapLaw) :
    t.channelMapLaw := by
  obtain ⟨keys, entries⟩ := law
  refine ⟨f.channels ▸ keys.filter _, fun e => ?_⟩
  rw [f.channels, List.mem_filter, entries e]
  constructor
  · rintro ⟨⟨x, hs, direction, channel⟩, o⟩
    obtain ⟨y, hy, -, -, d, c, -⟩ := (f.outlives_iff hs).mp o
    exact ⟨y, hy, d ▸ direction, c ▸ channel⟩
  · rintro ⟨y, hy, direction, channel⟩
    obtain ⟨x, hs, xy, -⟩ := f.stream_some hy
    have id := xy.identity
    exact ⟨⟨x, hs, id.2.2.1.trans direction, id.2.2.2.1.trans channel⟩,
      (f.outlives_iff hs).mpr ⟨y, hy, id⟩⟩

/-- A record opened keeps the law of the tag map. -/
theorem State.Opens.tagMapLaw {s t : State} {h : Handle} {st : Stream} (o : s.Opens t h st)
    (law : s.tagMapLaw) : t.tagMapLaw := by
  obtain ⟨keys, entries⟩ := law
  have member : ∀ e, e ∈ t.table.tagMap ↔
      e ∈ s.table.tagMap ∨ (e = ⟨st.owner, st.tag, h⟩ ∧ st.tag ≠ 0) := fun e => by
    rw [o.tags]
    split <;> simp_all
  refine ⟨?_, fun e => ?_⟩
  · rw [o.tags]
    split
    · exact keys
    · rename_i nonzero
      refine List.pairwise_append.mpr ⟨keys, List.pairwise_singleton _ _, fun e he k hk => ?_⟩
      rw [List.mem_singleton.mp hk]
      exact o.tagFree nonzero e he
  · rw [member, entries e, o.stream]
    obtain ⟨port, tag, handle⟩ := e
    by_cases eh : handle = h
    · subst eh
      simp only [o.vacant, if_pos, TagEntry.mk.injEq]
      constructor
      · rintro (⟨x, e, -⟩ | ⟨⟨rfl, rfl, -⟩, nonzero⟩)
        · cases e
        · exact ⟨st, rfl, rfl, rfl, nonzero⟩
      · rintro ⟨x, e, rfl, rfl, nonzero⟩
        cases e
        exact .inr ⟨⟨rfl, rfl, trivial⟩, nonzero⟩
    · simp [eh]

/-- A record opened keeps the law of the channel map. -/
theorem State.Opens.channelMapLaw {s t : State} {h : Handle} {st : Stream} (o : s.Opens t h st)
    (law : s.channelMapLaw) : t.channelMapLaw := by
  obtain ⟨keys, entries⟩ := law
  refine ⟨?_, fun e => ?_⟩
  · rw [o.channels]
    refine List.pairwise_append.mpr ⟨keys, List.pairwise_singleton _ _, fun e he k hk => ?_⟩
    rw [List.mem_singleton.mp hk]
    exact o.channelFree e he
  · rw [o.channels, List.mem_append, List.mem_singleton, entries e, o.stream]
    obtain ⟨direction, channel, handle⟩ := e
    by_cases eh : handle = h
    · subst eh
      simp only [o.vacant, if_pos, ChannelEntry.mk.injEq]
      constructor
      · rintro (⟨x, e, -⟩ | ⟨rfl, rfl, -⟩)
        · cases e
        · exact ⟨st, rfl, rfl, rfl⟩
      · rintro ⟨x, e, rfl, rfl⟩
        cases e
        exact .inr ⟨rfl, rfl, trivial⟩
    · simp [eh]

/-- Every move keeps the laws of the maps. -/
theorem State.Moves.mapLaws {s t : State} (m : s.Moves t) (law : s.tagMapLaw ∧ s.channelMapLaw) :
    t.tagMapLaw ∧ t.channelMapLaw := by
  obtain ⟨tags, channels⟩ := law
  rcases m with f | ⟨u, h, st, f, o⟩ | b
  · exact ⟨f.tagMapLaw tags, f.channelMapLaw channels⟩
  · exact ⟨o.tagMapLaw (f.tagMapLaw tags), o.channelMapLaw (f.channelMapLaw channels)⟩
  · exact ⟨⟨by simp [b.tags], by simp [b.tags, b.vacant]⟩,
      ⟨by simp [b.channels], by simp [b.channels, b.vacant]⟩⟩

/-- Records that follow keep the law of every open record. -/
theorem State.Follows.recordsLaw {s t : State} (f : s.Follows t) (law : s.recordsLaw) :
    t.recordsLaw := fun h y hy => by
  obtain ⟨x, hs, xy, -⟩ := f.stream_some hy
  exact xy.law (law h x hs)

/-- Every move keeps the law of every open record. -/
theorem State.Moves.recordsLaw {s t : State} (m : s.Moves t) (law : s.recordsLaw) :
    t.recordsLaw := by
  rcases m with f | ⟨u, h, st, f, o⟩ | b
  · exact f.recordsLaw law
  · intro k y hy
    rw [o.stream] at hy
    split at hy
    · cases hy; exact o.law
    · exact f.recordsLaw law k y hy
  · intro k y hy
    rw [b.vacant] at hy; cases hy

/-- A record that is open under its generation before and after a move keeps its identity: one retired
and opened again has another generation. -/
theorem State.Moves.identity {s t : State} (m : s.Moves t) {h : Handle} {x y : Stream}
    (hs : s.stream h = some x) (ht : t.stream h = some y)
    (hg : (t.record h).generation = (s.record h).generation) : x.sameIdentity y := by
  have kept : ∀ {u : State}, s.Follows u → u.stream h = some y → x.sameIdentity y :=
    fun f hu => by
      obtain ⟨z, hz, zy, -⟩ := f.stream_some hu
      obtain rfl : z = x := Option.some.inj (hz.symm.trans hs)
      exact zy.identity
  rcases m with f | ⟨u, k, st, f, o⟩ | b
  · exact kept f ht
  · by_cases e : h = k
    · subst e
      rcases f.opened h x hs with ⟨z, hz, -⟩ | hu
      · cases (congrArg Record.stream hz).symm.trans o.vacant
      · rw [o.record, if_pos rfl, hu] at hg
        exact absurd hg (by simp)
    · rw [o.stream, if_neg e] at ht
      exact kept f ht
  · rw [b.vacant] at ht; cases ht

end Sys2Proof.Machine
end

section
/-! SUPPORT. The statements about every step that rest on the records and the maps. -/

namespace Sys2Proof.Machine

/-- Settles O13: every move keeps the laws of the maps. -/
theorem stepKeepsMaps : Obligations.StepKeepsMaps := by
  intro s t law h
  exact (step_moves h).mapLaws law

/-- Settles O18: a record that a step retires and opens again has another generation. -/
theorem recordsKeepIdentity : Obligations.RecordsKeepIdentity := by
  intro s t k x y h hs ht hg
  exact (step_moves h).identity hs ht hg

end Sys2Proof.Machine
end

