-- ==== Sys2Proof/Proofs/Refusals.lean ====
section
/-! SUPPORT. The statements about refusals: what a refused request leaves, and the name check. -/

namespace Sys2Proof.Machine

/-- The entry granted is a request granted as the statements say it. -/
theorem grants_of {s : State} {p : Port} {r : Request} (held : s.held = false)
    (hg : s.settle.granted p = some (.request r)) :
    s.Grants p r (s.settle.port p).requestQueue.tail :=
  ⟨held, (granted_head hg).1, (granted_head hg).2⟩

/-- Settles O27: a handler that refuses leaves the state it met. -/
theorem refusalsChangeNothing : Obligations.RefusalsChangeNothing := by
  intro i p s t hi h
  obtain ⟨takes, run, handles, e⟩ := requestRow_grants hi
  rw [e] at h
  rcases grant_cases h with rfl | ⟨r, u, a, held, granted, taken, answer, rfl⟩
  · exact .inl rfl
  · have hg := grants_of held granted
    refine .inr ⟨r, _, a.status, a.body, hg, ⟨(u.port p).responseQueue, ?_⟩, fun refused => ?_⟩
    · simp [PortInterface.place]
    · rcases handles.answers answer with ⟨-, same⟩ | ⟨accepted, -⟩
      · obtain rfl : u = s.settle.advance p := same
        exact Host.Outcome.next.inj (h.symm.trans (grants_refused hg taken answer))
      · rw [refused] at accepted; cases accepted

/-! ### The name check (R6) -/

/-- A handle of 64 or more is no handle. -/
theorem nameCheck_badArg (s : State) (p : Port) (any : Bool) {x : List Byte}
    (h : 64 ≤ (byteAt x 0).toNat) : s.nameCheck p any x = .error .badArg := by
  simp [State.nameCheck, handleOf, Nat.not_lt.mpr h]

/-- The handle that a byte spells. -/
theorem handleOf_eq {x : Byte} {h : Handle} (e : x.toNat = h.val) : handleOf x = some h := by
  have lt : x.toNat < 64 := e ▸ h.isLt
  simp only [handleOf, lt, dif_pos, Option.some.injEq]
  exact Fin.ext e

/-- A VACANT record, or one of another generation, is STALE. -/
theorem nameCheck_stale {s : State} (p : Port) (any : Bool) {x : List Byte} {h : Handle}
    (e : (byteAt x 0).toNat = h.val)
    (stale : s.stream h = none ∨ (s.record h).generation ≠ byteAt x 1) :
    s.nameCheck p any x = .error .stale := by
  simp only [State.nameCheck, handleOf_eq e]
  split
  · rfl
  · rename_i st hs
    rw [if_pos (stale.resolve_left (by simp [hs]))]

/-- The record of another port is refused where the third step applies. -/
theorem nameCheck_notOwner {s : State} {p : Port} {x : List Byte} {h : Handle} {st : Stream}
    (named : s.Names x h st) (other : st.owner ≠ p) :
    s.nameCheck p false x = .error .notOwner := by
  obtain ⟨e, generation, hs⟩ := named
  simp [State.nameCheck, handleOf_eq e, hs, generation, other]

/-- The name check passes the record named, of the caller's or where the third step does not apply. -/
theorem nameCheck_names {s : State} {p : Port} {any : Bool} {x : List Byte} {h : Handle} {st : Stream}
    (named : s.Names x h st) (own : any = true ∨ st.owner = p) :
    s.nameCheck p any x = .ok (h, st) := by
  obtain ⟨e, generation, hs⟩ := named
  rcases own with rfl | rfl <;> simp [State.nameCheck, handleOf_eq e, hs, generation]

/-- A request answers what its name check refuses with that refusal. -/
def NameChecked (p : Port) (any : Bool) (r : Request) (run : Request → State → Answer) : Prop :=
  ∀ u y, u.nameCheck p any r.body = .error y → run r u = .ok (refuse u y)

/-- The name check of a body that is a name alone. -/
theorem nameOnly_eq (s : State) (p : Port) (any : Bool) {x : List Byte} (h : x.length = 2) :
    s.nameOnly p any x = s.nameCheck p any x := if_pos h

theorem startRequest_nameChecked (p : Port) {r : Request} (h : r.body.length = 2) :
    NameChecked p false r fun r t => .ok (startRequest p r t) := fun u y e => by
  simp only [startRequest, nameOnly_eq u p false h, e]

theorem stopRequest_nameChecked (p : Port) {r : Request} (h : r.body.length = 2) :
    NameChecked p false r fun r t => .ok (stopRequest p r t) := fun u y e => by
  simp only [stopRequest, nameOnly_eq u p false h, e]

theorem withdrawRequest_nameChecked (p : Port) {r : Request} (h : r.body.length = 2) :
    NameChecked p false r fun r t => .ok (withdrawRequest p r t) := fun u y e => by
  simp only [withdrawRequest, nameOnly_eq u p false h, e]

theorem readRequest_nameChecked (p : Port) {r : Request} (h : r.body.length = 2) :
    NameChecked p true r fun r t => .ok (readRequest p r t) := fun u y e => by
  simp only [readRequest, nameOnly_eq u p true h, e]

theorem closeRequest_nameChecked (p : Port) {r : Request} (h : (readClose r.body).isSome = true) :
    NameChecked p (p = 0) r fun r t => .ok (closeRequest p r t) := fun u y e => by
  obtain ⟨m, hm⟩ := Option.isSome_iff_exists.mp h
  simp only [closeRequest, hm, e]

theorem amendRequest_nameChecked (p : Port) {r : Request} (h : (readAmend r.body).isSome = true) :
    NameChecked p false r (amendRequest p) := fun u y e => by
  obtain ⟨point, hp⟩ := Option.isSome_iff_exists.mp h
  simp only [amendRequest, hp, e]

theorem putRequest_nameChecked (p : Port) {r : Request} (h : (readPut r.body).isSome = true) :
    NameChecked p false r (putRequest p) := fun u y e => by
  obtain ⟨w, hw⟩ := Option.isSome_iff_exists.mp h
  simp only [putRequest, hw, e]

theorem getRequest_nameChecked (p : Port) {r : Request} (h : (readGet r.body).isSome = true) :
    NameChecked p false r (getRequest p) := fun u y e => by
  obtain ⟨w, hw⟩ := Option.isSome_iff_exists.mp h
  simp only [getRequest, hw, e]

theorem handoverRequest_nameChecked (p : Port) {r : Request}
    (h : (readHandover r.body).isSome = true) :
    NameChecked p false r fun r t => .ok (handoverRequest p r t) := fun u y e => by
  obtain ⟨w, hw⟩ := Option.isSome_iff_exists.mp h
  simp only [handoverRequest, hw, e]

/-- A request whose name check refuses it, granted. -/
theorem grants_nameRefused {s : State} {p : Port} {any : Bool} {r : Request} {rest : List Entry}
    {takes : Request → Bool} {run : Request → State → Answer} {y : Status} (hg : s.Grants p r rest)
    (taken : takes r = true) (checked : NameChecked p any r run)
    (e : s.settle.nameCheck p any r.body = .error y) :
    s.grant p takes run = .next (s.settle.responded p r rest y []) :=
  grants_refused hg taken (checked _ y e)

/-- The rows of the requests that name a record, with their checks: the third step of the name check
does not apply to READ, nor to CLOSE from port 0. -/
theorem nameChecked_rows {i : Instr} {p : Port} {r : Request}
    (h : (i = .start p ∧ r.code = 0x02 ∧ r.body.length = 2) ∨
      (i = .stop p ∧ r.code = 0x03 ∧ r.body.length = 2) ∨
      (i = .close p ∧ r.code = 0x04 ∧ (readClose r.body).isSome = true) ∨
      (i = .amend p ∧ r.code = 0x05 ∧ (readAmend r.body).isSome = true) ∨
      (i = .withdraw p ∧ r.code = 0x06 ∧ r.body.length = 2) ∨
      (i = .read p ∧ r.code = 0x08 ∧ r.body.length = 2) ∨
      (i = .put p ∧ r.code = 0x09 ∧ (readPut r.body).isSome = true) ∨
      (i = .get p ∧ r.code = 0x0A ∧ (readGet r.body).isSome = true) ∨
      (i = .handover p ∧ r.code = 0x0B ∧ (readHandover r.body).isSome = true)) :
    ∃ takes run any, takes r = true ∧ (∀ s, exec i s = s.grant p takes run) ∧
      NameChecked p any r run ∧ (any = true → r.code = 0x08 ∨ (r.code = 0x04 ∧ p = 0)) := by
  have code : ∀ {c : Byte}, r.code = c → ofCode c r = true := fun e => by simp [ofCode, e]
  have applies : ∀ {q : Prop}, false = true → q := fun e => nomatch e
  rcases h with ⟨rfl, c, b⟩ | ⟨rfl, c, b⟩ | ⟨rfl, c, b⟩ | ⟨rfl, c, b⟩ | ⟨rfl, c, b⟩ | ⟨rfl, c, b⟩ |
    ⟨rfl, c, b⟩ | ⟨rfl, c, b⟩ | ⟨rfl, c, b⟩
  · exact ⟨_, _, _, code c, fun _ => rfl, startRequest_nameChecked p b, applies⟩
  · exact ⟨_, _, _, code c, fun _ => rfl, stopRequest_nameChecked p b, applies⟩
  · exact ⟨_, _, _, code c, fun _ => rfl, closeRequest_nameChecked p b,
      fun e => .inr ⟨c, of_decide_eq_true e⟩⟩
  · exact ⟨_, _, _, code c, fun _ => rfl, amendRequest_nameChecked p b, applies⟩
  · exact ⟨_, _, _, code c, fun _ => rfl, withdrawRequest_nameChecked p b, applies⟩
  · exact ⟨_, _, _, code c, fun _ => rfl, readRequest_nameChecked p b, fun _ => .inl c⟩
  · exact ⟨_, _, _, code c, fun _ => rfl, putRequest_nameChecked p b, applies⟩
  · exact ⟨_, _, _, code c, fun _ => rfl, getRequest_nameChecked p b, applies⟩
  · exact ⟨_, _, _, code c, fun _ => rfl, handoverRequest_nameChecked p b, applies⟩

/-- Settles O29: each step of the name check refuses, and every row that names a record answers with the
refusal. -/
theorem nameCheckRefusals : Obligations.NameCheckRefusals := by
  intro s p r rest hg i row u
  obtain ⟨takes, run, any, taken, e, checked, applies⟩ := nameChecked_rows row
  rw [e]
  refine ⟨fun large => grants_nameRefused hg taken checked (nameCheck_badArg _ p any large),
    fun h spelt => ⟨fun stale =>
      grants_nameRefused hg taken checked (nameCheck_stale p any spelt stale),
      fun st named other notRead notClose => ?_⟩⟩
  cases any with
  | false => exact grants_nameRefused hg taken checked (nameCheck_notOwner named other)
  | true => exact absurd (applies rfl) (not_or.mpr ⟨notRead, notClose⟩)

end Sys2Proof.Machine
end

