-- ==== Sys2Proof/Proofs/Reading.lean ====
section
/-! SUPPORT. The statements about the requests that read the part: FIND, READ, EXTENTS and STATUS. -/

namespace Sys2Proof.Machine

/-! ### FIND (R12, R13) -/

/-- The four bytes of a tag spell it. -/
theorem tagAt_be32 (a b c : Byte) (tag : BitVec 32) : tagAt ([a, b, c] ++ be32 tag) 3 = tag := by
  change tag.extractLsb' 24 8 ++ tag.extractLsb' 16 8 ++ tag.extractLsb' 8 8 ++
    tag.extractLsb' 0 8 = tag
  ext i hi
  simp only [BitVec.getElem_append, BitVec.getElem_extractLsb']
  split
  · simp [BitVec.getLsbD_eq_getElem hi]
  split
  · rw [BitVec.getLsbD_eq_getElem (by omega)]; congr 1; omega
  split
  · rw [BitVec.getLsbD_eq_getElem (by omega)]; congr 1; omega
  · rw [BitVec.getLsbD_eq_getElem (by omega)]; congr 1; omega

/-- Where no two entries pass a test, a search finds the one that does. -/
theorem find?_of_pairwise {α : Type} {test : α → Bool} {l : List α} {a : α}
    (one : l.Pairwise fun x y => ¬(test x = true ∧ test y = true)) (ha : a ∈ l)
    (ht : test a = true) : l.find? test = some a := by
  induction l with
  | nil => cases ha
  | cons x l ih =>
    obtain ⟨front, rest⟩ := List.pairwise_cons.mp one
    rcases List.mem_cons.mp ha with rfl | ha
    · exact List.find?_cons_of_pos ht
    · rw [List.find?_cons_of_neg fun hx => front a ha ⟨hx, ht⟩]
      exact ih rest ha

/-- Under its law the tag map gives the record with the port and the tag (R8). -/
theorem findTag_of_stream {s : State} (law : s.tagMapLaw) {h : Handle} {st : Stream}
    (hs : s.stream h = some st) (nonzero : st.tag ≠ 0) : s.findTag st.owner st.tag = some h := by
  obtain ⟨keys, entries⟩ := law
  have own : (⟨st.owner, st.tag, h⟩ : TagEntry) ∈ s.table.tagMap :=
    (entries _).mpr ⟨st, hs, rfl, rfl, nonzero⟩
  rw [State.findTag, find?_of_pairwise (keys.imp fun differ both => differ ?_) own (by simp)]
  · rfl
  · simp only [Bool.and_eq_true, decide_eq_true_eq] at both
    exact ⟨both.1.1.trans both.2.1.symm, both.1.2.trans both.2.2.symm⟩

/-- Under its law the tag map gives nothing where no record has the port and the tag. -/
theorem findTag_none {s : State} (law : s.tagMapLaw) {p : Port} {tag : BitVec 32}
    (none : ∀ h st, s.stream h = some st → ¬(st.owner = p ∧ st.tag = tag)) :
    s.findTag p tag = .none := by
  rw [State.findTag, Option.map_eq_none_iff, List.find?_eq_none]
  intro e he key
  obtain ⟨st, hs, owner, same, -⟩ := (law.2 e).mp he
  simp only [Bool.and_eq_true, decide_eq_true_eq] at key
  exact none e.handle st hs ⟨owner.trans key.1, same.trans key.2⟩

/-- Under its law the channel map gives the record with the direction and the channel (R10). -/
theorem findChannel_of_stream {s : State} (law : s.channelMapLaw) {h : Handle} {st : Stream}
    (hs : s.stream h = some st) : s.findChannel st.direction st.channel = some h := by
  obtain ⟨keys, entries⟩ := law
  have own : (⟨st.direction, st.channel, h⟩ : ChannelEntry) ∈ s.table.channelMap :=
    (entries _).mpr ⟨st, hs, rfl, rfl⟩
  rw [State.findChannel, find?_of_pairwise (keys.imp fun differ both => differ ?_) own (by simp)]
  · rfl
  · simp only [Bool.and_eq_true, decide_eq_true_eq] at both
    exact ⟨both.1.1.trans both.2.1.symm, both.1.2.trans both.2.2.symm⟩

/-- Under its law the channel map gives nothing where no record has the direction and the channel. -/
theorem findChannel_none_of {s : State} (law : s.channelMapLaw) {d : Direction} {c : Byte}
    (none : ∀ h st, s.stream h = some st → ¬(st.direction = d ∧ st.channel = c)) :
    s.findChannel d c = .none := by
  rw [State.findChannel, Option.map_eq_none_iff, List.find?_eq_none]
  intro e he key
  obtain ⟨st, hs, direction, channel⟩ := (law.2 e).mp he
  simp only [Bool.and_eq_true, decide_eq_true_eq] at key
  exact none e.handle st hs ⟨direction.trans key.1, channel.trans key.2⟩

/-- A FIND of form TAG granted answers with what the tag map gives. -/
theorem findByTag_exec {s : State} {p : Port} {r : Request} {rest : List Entry} {b c : Byte}
    {tag : BitVec 32} (hg : s.Grants p r rest) (code : r.code = 0x07)
    (body : r.body = [0, b, c] ++ be32 tag) (nonzero : tag ≠ 0) :
    exec (.findByTag p) s = .next (s.settle.responded p r rest
      (s.settle.found (s.settle.findTag p tag)).status (s.settle.found (s.settle.findTag p tag)).body) := by
  have taken : takesByTag r = true := by simp [takesByTag, code, body, byteAt]
  refine grants_refused (run := fun r t => .ok (findByTagRequest p r t)) hg taken ?_
  simp only [findByTagRequest, body, tagAt_be32]
  rw [if_neg (by simpa [be32, byteAt] using nonzero)]
  rfl

/-- The direction that a byte spells. -/
@[simp] theorem directionOf_directionByte (d : Direction) : directionOf (directionByte d) = some d := by
  cases d <;> rfl

/-- A FIND of form CHANNEL granted answers with what the channel map gives. -/
theorem findByChannel_exec {s : State} {p : Port} {r : Request} {rest : List Entry} {d : Direction}
    {c : Byte} {x : List Byte} (hg : s.Grants p r rest) (code : r.code = 0x07) (len : x.length = 4)
    (body : r.body = [1, directionByte d, c] ++ x) :
    exec (.findByChannel p) s = .next (s.settle.responded p r rest
      (s.settle.found (s.settle.findChannel d c)).status
      (s.settle.found (s.settle.findChannel d c)).body) := by
  have taken : takesByChannel r = true := by simp [takesByChannel, code, body, byteAt]
  refine grants_refused (run := fun r t => .ok (findByChannelRequest r t)) hg taken ?_
  have direction : byteAt r.body 1 = directionByte d := by rw [body]; rfl
  have channel : byteAt r.body 2 = c := by rw [body]; rfl
  simp only [findByChannelRequest, direction, channel, directionOf_directionByte]
  rw [if_neg (by simp [body, len, byteAt])]
  rfl

/-- Settles O37: the maps give the one record with the key, by their laws. -/
theorem findRequests : Obligations.FindRequests := by
  intro s p r rest hg code u
  refine ⟨fun b c tag law body nonzero => ⟨fun h st hs owner ht => ?_, fun none => ?_⟩,
    fun d c x law len body => ⟨fun h st hs direction channel => ?_, fun none => ?_⟩⟩
  · subst owner ht
    rw [findByTag_exec hg code body nonzero, findTag_of_stream law hs nonzero]
    rfl
  · rw [findByTag_exec hg code body nonzero, findTag_none law none]
    rfl
  · subst direction channel
    rw [findByChannel_exec hg code len body, findChannel_of_stream law hs]
    rfl
  · rw [findByChannel_exec hg code len body, findChannel_none_of law none]
    rfl

/-! ### READ (R14, 11.6) -/

/-- Bytes 19 and 20 of a record image. -/
def lastSlotBytes (x : Option Nat) : List Byte := (x.map be16).getD absent16

/-- The bytes of the last slot are two. -/
theorem lastSlotBytes_eq (x : Option Nat) : ∃ a b, lastSlotBytes x = [a, b] := by
  cases x <;> exact ⟨_, _, rfl⟩

/-- Byte 18 of a record image. -/
def policingFlagsByte (st : Stream) : Byte :=
  match st.direction with
  | .rx => policingByte st.policing
  | .tx => absent8

/-- The bytes of a record image in their places: 19 up to the last slot, its two, 14 of the tag and the
buffers, and 18 of the pending amendment. -/
theorem recordImage_eq (h : Handle) (g : Byte) (st : Stream) :
    recordImage h g st =
      [byte h.val, g, stateByte st.state, stateDetailByte st.state, byte st.owner.val,
        directionByte st.direction, st.channel, byte st.params.cells, byte st.params.interval,
        byte st.params.phase, byte st.params.serviceClass,
        (st.params.missPolicy.map missPolicyByte).getD absent8, byte st.params.missLimit,
        byte st.missRun, byte st.params.lead, linkPolicyByte st.linkPolicy, notifySetByte st.notify,
        bufferByte st.parity, policingFlagsByte st] ++ (lastSlotBytes st.lastSlot ++
      (be32 st.tag ++ bufferBytes st.bufferA ++ bufferBytes st.bufferB ++ pendingBytes st.pending)) := by
  simp only [recordImage, lastSlotBytes, List.append_assoc]
  rfl

/-- The bytes of a pending amendment are 18. -/
theorem pendingBytes_length (x : Option Amendment) : (pendingBytes x).length = 18 := by
  cases x with
  | none => rfl
  | some a =>
    obtain ⟨params, point, pair, old⟩ := a
    cases point <;> cases pair <;> rfl

/-- A record image has 53 bytes. -/
theorem recordImage_length (h : Handle) (g : Byte) (st : Stream) :
    (recordImage h g st).length = 53 := by
  obtain ⟨a, b, e⟩ := lastSlotBytes_eq st.lastSlot
  simp [recordImage_eq, e, be32, bufferBytes, extentBytes, be16, pendingBytes_length]

/-- A READ granted of an open record answers with its image. -/
theorem read_exec {s : State} {p : Port} {r : Request} {rest : List Entry} {h : Handle} {st : Stream}
    (hg : s.Grants p r rest) (code : r.code = 0x08) (len : r.body.length = 2)
    (named : s.settle.Names r.body h st) :
    exec (.read p) s = .next (s.settle.responded p r rest .ok
      (recordImage h (s.settle.record h).generation st)) := by
  refine grants_refused (run := fun r t => .ok (readRequest p r t)) (takes := ofCode 0x08) hg
    (by simp [ofCode, code]) ?_
  have checked : (s.settle.advance p).nameCheck p true r.body = .ok (h, st) :=
    nameCheck_names named (.inl rfl)
  simp only [readRequest, nameOnly_eq _ p true len, checked]
  rfl

/-- The state byte and its detail in a record image (11.6). -/
theorem stateBytes_eq (x : StreamState) :
    stateByte x = (match x with
      | .standby => 1
      | .live => 2
      | .suspended _ => 3
      | .closing _ => 4) ∧
    stateDetailByte x = (match x with
      | .closing .immediate => 0
      | .closing .drain => 1
      | .suspended .misses => 0
      | .suspended .link => 1
      | .standby => 255
      | .live => 255) := by
  rcases x with _ | _ | c | m
  · exact ⟨rfl, rfl⟩
  · exact ⟨rfl, rfl⟩
  · cases c <;> exact ⟨rfl, rfl⟩
  · cases m <;> exact ⟨rfl, rfl⟩

/-- The miss policy byte, absent on an RX record (11.6). -/
theorem policyByte_eq (x : Option MissPolicy) :
    (x.map missPolicyByte).getD absent8 = (match x with
      | some .empty => 0
      | some .silent => 1
      | none => 255) := by
  rcases x with _ | m
  · rfl
  · cases m <;> rfl

/-- The bytes of the last slot, absent where there is none (11.6). -/
theorem lastSlotBytes_cases (x : Option Nat) :
    lastSlotBytes x = (match x with
      | none => [255, 255]
      | some k => be16 k) := by
  cases x <;> rfl

/-- The kind of an effective point and its E field (11.6). -/
theorem pointBytes_eq (x : EffectivePoint) :
    pointBytes x = (match x with
      | .next => [0, 255, 255]
      | .period e => 1 :: be16 e.toNat) := by
  cases x <;> rfl

/-- The bytes of a pending new pair (11.6). -/
def pairBytes (x : Option (Extent × Extent)) : List Byte :=
  match x with
  | none => 0 :: List.replicate 6 absent8
  | some p => 1 :: (extentBytes p.1 ++ extentBytes p.2)

/-- The bytes of a pending amendment: its parameters, its point and its pair. -/
theorem pendingBytes_some (a : Amendment) :
    pendingBytes (some a) =
      [1, byte a.params.cells, byte a.params.interval, byte a.params.phase,
        byte a.params.serviceClass, (a.params.missPolicy.map missPolicyByte).getD absent8,
        byte a.params.missLimit, byte a.params.lead] ++ (pointBytes a.point ++ pairBytes a.pair) := by
  simp only [pendingBytes, List.append_assoc]
  rfl

/-- The bytes of an effective point are three. -/
theorem pointBytes_three (x : EffectivePoint) : ∃ a b c, pointBytes x = [a, b, c] := by
  cases x <;> exact ⟨_, _, _, rfl⟩

/-- The bytes of a pending new pair, absent where there is none (11.6). -/
theorem pairBytes_eq (x : Option (Extent × Extent)) :
    pairBytes x = (match x with
      | none => 0 :: List.replicate 6 255
      | some (g, k) => 1 :: (be16 g.base ++ [byte g.length] ++ be16 k.base ++ [byte k.length])) := by
  cases x <;> rfl

/-- The policing flags byte, absent on a TX record (11.6). -/
theorem policingFlagsByte_eq (st : Stream) :
    policingFlagsByte st = (match st.direction with
      | .tx => 255
      | .rx => policingByte st.policing) := by
  unfold policingFlagsByte
  cases st.direction <;> rfl

/-! ### STATUS (R188) -/

/-- The largest of a list of numbers and a first one is none below any of them, and is one of them. -/
theorem foldl_max_spec (l : List Nat) (a : Nat) :
    a ≤ l.foldl max a ∧ (∀ x ∈ l, x ≤ l.foldl max a) ∧ (l.foldl max a = a ∨ l.foldl max a ∈ l) := by
  induction l generalizing a with
  | nil => simp
  | cons y l ih =>
    obtain ⟨low, all, one⟩ := ih (max a y)
    rw [List.foldl_cons]
    refine ⟨by omega, fun x hx => ?_, ?_⟩
    · rcases List.mem_cons.mp hx with rfl | hx
      · omega
      · exact all x hx
    · rcases one with e | e
      · rcases Nat.le_total a y with le | le
        · rw [max_eq_right le] at e ⊢
          exact .inr (by simp [e])
        · rw [max_eq_left le] at e ⊢
          exact .inl e
      · exact .inr (List.mem_cons_of_mem _ e)

/-- The largest free entry is one of the list, and no entry is larger; 0 when the list is empty
(R49). -/
theorem largestFree_spec (free : List Extent) :
    (∀ e ∈ free, e.length ≤ largestFree free) ∧
      (free ≠ [] → ∃ e ∈ free, e.length = largestFree free) ∧ (free = [] → largestFree free = 0) := by
  obtain ⟨-, all, one⟩ := foldl_max_spec (free.map Extent.length) 0
  have bound : ∀ e ∈ free, e.length ≤ largestFree free :=
    fun e he => all _ (List.mem_map_of_mem he)
  refine ⟨bound, fun some => ?_, fun none => by rw [none]; rfl⟩
  rcases one with zero | mem
  · obtain ⟨e, he⟩ := List.exists_mem_of_ne_nil free some
    have le := bound e he
    have none : largestFree free = 0 := zero
    exact ⟨e, he, by omega⟩
  · simpa [largestFree] using mem

/-- The free list, its count and its total are what an EXTENTS granted answers with (R64). -/
theorem extents_exec {s : State} {p : Port} {r : Request} {rest : List Entry} (hg : s.Grants p r rest)
    (code : r.code = 0x0D) (body : r.body = []) :
    exec (.extents p) s = .next (s.settle.responded p r rest .ok
      (be16 s.settle.free.length ++ be16 (freeTotal s.settle.free) ++
        s.settle.free.flatMap fun e => be16 e.base ++ be16 e.length)) := by
  refine grants_refused (run := fun r t => .ok (extentsRequest r t)) (takes := ofCode 0x0D) hg
    (by simp [ofCode, code]) ?_
  simp only [extentsRequest, body]
  rfl

/-- The byte of the link state (11.3). -/
theorem linkStateByte_eq (x : LinkState) :
    linkStateByte x = (match x with
      | .off => 0
      | .acquire => 1
      | .up => 2) := by
  cases x <;> rfl

/-- The byte of the link role (11.3). -/
theorem roleByte_eq (x : Role) :
    roleByte x = (match x with
      | .leader => 0
      | .follower => 1) := by
  cases x <;> rfl

/-- The bytes that a STATUS answers with (R188). -/
def State.statusBytes (s : State) (p : Port) : List Byte :=
  [byte p.val, linkStateByte s.link.state, roleByte s.link.role] ++ be16 s.link.period.toNat ++
    be16 (freeTotal s.free) ++ be16 (largestFree s.free) ++ byte s.vacantCount ::
    (be16 (s.quota p .tx) ++ be16 (s.charge p .tx) ++ be16 (s.quota p .rx) ++ be16 (s.charge p .rx))

/-- A STATUS granted answers with its bytes. -/
theorem status_exec {s : State} {p : Port} {r : Request} {rest : List Entry} (hg : s.Grants p r rest)
    (code : r.code = 0x0F) (body : r.body = []) :
    exec (.status p) s = .next (s.settle.responded p r rest .ok (s.settle.statusBytes p)) := by
  refine grants_refused (run := fun r t => .ok (statusRequest p r t)) (takes := ofCode 0x0F) hg
    (by simp [ofCode, code]) ?_
  simp only [statusRequest, body]
  rfl

/-- Settles O38: each of the three answers with the bytes of what it reads. -/
theorem readingRequests : Obligations.ReadingRequests := by
  refine ⟨fun s p r rest h st hg code len named => ?_, ?_⟩
  · obtain ⟨a, b, slot⟩ := lastSlotBytes_eq st.lastSlot
    refine ⟨_, read_exec hg code len named, recordImage_length _ _ _, ?_⟩
    rw [recordImage_eq, slot]
    refine ⟨congrArg (fun x => [_, _, x]) (stateBytes_eq st.state).1, (stateBytes_eq st.state).2, rfl,
      policyByte_eq _, rfl, rfl, rfl, rfl, policingFlagsByte_eq st,
      slot.symm.trans (lastSlotBytes_cases _), rfl, rfl, rfl, fun none => by rw [none]; rfl, ?_⟩
    intro x pending
    obtain ⟨k, m, n, point⟩ := pointBytes_three x.point
    rw [pending, pendingBytes_some, point]
    exact ⟨rfl, policyByte_eq _, rfl, point.symm.trans (pointBytes_eq _), pairBytes_eq x.pair⟩
  · intro s p r rest hg body
    refine ⟨fun code => ?_, fun code => ?_⟩
    · rw [extents_exec hg code body, List.flatMap_def]
      rfl
    · obtain ⟨bound, one, none⟩ := largestFree_spec s.settle.free
      refine ⟨largestFree s.settle.free, bound, one, none, ?_⟩
      rw [status_exec hg code body]
      simp only [State.statusBytes, linkStateByte_eq, roleByte_eq, List.append_assoc,
        List.cons_append, List.nil_append]
      rfl

end Sys2Proof.Machine
end

