-- ==== Sys2Proof/Proofs/Retirement.lean ====
section
/-! SUPPORT. The statement about the retirement step (R20): what it takes out of the load tables and the
port charges. -/

namespace Sys2Proof.Machine

/-! ### Charges -/

/-- The value of a direction after one direction's value was replaced. -/
@[simp] theorem PerDirection.get_set {α : Type} (v : PerDirection α) (d e : Direction) (x : α) :
    (v.set d x).get e = if e = d then x else v.get e := by
  cases d <;> cases e <;> rfl

/-- A load table entry after a record's charge is replaced (R38). -/
theorem recharge_load (s : State) (p : Port) (d e : Direction) (old new : Residues) (r : Fin 32) :
    ((s.recharge p d old new).table.loads.get e).get r =
      if e = d then (s.table.loads.get d).get r - old.get r + new.get r
      else (s.table.loads.get e).get r := by
  simp only [State.recharge, PerDirection.get_set]
  split
  · exact tabulate_get _ r
  · rfl

/-- A port charge after a record's charge is replaced (R38). -/
theorem recharge_charge (s : State) (p n : Port) (d e : Direction) (old new : Residues) :
    (s.recharge p d old new).charge n e =
      if n = p ∧ e = d then s.charge p d - units old + units new else s.charge n e := by
  simp only [State.recharge, State.charge, PerDirection.get_set]
  by_cases he : e = d
  · subst he
    simp only [if_pos, and_true]
    exact vector_get_set _ p n _
  · simp [he]

/-- No cells are no load units. -/
@[simp] theorem units_noCells : units noCells = 0 := by decide

/-- No cells at any residue. -/
@[simp] theorem noCells_get (r : Fin 32) : noCells.get r = 0 := by revert r; decide

/-- A record's charge is part of the sum that a load table entry is. -/
theorem chargeAt_le {s : State} (law : s.loadLaw) (d : Direction) (r : Fin 32) (h : Handle) :
    s.chargeAt d r h ≤ (s.table.loads.get d).get r := by
  rw [law.1 d r]
  exact List.single_le_sum (fun _ _ => Nat.zero_le _) _
    (List.mem_map_of_mem (List.mem_finRange h))

/-- A record's load units are part of the sum that a port charge is. -/
theorem unitsOf_le {s : State} (law : s.loadLaw) (p : Port) (d : Direction) (h : Handle) :
    s.unitsOf p d h ≤ s.charge p d := by
  rw [law.2.1 p d]
  exact List.single_le_sum (fun _ _ => Nat.zero_le _) _
    (List.mem_map_of_mem (List.mem_finRange h))

/-! ### The retirement of an open record -/

/-- The contribution that a withdrawal leaves charged: that of the record's own parameters (R41). -/
theorem withdrawAmendment_load {s : State} (law : s.loadLaw) {h : Handle} {st : Stream}
    (hs : s.stream h = some st) (d : Direction) (r : Fin 32) :
    ((s.withdrawAmendment h).table.loads.get d).get r =
      if d = st.direction then
        (s.table.loads.get d).get r - st.charge.get r + (contribution st.params).get r
      else (s.table.loads.get d).get r := by
  have part := chargeAt_le law d r h
  simp only [State.chargeAt, hs] at part
  cases pending : st.pending with
  | none =>
    have same : s.withdrawAmendment h = s := by unfold State.withdrawAmendment; simp [hs, pending]
    have charge : st.charge = contribution st.params := by simp [Stream.charge, pending]
    rw [same]
    split
    · rename_i e
      rw [if_pos e.symm] at part
      rw [← charge]
      omega
    · rfl
  | some a =>
    have old : a.old = contribution st.params := law.2.2.2 h st a hs pending
    have loads : (s.withdrawAmendment h).table.loads =
        (s.recharge st.owner st.direction st.charge a.old).table.loads := by
      unfold State.withdrawAmendment; simp [hs, pending]
    rw [loads, recharge_load, old]
    split
    · subst_vars; rfl
    · rfl

/-- The load units that a withdrawal leaves charged: those of the record's own parameters (R41). -/
theorem withdrawAmendment_charge {s : State} (law : s.loadLaw) {h : Handle} {st : Stream}
    (hs : s.stream h = some st) (p : Port) (d : Direction) :
    (s.withdrawAmendment h).charge p d =
      if p = st.owner ∧ d = st.direction then
        s.charge p d - units st.charge + units (contribution st.params)
      else s.charge p d := by
  have part := unitsOf_le law p d h
  simp only [State.unitsOf, hs] at part
  cases pending : st.pending with
  | none =>
    have same : s.withdrawAmendment h = s := by unfold State.withdrawAmendment; simp [hs, pending]
    have charge : st.charge = contribution st.params := by simp [Stream.charge, pending]
    rw [same]
    split
    · rename_i e
      rw [if_pos ⟨e.1.symm, e.2.symm⟩] at part
      rw [← charge]
      omega
    · rfl
  | some a =>
    have old : a.old = contribution st.params := law.2.2.2 h st a hs pending
    have charges : (s.withdrawAmendment h).charge p d =
        (s.recharge st.owner st.direction st.charge a.old).charge p d := by
      unfold State.withdrawAmendment; simp only [hs, pending]; rfl
    rw [charges, recharge_charge, old]
    split
    · rename_i e; rw [e.1, e.2]
    · rfl

/-- Parts 1 to 4, 6 and 7 of the retirement of an open record, behind the withdrawal (R20). -/
theorem vacate_eq {s : State} {h : Handle} {st : Stream} (hs : s.stream h = some st) :
    s.vacate h =
      ((((s.withdrawAmendment h).setFree (releasePair (st.bufferA.extent, st.bufferB.extent)
        (s.withdrawAmendment h).free)).recharge st.owner st.direction (contribution st.params)
          noCells).removeMapEntries h).setRecord h ⟨(s.record h).generation + 1, none⟩ := by
  have hw : (s.withdrawAmendment h).stream h = some st.withdrawn := by
    simp [withdrawAmendment_stream, hs, Stream.withdrawn]
  unfold State.vacate
  simp only [hw, withdrawAmendment_generation]
  rfl

/-- Retirement takes the record's charge out of the load tables (R20). -/
theorem vacate_load {s : State} (law : s.loadLaw) {h : Handle} {st : Stream}
    (hs : s.stream h = some st) (d : Direction) (r : Fin 32) :
    ((s.vacate h).table.loads.get d).get r + s.chargeAt d r h = (s.table.loads.get d).get r := by
  have part := chargeAt_le law d r h
  simp only [vacate_eq hs, State.setRecord_loads, State.removeMapEntries_loads, recharge_load,
    State.setFree_table, withdrawAmendment_load law hs, State.chargeAt, hs, noCells_get] at part ⊢
  by_cases e : d = st.direction
  · subst e
    simp only [if_pos] at part ⊢
    omega
  · simp [e, Ne.symm e]

/-- Retirement takes the record's load units out of its owner port's charge (R20). -/
theorem vacate_charge {s : State} (law : s.loadLaw) {h : Handle} {st : Stream}
    (hs : s.stream h = some st) (p : Port) (d : Direction) :
    (s.vacate h).charge p d + s.unitsOf p d h = s.charge p d := by
  have part := unitsOf_le law p d h
  have charge : (s.vacate h).charge p d = if p = st.owner ∧ d = st.direction then
      (s.withdrawAmendment h).charge st.owner st.direction - units (contribution st.params) +
        units noCells
      else (s.withdrawAmendment h).charge p d := by
    rw [vacate_eq hs]
    exact recharge_charge _ _ _ _ _ _ _
  rw [charge]
  simp only [withdrawAmendment_charge law hs, State.unitsOf, hs, units_noCells] at part ⊢
  by_cases e : p = st.owner ∧ d = st.direction
  · obtain ⟨rfl, rfl⟩ := e
    simp only [and_self, if_pos] at part ⊢
    omega
  · have f : ¬(st.owner = p ∧ st.direction = d) := fun c => e ⟨c.1.symm, c.2.symm⟩
    simp [e, f]

/-- A withdrawal releases a pending new pair (R41). -/
theorem withdrawAmendment_free {s : State} {h : Handle} {st : Stream} (hs : s.stream h = some st) :
    (s.withdrawAmendment h).free =
      (st.pending.bind Amendment.pair).elim s.free fun g => releasePair g s.free := by
  unfold State.withdrawAmendment
  cases pending : st.pending with
  | none => simp [hs, pending]
  | some a => cases pair : a.pair <;> simp [hs, pending, pair, State.setFree]

/-- Retirement of an open record: its parts 1 to 4, 6 and 7, then the notices (R20). -/
theorem retire_eq {s : State} {h : Handle} {st : Stream} (hs : s.stream h = some st) (closed : Bool) :
    s.retire h closed = ((s.vacate h).setNotices st.owner
      ((s.noticesOf st.owner).purgeHandle h)).notifyIf closed st.owner
        (.closed h (s.record h).generation) := by
  have notices : (s.vacate h).noticesOf st.owner = s.noticesOf st.owner := by
    simp only [State.noticesOf, (s.vacate_keeps h)]
  simp only [State.retire, hs, notices]

/-- The notice queues after a retirement: the entries of the handle gone from its owner port's queue, and
CLOSED queued there where it is deferred or forced (R20). -/
theorem retire_noticesOf {s : State} {h : Handle} {st : Stream} (hs : s.stream h = some st)
    (closed : Bool) (p : Port) :
    (s.retire h closed).noticesOf p =
      if p = st.owner then
        if closed then ((s.noticesOf p).purgeHandle h).enqueue (.closed h (s.record h).generation)
          s.link.period
        else (s.noticesOf p).purgeHandle h
      else s.noticesOf p := by
  have others : (s.vacate h).noticesOf p = s.noticesOf p := by
    simp only [State.noticesOf, (s.vacate_keeps h)]
  rw [retire_eq hs, State.notifyIf]
  by_cases e : p = st.owner
  · subst e
    cases closed <;> simp
  · cases closed <;> simp [e, others]

/-- Settles O22: the withdrawal leaves the record's own contribution, and the rest of the retirement takes
that out. -/
theorem retirementStep : Obligations.RetirementStep := by
  intro s h st closed law hs t purged
  have record : ∀ k, t.record k = (s.vacate h).record k :=
    record_of_table (retire_table s h closed)
  have table : t.table = (s.vacate h).table := retire_table s h closed
  have charge : ∀ p d, t.charge p d = (s.vacate h).charge p d := fun p d => by
    simp only [State.charge, table]
  have free : t.free = (s.vacate h).free := by
    rw [show t = _ from retire_eq hs closed]; simp
  obtain ⟨tags, channels⟩ := vacate_maps hs
  obtain ⟨arbiter, quotas, memory, psu, claims, link, lane, ports, pin, hold, pending⟩ :=
    s.retire_keeps h closed
  refine ⟨?_, fun k other => ?_, fun d r => ?_, fun p d => ?_, fun e => ?_, fun e => ?_, ?_, ?_,
    fun p other => ?_, ?_, arbiter, quotas⟩
  · rw [record, vacate_record, if_pos ⟨rfl, by simp [hs]⟩]
  · rw [record, vacate_record, if_neg fun c => other c.1]
  · rw [table]; exact vacate_load law hs d r
  · rw [charge]; exact vacate_charge law hs p d
  · simp [table, tags]
  · simp [table, channels]
  · rw [free, vacate_eq hs, ← withdrawAmendment_free hs]
    rfl
  · rw [show t.noticesOf st.owner = _ from retire_noticesOf hs closed _, if_pos rfl]
    rfl
  · rw [show t.noticesOf p = _ from retire_noticesOf hs closed p, if_neg other]
  · rw [← memory, ← psu, ← claims, ← link, ← lane, ← ports, ← pin, ← hold, ← pending]

end Sys2Proof.Machine
end

