-- ==== Sys2Proof/Proofs/Reset.lean ====
section
/-! SUPPORT. The statement about what a reset leaves at every block (10.4). -/

namespace Sys2Proof.Machine

/-- An entry of a vector of equal entries. -/
@[simp] theorem replicate_get {α : Type} {n : Nat} (x : α) (i : Fin n) :
    (Vector.replicate n x).get i = x := by
  simp [Vector.get]

/-- A Port Interface after a reset of the blocks: its reset values, and its transaction cut short
(R189). -/
theorem resetBlocks_port (s : State) (p : Port) : s.resetBlocks.port p = (s.port p).cutReset :=
  tabulate_get _ p

/-- A notice queue after a reset of the blocks is empty (R169). -/
theorem resetBlocks_noticesOf (s : State) (p : Port) : s.resetBlocks.noticesOf p = ⟨[], false⟩ :=
  replicate_get _ p

/-- A transaction cut short has shifted out what it had, and then shifts out fill bytes (R189). -/
theorem cutShort_shiftedOut (y : Transaction) (k : Nat) :
    y.cutShort.shiftedOut k = if k < y.shifted.length then y.shiftedOut k else 0 := by
  have shifted : y.cutShort.shifted = y.shifted := rfl
  have fill : y.cutShort.upcoming k = 0 := rfl
  simp only [Transaction.shiftedOut, shifted, fill]
  split
  · rw [List.getD_eq_getElem _ _ ‹_›, List.getD_eq_getElem _ _ ‹_›]
  · exact List.getD_eq_default _ _ (Nat.le_of_not_lt ‹_›)

/-- The charges and the quotas after a reset of the blocks (R45). -/
theorem resetBlocks_charge (s : State) (p : Port) (d : Direction) :
    s.resetBlocks.charge p d = 0 ∧ s.resetBlocks.quota p d = 18432 := by
  cases d <;> exact ⟨replicate_get 0 p, replicate_get Config.directionUnits p⟩

/-- A Port Interface after a reset: its queues empty, nothing retained or accepted, RESET_SEEN set, and a
transaction in progress cut (R189). -/
theorem cutReset_transaction (x : PortInterface) :
    (∀ t, x.cutReset.transaction = some t → ∃ y, x.transaction = some y ∧ t = y.cutShort) ∧
      ∀ y, x.transaction = some y → x.cutReset.transaction = some y.cutShort := by
  have map : x.cutReset.transaction = x.transaction.map Transaction.cutShort := rfl
  refine ⟨fun t ht => ?_, fun y hy => by rw [map, hy]; rfl⟩
  obtain ⟨y, hy, e⟩ := Option.map_eq_some_iff.mp (map ▸ ht)
  exact ⟨y, hy, e.symm⟩

/-- Settles O20: every block but the ports is at the reset value itself, and a port at its own with its
transaction cut. -/
theorem resetValues : Obligations.ResetValues := by
  intro s t
  have port : ∀ p, t.port p = (s.port p).cutReset := resetBlocks_port s
  have queue : ∀ p, t.noticesOf p = ⟨[], false⟩ := resetBlocks_noticesOf s
  refine ⟨reset_record, rfl, rfl, rfl, fun d r => ?_, resetBlocks_charge s, rfl, fun _ => rfl, rfl, rfl,
    fun h => ?_, rfl, rfl, rfl, rfl, rfl, rfl, rfl, rfl, rfl, rfl, rfl, rfl, rfl, rfl, fun p => ?_⟩
  · cases d <;> exact replicate_get 0 r
  · exact congrArg RxEntry.standing (replicate_get _ h)
  · obtain ⟨cut, going⟩ := cutReset_transaction (s.port p)
    rw [port, queue]
    refine ⟨rfl, by simp only [State.attention, port, queue]; rfl, rfl, rfl, rfl, rfl, rfl, rfl, rfl,
      fun x hx => ?_, fun y hy => ⟨_, going y hy⟩⟩
    obtain ⟨y, hy, rfl⟩ := cut x hx
    exact ⟨rfl, rfl, y, hy, rfl, rfl, cutShort_shiftedOut y⟩

end Sys2Proof.Machine
end

