-- ==== Sys2Proof/Proofs/Service.lean ====
section
/-! SUPPORT. The services in flight and the buffers they are of (R2, R55, R110): the part of the service
law that does not speak of the claims that wait, and what keeps it. -/

namespace Sys2Proof.Machine

/-! ### What names a service in flight -/

/-- What names a service in flight, in either direction: its record, the record's generation, and the
buffer (R110). -/
structure Flight where
  handle : Handle
  generation : Byte
  buffer : BufferName

/-- What names a TX service. -/
def TxFlight.flight (f : TxFlight) : Flight := ⟨f.handle, f.generation, f.buffer⟩

/-- What names an RX service. -/
def RxFlight.flight (f : RxFlight) : Flight := ⟨f.handle, f.generation, f.buffer⟩

/-- A service is in flight under this name. -/
def PeriodService.flies (u : PeriodService) (k : Flight) : Prop :=
  u.txFlight.map TxFlight.flight = some k ∨ u.rxFlight.map RxFlight.flight = some k

/-- A burst in flight keeps to its record's cells (R124). -/
def State.burstFits (s : State) (f : RxFlight) : Prop :=
  f.stored ≤ f.arrived ∧ ∀ st, s.stream f.handle = some st →
    f.stored ≤ st.params.cells ∧ (s.psu.rxTable.get f.handle).form.cells ≤ st.params.cells

/-- The buffers and the services in flight fit: the service law without the claims. -/
structure State.Fits (s : State) : Prop where
  fills : ∀ h st n, s.stream h = some st → (st.buffer n).fill ≤ st.params.cells
  named : ∀ h st n, s.stream h = some st → (st.buffer n).owner = .service →
    n = st.parity ∧ s.psu.flies ⟨h, (s.record h).generation, n⟩
  flown : ∀ k, s.psu.flies k → ∃ st, s.stream k.handle = some st ∧
    (s.record k.handle).generation = k.generation ∧ (st.buffer k.buffer).owner = .service
  apart : ∀ f g, s.psu.txFlight = some f → s.psu.rxFlight = some g → f.handle ≠ g.handle
  burst : ∀ f, s.psu.rxFlight = some f → s.burstFits f

/-- A burst received that has ended waits for its completion claim (R124). -/
def State.endedLaw (s : State) : Prop :=
  ∀ f, s.psu.rxFlight = some f → f.ended = true → .rxCompletion ∈ s.claims

/-- A service in flight, by its name. -/
theorem inFlight_iff (s : State) (h : Handle) (n : BufferName) :
    s.inFlight h n ↔ s.psu.flies ⟨h, (s.record h).generation, n⟩ := by
  unfold State.inFlight PeriodService.flies
  simp only [Option.map_eq_some_iff, TxFlight.flight, RxFlight.flight, Flight.mk.injEq]

/-- The service law is that of the buffers and the services, with what they need of the claims. -/
theorem serviceLaw_iff (s : State) :
    s.serviceLaw ↔ s.Fits ∧ s.endedLaw ∧
      Claim.ordered s.psu.txFlight.isSome s.psu.rxFlight.isSome s.claims := by
  unfold State.serviceLaw State.bufferLaw State.flightLaw
  simp only [inFlight_iff]
  constructor
  · rintro ⟨buffers, ⟨tx, apart, rx⟩, ordered⟩
    refine ⟨⟨fun h st n hs => (buffers h st hs n).1, fun h st n hs => (buffers h st hs n).2, ?_, apart,
      fun f hf => ?_⟩, fun f hf => (rx f hf).1, ordered⟩
    · rintro k (fly | fly)
      · obtain ⟨f, hf, rfl⟩ := Option.map_eq_some_iff.mp fly
        exact tx f hf
      · obtain ⟨f, hf, rfl⟩ := Option.map_eq_some_iff.mp fly
        obtain ⟨-, st, hs, generation, owner, -⟩ := rx f hf
        exact ⟨st, hs, generation, owner⟩
    · obtain ⟨-, st, hs, -, -, arrived, stored, form⟩ := rx f hf
      refine ⟨arrived, fun x hx => ?_⟩
      obtain rfl := Option.some.inj (hs.symm.trans hx)
      exact ⟨stored, form⟩
  · rintro ⟨fits, ended, ordered⟩
    refine ⟨fun h st hs n => ⟨fits.fills h st n hs, fits.named h st n hs⟩,
      ⟨fun f hf => ?_, fits.apart, fun f hf => ⟨ended f hf, ?_⟩⟩, ordered⟩
    · exact fits.flown f.flight (.inl (by rw [hf]; rfl))
    · obtain ⟨st, hs, generation, owner⟩ := fits.flown f.flight (.inr (by rw [hf]; rfl))
      obtain ⟨arrived, cells⟩ := fits.burst f hf
      exact ⟨st, hs, generation, owner, arrived, cells st hs⟩

/-! ### Records with no buffer in SERVICE -/

/-- No buffer of the record has this owner. -/
theorem hasOwner_false {st : Stream} {o : Owner} :
    st.hasOwner o = false ↔ ∀ n, (st.buffer n).owner ≠ o := by
  simp only [Stream.hasOwner, Bool.or_eq_false_iff, decide_eq_false_iff_not]
  exact ⟨fun ⟨a, b⟩ n => by cases n <;> assumption, fun h => ⟨h .a, h .b⟩⟩

/-- The record of a handle has no buffer in SERVICE. -/
def State.restsAt (s : State) (h : Handle) : Prop :=
  ∀ st, s.stream h = some st → st.hasOwner .service = false

/-- No service in flight is of a record that rests. -/
theorem State.Fits.not_flown {s : State} (fits : s.Fits) {h : Handle} (rests : s.restsAt h)
    {k : Flight} (fly : s.psu.flies k) : k.handle ≠ h := by
  rintro rfl
  obtain ⟨st, hs, -, owner⟩ := fits.flown k fly
  exact hasOwner_false.mp (rests st hs) k.buffer owner

/-- A record whose due buffer is not in SERVICE rests. -/
theorem State.Fits.rests_of_due {s : State} (fits : s.Fits) {h : Handle} {st : Stream}
    (hs : s.stream h = some st) (due : st.dueBuffer.owner ≠ .service) : s.restsAt h := by
  intro x hx
  obtain rfl := Option.some.inj (hs.symm.trans hx)
  refine hasOwner_false.mpr fun n owner => due ?_
  obtain ⟨rfl, -⟩ := fits.named h st n hs owner
  exact owner

/-- Where no service is in flight every record rests. -/
theorem State.Fits.rests_of_none {s : State} (fits : s.Fits) (tx : s.psu.txFlight = none)
    (rx : s.psu.rxFlight = none) (h : Handle) : s.restsAt h := by
  refine fun st hs => hasOwner_false.mpr fun n owner => ?_
  rcases (fits.named h st n hs owner).2 with fly | fly
  · simp [tx] at fly
  · simp [rx] at fly

/-! ### What keeps the fit -/

/-- The second unit has the services in flight of the first, with the forms of its RX table. -/
structure PeriodService.SameFlights (u v : PeriodService) : Prop where
  tx : v.txFlight = u.txFlight
  rx : v.rxFlight = u.rxFlight
  forms : ∀ h, (v.rxTable.get h).form = (u.rxTable.get h).form

theorem PeriodService.SameFlights.refl (u : PeriodService) : u.SameFlights u :=
  ⟨rfl, rfl, fun _ => rfl⟩

theorem PeriodService.SameFlights.flies_iff {u v : PeriodService} (same : u.SameFlights v)
    (k : Flight) : v.flies k ↔ u.flies k := by
  unfold PeriodService.flies
  rw [same.tx, same.rx]

/-- The second unit is the first but that services may have been dropped. -/
structure PeriodService.Drops (u v : PeriodService) : Prop where
  tx : v.txFlight = u.txFlight ∨ v.txFlight = none
  rx : v.rxFlight = u.rxFlight ∨ v.rxFlight = none
  list : v.txList = u.txList
  order : v.rxList = u.rxList
  table : v.rxTable = u.rxTable

theorem PeriodService.Drops.refl (u : PeriodService) : u.Drops u :=
  ⟨.inl rfl, .inl rfl, rfl, rfl, rfl⟩

theorem dropTx_drops (s : State) : s.psu.Drops s.dropTx.psu := ⟨.inr rfl, .inl rfl, rfl, rfl, rfl⟩

theorem dropRx_drops (s : State) : s.psu.Drops s.dropRx.psu := ⟨.inl rfl, .inr rfl, rfl, rfl, rfl⟩

/-- The same records and services fit. -/
theorem State.Fits.congr {s t : State} (fits : s.Fits) (hr : ∀ k, t.record k = s.record k)
    (same : s.psu.SameFlights t.psu) : t.Fits := by
  have hs : ∀ k, t.stream k = s.stream k := fun k => congrArg Record.stream (hr k)
  refine ⟨fun h st n => ?_, fun h st n => ?_, fun k => ?_, ?_, fun f => ?_⟩
  · rw [hs]; exact fits.fills h st n
  · rw [hs, hr, same.flies_iff]; exact fits.named h st n
  · rw [hs, hr, same.flies_iff]; exact fits.flown k
  · rw [same.tx, same.rx]; exact fits.apart
  · rw [same.rx, State.burstFits, hs, same.forms]; exact fits.burst f

/-- The same table and unit fit. -/
theorem State.Fits.of_eq {s t : State} (fits : s.Fits) (ht : t.table = s.table)
    (hu : t.psu = s.psu) : t.Fits :=
  fits.congr (record_of_table ht) (hu ▸ .refl _)

/-- A stream in place of another: the same buffers in SERVICE under the same parity and cells. -/
structure Stream.ServesAs (x y : Stream) : Prop where
  parity : y.parity = x.parity
  cells : y.params.cells = x.params.cells
  service : ∀ n, (y.buffer n).owner = .service ↔ (x.buffer n).owner = .service
  fills : ∀ n, (x.buffer n).fill ≤ x.params.cells → (y.buffer n).fill ≤ x.params.cells

/-- A stream with the same buffers, parity and parameters serves as the other. -/
theorem Stream.ServesAs.of_eq {x y : Stream} (ha : y.bufferA = x.bufferA) (hb : y.bufferB = x.bufferB)
    (hp : y.parity = x.parity) (hc : y.params = x.params) : x.ServesAs y := by
  have buffer : ∀ n, y.buffer n = x.buffer n := fun n => by cases n <;> assumption
  exact ⟨hp, by rw [hc], fun n => by rw [buffer], fun n => by rw [buffer]; exact id⟩

/-- One record goes on with the same service. -/
theorem State.Fits.of_record {s t : State} (fits : s.Fits) {h : Handle} {x y : Stream}
    (hs : s.stream h = some x) (xy : x.ServesAs y)
    (hr : ∀ k, t.record k = if k = h then ⟨(s.record h).generation, some y⟩ else s.record k)
    (same : s.psu.SameFlights t.psu) : t.Fits := by
  have ht : t.stream h = some y := by rw [State.stream, hr, if_pos rfl]
  have hg : ∀ k, (t.record k).generation = (s.record k).generation := fun k => by
    rw [hr]; split <;> simp_all
  have ho : ∀ k, k ≠ h → t.stream k = s.stream k := fun k e => by
    rw [State.stream, hr, if_neg e]; rfl
  refine ⟨fun k st n hk => ?_, fun k st n hk owner => ?_, fun k fly => ?_, ?_, fun f hf => ?_⟩
  · by_cases e : k = h
    · subst e
      obtain rfl := Option.some.inj (ht.symm.trans hk)
      rw [xy.cells]
      exact xy.fills n (fits.fills k x n hs)
    · exact fits.fills k st n (ho k e ▸ hk)
  · rw [hg, same.flies_iff]
    by_cases e : k = h
    · subst e
      obtain rfl := Option.some.inj (ht.symm.trans hk)
      rw [xy.parity]
      exact fits.named k x n hs ((xy.service n).mp owner)
    · exact fits.named k st n (ho k e ▸ hk) owner
  · rw [hg]
    obtain ⟨st, hk, generation, owner⟩ := fits.flown k ((same.flies_iff k).mp fly)
    by_cases e : k.handle = h
    · obtain rfl := Option.some.inj (hs.symm.trans (e ▸ hk))
      exact ⟨y, e ▸ ht, generation, (xy.service _).mpr owner⟩
    · exact ⟨st, (ho _ e).trans hk, generation, owner⟩
  · rw [same.tx, same.rx]; exact fits.apart
  · obtain ⟨arrived, cells⟩ := fits.burst f (same.rx ▸ hf)
    refine ⟨arrived, fun st hst => ?_⟩
    rw [same.forms]
    by_cases e : f.handle = h
    · rw [e] at hst
      obtain rfl := Option.some.inj (ht.symm.trans hst)
      rw [xy.cells]
      exact cells x (by rw [e]; exact hs)
    · exact cells st (ho _ e ▸ hst)

/-- The record of a handle replaced by one with the same service. -/
theorem setStream_fits {s : State} (fits : s.Fits) {h : Handle} {x y : Stream}
    (hs : s.stream h = some x) (xy : x.ServesAs y) : (s.setStream h y).Fits :=
  fits.of_record hs xy (fun k => by simp) (.refl _)

/-- No service is of one record any more, and the record rests, is retired or is newly opened; nothing
else changes but that a service in flight may be dropped. -/
theorem State.Fits.of_rest {s t : State} (fits : s.Fits) {h : Handle}
    (others : ∀ k, k ≠ h → t.record k = s.record k)
    (still : ∀ k, t.psu.flies k ↔ s.psu.flies k ∧ k.handle ≠ h)
    (after : ∀ st, t.stream h = some st →
      st.hasOwner .service = false ∧ ∀ n, (st.buffer n).fill ≤ st.params.cells)
    (drops : s.psu.Drops t.psu) : t.Fits := by
  have ho : ∀ k, k ≠ h → t.stream k = s.stream k := fun k e => by
    rw [State.stream, others k e]; rfl
  have tx_some : ∀ f, t.psu.txFlight = some f → s.psu.txFlight = some f := fun f hf =>
    (drops.tx.resolve_right fun none => nomatch none.symm.trans hf) ▸ hf
  have rx_some : ∀ f, t.psu.rxFlight = some f → s.psu.rxFlight = some f := fun f hf =>
    (drops.rx.resolve_right fun none => nomatch none.symm.trans hf) ▸ hf
  refine ⟨fun k st n hk => ?_, fun k st n hk owner => ?_, fun k fly => ?_, fun f g hf hg => ?_,
    fun f hf => ?_⟩
  · by_cases e : k = h
    · exact (after st (e ▸ hk)).2 n
    · exact fits.fills k st n (ho k e ▸ hk)
  · by_cases e : k = h
    · exact absurd owner (hasOwner_false.mp (after st (e ▸ hk)).1 n)
    · rw [still, others k e]
      obtain ⟨parity, fly⟩ := fits.named k st n (ho k e ▸ hk) owner
      exact ⟨parity, fly, e⟩
  · obtain ⟨flew, e⟩ := (still k).mp fly
    rw [ho _ e, others _ e]
    exact fits.flown k flew
  · exact fits.apart f g (tx_some f hf) (rx_some g hg)
  · obtain ⟨arrived, cells⟩ := fits.burst f (rx_some f hf)
    have e : f.handle ≠ h := ((still f.flight).mp (.inr (by rw [hf]; rfl))).2
    refine ⟨arrived, fun st hst => ?_⟩
    rw [drops.table]
    exact cells st (ho _ e ▸ hst)

/-- A record that rests is changed, retired or opened, and no service. -/
theorem State.Fits.of_rest_same {s t : State} (fits : s.Fits) {h : Handle} (rests : s.restsAt h)
    (others : ∀ k, k ≠ h → t.record k = s.record k)
    (after : ∀ st, t.stream h = some st →
      st.hasOwner .service = false ∧ ∀ n, (st.buffer n).fill ≤ st.params.cells)
    (hu : t.psu = s.psu) : t.Fits :=
  fits.of_rest others
    (fun k => by rw [hu]; exact ⟨fun fly => ⟨fly, fits.not_flown rests fly⟩, And.left⟩)
    after (hu ▸ .refl _)

/-! ### The shared operations -/

/-- The retirement of a record that rests. -/
theorem retire_fits {s : State} (fits : s.Fits) {h : Handle} (rests : s.restsAt h) (c : Bool) :
    (s.retire h c).Fits := by
  have record := record_of_table (retire_table s h c)
  refine fits.of_rest_same rests (fun k e => ?_) (fun st hst => ?_) (s.retire_keeps h c).2.2.2.1
  · rw [record, vacate_record, if_neg fun c => e c.1]
  · rw [retire_stream, if_pos rfl] at hst; cases hst

/-- A miss. -/
theorem miss_fits {s : State} (fits : s.Fits) (h : Handle) (c : MissCause) : (s.miss h c).Fits := by
  have psu : (s.miss h c).psu = s.psu := by simp
  have record := miss_record s h (c := c)
  cases hs : s.stream h with
  | none =>
    refine fits.congr (fun k => ?_) (psu ▸ .refl _)
    rw [record]
    split
    · subst_vars; rw [hs]; exact (record_of_vacant hs).symm
    · rfl
  | some x =>
    exact fits.of_record hs (.of_eq (y := x.missed) rfl rfl rfl rfl) (by simpa [hs] using record)
      (psu ▸ .refl _)

/-- A notice of an optional kind. -/
theorem notifyIf_fits {s : State} (fits : s.Fits) (c : Bool) (p : Port) (x : Report) :
    (s.notifyIf c p x).Fits := by
  obtain ⟨table, -, -, psu, -⟩ := s.notifyIf_keeps c p x
  exact fits.of_eq table psu

/-- A withdrawal. -/
theorem withdrawAmendment_fits {s : State} (fits : s.Fits) (h : Handle) :
    (s.withdrawAmendment h).Fits := by
  have psu : (s.withdrawAmendment h).psu = s.psu := by simp
  have record := withdrawAmendment_record s h
  cases hs : s.stream h with
  | none =>
    refine fits.congr (fun k => ?_) (psu ▸ .refl _)
    rw [record]
    split
    · subst_vars; rw [hs]; exact (record_of_vacant hs).symm
    · rfl
  | some x =>
    exact fits.of_record hs (.of_eq (y := x.withdrawn) rfl rfl rfl rfl) (by simpa [hs] using record)
      (psu ▸ .refl _)

/-- The retirement at the end of a service, of a record that rests by then. -/
theorem closeAfterService_fits {s : State} (fits : s.Fits) {h : Handle} (rests : s.restsAt h) :
    (s.closeAfterService h).Fits := by
  unfold State.closeAfterService
  split
  · split
    · exact retire_fits fits rests true
    · exact fits
  · exact fits

/-- A stream in its new form rests as the old one does, with fills within the new cells (R101, R102). -/
theorem reshape_rests {st : Stream} (rests : st.hasOwner .service = false) (x : Params)
    (g : Option (Extent × Extent)) :
    (st.reshape x g).hasOwner .service = false ∧
      ∀ n, ((st.reshape x g).buffer n).fill ≤ (st.reshape x g).params.cells := by
  unfold Stream.reshape
  cases g with
  | none => exact ⟨rests, fun n => by cases n <;> exact Nat.min_le_right _ _⟩
  | some p => exact ⟨rfl, fun n => by cases n <;> exact Nat.zero_le _⟩

/-- A record that rests takes a new form. -/
theorem reshape_fits {s : State} (fits : s.Fits) {h : Handle} {st : Stream}
    (hs : s.stream h = some st) (rests : st.hasOwner .service = false) (x : Params)
    (g : Option (Extent × Extent)) : (s.reshape h st x g).Fits := by
  have record := reshape_record s h st x g
  refine fits.of_rest_same (h := h) (fun y hy => ?_) (fun k e => ?_) (fun y hy => ?_)
    (s.reshape_keeps h st x g).2.2.2.1
  · obtain rfl := Option.some.inj (hs.symm.trans hy)
    exact rests
  · rw [record, if_neg e]
  · rw [State.stream, record, if_pos rfl] at hy
    cases hy
    exact reshape_rests rests x g

/-! ### Services dropped -/

/-- Without the TX service that of the RX direction is left. -/
theorem dropTx_flies {s : State} (fits : s.Fits) {f : TxFlight} (hf : s.psu.txFlight = some f)
    (k : Flight) : s.dropTx.psu.flies k ↔ s.psu.flies k ∧ k.handle ≠ f.handle := by
  unfold PeriodService.flies
  simp only [State.dropTx, Option.map_none, reduceCtorEq, false_or, hf, Option.map_some]
  constructor
  · intro fly
    obtain ⟨g, hg, rfl⟩ := Option.map_eq_some_iff.mp fly
    exact ⟨.inr fly, (fits.apart f g hf hg).symm⟩
  · rintro ⟨fly | fly, e⟩
    · cases fly; exact absurd rfl e
    · exact fly

/-- Without the RX service that of the TX direction is left. -/
theorem dropRx_flies {s : State} (fits : s.Fits) {f : RxFlight} (hf : s.psu.rxFlight = some f)
    (k : Flight) : s.dropRx.psu.flies k ↔ s.psu.flies k ∧ k.handle ≠ f.handle := by
  unfold PeriodService.flies
  simp only [State.dropRx, Option.map_none, reduceCtorEq, or_false, hf, Option.map_some]
  constructor
  · intro fly
    obtain ⟨g, hg, rfl⟩ := Option.map_eq_some_iff.mp fly
    exact ⟨.inl fly, fits.apart g f hg hf⟩
  · rintro ⟨fly | fly, e⟩
    · exact fly
    · cases fly; exact absurd rfl e

/-- A stream rests whose only buffer in SERVICE has got another owner. -/
theorem setBuffer_rests {st : Stream} {n : BufferName} {b : Buffer} (hb : b.owner ≠ .service)
    (only : ∀ m, (st.buffer m).owner = .service → m = n) :
    (st.setBuffer n b).hasOwner .service = false := by
  refine hasOwner_false.mpr fun m owner => ?_
  cases n <;> cases m
  · exact hb owner
  · cases only .b owner
  · cases only .a owner
  · exact hb owner

/-- The record of a TX service, the service dropped and its record at rest. -/
theorem dropTx_fits {s : State} (fits : s.Fits) {f : TxFlight} (hf : s.psu.txFlight = some f)
    {y : Stream} (rests : y.hasOwner .service = false)
    (fills : ∀ n, (y.buffer n).fill ≤ y.params.cells) : (s.dropTx.setStream f.handle y).Fits := by
  refine fits.of_rest (h := f.handle) (fun k e => ?_) (dropTx_flies fits hf) (fun st hst => ?_)
    (dropTx_drops s)
  · rw [State.setStream_record, if_neg e]; rfl
  · rw [State.setStream_stream, if_pos rfl] at hst
    cases hst
    exact ⟨rests, fills⟩

/-- The record of an RX service, the service dropped and its record at rest. -/
theorem dropRx_fits {s : State} (fits : s.Fits) {f : RxFlight} (hf : s.psu.rxFlight = some f)
    {y : Stream} (rests : y.hasOwner .service = false)
    (fills : ∀ n, (y.buffer n).fill ≤ y.params.cells) : (s.dropRx.setStream f.handle y).Fits := by
  refine fits.of_rest (h := f.handle) (fun k e => ?_) (dropRx_flies fits hf) (fun st hst => ?_)
    (dropRx_drops s)
  · rw [State.setStream_record, if_neg e]; rfl
  · rw [State.setStream_stream, if_pos rfl] at hst
    cases hst
    exact ⟨rests, fills⟩

end Sys2Proof.Machine
end

