-- ==== Sys2Proof/Proofs/ServiceBegin.lean ====
section
/-! SUPPORT. A service begun, in either direction, keeps the buffers and the services in flight fitting
(R118, R124). -/

namespace Sys2Proof.Machine

/-! ### Services begun -/

/-- A service begins on the due buffer of a record that rests. -/
theorem State.Fits.begin {s t : State} (fits : s.Fits) {h : Handle} {x y : Stream}
    (hs : s.stream h = some x) (rests : s.restsAt h)
    (hr : ∀ k, t.record k = if k = h then ⟨(s.record h).generation, some y⟩ else s.record k)
    (service : ∀ n, (y.buffer n).owner = .service ↔ n = y.parity)
    (fills : ∀ n, (y.buffer n).fill ≤ y.params.cells)
    (flies : ∀ k, t.psu.flies k ↔ s.psu.flies k ∨ k = ⟨h, (s.record h).generation, y.parity⟩)
    (apart : ∀ f g, t.psu.txFlight = some f → t.psu.rxFlight = some g → f.handle ≠ g.handle)
    (burst : ∀ f, t.psu.rxFlight = some f → t.burstFits f) : t.Fits := by
  have ht : t.stream h = some y := by rw [State.stream, hr, if_pos rfl]
  have hg : ∀ k, (t.record k).generation = (s.record k).generation := fun k => by
    rw [hr]; split <;> simp_all
  have ho : ∀ k, k ≠ h → t.stream k = s.stream k := fun k e => by
    rw [State.stream, hr, if_neg e]; rfl
  refine ⟨fun k st n hk => ?_, fun k st n hk owner => ?_, fun k fly => ?_, apart, burst⟩
  · by_cases e : k = h
    · subst e
      obtain rfl := Option.some.inj (ht.symm.trans hk)
      exact fills n
    · exact fits.fills k st n (ho k e ▸ hk)
  · rw [hg, flies]
    by_cases e : k = h
    · subst e
      obtain rfl := Option.some.inj (ht.symm.trans hk)
      have due := (service n).mp owner
      exact ⟨due, .inr (by rw [due])⟩
    · obtain ⟨parity, fly⟩ := fits.named k st n (ho k e ▸ hk) owner
      exact ⟨parity, .inl fly⟩
  · rw [hg]
    rcases (flies k).mp fly with fly | rfl
    · rw [ho _ (fits.not_flown rests fly)]
      exact fits.flown k fly
    · exact ⟨y, ht, rfl, (service _).mpr rfl⟩

/-- The one buffer put in SERVICE of a stream at rest is its only one there. -/
theorem setBuffer_service {st : Stream} (rests : st.hasOwner .service = false) {m : BufferName}
    {b : Buffer} (hb : b.owner = .service) (n : BufferName) :
    ((st.setBuffer m b).buffer n).owner = .service ↔ n = m := by
  have idle := hasOwner_false.mp rests
  cases m <;> cases n
  · exact ⟨fun _ => rfl, fun _ => hb⟩
  · exact ⟨fun o => absurd o (idle .b), fun e => nomatch e⟩
  · exact ⟨fun o => absurd o (idle .a), fun e => nomatch e⟩
  · exact ⟨fun _ => rfl, fun _ => hb⟩

/-- The fills of a stream with one buffer replaced. -/
theorem setBuffer_fills {st : Stream} {c : Nat} (fills : ∀ n, (st.buffer n).fill ≤ c)
    (m : BufferName) {b : Buffer} (hb : b.fill ≤ c) (n : BufferName) :
    ((st.setBuffer m b).buffer n).fill ≤ c := by
  cases m <;> cases n
  · exact hb
  · exact fills .b
  · exact fills .a
  · exact hb

/-- The replacement of a buffer leaves the next parity and the parameters. -/
@[simp] theorem setBuffer_keeps (st : Stream) (n : BufferName) (b : Buffer) :
    (st.setBuffer n b).parity = st.parity ∧ (st.setBuffer n b).params = st.params := by
  cases n <;> exact ⟨rfl, rfl⟩

/-- The stream whose due buffer is in SERVICE for a burst to send (R118). -/
def Stream.begunTx (st : Stream) (offset : Nat) : Stream :=
  { st.setBuffer st.parity { st.dueBuffer with owner := .service } with lastSlot := some offset }

/-- The start of a burst puts its record's due buffer in SERVICE. -/
theorem startBurst_record (s : State) (e : TxEntry) (st : Stream) (k : Handle) :
    (s.startBurst e st).record k =
      if k = e.handle then ⟨(s.record e.handle).generation, some (st.begunTx e.offset)⟩
      else s.record k :=
  State.setStream_record s e.handle k (st.begunTx e.offset)

/-- A stream begun for a burst to send keeps its next parity and its parameters. -/
theorem begunTx_keeps (st : Stream) (offset : Nat) :
    (st.begunTx offset).parity = st.parity ∧ (st.begunTx offset).params = st.params :=
  setBuffer_keeps st st.parity { st.dueBuffer with owner := .service }

/-- A burst begins on a due buffer in LINK (R118). -/
theorem startBurst_fits {s : State} (fits : s.Fits) (tx : s.psu.txFlight = none) {e : TxEntry}
    {st : Stream} (hs : s.stream e.handle = some st) (due : st.dueBuffer.owner = .link)
    (hg : (s.record e.handle).generation = e.generation) : (s.startBurst e st).Fits := by
  have restsAt : s.restsAt e.handle := fits.rests_of_due hs (by simp [due])
  have fills := fun n => fits.fills e.handle st n hs
  obtain ⟨parity, params⟩ := begunTx_keeps st e.offset
  have apart : ∀ g, s.psu.rxFlight = some g → g.handle ≠ e.handle := fun g hg =>
    fits.not_flown restsAt (k := g.flight) (.inr (by rw [hg]; rfl))
  refine fits.begin hs restsAt (startBurst_record s e st) (fun n => ?_) (fun n => ?_) (fun k => ?_)
    (fun f g hf hr => ?_) fun f hf => ?_
  · rw [parity]
    exact setBuffer_service (restsAt st hs) (b := { st.dueBuffer with owner := .service }) rfl n
  · rw [params]
    exact setBuffer_fills fills st.parity (b := { st.dueBuffer with owner := .service })
      (fills st.parity) n
  · rw [parity, hg]
    unfold PeriodService.flies
    rw [tx]
    change some _ = some k ∨ _ ↔ (none = some k ∨ _) ∨ _
    simp only [TxFlight.flight, reduceCtorEq, false_or, Option.some.injEq]
    rw [or_comm, eq_comm (a := k)]
    rfl
  · obtain rfl : ⟨e.handle, e.generation, st.parity, st.dueBuffer.fill⟩ = f := Option.some.inj hf
    exact (apart g hr).symm
  · obtain ⟨arrived, cells⟩ := fits.burst f hf
    refine ⟨arrived, fun x hx => cells x ?_⟩
    rwa [State.stream, startBurst_record, if_neg (apart f hf)] at hx

/-- A service start with no burst in flight (R117). -/
theorem takeServiceStart_fits {s : State} (fits : s.Fits) (tx : s.psu.txFlight = none) (e : TxEntry) :
    (s.takeServiceStart e).Fits := by
  have stage : ∀ {t : State} (cells : List LaneCell), t.Fits → (t.stage cells).Fits :=
    fun _ fits => fits.of_eq rfl rfl
  unfold State.takeServiceStart
  split
  · exact stage _ fits
  · rename_i st hs
    split
    · exact stage _ fits
    split
    · exact stage _ fits
    split
    · exact stage _ fits
    rename_i hg _ _
    split
    · exact startBurst_fits fits tx hs ‹_› (not_not.mp hg)
    · rename_i due
      split
      · exact stage _ (miss_fits fits _ _)
      · exact stage _ (retire_fits fits (fits.rests_of_due hs (by simp [due])) _)
    · exact stage _ fits

/-- A service start touches the Period Service Unit in its TX service alone. -/
theorem takeServiceStart_psu (s : State) (e : TxEntry) :
    ∃ x, (s.takeServiceStart e).psu = { s.psu with txFlight := x } := by
  unfold State.takeServiceStart
  split
  · exact ⟨_, rfl⟩
  split
  · exact ⟨_, rfl⟩
  split
  · exact ⟨_, rfl⟩
  split
  · exact ⟨_, rfl⟩
  split
  · exact ⟨_, rfl⟩
  · split
    · exact ⟨s.psu.txFlight, by simp⟩
    · exact ⟨s.psu.txFlight, by simp⟩
  · exact ⟨_, rfl⟩

/-- The turn of an entry with no burst in flight. -/
theorem startNext_fits {s : State} (fits : s.Fits) (tx : s.psu.txFlight = none) (e : TxEntry) :
    (s.startNext e).Fits := by
  have moved : ({ s with psu := { s.psu with txNext := s.psu.txNext + 1 } } : State).Fits :=
    fits.congr (fun _ => rfl) ⟨rfl, rfl, fun _ => rfl⟩
  unfold State.startNext
  dsimp only
  split
  · exact moved.of_eq rfl rfl
  · exact takeServiceStart_fits moved tx e

/-- The turn of an entry touches the Period Service Unit in the next turn and the TX service alone. -/
theorem startNext_psu (s : State) (e : TxEntry) :
    ∃ n x, (s.startNext e).psu = { s.psu with txNext := n, txFlight := x } := by
  unfold State.startNext
  dsimp only
  split
  · exact ⟨_, _, rfl⟩
  · obtain ⟨x, hx⟩ := takeServiceStart_psu
      { s with psu := { s.psu with txNext := s.psu.txNext + 1 } } e
    exact ⟨_, x, hx⟩

/-- The stream whose due buffer is in SERVICE for a burst that arrives (R124). -/
def Stream.begunRx (st : Stream) : Stream :=
  st.setBuffer st.parity { st.dueBuffer with owner := .service, fill := 0 }

/-- A match puts its record's due buffer in SERVICE. -/
theorem startReceive_record (s : State) (h : Handle) (st : Stream) (count : Nat) (k : Handle) :
    (s.startReceive h st count).record k =
      if k = h then ⟨(s.record h).generation, some st.begunRx⟩ else s.record k :=
  State.setStream_record s h k st.begunRx

/-- A stream begun for a burst that arrives keeps its next parity and its parameters. -/
theorem begunRx_keeps (st : Stream) :
    st.begunRx.parity = st.parity ∧ st.begunRx.params = st.params :=
  setBuffer_keeps st st.parity { st.dueBuffer with owner := .service, fill := 0 }

/-- A burst that arrives begins on a due buffer in LINK (R124). -/
theorem startReceive_fits {s : State} (fits : s.Fits) (rx : s.psu.rxFlight = none) {h : Handle}
    {st : Stream} (hs : s.stream h = some st) (due : st.dueBuffer.owner = .link)
    (form : (s.psu.rxTable.get h).form.cells ≤ st.params.cells) (count : Nat) :
    (s.startReceive h st count).Fits := by
  have restsAt : s.restsAt h := fits.rests_of_due hs (by simp [due])
  have fills := fun n => fits.fills h st n hs
  obtain ⟨parity, params⟩ := begunRx_keeps st
  refine fits.begin hs restsAt (startReceive_record s h st count) (fun n => ?_) (fun n => ?_)
    (fun k => ?_) (fun f g hf hr => ?_) fun f hf => ?_
  · rw [parity]
    exact setBuffer_service (restsAt st hs) rfl n
  · rw [params]
    exact setBuffer_fills fills st.parity (Nat.zero_le _) n
  · rw [parity]
    unfold PeriodService.flies
    rw [rx]
    change _ ∨ some _ = some k ↔ (_ ∨ none = some k) ∨ _
    simp only [RxFlight.flight, reduceCtorEq, or_false, Option.some.injEq]
    rw [eq_comm (a := k)]
    rfl
  · obtain rfl : _ = g := Option.some.inj hr
    exact fits.not_flown restsAt (k := f.flight) (.inl (by
      rw [show s.psu.txFlight = some f from hf]; rfl))
  · obtain rfl : _ = f := Option.some.inj hf
    refine ⟨Nat.le_refl 0, fun x hx => ?_⟩
    rw [State.stream, startReceive_record, if_pos rfl] at hx
    cases hx
    rw [params]
    exact ⟨Nat.zero_le _, form⟩

end Sys2Proof.Machine
end

