-- ==== Sys2Proof/Proofs/ServiceClaims.lean ====
section
/-! SUPPORT. Every claim keeps the law of service, and the claims taken leave none waiting. -/

namespace Sys2Proof.Machine

/-! ### The law of service -/

/-- The law of service, and that of the link not UP, taken apart. -/
structure State.Sound (s : State) : Prop where
  idle : s.idleLaw
  fits : s.Fits
  ended : s.endedLaw
  ordered : Claim.ordered s.psu.txFlight.isSome s.psu.rxFlight.isSome s.claims

theorem sound_iff (s : State) : s.Sound ↔ s.idleLaw ∧ s.serviceLaw := by
  rw [serviceLaw_iff]
  exact ⟨fun ⟨i, f, e, o⟩ => ⟨i, f, e, o⟩, fun ⟨i, f, e, o⟩ => ⟨i, f, e, o⟩⟩

/-- The same table, unit, claims and link state are as sound. -/
theorem State.Sound.of_eq {s t : State} (sound : s.Sound) (ht : t.table = s.table)
    (hu : t.psu = s.psu) (hc : t.claims = s.claims) (hl : t.link.state = s.link.state) : t.Sound where
  idle := by unfold State.idleLaw; rw [hu, hl]; exact sound.idle
  fits := sound.fits.of_eq ht hu
  ended := by unfold State.endedLaw; rw [hu, hc]; exact sound.ended
  ordered := by rw [hu, hc]; exact sound.ordered

/-- While the link is UP its law asks nothing of the Period Service Unit. -/
theorem idleLaw_of_up {s : State} (up : s.link.state = .up) : s.idleLaw := fun e => absurd up e

/-- The law of the link not UP, on the same unit but for services dropped. -/
theorem idleLaw_of_drops {s t : State} (idle : s.idleLaw) (hl : t.link.state = s.link.state)
    (drops : s.psu.Drops t.psu) : t.idleLaw := by
  intro down
  obtain ⟨list, order, standings, tx, rx⟩ := idle (hl ▸ down)
  refine ⟨drops.list ▸ list, drops.order ▸ order, drops.table ▸ standings, ?_, ?_⟩
  · exact drops.tx.elim (fun e => e.trans tx) id
  · exact drops.rx.elim (fun e => e.trans rx) id

/-- Where no burst is being received none has ended. -/
theorem endedLaw_of_none {s : State} (rx : s.psu.rxFlight = none) : s.endedLaw :=
  fun _ hf => (nomatch rx.symm.trans hf)

/-- Where no burst that is being received has ended no claim needs to wait. -/
theorem endedLaw_of_live {s : State} (live : ∀ f, s.psu.rxFlight = some f → f.ended = false) :
    s.endedLaw := fun f hf ended => by
  rw [live f hf] at ended; cases ended

/-! ### The claims of the Period Service Unit -/

/-- The standings cleared are NONE. -/
theorem clearStandings_standing (t : Vector RxEntry 64) (h : Handle) :
    ((clearStandings t).get h).standing = .none := by
  rw [clearStandings, tabulate_get]

/-- The standings cleared leave the forms. -/
theorem clearStandings_form (t : Vector RxEntry 64) (h : Handle) :
    ((clearStandings t).get h).form = (t.get h).form := by
  rw [clearStandings, tabulate_get]

/-- Other lists, where no service is in flight, fit. -/
theorem State.Fits.of_none {s t : State} (fits : s.Fits) (tx : s.psu.txFlight = none)
    (rx : s.psu.rxFlight = none) (hr : ∀ k, t.record k = s.record k)
    (htx : t.psu.txFlight = none) (hrx : t.psu.rxFlight = none) : t.Fits := by
  have none : ∀ k, ¬t.psu.flies k := fun k fly => by
    rcases fly with e | e
    · simp [htx] at e
    · simp [hrx] at e
  have hs : ∀ k, t.stream k = s.stream k := fun k => congrArg Record.stream (hr k)
  refine ⟨fun h st n hst => fits.fills h st n (hs h ▸ hst), fun h st n hst owner => ?_,
    fun k fly => absurd fly (none k), fun f _ hf => (nomatch htx.symm.trans hf),
    fun f hf => (nomatch hrx.symm.trans hf)⟩
  exact absurd owner (hasOwner_false.mp (fits.rests_of_none tx rx h st (hs h ▸ hst)) n)

/-- The take-effect of an amendment where no service is in flight. -/
theorem takeEffect_fits {s : State} (fits : s.Fits) (tx : s.psu.txFlight = none)
    (rx : s.psu.rxFlight = none) (m : Period) (h : Handle) : (s.takeEffect m h).Fits := by
  unfold State.takeEffect
  split
  · rename_i st hs
    split
    · split
      · exact (reshape_fits fits hs (fits.rests_of_none tx rx h st hs) _ _).of_eq rfl rfl
      · exact fits
    · exact fits
  · exact fits

/-- The amendments that take effect at a mark leave the services in flight, of which there is none. -/
theorem takeEffects_fits {s : State} (fits : s.Fits) (tx : s.psu.txFlight = none)
    (rx : s.psu.rxFlight = none) (m : Period) : (handles.foldl (State.takeEffect m) s).Fits := by
  have kept : (handles.foldl (State.takeEffect m) s).Fits ∧
      (handles.foldl (State.takeEffect m) s).psu = s.psu :=
    List.foldlRecOn (motive := fun t : State => t.Fits ∧ t.psu = s.psu) handles _ ⟨fits, rfl⟩
      fun t ht h _ => ⟨takeEffect_fits ht.1 (ht.2 ▸ tx) (ht.2 ▸ rx) m h, by simp [ht.2]⟩
  exact kept.1

/-- The mark processing claim, where no service is in flight and no other claim waits. -/
theorem takeMarkProcessing_sound {s : State} (fits : s.Fits) (tx : s.psu.txFlight = none)
    (rx : s.psu.rxFlight = none) (claims : s.claims = []) (n : Period) :
    (s.takeMarkProcessing n).Sound := by
  have effects := takeEffects_fits fits tx rx n
  have kept := foldl_keeps (State.takeEffect n) (fun t => (t.psu, t.claims, t.link))
    (by simp) handles s
  simp only [Prod.mk.injEq] at kept
  unfold State.takeMarkProcessing
  dsimp only
  generalize handles.foldl (State.takeEffect n) s = t at effects kept
  obtain ⟨psu, waits, link⟩ := kept
  rw [← psu] at tx rx
  rw [← waits] at claims
  split
  · rename_i up
    have warned := foldl_keeps (State.starveWarning n) (fun t => (t.table, t.psu, t.claims, t.link))
      (by simp) handles (t.buildLists n)
    simp only [Prod.mk.injEq] at warned
    generalize handles.foldl (State.starveWarning n) (t.buildLists n) = u at warned
    obtain ⟨table, psu', waits', link'⟩ := warned
    have built : u.Fits := effects.of_none tx rx (record_of_table table) (by rw [psu']; exact tx)
      (by rw [psu']; exact rx)
    have tx' : u.psu.txFlight = none := by rw [psu']; exact tx
    have rx' : u.psu.rxFlight = none := by rw [psu']; exact rx
    have none' : u.claims = [] := waits'.trans claims
    unfold State.openList
    split
    · exact ⟨idleLaw_of_up (by rw [link']; exact up), built, endedLaw_of_none rx',
        by rw [none']; trivial⟩
    · exact ⟨idleLaw_of_up (by rw [State.makeClaim_link, link']; exact up), built.of_eq rfl rfl,
        endedLaw_of_none rx', by
          rw [State.makeClaim_psu, State.makeClaim, none', tx']
          exact ⟨rfl, rfl⟩⟩
  · refine ⟨fun _ => ⟨rfl, rfl, clearStandings_standing _, tx, rx⟩,
      effects.of_none (t := t.dropLists) tx rx (fun _ => rfl) tx rx,
      endedLaw_of_none (s := t.dropLists) rx, ?_⟩
    rw [State.dropLists_claims, claims]; trivial

/-- The service-start claim, where no burst is in flight and no other claim waits. -/
theorem takeNextStart_sound {s : State} (idle : s.idleLaw) (fits : s.Fits)
    (tx : s.psu.txFlight = none) (live : ∀ f, s.psu.rxFlight = some f → f.ended = false)
    (claims : s.claims = []) : s.takeNextStart.Sound := by
  unfold State.takeNextStart
  split
  · rename_i e he
    have up : s.link.state = .up := by
      by_contra down
      simp [State.nextEntry, (idle down).1] at he
    obtain ⟨n, x, psu⟩ := startNext_psu s e
    have rx : (s.startNext e).psu.rxFlight = s.psu.rxFlight := by rw [psu]
    refine ⟨idleLaw_of_up (by simp [up]), startNext_fits fits tx e,
      endedLaw_of_live fun f hf => live f (rx ▸ hf), ?_⟩
    · rw [(s.startNext_keeps e).2.2.2.1, claims]; trivial
  · exact ⟨idle, fits, endedLaw_of_live live, by rw [claims]; trivial⟩

/-- The only buffer in SERVICE of the record of a service in flight is the one it names. -/
theorem State.Fits.only {s : State} (fits : s.Fits) {k : Flight} (fly : s.psu.flies k) {st : Stream}
    (hs : s.stream k.handle = some st) (m : BufferName) (owner : (st.buffer m).owner = .service) :
    m = k.buffer := by
  obtain ⟨x, hx, -, owner'⟩ := fits.flown k fly
  obtain rfl := Option.some.inj (hs.symm.trans hx)
  exact (fits.named _ _ _ hs owner).1.trans (fits.named _ _ _ hs owner').1.symm

/-- The record of a service in flight is open under its generation. -/
theorem State.Fits.not_stale {s : State} (fits : s.Fits) {k : Flight} (fly : s.psu.flies k)
    (stale : ∀ st, s.stream k.handle = some st → (s.record k.handle).generation ≠ k.generation) :
    False := by
  obtain ⟨st, hs, generation, -⟩ := fits.flown k fly
  exact stale st hs generation

/-- The TX completion claim leaves no TX service in flight, and the rest of the unit alone. -/
theorem takeTxCompletion_psu (s : State) : s.takeTxCompletion.psu = s.dropTx.psu := by
  rcases takeTxCompletion_cases s with ⟨none, e⟩ | ⟨f, -, ⟨-, e⟩ | ⟨st, -, -, e⟩⟩
  · rw [e, State.dropTx, ← none]
  · rw [e]
  · rw [e]; simp

/-- The RX completion claim leaves no RX service in flight, and the rest of the unit alone. -/
theorem takeRxCompletion_psu (s : State) : s.takeRxCompletion.psu = s.dropRx.psu := by
  rcases takeRxCompletion_cases s with ⟨none, e⟩ | ⟨f, -, ⟨-, e⟩ | ⟨st, -, -, ⟨-, e⟩ | ⟨-, e⟩⟩⟩
  · rw [e, State.dropRx, ← none]
  · rw [e]
  · rw [e]; simp
  · rw [e]; simp

/-- The TX completion claim: the record of the burst rests, and may retire (R119). -/
theorem takeTxCompletion_fits {s : State} (fits : s.Fits) : s.takeTxCompletion.Fits := by
  rcases takeTxCompletion_cases s with ⟨-, e⟩ | ⟨f, hf, ⟨stale, e⟩ | ⟨st, hs, -, e⟩⟩ <;> rw [e]
  · exact fits
  · exact (fits.not_stale (k := f.flight) (.inl (by rw [hf]; rfl)) stale).elim
  · have rests : (st.completeTx f.buffer).hasOwner .service = false :=
      setBuffer_rests (b := { st.buffer f.buffer with owner := .host }) (by simp)
        (fits.only (k := f.flight) (.inl (by rw [hf]; rfl)) hs)
    have done := dropTx_fits fits hf rests fun n => by
      rw [show (st.completeTx f.buffer).params = st.params from (setBuffer_keeps st _ _).2]
      exact setBuffer_fills (fun m => fits.fills _ st m hs) f.buffer
        (b := { st.buffer f.buffer with owner := .host }) (fits.fills _ st f.buffer hs) n
    refine closeAfterService_fits (notifyIf_fits done _ _ _) fun x hx => ?_
    rw [notifyIf_stream, State.setStream_stream, if_pos rfl] at hx
    cases hx
    exact rests

/-- The RX completion claim: the record of the burst rests, and may retire (R125, R126). -/
theorem takeRxCompletion_fits {s : State} (fits : s.Fits) : s.takeRxCompletion.Fits := by
  rcases takeRxCompletion_cases s with ⟨-, e⟩ | ⟨f, hf, ⟨stale, e⟩ | ⟨st, hs, -, ⟨-, e⟩ | ⟨-, e⟩⟩⟩ <;>
    rw [e]
  · exact fits
  · exact (fits.not_stale (k := f.flight) (.inr (by rw [hf]; rfl)) stale).elim
  · have rests : (st.damageRx f.buffer f.excess).hasOwner .service = false :=
      setBuffer_rests (b := { st.buffer f.buffer with owner := .link, fill := 0 }) (by simp)
        (fits.only (k := f.flight) (.inr (by rw [hf]; rfl)) hs)
    have done := dropRx_fits fits hf rests fun n => by
      rw [show (st.damageRx f.buffer f.excess).params = st.params from (setBuffer_keeps st _ _).2]
      exact setBuffer_fills (fun m => fits.fills _ st m hs) f.buffer
        (b := { st.buffer f.buffer with owner := .link, fill := 0 }) (Nat.zero_le _) n
    refine closeAfterService_fits (miss_fits done _ _) fun x hx => ?_
    rw [miss_stream, if_pos rfl, State.setStream_stream, if_pos rfl] at hx
    cases hx
    exact rests
  · have rests : (st.completeRx f.buffer f.stored).hasOwner .service = false :=
      setBuffer_rests (b := { st.buffer f.buffer with owner := .host, fill := f.stored }) (by simp)
        (fits.only (k := f.flight) (.inr (by rw [hf]; rfl)) hs)
    have done := dropRx_fits fits hf rests fun n => by
      rw [show (st.completeRx f.buffer f.stored).params = st.params from (setBuffer_keeps st _ _).2]
      exact setBuffer_fills (fun m => fits.fills _ st m hs) f.buffer
        (b := { st.buffer f.buffer with owner := .host, fill := f.stored })
        ((fits.burst f hf).2 st hs).1 n
    refine closeAfterService_fits (notifyIf_fits done _ _ _) fun x hx => ?_
    rw [notifyIf_stream, State.setStream_stream, if_pos rfl] at hx
    cases hx
    exact rests

/-- The TX completion claim, before claims in order without a TX service. -/
theorem takeTxCompletion_sound {s : State} (idle : s.idleLaw) (fits : s.Fits) (ended : s.endedLaw)
    (ordered : Claim.ordered false s.psu.rxFlight.isSome s.claims) : s.takeTxCompletion.Sound := by
  have psu := takeTxCompletion_psu s
  have keeps := s.takeTxCompletion_keeps
  refine ⟨idleLaw_of_drops idle (by simp) (psu ▸ dropTx_drops s), takeTxCompletion_fits fits, ?_, ?_⟩
  · unfold State.endedLaw
    rw [psu, keeps.2.2.2.1]
    exact ended
  · rw [psu, keeps.2.2.2.1]
    exact ordered

/-- The RX completion claim, before claims in order without an RX service. -/
theorem takeRxCompletion_sound {s : State} (idle : s.idleLaw) (fits : s.Fits)
    (ordered : Claim.ordered s.psu.txFlight.isSome false s.claims) : s.takeRxCompletion.Sound := by
  have psu := takeRxCompletion_psu s
  have keeps := s.takeRxCompletion_keeps
  refine ⟨idleLaw_of_drops idle (by simp) (psu ▸ dropRx_drops s), takeRxCompletion_fits fits,
    fun f hf => ?_, ?_⟩
  · rw [psu] at hf; cases hf
  · rw [psu, keeps.2.2.2.1]
    exact ordered

/-- The claims after a match: an empty burst has ended at once (R124). -/
theorem startReceive_claims (s : State) (h : Handle) (st : Stream) (count : Nat) :
    (s.startReceive h st count).claims =
      if count = 0 then s.claims ++ [.rxCompletion] else s.claims := rfl

/-- A standing replaced keeps the services and the forms. -/
theorem setStanding_same (s : State) (h : Handle) (x : Standing) :
    s.psu.SameFlights (s.setStanding h x).psu := by
  refine ⟨rfl, rfl, fun k => ?_⟩
  simp only [State.setStanding, vector_get_set]
  split
  · subst_vars; rfl
  · rfl

/-- The match claim, where no burst is being received and no other claim waits (R123). -/
theorem takeMatch_sound {s : State} (idle : s.idleLaw) (fits : s.Fits) (rx : s.psu.rxFlight = none)
    (claims : s.claims = []) (h : Handle) (count : Nat) : (s.takeMatch h count).Sound := by
  have stay : s.Sound := ⟨idle, fits, endedLaw_of_none rx, by
    rw [claims]; trivial⟩
  have stood : (s.setStanding h .received).Fits := fits.congr (fun _ => rfl) (setStanding_same s h _)
  -- a match with an effect on a standing finds the link UP
  have up : (s.psu.rxTable.get h).standing ≠ .none → s.link.state = .up := fun listed => by
    by_contra down
    exact listed ((idle down).2.2.1 h)
  unfold State.takeMatch
  dsimp only
  split
  · exact stay
  · rename_i st hs
    split
    · exact stay
    split
    · exact stay
    split
    · exact stay
    rename_i listed
    obtain ⟨listed, form⟩ := not_or.mp listed
    split
    · exact ⟨idle, setStream_fits fits hs (.of_eq rfl rfl rfl rfl), stay.ended, stay.ordered⟩
    split
    · rename_i due
      split
      · refine ⟨idleLaw_of_up (by simp [up listed]), miss_fits stood h _, ?_, ?_⟩
        · intro f hf
          simp [State.setStanding, rx] at hf
        · simp [claims, Claim.ordered]
      · refine ⟨idleLaw_of_up (by simp [up listed]),
          retire_fits fits (fits.rests_of_due hs (by simp [due])) true, ?_, ?_⟩
        · intro f hf
          simp [rx] at hf
        · simp [claims, Claim.ordered]
    · rename_i due
      have form' : st.form = (s.psu.rxTable.get h).form := not_not.mp form
      refine ⟨idleLaw_of_up (by simp [up listed]),
        startReceive_fits stood (h := h) rx hs due ?_ count, ?_, ?_⟩
      · rw [(setStanding_same s h _).forms, ← form']
        exact Nat.le_refl _
      · intro f hf ended
        obtain rfl : _ = f := Option.some.inj hf
        have zero : count = 0 := of_decide_eq_true ended
        rw [startReceive_claims, if_pos zero]
        simp
      · rw [startReceive_claims, State.setStanding_claims, claims]
        split <;> trivial
    · exact stay

/-- A decision at the end of a receive period keeps the fit (R127). -/
theorem decideHandle_fits {s : State} (fits : s.Fits) (h : Handle) : (s.decideHandle h).Fits := by
  unfold State.decideHandle
  dsimp only
  split
  · exact fits
  · rename_i st hs
    split
    · exact fits
    split
    · exact fits
    split
    · exact fits
    split
    · exact fits
    split
    · rename_i due
      split
      · exact miss_fits fits h _
      · exact retire_fits fits (fits.rests_of_due hs (by simp [due])) true
    · exact miss_fits fits h _
    · exact fits

/-- The period-end claim empties the RX list and clears the standings (R127). -/
theorem takePeriodEnd_psu (s : State) :
    s.takePeriodEnd.psu = { s.psu with rxTable := clearStandings s.psu.rxTable, rxList := [] } := by
  have walked : (s.periodEndOrder.foldl State.decideHandle s).psu = s.psu :=
    foldl_keeps State.decideHandle State.psu (by simp) s.periodEndOrder s
  unfold State.takePeriodEnd
  dsimp only
  rw [walked]

/-- The period-end claim (R127). -/
theorem takePeriodEnd_sound {s : State} (sound : s.Sound) : s.takePeriodEnd.Sound := by
  have psu := takePeriodEnd_psu s
  have keeps := s.takePeriodEnd_keeps
  have claims : s.takePeriodEnd.claims = s.claims := keeps.2.2.2.1
  have walked : (s.periodEndOrder.foldl State.decideHandle s).Fits :=
    List.foldlRecOn _ _ sound.fits fun t ht h _ => decideHandle_fits ht h
  have unit : (s.periodEndOrder.foldl State.decideHandle s).psu = s.psu :=
    foldl_keeps State.decideHandle State.psu (by simp) s.periodEndOrder s
  refine ⟨fun down => ?_, walked.congr (fun _ => rfl) ?_, ?_, ?_⟩
  · obtain ⟨list, -, -, tx, rx⟩ := sound.idle (by simpa using down)
    rw [psu]
    exact ⟨list, rfl, clearStandings_standing _, tx, rx⟩
  · rw [psu, unit]
    exact ⟨rfl, rfl, clearStandings_form _⟩
  · unfold State.endedLaw
    rw [psu, claims]
    exact sound.ended
  · rw [psu, claims]
    exact sound.ordered

/-! ### The claims of the Link Controller -/

/-- The stream whose aborted service's buffer is back in LINK (R134, R150). -/
def Stream.aborted (st : Stream) (n : BufferName) : Stream :=
  st.setBuffer n { st.buffer n with
    owner := .link, fill := if st.direction = .tx then (st.buffer n).fill else 0 }

/-- The aborted service's buffer goes back in LINK where its record is still the one. -/
theorem abortBuffer_eq {s : State} {h : Handle} {st : Stream} (hs : s.stream h = some st)
    {g : Byte} (hg : (s.record h).generation = g) (n : BufferName) :
    s.abortBuffer h g n = s.setStream h (st.aborted n) := by
  simp only [State.abortBuffer, hs, hg, if_pos]
  rfl

/-- An aborted stream rests, with its fills within its cells. -/
theorem aborted_rests {s : State} (fits : s.Fits) {k : Flight} (fly : s.psu.flies k) {st : Stream}
    (hs : s.stream k.handle = some st) :
    (st.aborted k.buffer).hasOwner .service = false ∧
      ∀ n, ((st.aborted k.buffer).buffer n).fill ≤ (st.aborted k.buffer).params.cells := by
  refine ⟨setBuffer_rests (by simp) (fits.only fly hs), fun n => ?_⟩
  rw [show (st.aborted k.buffer).params = st.params from (setBuffer_keeps st _ _).2]
  refine setBuffer_fills (fun m => fits.fills _ st m hs) k.buffer ?_ n
  dsimp only
  split
  · exact fits.fills _ st _ hs
  · exact Nat.zero_le _

/-- The TX service aborted (R134, R150). -/
theorem abortTx_fits {s : State} (fits : s.Fits) : s.abortTx.dropTx.Fits := by
  unfold State.abortTx
  split
  · rename_i f hf
    have fly : s.psu.flies f.flight := .inl (by rw [hf]; rfl)
    obtain ⟨st, hs, generation, -⟩ := fits.flown f.flight fly
    obtain ⟨rests, fills⟩ := aborted_rests fits fly hs
    have e : s.abortBuffer f.handle f.generation f.buffer = s.setStream f.handle (st.aborted f.buffer) :=
      abortBuffer_eq hs generation f.buffer
    rw [e]
    exact (dropTx_fits fits hf rests fills).of_eq rfl rfl
  · rename_i none
    exact fits.congr (fun _ => rfl) ⟨none.symm, rfl, fun _ => rfl⟩

/-- The RX service aborted (R134, R150). -/
theorem abortRx_fits {s : State} (fits : s.Fits) : s.abortRx.dropRx.Fits := by
  unfold State.abortRx
  split
  · rename_i f hf
    have fly : s.psu.flies f.flight := .inr (by rw [hf]; rfl)
    obtain ⟨st, hs, generation, -⟩ := fits.flown f.flight fly
    obtain ⟨rests, fills⟩ := aborted_rests fits fly hs
    have e : s.abortBuffer f.handle f.generation f.buffer = s.setStream f.handle (st.aborted f.buffer) :=
      abortBuffer_eq hs generation f.buffer
    rw [e]
    exact (dropRx_fits fits hf rests fills).of_eq rfl rfl
  · rename_i none
    exact fits.congr (fun _ => rfl) ⟨rfl, none.symm, fun _ => rfl⟩

/-- The standings cleared keep the services and the forms. -/
theorem dropLists_same (s : State) : s.psu.SameFlights s.dropLists.psu :=
  ⟨rfl, rfl, clearStandings_form _⟩

/-- Period service aborted (R134, R150). -/
theorem abortService_fits {s : State} (fits : s.Fits) : s.abortService.Fits := by
  rw [abortService_eq]
  exact (abortRx_fits (abortTx_fits fits)).congr (fun _ => rfl) (dropLists_same _)

/-- The unit with no list, no standing and no service. -/
structure PeriodService.Idle (u : PeriodService) : Prop where
  list : u.txList = []
  order : u.rxList = []
  standings : ∀ h, (u.rxTable.get h).standing = .none
  tx : u.txFlight = none
  rx : u.rxFlight = none

/-- The law of the link not UP is that its unit is idle. -/
theorem idleLaw_iff (s : State) : s.idleLaw ↔ (s.link.state ≠ .up → s.psu.Idle) :=
  ⟨fun law down => let ⟨a, b, c, d, e⟩ := law down; ⟨a, b, c, d, e⟩,
    fun idle down => let ⟨a, b, c, d, e⟩ := idle down; ⟨a, b, c, d, e⟩⟩

/-- Period service aborted leaves its unit idle. -/
theorem abortService_idle (s : State) : s.abortService.psu.Idle := by
  rw [abortService_eq]
  refine ⟨rfl, rfl, clearStandings_standing _, ?_, rfl⟩
  change s.abortTx.dropTx.abortRx.psu.txFlight = none
  rw [abortRx_psu]
  rfl

/-- Another link state fits. -/
theorem State.Fits.with_link {s : State} (fits : s.Fits) (l : LinkController) :
    ({ s with link := l } : State).Fits := fits.of_eq rfl rfl

/-- The cutting off of the period fits. -/
theorem cutPeriod_fits {s : State} (fits : s.Fits) : s.cutPeriod.Fits :=
  fits.congr (fun _ => rfl) ⟨rfl, rfl, fun _ => rfl⟩

/-- The cutting off of the period leaves an idle unit idle. -/
theorem cutPeriod_idle {s : State} (idle : s.psu.Idle) : s.cutPeriod.psu.Idle :=
  ⟨idle.list, idle.order, idle.standings, idle.tx, idle.rx⟩

/-- What leaving UP does to a record that rests. -/
theorem departRecord_fits {s : State} (fits : s.Fits) {h : Handle} (rests : s.restsAt h) :
    (s.departRecord h).Fits := by
  unfold State.departRecord
  split
  · rename_i st hs
    split
    · split
      · exact (setStream_fits fits hs (y := { st with state := .suspended .link })
          (.of_eq rfl rfl rfl rfl)).of_eq rfl rfl
      · exact fits
    · exact retire_fits fits rests true
    · exact fits
  · exact fits

/-- Leaving UP leaves the unit idle, and every record at rest. -/
theorem leaveUp_fits {s : State} (fits : s.Fits) : s.leaveUp.Fits ∧ s.leaveUp.psu.Idle := by
  have idle := abortService_idle s
  have departed : (handles.foldl State.departRecord s.abortService).Fits ∧
      (handles.foldl State.departRecord s.abortService).psu.Idle :=
    List.foldlRecOn (motive := fun t : State => t.Fits ∧ t.psu.Idle) handles _
      ⟨abortService_fits fits, idle⟩ fun t ht h _ =>
        ⟨departRecord_fits ht.1 (ht.1.rests_of_none ht.2.tx ht.2.rx h), by simpa using ht.2⟩
  obtain ⟨table, -, -, psu, -⟩ :=
    (handles.foldl State.departRecord s.abortService).notifyAll_keeps .down
  refine ⟨departed.1.of_eq table psu, ?_⟩
  rw [State.leaveUp, psu]
  exact departed.2

/-- The leaving-UP claim: dropped when the link is no longer UP, where nothing is in service. -/
theorem takeLeavingUp_sound {s : State} (idle : s.idleLaw) (fits : s.Fits)
    (ordered : Claim.ordered false false s.claims) : s.takeLeavingUp.Sound := by
  have claims : s.takeLeavingUp.claims = s.claims := s.takeLeavingUp_keeps.2.2.2.1
  have left : s.takeLeavingUp.Fits ∧ s.takeLeavingUp.psu.Idle := by
    unfold State.takeLeavingUp
    split
    · obtain ⟨fits, idle⟩ := leaveUp_fits fits
      dsimp only
      split
      · exact ⟨fits.with_link _, idle⟩
      · exact ⟨(cutPeriod_fits fits).with_link _, cutPeriod_idle idle⟩
    · exact ⟨fits, (idleLaw_iff s).mp idle ‹_›⟩
  obtain ⟨fits, idle⟩ := left
  refine ⟨(idleLaw_iff _).mpr fun _ => idle, fits, endedLaw_of_none idle.rx, ?_⟩
  rw [idle.tx, idle.rx, claims]
  exact ordered

/-- A notice to every port. -/
theorem notifyAll_sound {s : State} (sound : s.Sound) (x : LinkEvent) : (s.notifyAll x).Sound := by
  obtain ⟨table, -, -, psu, claims, link, -⟩ := s.notifyAll_keeps x
  exact sound.of_eq table psu claims (by rw [link])

/-! ### The claims taken -/

/-- Every claim, taken from the front, keeps the law of service. -/
theorem takeClaim_sound {s : State} (sound : s.Sound) {c : Claim} {rest : List Claim}
    (hc : s.claims = c :: rest) : (State.takeClaim { s with claims := rest } c).Sound := by
  have ordered := sound.ordered
  have ended : ∀ f, s.psu.rxFlight = some f → f.ended = true → .rxCompletion ∈ c :: rest :=
    hc ▸ sound.ended
  have idle : State.idleLaw { s with claims := rest } := sound.idle
  have fits : State.Fits { s with claims := rest } := sound.fits.of_eq rfl rfl
  have off : ∀ {α : Type} {x : Option α}, x.isSome = false → x = none := by
    intro α x; cases x <;> simp
  -- what waits behind another claim than the RX completion
  have behind : c ≠ .rxCompletion → State.endedLaw { s with claims := rest } :=
    fun other f hf e => (List.mem_cons.mp (ended f hf e)).resolve_left other.symm
  rw [hc] at ordered
  cases c with
  | markProcessing n =>
    obtain ⟨tx, rx, last⟩ := ordered
    exact takeMarkProcessing_sound fits (off tx) (off rx) last n
  | serviceStart =>
    obtain ⟨tx, last⟩ := ordered
    refine takeNextStart_sound idle fits (off tx) (fun f hf => ?_) last
    by_contra done
    have waits := behind (by simp) f hf (by simpa using done)
    rw [last] at waits; cases waits
  | txCompletion => exact takeTxCompletion_sound idle fits (behind (by simp)) ordered
  | matchLead h count =>
    obtain ⟨rx, last⟩ := ordered
    exact takeMatch_sound idle fits (off rx) last h count
  | rxCompletion => exact takeRxCompletion_sound idle fits ordered
  | periodEnd => exact takePeriodEnd_sound ⟨idle, fits, behind (by simp), ordered⟩
  | leavingUp => exact takeLeavingUp_sound idle fits ordered
  | enteringUp => exact notifyAll_sound ⟨idle, fits, behind (by simp), ordered⟩ .up
  | slip => exact notifyAll_sound ⟨idle, fits, behind (by simp), ordered⟩ .slip

/-- The claims taken keep the law of service. -/
theorem settleFor_sound {s : State} (sound : s.Sound) (n : Nat) : (State.settleFor n s).Sound := by
  induction n generalizing s with
  | zero => exact sound
  | succ n ih =>
    unfold State.settleFor
    split
    · exact sound
    · exact ih (takeClaim_sound sound ‹_›)

/-- The claims taken up to one of a kind keep the law of service. -/
theorem through_sound {s t : State} {kind : Claim → Bool} (sound : s.Sound)
    (h : s.through kind = some t) : t.Sound := by
  unfold State.through at h
  generalize 2 * s.claims.length = n at h
  induction n generalizing s with
  | zero => cases h
  | succ n ih =>
    unfold State.takeThroughFor at h
    split at h
    · cases h
    · have taken := takeClaim_sound sound ‹_›
      dsimp only at h
      split at h
      · cases h; exact taken
      · exact ih taken h

/-- A row that takes a claim keeps the law of service. -/
theorem takeThrough_sound {s : State} (sound : s.Sound) (kind : Claim → Bool) :
    (s.takeThrough kind).Sound := by
  unfold State.takeThrough
  split
  · exact sound
  · split
    · cases h : s.through kind with
      | none => exact sound
      | some t => exact through_sound sound h
    · exact sound

/-- The claims that a claim may make: at most one, which makes none. -/
def Claim.weight : Claim → Nat
  | .markProcessing _ | .matchLead _ _ => 2
  | .serviceStart | .txCompletion | .rxCompletion | .periodEnd | .leavingUp | .enteringUp | .slip => 1

/-- The claims that a taken claim leaves: those behind it, and one of its own at most. -/
theorem takeClaim_claims (s : State) (c : Claim) :
    ∃ l, (s.takeClaim c).claims = s.claims ++ l ∧ (l.map Claim.weight).sum < c.weight := by
  cases c with
  | markProcessing n =>
    have effects := foldl_keeps (State.takeEffect n) State.claims (by simp) handles s
    have warned := fun u => foldl_keeps (State.starveWarning n) State.claims (by simp) handles u
    simp only [State.takeClaim, State.takeMarkProcessing]
    split
    · unfold State.openList
      split
      · exact ⟨[], by simp [effects, warned], Nat.zero_lt_two⟩
      · exact ⟨[.serviceStart], by simp [State.makeClaim, effects, warned], Nat.one_lt_two⟩
    · exact ⟨[], by simp [effects], Nat.zero_lt_two⟩
  | matchLead h count =>
    have stay : ∀ t : State, t.claims = s.claims → ∃ l, t.claims = s.claims ++ l ∧
        (l.map Claim.weight).sum < (Claim.matchLead h count).weight :=
      fun t e => ⟨[], by simp [e], Nat.zero_lt_two⟩
    simp only [State.takeClaim, State.takeMatch]
    split
    · exact stay _ rfl
    split
    · exact stay _ rfl
    split
    · exact stay _ rfl
    split
    · exact stay _ rfl
    split
    · exact stay _ rfl
    split
    · split
      · exact stay _ (by simp)
      · exact stay _ (by simp)
    · rw [startReceive_claims]
      split
      · exact ⟨[.rxCompletion], rfl, Nat.lt_succ_self 1⟩
      · exact ⟨[], by simp, Nat.zero_lt_two⟩
    · exact stay _ rfl
  | serviceStart => exact ⟨[], by simp [State.takeClaim], by decide⟩
  | txCompletion => exact ⟨[], by simp [State.takeClaim], by decide⟩
  | rxCompletion => exact ⟨[], by simp [State.takeClaim], by decide⟩
  | periodEnd => exact ⟨[], by simp [State.takeClaim], by decide⟩
  | leavingUp => exact ⟨[], by simp [State.takeClaim], by decide⟩
  | enteringUp => exact ⟨[], by simp [State.takeClaim, State.takeEnteringUp], by decide⟩
  | slip => exact ⟨[], by simp [State.takeClaim, State.takeSlip], by decide⟩

/-- As many claims taken as their weight leave none. -/
theorem settleFor_claims (n : Nat) (s : State) (h : (s.claims.map Claim.weight).sum ≤ n) :
    (State.settleFor n s).claims = [] := by
  have positive : ∀ c : Claim, 0 < c.weight := fun c => by cases c <;> simp [Claim.weight]
  induction n generalizing s with
  | zero =>
    cases hc : s.claims with
    | nil => exact hc
    | cons c l =>
      have := positive c
      simp only [hc, List.map_cons, List.sum_cons] at h
      omega
  | succ n ih =>
    unfold State.settleFor
    split
    · assumption
    · rename_i c rest hc
      obtain ⟨l, made, less⟩ := takeClaim_claims { s with claims := rest } c
      refine ih _ ?_
      rw [made]
      simp only [hc, List.map_cons, List.sum_cons, List.map_append, List.sum_append] at h ⊢
      omega

/-- Settled, no claim waits (R16). -/
@[simp] theorem settle_claims (s : State) : s.settle.claims = [] := by
  refine settleFor_claims _ s ?_
  have double : ∀ l : List Claim, (l.map Claim.weight).sum ≤ 2 * l.length := fun l => by
    induction l with
    | nil => simp
    | cons c l ih =>
      have bound : c.weight ≤ 2 := by cases c <;> simp [Claim.weight]
      simp only [List.map_cons, List.sum_cons, List.length_cons]
      omega
  exact double s.claims

/-- The taking of all waiting claims keeps the law of service. -/
theorem settle_sound {s : State} (sound : s.Sound) : s.settle.Sound := settleFor_sound sound _

end Sys2Proof.Machine
end

