-- ==== Sys2Proof/Proofs/ServiceEvents.lean ====
section
/-! SUPPORT. The lane, the timers and the cells that arrive keep the law of service: each finds the claims
made before it taken, and makes its own in their order. -/

namespace Sys2Proof.Machine

/-! ### Nothing waiting -/

/-- The law of service in a state where no claim waits, so that no burst received has ended. -/
structure State.Quiet (s : State) : Prop where
  idle : s.idleLaw
  fits : s.Fits
  live : ∀ f, s.psu.rxFlight = some f → f.ended = false
  settled : s.claims = []

theorem State.Quiet.sound {s : State} (q : s.Quiet) : s.Sound :=
  ⟨q.idle, q.fits, endedLaw_of_live q.live, by rw [q.settled]; trivial⟩

theorem State.Sound.quiet {s : State} (sound : s.Sound) (none : s.claims = []) : s.Quiet := by
  refine ⟨sound.idle, sound.fits, fun f hf => ?_, none⟩
  by_contra ended
  have waits := sound.ended f hf (by simpa using ended)
  rw [none] at waits; cases waits

/-- While the link is not UP no service is in flight. -/
theorem State.Quiet.down {s : State} (q : s.Quiet) (h : s.link.state ≠ .up) : s.psu.Idle :=
  (idleLaw_iff s).mp q.idle h

/-- The same records, unit and claims are as quiet, in the same link state. -/
theorem State.Quiet.congr {s t : State} (q : s.Quiet) (hr : ∀ k, t.record k = s.record k)
    (hu : t.psu = s.psu) (hc : t.claims = s.claims) (hl : t.link.state = s.link.state) : t.Quiet where
  idle := idleLaw_of_drops q.idle hl (hu ▸ .refl _)
  fits := q.fits.congr hr (hu ▸ .refl _)
  live := hu ▸ q.live
  settled := hc.trans q.settled

/-- Another state of the lane is as sound. -/
theorem State.Sound.with_lane {s : State} (sound : s.Sound) (l : TransmitLane) :
    ({ s with lane := l } : State).Sound := sound.of_eq rfl rfl rfl rfl

/-- Settled, a sound state is quiet. -/
theorem settle_quiet {s : State} (sound : s.Sound) : s.settle.Quiet :=
  (settle_sound sound).quiet (settle_claims s)

/-- A follower's entry into UP (R145). -/
theorem enterUp_sound {s : State} (q : s.Quiet) : s.enterUp.Sound := by
  unfold State.enterUp
  split
  · refine ⟨idleLaw_of_up rfl, q.fits.of_eq rfl rfl, endedLaw_of_live q.live, ?_⟩
    rw [State.makeClaim, q.settled]; trivial
  · exact q.sound

/-- What a later event on the link side finds is quiet (R139, R145). -/
theorem catchUp_quiet {s : State} (sound : s.Sound) : s.catchUp.Quiet :=
  settle_quiet (enterUp_sound (settle_quiet sound))

/-! ### Services that go on -/

/-- The second unit is the first with its services in flight moved on. -/
structure PeriodService.MovesOn (u v : PeriodService) : Prop where
  tx : v.txFlight.map TxFlight.flight = u.txFlight.map TxFlight.flight
  rx : v.rxFlight.map RxFlight.flight = u.rxFlight.map RxFlight.flight
  list : v.txList = u.txList
  order : v.rxList = u.rxList
  table : v.rxTable = u.rxTable

/-- Services that moved on fit, when the burst received still keeps to its record's cells. -/
theorem State.Fits.moves_on {s t : State} (fits : s.Fits) (hr : ∀ k, t.record k = s.record k)
    (moves : s.psu.MovesOn t.psu) (burst : ∀ f, t.psu.rxFlight = some f → t.burstFits f) : t.Fits := by
  have hs : ∀ k, t.stream k = s.stream k := fun k => congrArg Record.stream (hr k)
  have flies : ∀ k, t.psu.flies k ↔ s.psu.flies k := fun k => by
    unfold PeriodService.flies
    rw [moves.tx, moves.rx]
  refine ⟨fun h st n => ?_, fun h st n => ?_, fun k => ?_, fun f g hf hg => ?_, burst⟩
  · rw [hs]; exact fits.fills h st n
  · rw [hs, hr, flies]; exact fits.named h st n
  · rw [hs, hr, flies]; exact fits.flown k
  · have tx := moves.tx
    have rx := moves.rx
    rw [hf, Option.map_some, eq_comm, Option.map_eq_some_iff] at tx
    rw [hg, Option.map_some, eq_comm, Option.map_eq_some_iff] at rx
    obtain ⟨a, ha, ea⟩ := tx
    obtain ⟨b, hb, eb⟩ := rx
    rw [show f.handle = a.handle from congrArg Flight.handle ea.symm,
      show g.handle = b.handle from congrArg Flight.handle eb.symm]
    exact fits.apart a b ha hb

/-- Services that moved on leave the law of the link not UP. -/
theorem idleLaw_of_moves {s t : State} (idle : s.idleLaw) (hl : t.link.state = s.link.state)
    (moves : s.psu.MovesOn t.psu) : t.idleLaw := fun down => by
  obtain ⟨list, order, standings, tx, rx⟩ := idle (hl ▸ down)
  have none_tx := moves.tx
  have none_rx := moves.rx
  rw [tx, Option.map_none, Option.map_eq_none_iff] at none_tx
  rw [rx, Option.map_none, Option.map_eq_none_iff] at none_rx
  exact ⟨moves.list ▸ list, moves.order ▸ order, moves.table ▸ standings, none_tx, none_rx⟩

/-! ### Bursts cut short -/

/-- A burst in flight cut short, in one equation. -/
theorem cutBurst_eq (s : State) : s.cutBurst = s.burstCut := by
  unfold State.cutBurst State.burstCut State.cutClaims
  obtain ⟨_, _, _, ⟨_, _, _, _, _, rx, _⟩, claims, _, _, _, _, _, _, _⟩ := s
  dsimp only
  cases rx with
  | none => simp only [Option.map_none, List.append_nil]
  | some f =>
    dsimp only [Option.map_some]
    split
    · simp only [List.append_nil]
    · rfl

/-- A burst cut short moves on. -/
theorem burstCut_moves (s : State) : s.psu.MovesOn s.burstCut.psu := by
  refine ⟨rfl, ?_, rfl, rfl, rfl⟩
  change (s.psu.rxFlight.map _).map _ = _
  rw [Option.map_map]
  congr 1
  funext f
  dsimp only [Function.comp]
  split <;> rfl

/-- A burst cut short fits as it did. -/
theorem burstCut_fits {s : State} (fits : s.Fits) : s.burstCut.Fits := by
  refine fits.moves_on (fun _ => rfl) (burstCut_moves s) fun g hg => ?_
  obtain ⟨f, hf, rfl⟩ := Option.map_eq_some_iff.mp hg
  have burst := fits.burst f hf
  split <;> exact burst

/-- Where a burst that has not ended is cut short, its completion claim is the one made. -/
theorem cutClaims_quiet {s : State} (live : ∀ f, s.psu.rxFlight = some f → f.ended = false) :
    s.cutClaims = if s.psu.rxFlight.isSome then [.rxCompletion] else [] := by
  unfold State.cutClaims
  cases hf : s.psu.rxFlight with
  | none => rfl
  | some f => simp [live f hf]

/-- The claims of a cut burst are made for it: its completion claim is among them. -/
theorem burstCut_ended {s : State} (live : ∀ f, s.psu.rxFlight = some f → f.ended = false) :
    s.burstCut.endedLaw := fun g hg _ => by
  obtain ⟨f, hf, -⟩ := Option.map_eq_some_iff.mp hg
  change _ ∈ s.claims ++ s.cutClaims
  rw [cutClaims_quiet live, hf]
  simp

/-- The claims of a quiet state whose burst is cut short. -/
theorem cutBurst_claims {s : State} (q : s.Quiet) :
    s.cutBurst.claims = if s.psu.rxFlight.isSome then [.rxCompletion] else [] := by
  rw [cutBurst_eq, ← cutClaims_quiet q.live]
  change s.claims ++ _ = _
  rw [q.settled, List.nil_append]

/-- A burst cut short leaves its service in flight. -/
theorem cutBurst_isSome (s : State) :
    s.cutBurst.psu.txFlight = s.psu.txFlight ∧
      s.cutBurst.psu.rxFlight.isSome = s.psu.rxFlight.isSome := by
  rw [cutBurst_eq]
  exact ⟨rfl, Option.isSome_map⟩

/-- A burst cut short in a quiet state, before claims of its own making. -/
theorem cutBurst_then {s t : State} (q : s.Quiet) {l : List Claim} (ht : t.table = s.table)
    (hu : t.psu = s.cutBurst.psu) (hl : t.link.state = s.link.state)
    (hc : t.claims = s.cutBurst.claims ++ l)
    (ordered : Claim.ordered s.psu.txFlight.isSome false l) : t.Sound := by
  obtain ⟨tx, rx⟩ := cutBurst_isSome s
  have claims := cutBurst_claims q
  rw [cutBurst_eq] at hu hc
  refine ⟨idleLaw_of_moves q.idle hl (hu ▸ burstCut_moves s),
    (burstCut_fits q.fits).of_eq ht hu, fun f hf ended => ?_, ?_⟩
  · rw [hc]
    exact List.mem_append_left _ (burstCut_ended q.live f (hu ▸ hf) ended)
  · rw [hc, hu, ← cutBurst_eq, tx, rx, claims]
    cases s.psu.rxFlight.isSome <;> exact ordered

/-- A burst cut short in a quiet state. -/
theorem cutBurst_sound {s : State} (q : s.Quiet) : s.cutBurst.Sound :=
  cutBurst_then q (l := []) s.cutBurst_keeps.1 rfl (by simp) (by simp) trivial

/-! ### Marks -/

/-- What a taken mark finds (R111): no burst received has ended, and either the link is about to leave UP or
no burst is being sent and nothing waits but a slip. -/
structure State.Ready (s : State) : Prop where
  idle : s.idleLaw
  fits : s.Fits
  live : ∀ f, s.psu.rxFlight = some f → f.ended = false
  front : s.claims = [.leavingUp] ∨
    s.psu.txFlight = none ∧ (s.claims = [] ∨ s.claims = [.slip])

/-- A quiet state with no burst being sent is ready for a mark. -/
theorem State.Quiet.ready {s : State} (q : s.Quiet) (tx : s.psu.txFlight = none) : s.Ready :=
  ⟨q.idle, q.fits, q.live, .inr ⟨tx, .inl q.settled⟩⟩

/-- Another state of the link, of the same name, is as ready. -/
theorem State.Ready.with_link {s : State} (ready : s.Ready) {l : LinkController}
    (hl : l.state = s.link.state) : ({ s with link := l } : State).Ready where
  idle := idleLaw_of_drops ready.idle hl (.refl _)
  fits := ready.fits.with_link l
  live := ready.live
  front := ready.front

/-- The unit after a mark reported, and the claims in their order (R111). -/
theorem reportMark_eq (s : State) (n : Period) :
    (s.reportMark n).psu = { s.burstCut.psu with rxOpen := true } ∧
      (s.reportMark n).claims = s.claims ++ (s.cutClaims ++
        ((if s.psu.rxOpen then [.periodEnd] else []) ++ [.markProcessing n])) := by
  unfold State.reportMark State.endReceive
  rw [cutBurst_eq, show s.burstCut.psu.rxOpen = s.psu.rxOpen from rfl]
  dsimp only
  split
  · exact ⟨rfl, by simp [State.makeClaim, State.burstCut]⟩
  · exact ⟨rfl, by simp [State.makeClaim, State.burstCut]⟩

/-- The claims of a taken mark are in order where no burst is being sent (R111, R17). -/
theorem mark_ordered {rx cut : Bool} (h : rx = true → cut = true) (opened : Bool) (n : Period) :
    Claim.ordered false rx ((if cut then [.rxCompletion] else []) ++
      ((if opened then [.periodEnd] else []) ++ [.markProcessing n])) := by
  cases cut <;> cases opened <;> simp_all [Claim.ordered]

/-- A mark reported to the Period Service Unit (R111). -/
theorem reportMark_sound {s : State} (ready : s.Ready) (n : Period) : (s.reportMark n).Sound := by
  obtain ⟨psu, claims⟩ := reportMark_eq s n
  have cut := cutClaims_quiet ready.live
  have moves : s.psu.MovesOn (s.reportMark n).psu := by
    rw [psu]
    exact { burstCut_moves s with }
  have rx : (s.reportMark n).psu.rxFlight.isSome = s.psu.rxFlight.isSome := by
    rw [psu]; exact Option.isSome_map
  refine ⟨idleLaw_of_moves ready.idle (by simp) moves,
    (burstCut_fits ready.fits).congr (record_of_table (s.reportMark_keeps n).1)
      (psu ▸ ⟨rfl, rfl, fun _ => rfl⟩), fun f hf _ => ?_, ?_⟩
  · have some : s.psu.rxFlight.isSome = true := by rw [← rx, hf]; rfl
    rw [claims, cut, if_pos some]
    simp
  · rw [claims, cut, rx, psu]
    change Claim.ordered s.psu.txFlight.isSome _ _
    rcases ready.front with leaves | ⟨tx, none | slip⟩
    · rw [leaves]
      exact mark_ordered (rx := false) (by simp) s.psu.rxOpen n
    · rw [none, tx]
      exact mark_ordered id s.psu.rxOpen n
    · rw [slip, tx]
      exact mark_ordered id s.psu.rxOpen n

/-- The leader opens a period (R140). -/
theorem emitMark_sound {s : State} (ready : s.Ready) : s.emitMark.Sound :=
  (reportMark_sound (ready.with_link (l := { s.link with
    period := s.link.period + 1, markTaken := true }) rfl) _).of_eq rfl rfl rfl rfl

/-! ### The end of a transmit period -/

/-- The slot being sent run to its end fits (R119). -/
theorem finishSlot_fits {s : State} (fits : s.Fits) : s.finishSlot.Fits :=
  (takeTxCompletion_fits fits).of_eq rfl rfl

/-- The slot being sent run to its end leaves no burst being sent. -/
theorem finishSlot_psu (s : State) : s.finishSlot.psu = s.dropTx.psu := takeTxCompletion_psu s

/-- Slots run to their ends fit, and leave no burst being sent (R119). -/
theorem runSlots_fits {s : State} (fits : s.Fits) (n : Nat) :
    (State.runSlots n s).Fits ∧
      ∃ k, (State.runSlots n s).psu = { s.psu with txNext := k, txFlight := none } := by
  induction n generalizing s with
  | zero => exact ⟨finishSlot_fits fits, s.psu.txNext, finishSlot_psu s⟩
  | succ n ih =>
    have done := finishSlot_fits fits
    have psu := finishSlot_psu s
    unfold State.runSlots
    dsimp only
    split
    · exact ⟨done, s.psu.txNext, psu⟩
    · rename_i e _
      obtain ⟨fits', k, psu'⟩ := ih (startNext_fits done (by rw [psu]; rfl) e)
      obtain ⟨j, x, begun⟩ := startNext_psu s.finishSlot e
      refine ⟨fits', k, ?_⟩
      rw [psu', begun, psu]
      rfl

/-- The transmit period run out leaves a quiet state ready for a mark (R17). -/
theorem runOut_ready {s : State} (q : s.Quiet) : s.runOut.Ready := by
  obtain ⟨fits, k, psu⟩ := runSlots_fits q.fits s.psu.txList.length
  have claims : s.runOut.claims = s.claims := s.runOut_keeps.2.2.2.1
  change s.runOut.psu = _ at psu
  refine ⟨idleLaw_of_drops q.idle (by simp) (psu ▸ ⟨.inr rfl, .inl rfl, rfl, rfl, rfl⟩), fits,
    fun f hf => q.live f ?_, .inr ⟨by rw [psu], .inl (claims.trans q.settled)⟩⟩
  rwa [psu] at hf

/-- The ending period settled at the leader leaves a quiet state ready for a mark (R140, R149). -/
theorem settlePeriod_ready {s : State} (q : s.Quiet) : s.settlePeriod.Ready := by
  unfold State.settlePeriod
  dsimp only
  split
  · refine ⟨idleLaw_of_drops q.idle rfl (.refl _), q.fits.of_eq rfl rfl, q.live, .inl ?_⟩
    rw [State.makeClaim, q.settled]; rfl
  split
  · exact runOut_ready (q.congr (fun _ => rfl) rfl rfl rfl)
  · rename_i down
    exact State.Quiet.ready (q.congr (fun _ => rfl) rfl rfl rfl) (q.down down).tx

/-- PERIOD_TIMER_EXPIRY (R140). -/
theorem periodTimerExpiry_sound {s t : State} (sound : s.Sound)
    (h : execPeriodTimerExpiry s = .next t) : t.Sound := by
  unfold execPeriodTimerExpiry at h
  split at h
  · cases h
    exact emitMark_sound (settlePeriod_ready (catchUp_quiet sound))
  · cases h; exact sound

/-- A slip to be told is made before the mark's own claims (R141, R147). -/
theorem State.Ready.slip {s : State} (ready : s.Ready) (settled : s.claims = []) (c : Prop) [Decidable c]
    (tx : s.psu.txFlight = none) : (if c then s.makeClaim .slip else s).Ready := by
  split
  · exact ⟨idleLaw_of_drops ready.idle rfl (.refl _), ready.fits.of_eq rfl rfl, ready.live,
      .inr ⟨tx, .inr (by rw [State.makeClaim, settled]; rfl)⟩⟩
  · exact ready

/-- What a follower's mark finds when the period before it has run out (R111, R141). -/
theorem runOut_if_up {s : State} (q : s.Quiet) :
    let t := if s.link.state = .up then s.runOut else s
    t.Ready ∧ t.claims = [] ∧ t.psu.txFlight = none := by
  dsimp only
  split
  · have ready := runOut_ready q
    have none := s.runOut_keeps.2.2.2.1.trans q.settled
    refine ⟨ready, none, ?_⟩
    rcases ready.front with leaves | ⟨tx, -⟩
    · rw [none] at leaves; cases leaves
    · exact tx
  · rename_i down
    have tx := (q.down down).tx
    exact ⟨q.ready tx, q.settled, tx⟩

/-- A follower takes a valid mark (R141). -/
theorem takeMark_sound {s : State} (q : s.Quiet) (m : Period) : (s.takeMark m).Sound := by
  obtain ⟨ready, none, tx⟩ := runOut_if_up q
  unfold State.takeMark
  dsimp only
  generalize (if s.link.state = .up then s.runOut else s) = u at ready none tx
  have slipped := ready.slip none (u.link.state = .up ∧ m ≠ u.link.period + 1) tx
  generalize (if u.link.state = .up ∧ m ≠ u.link.period + 1 then u.makeClaim .slip else u) = v
    at slipped
  exact (reportMark_sound (slipped.with_link (by rfl)) m).with_lane _

/-- A leader accepts a valid echo (R142, R146). -/
theorem acceptEcho_sound {s : State} (sound : s.Sound)
    (none : s.link.state = .acquire → s.claims = []) : s.acceptEcho.Sound := by
  unfold State.acceptEcho
  dsimp only
  split
  · rename_i acquire
    have q := sound.quiet (none acquire)
    split
    · refine ⟨idleLaw_of_up rfl, q.fits.of_eq rfl rfl, endedLaw_of_live q.live, ?_⟩
      rw [State.makeClaim, q.settled]; trivial
    · exact sound.of_eq rfl rfl rfl rfl
  · exact sound.of_eq rfl rfl rfl rfl

/-- A cell of type mark (R138, R141, R142). -/
theorem receiveMark_sound {s : State} (sound : s.Sound) (c : MarkCell) : (s.receiveMark c).Sound := by
  unfold State.receiveMark
  split
  · have q : State.Quiet { s.catchUp with link := { s.catchUp.link with aligned := true } } :=
      (catchUp_quiet sound).congr (fun _ => rfl) rfl rfl rfl
    dsimp only
    split
    · split
      · exact takeMark_sound q _
      · exact cutBurst_sound q
    · split
      · refine acceptEcho_sound (cutBurst_sound q) fun acquire => ?_
        have down : s.catchUp.link.state ≠ .up := by simp_all
        rw [cutBurst_claims q, (q.down down).rx]; rfl
      · exact cutBurst_sound q
  · exact sound

/-! ### The other cells and timers -/

/-- LOSS_TIMER_EXPIRY (R148). -/
theorem lossTimerExpiry_sound {s t : State} (sound : s.Sound)
    (h : execLossTimerExpiry s = .next t) : t.Sound := by
  unfold execLossTimerExpiry at h
  split at h
  · have q := catchUp_quiet sound
    dsimp only at h
    split at h
    · cases h
      refine ⟨q.idle, q.fits.of_eq rfl rfl, endedLaw_of_live q.live, ?_⟩
      rw [State.makeClaim, q.settled]; trivial
    · cases h
      exact q.sound.of_eq rfl rfl rfl rfl
  · cases h; exact sound

/-- A quiet state whose burst is cut short, and the receive period with it or not (R124, R143). -/
theorem cutBurst_endReceive_sound {s : State} (q : s.Quiet) : s.cutBurst.endReceive.Sound := by
  unfold State.endReceive
  split
  · have cut := cutBurst_then (t := s.cutBurst.makeClaim .periodEnd) (l := [.periodEnd]) q
      s.cutBurst_keeps.1 rfl (by simp) rfl trivial
    exact ⟨cut.idle, cut.fits.congr (fun _ => rfl) ⟨rfl, rfl, fun _ => rfl⟩, cut.ended, cut.ordered⟩
  · exact cutBurst_sound q

/-- TRAILER_ARRIVAL (R124, R143). -/
theorem trailerArrival_sound {s t : State} {n : BitVec 16} (sound : s.Sound)
    (h : execTrailerArrival n s = .next t) : t.Sound := by
  unfold execTrailerArrival at h
  split at h
  · have q := catchUp_quiet sound
    dsimp only at h
    split at h
    · cases h; exact q.sound
    · cases h
      split
      · exact cutBurst_endReceive_sound q
      · exact cutBurst_sound q
  · cases h; exact sound

/-- LEAD_CELL_ARRIVAL: the match claim is made behind the completion claim of a burst cut short (R122,
R124). -/
theorem leadCellArrival_sound {s t : State} {channel count : Byte} (sound : s.Sound)
    (h : execLeadCellArrival channel count s = .next t) : t.Sound := by
  unfold execLeadCellArrival at h
  split at h
  · have q := catchUp_quiet sound
    have cut := cutBurst_sound q
    dsimp only at h
    split at h
    · cases h; exact cut
    split at h
    · cases h; exact cut
    split at h
    · rename_i k _
      cases h
      exact cutBurst_then (l := [.matchLead k count.toNat]) q s.catchUp.cutBurst_keeps.1 rfl
        (by simp) rfl ⟨rfl, rfl⟩
    · cases h; exact cut
  · cases h; exact sound

/-- A payload cell moves the burst on, which keeps to its record's cells (R124). -/
theorem advance_fits {s t : State} (fits : s.Fits) {f : RxFlight} {sound : Bool}
    (hf : s.psu.rxFlight = some f) (ht : t.table = s.table)
    (hu : t.psu = { s.psu with
      rxFlight := some (f.advance (s.psu.rxTable.get f.handle).form.cells sound) }) : t.Fits := by
  refine fits.moves_on (record_of_table ht) (hu ▸ ⟨rfl, by rw [hf]; rfl, rfl, rfl, rfl⟩) fun g hg => ?_
  obtain ⟨arrived, cells⟩ := fits.burst f hf
  rw [hu] at hg
  obtain rfl := Option.some.inj hg
  refine ⟨?_, fun st hst => ?_⟩
  · dsimp only [RxFlight.advance]
    split <;> omega
  · obtain ⟨stored, form⟩ := cells st (stream_of_table ht f.handle ▸ hst)
    rw [hu]
    refine ⟨?_, form⟩
    dsimp only [RxFlight.advance]
    split <;> omega

/-- A payload cell, or a cell with a bad check (R124, R137). -/
theorem receivePayload_sound {s t : State} {data : Payload} {b : Bool} (q : s.Quiet)
    (h : s.receivePayload data b = .next t) : t.Sound := by
  rcases receivePayload_cases h with rfl | ⟨f, m, hf, live, rfl⟩
  · exact q.sound
  · have up : s.link.state = .up := by
      by_contra down
      cases (q.down down).rx.symm.trans hf
    dsimp only
    split
    · refine ⟨idleLaw_of_up up, advance_fits q.fits hf rfl rfl, fun _ _ _ => ?_, ?_⟩
      · simp [State.makeClaim]
      · rw [State.makeClaim, q.settled]; trivial
    · rename_i goes
      refine ⟨idleLaw_of_up up, advance_fits q.fits hf rfl rfl, endedLaw_of_live fun g hg => ?_, ?_⟩
      · obtain rfl := Option.some.inj hg
        simpa using goes
      · rw [q.settled]; trivial

/-! ### The transmit lane -/

/-- A staged cell counted off leaves the name of the service. -/
theorem count_flight (f : TxFlight) (c : LaneCell) : (f.count c).flight = f.flight := by
  unfold TxFlight.count
  split <;> rfl

/-- A cell staged counts off the burst being sent. -/
theorem stageCell_moves (s : State) (c : LaneCell) (rest : List LaneCell) (w : WireCell) :
    s.psu.MovesOn (s.stageCell c rest w).psu := by
  refine ⟨?_, rfl, rfl, rfl, rfl⟩
  change (s.psu.txFlight.map _).map _ = _
  rw [Option.map_map]
  congr 1
  funext f
  exact count_flight f c

/-- The claims of a staged cell are in order: the service start of the next entry comes behind the completion
of the burst that ends with the cell (R119, R139). -/
theorem stagedClaims_ordered (s : State) (c : LaneCell) (rest : List LaneCell) (rx : Bool) :
    Claim.ordered s.psu.txFlight.isSome rx (s.stagedClaims c rest) := by
  unfold State.stagedClaims State.burstEnds
  cases s.psu.txFlight with
  | none =>
    simp only [Option.any_none, Bool.false_eq_true, if_false, List.nil_append]
    split
    · exact ⟨rfl, rfl⟩
    · trivial
  | some f =>
    split
    · split
      · exact ⟨rfl, rfl⟩
      · trivial
    · rename_i lasts
      split
      · simp_all
      · trivial

/-- The staging of a cell in a quiet state. -/
theorem stageNext_sound {s t : State} (q : s.Quiet) (h : s.stageNext = .next t) : t.Sound := by
  rcases stageNext_cases h with ⟨c, rest, w, -, -, rfl⟩ | ⟨n, -, -, rfl⟩ | ⟨-, -, rfl⟩
  · have moves := stageCell_moves s c rest w
    refine ⟨idleLaw_of_moves q.idle rfl moves, q.fits.moves_on (fun _ => rfl) moves q.fits.burst,
      endedLaw_of_live q.live, ?_⟩
    rw [State.stageCell, q.settled, List.nil_append, Option.isSome_map]
    exact stagedClaims_ordered s c rest _
  · exact q.sound.with_lane _
  · exact q.sound.with_lane _

/-- One cell time of the transmit lane (R139). -/
theorem cellTime_sound {s t : State} (sound : s.Sound) (h : s.cellTime = .next t) : t.Sound := by
  rcases cellTime_cases h with ⟨-, rfl⟩ | ⟨-, -, h⟩
  · exact sound.with_lane _
  · exact stageNext_sound ((catchUp_quiet sound).congr (t := s.catchUp.sendStaged)
      (fun _ => rfl) rfl rfl rfl) h

/-- The cell times up to a claim. -/
theorem passTo_sound {kind : Claim → Bool} {n : Nat} {s t : State} (sound : s.Sound)
    (h : s.passTo kind n = .next t) : t.Sound := by
  induction n generalizing s with
  | zero => cases h; exact sound
  | succ n ih =>
    unfold State.passTo at h
    split at h
    · cases h; exact sound
    · split at h
      · exact ih (cellTime_sound sound ‹_›) h
      · cases h
      · cases h

/-- A row of the lane takes its claim, those before it, and the cell times up to it (R16). -/
theorem takeOfLane_sound {s t : State} {kind : Claim → Bool} {toCome : State → Bool} (sound : s.Sound)
    (h : s.takeOfLane kind toCome = .next t) : t.Sound := by
  unfold State.takeOfLane at h
  split at h
  · cases h; exact through_sound sound ‹_›
  · dsimp only at h
    split at h
    · split at h
      · rename_i u hu
        cases h
        cases ht : u.through kind with
        | none => exact sound
        | some v => exact through_sound (passTo_sound (catchUp_quiet sound).sound hu) ht
      · cases h
      · cases h
    · cases h; exact sound

/-- ENTERING_UP (R145, R146). -/
theorem enteringUp_sound {s t : State} (sound : s.Sound) (h : execEnteringUp s = .next t) :
    t.Sound := by
  unfold execEnteringUp at h
  split at h
  · cases h; exact sound
  split at h
  · cases h; exact takeThrough_sound sound _
  split at h
  · cases h; exact (catchUp_quiet sound).sound
  · cases h; exact sound

end Sys2Proof.Machine
end

