-- ==== Sys2Proof/Proofs/ServiceStep.lean ====
section
/-! SUPPORT. Every accepted request and every row keeps the law of service, and the statement about every
step that rests on it. -/

namespace Sys2Proof.Machine

/-! ### Requests with no claim waiting -/

/-- A quiet state that changes, where the services in flight go on or are dropped. -/
theorem State.Quiet.of_drops {s t : State} (q : s.Quiet) (fits : t.Fits) (drops : s.psu.Drops t.psu)
    (hc : t.claims = s.claims) (hl : t.link.state = s.link.state) : t.Quiet where
  idle := idleLaw_of_drops q.idle hl drops
  fits := fits
  live f hf := q.live f ((drops.rx.resolve_right fun none => nomatch none.symm.trans hf) ▸ hf)
  settled := hc.trans q.settled

/-- A quiet state that changes under the same unit. -/
theorem State.Quiet.of_fits {s t : State} (q : s.Quiet) (fits : t.Fits) (hu : t.psu = s.psu)
    (hc : t.claims = s.claims) (hl : t.link.state = s.link.state) : t.Quiet :=
  q.of_drops fits (hu ▸ .refl _) hc hl

/-- A record that goes on with the same service. -/
theorem setStream_quiet {s : State} (q : s.Quiet) {h : Handle} {x y : Stream}
    (hs : s.stream h = some x) (xy : x.ServesAs y) : (s.setStream h y).Quiet :=
  q.of_fits (setStream_fits q.fits hs xy) rfl rfl rfl

/-- A retirement of a record that rests. -/
theorem retire_quiet {s : State} (q : s.Quiet) {h : Handle} (rests : s.restsAt h) (c : Bool) :
    (s.retire h c).Quiet :=
  q.of_fits (retire_fits q.fits rests c) (by simp) (by simp) (by simp)

/-- A withdrawal. -/
theorem withdrawAmendment_quiet {s : State} (q : s.Quiet) (h : Handle) :
    (s.withdrawAmendment h).Quiet :=
  q.of_fits (withdrawAmendment_fits q.fits h) (by simp) (by simp) (by simp)

/-- A withdrawal leaves a record that rests at rest. -/
theorem withdrawAmendment_rests {s : State} {h : Handle} (rests : s.restsAt h) :
    (s.withdrawAmendment h).restsAt h := fun y hy => by
  rw [withdrawAmendment_stream, if_pos rfl] at hy
  obtain ⟨x, hx, rfl⟩ := Option.map_eq_some_iff.mp hy
  exact rests x hx

/-- A record withdrawn from is open with nothing pending. -/
theorem withdrawAmendment_open {s : State} {h : Handle} {st : Stream} (hs : s.stream h = some st) :
    (s.withdrawAmendment h).stream h = some st.withdrawn := by
  simp [withdrawAmendment_stream, hs, Stream.withdrawn]

/-- A record that leaves the lists (R72, R116). -/
theorem leaveLists_quiet {s : State} (q : s.Quiet) (h : Handle) : (s.leaveLists h).Quiet := by
  have flights := leave_flights s.psu h (s.record h).generation (s.formOf h)
  obtain ⟨-, tx, rx, -⟩ := flights
  have cases := leave_cases s.psu h (s.record h).generation (s.formOf h)
  have same : s.psu.SameFlights (s.leaveLists h).psu := by
    refine ⟨tx, rx, fun k => ?_⟩
    rcases cases with ⟨-, -, e⟩ | ⟨-, e⟩ <;> rw [State.leaveLists, e]
    dsimp only
    rw [vector_get_set]
    split
    · subst_vars; rfl
    · rfl
  refine ⟨fun down => ?_, q.fits.congr (fun _ => rfl) same, fun f hf => q.live f (rx ▸ hf), q.settled⟩
  obtain ⟨list, order, standings, none_tx, none_rx⟩ := q.idle down
  refine ⟨?_, ?_, fun k => ?_, tx.trans none_tx, rx.trans none_rx⟩ <;>
    rcases cases with ⟨-, -, e⟩ | ⟨-, e⟩ <;> rw [State.leaveLists, e] <;> dsimp only
  · rw [list]; rfl
  · rw [list]; rfl
  · rw [order]; rfl
  · exact order
  · rw [vector_get_set]
    split
    · rfl
    · exact standings k
  · exact standings k

/-! ### Forced retirement -/

/-- A service dropped where it is of a record is no longer in flight, and any other is. -/
theorem kept_flight {α : Type} {x : Option α} {name : α → Flight} {drop : α → Bool} {h : Handle}
    (own : ∀ f, x = some f → (drop f = true ↔ (name f).handle = h)) (k : Flight) :
    (if x.any drop then none else x).map name = some k ↔ x.map name = some k ∧ k.handle ≠ h := by
  cases x with
  | none => simp
  | some f =>
    have dropped := own f rfl
    by_cases e : (name f).handle = h
    · rw [Option.any_some, if_pos (dropped.mpr e)]
      constructor
      · rintro ⟨⟩
      · rintro ⟨⟨⟩, other⟩
        exact absurd e other
    · rw [Option.any_some, if_neg fun d => e (dropped.mp d)]
      refine ⟨fun fly => ⟨fly, ?_⟩, And.left⟩
      cases fly
      exact e

/-- The services that are left when those of a record are aborted (R21). -/
theorem abortFlight_flies {s : State} (fits : s.Fits) (h : Handle) (k : Flight) :
    (s.abortFlight h).psu.flies k ↔ s.psu.flies k ∧ k.handle ≠ h := by
  have own : ∀ n : Flight, s.psu.flies n → ((decide (n.handle = h) &&
      decide (n.generation = (s.record h).generation)) = true ↔ n.handle = h) := fun n fly => by
    obtain ⟨-, -, generation, -⟩ := fits.flown n fly
    simp only [Bool.and_eq_true, decide_eq_true_eq, and_iff_left_iff_imp]
    rintro rfl
    exact generation.symm
  have tx := kept_flight (x := s.psu.txFlight) (name := TxFlight.flight) (h := h)
    (fun f hf => own f.flight (.inl (by rw [hf]; rfl))) k
  have rx := kept_flight (x := s.psu.rxFlight) (name := RxFlight.flight) (h := h)
    (fun f hf => own f.flight (.inr (by rw [hf]; rfl))) k
  unfold PeriodService.flies
  rw [or_and_right, ← tx, ← rx]
  rfl

/-- The services of a record aborted are dropped, and nothing else of the unit changes. -/
theorem abortFlight_drops (s : State) (h : Handle) : s.psu.Drops (s.abortFlight h).psu := by
  unfold State.abortFlight
  refine ⟨?_, ?_, rfl, rfl, rfl⟩ <;> dsimp only <;> split
  · exact .inr rfl
  · exact .inl rfl
  · exact .inr rfl
  · exact .inl rfl

/-- A record force-retired within a PURGE (R197). -/
theorem purgeRecord_quiet {s : State} (q : s.Quiet) (h : Handle) : (s.purgeRecord h).Quiet := by
  have psu : (s.purgeRecord h).psu = (s.abortFlight h).psu := by simp [State.purgeRecord]
  have record : ∀ k, (s.purgeRecord h).record k = _ := vacate_record (s.abortFlight h) h
  refine q.of_drops (q.fits.of_rest (h := h) (fun k e => ?_) (fun k => ?_) (fun st hst => ?_) ?_) ?_
    (by simp [State.purgeRecord]) (by simp [State.purgeRecord])
  · rw [record, if_neg fun c => e c.1, abortFlight_record]
  · rw [psu]; exact abortFlight_flies q.fits h k
  · rw [State.purgeRecord, vacate_stream, if_pos rfl] at hst; cases hst
  · rw [psu]; exact abortFlight_drops s h
  · rw [psu]; exact abortFlight_drops s h

/-- A forced retirement does to the table and the unit what it does within a PURGE (R21). -/
theorem forceRetire_quiet {s : State} (q : s.Quiet) (h : Handle) : (s.forceRetire h).Quiet :=
  (purgeRecord_quiet q h).congr
    (record_of_table (retire_table (s.abortFlight h) h true))
    (by simp [State.forceRetire, State.purgeRecord]) (by simp [State.forceRetire, State.purgeRecord])
    (by simp [State.forceRetire, State.purgeRecord])

/-- A PURGE (R196). -/
theorem purge_quiet {s : State} (q : s.Quiet) (n : Port) (self : Bool) : (s.purge n self).Quiet := by
  have records : (s.purgeRecords n self).Quiet :=
    List.foldlRecOn (motive := fun t : State => t.Quiet) (s.ownedBy n) State.purgeRecord
      (q.congr (t := s.setPort n ((s.port n).purgeRequests self)) (fun _ => rfl) rfl rfl rfl)
      fun _ q h _ => purgeRecord_quiet q h
  rw [purge_eq]
  exact records.congr (fun _ => rfl) rfl rfl rfl

/-- The frame that a port keeps as its last accepted one. -/
theorem keepAccepted_quiet {s : State} (q : s.Quiet) (p : Port) (self : Bool) (r : Request) :
    (s.keepAccepted p self r).Quiet := by
  unfold State.keepAccepted
  split
  · exact q.congr (fun _ => rfl) rfl rfl rfl
  · exact q

/-! ### LINKCTL -/

/-- The role of a LINKCTL. -/
theorem applyRole_quiet {s : State} (q : s.Quiet) (x : Option Role) : (s.applyRole x).Quiet :=
  q.congr (record_of_table (s.applyRole_keeps x).1) (by simp) (by simp)
    (by cases x <;> rfl)

/-- ENABLE: a leader emits its first mark, with no service in flight (R140, R152). -/
theorem enable_sound {s : State} (q : s.Quiet) : s.enable.Sound := by
  unfold State.enable
  split
  · rename_i off
    have idle := q.down (by simp [off])
    have ready : ∀ l : LinkController, State.Ready { s with link := l } := fun l =>
      ⟨(idleLaw_iff _).mpr fun _ => idle, q.fits.with_link l, q.live, .inr ⟨idle.tx, .inl q.settled⟩⟩
    dsimp only
    split
    · refine ⟨(idleLaw_iff _).mpr fun _ => idle, q.fits.with_link _, endedLaw_of_live q.live, ?_⟩
      rw [q.settled]; trivial
    · exact emitMark_sound (ready _)
  · exact q.sound

/-- The link turned off with its unit idle (R152). -/
theorem turnOff_sound {s : State} (fits : s.Fits) (idle : s.psu.Idle) (none : s.claims = []) :
    s.turnOff.Sound := by
  refine ⟨(idleLaw_iff _).mpr fun _ => cutPeriod_idle idle, (cutPeriod_fits fits).of_eq rfl rfl,
    endedLaw_of_none (cutPeriod_idle idle).rx, ?_⟩
  rw [s.turnOff_keeps.2.2.2.1, none]; trivial

/-- DISABLE (R150, R152). -/
theorem disable_sound {s : State} (q : s.Quiet) : s.disable.Sound := by
  unfold State.disable
  split
  · obtain ⟨fits, idle⟩ := leaveUp_fits q.fits
    exact turnOff_sound fits idle (by simp [q.settled])
  · rename_i acquire
    exact turnOff_sound q.fits (q.down (by simp [acquire])) q.settled
  · exact q.sound

/-! ### Requests -/

/-- A newly opened record rests, with empty buffers (R69). -/
theorem open_rests (a : OpenArgs) (p : Port) (pair : Extent × Extent) :
    (a.stream p pair).hasOwner .service = false ∧
      ∀ n, ((a.stream p pair).buffer n).fill ≤ (a.stream p pair).params.cells :=
  ⟨rfl, fun n => by cases n <;> exact Nat.zero_le _⟩

/-- A buffer handed over that was the host's: the same buffers are in SERVICE (R57). -/
theorem servesAs_handover {st : Stream} {n : BufferName} {b : Buffer}
    (host : (st.buffer n).owner = .host) (hb : b.owner = .link) (fill : b.fill ≤ st.params.cells) :
    st.ServesAs (st.setBuffer n b) := by
  have other : b.owner ≠ .service := by simp [hb]
  have mine : (st.buffer n).owner ≠ .service := by simp [host]
  refine ⟨by simp, by simp, fun m => ?_, fun m hm => ?_⟩
  · cases n <;> cases m
    · exact iff_of_false other mine
    · exact Iff.rfl
    · exact Iff.rfl
    · exact iff_of_false other mine
  · cases n <;> cases m
    · exact fill
    · exact hm
    · exact hm
    · exact fill

/-- Every accepted request keeps the law of service. -/
theorem RequestEffect.sound {s t : State} (e : RequestEffect s t) (q : s.Quiet) : t.Sound := by
  -- what rests where a CLOSE does not wait
  have rests : ∀ {h st}, s.stream h = some st →
      st.hasOwner .service = false ∨ s.link.state ≠ .up → s.restsAt h := by
    intro h st hs free
    rcases free with free | down
    · exact fun x hx => Option.some.inj (hs.symm.trans hx) ▸ free
    · exact q.fits.rests_of_none (q.down down).tx (q.down down).rx h
  cases e with
  | read => exact q.sound
  | put => exact q.sound.of_eq rfl rfl rfl rfl
  | poll => exact q.sound.of_eq rfl rfl rfl rfl
  | quota => exact State.Quiet.sound (q.congr (fun _ => rfl) rfl rfl rfl)
  | openStream p a h pair free m vacant =>
    have record : ∀ k, (State.enter { s with free := free, memory := m } p a h pair).record k =
        if k = h then ⟨(s.record h).generation, some (a.stream p pair)⟩ else s.record k :=
      enter_record { s with free := free, memory := m } p a h pair
    refine State.Quiet.sound (q.of_fits (q.fits.of_rest_same (h := h) (fun st hs => ?_)
      (fun k e => ?_) (fun st hst => ?_) rfl) rfl rfl rfl)
    · cases vacant.symm.trans hs
    · rw [record, if_neg e]
    · rw [State.stream, record, if_pos rfl] at hst
      cases hst
      exact open_rests a p pair
  | start h st hs =>
    exact State.Quiet.sound (setStream_quiet (leaveLists_quiet q h) (x := st) (by simpa using hs)
      (.of_eq rfl rfl rfl rfl))
  | stop h st hs => exact State.Quiet.sound (setStream_quiet q hs (.of_eq rfl rfl rfl rfl))
  | withdraw h => exact State.Quiet.sound (withdrawAmendment_quiet q h)
  | handover h st n fill hs host fits =>
    exact State.Quiet.sound (setStream_quiet q hs (servesAs_handover host rfl fits))
  | close h st hs free =>
    exact State.Quiet.sound (retire_quiet (withdrawAmendment_quiet q h)
      (withdrawAmendment_rests (rests hs free)) false)
  | closing h st m hs =>
    exact State.Quiet.sound (setStream_quiet (withdrawAmendment_quiet q h) (withdrawAmendment_open hs)
      (.of_eq rfl rfl rfl rfl))
  | draining h st hs =>
    exact State.Quiet.sound (setStream_quiet (leaveLists_quiet (withdrawAmendment_quiet q h) h)
      (x := st.withdrawn) (by simpa using withdrawAmendment_open hs) (.of_eq rfl rfl rfl rfl))
  | upgrade h st hs => exact State.Quiet.sound (setStream_quiet q hs (.of_eq rfl rfl rfl rfl))
  | closeDraining h st hs free => exact State.Quiet.sound (retire_quiet q (rests hs (.inl free)) false)
  | closeForced h => exact State.Quiet.sound (forceRetire_quiet q h)
  | hold h st a free m hs =>
    exact State.Quiet.sound (q.of_fits (q.fits.of_record hs
      (y := { st with pending := some ⟨a.params, a.point, a.pair, contribution st.params⟩ })
      (.of_eq rfl rfl rfl rfl)
      (holdAmendment_record { s with free := free, memory := m } h st a.params a.point a.pair)
      (.refl _)) rfl rfl rfl)
  | reshape h st a free m hs well idle =>
    have q' : State.Quiet { s with free := free, memory := m } := q.congr (fun _ => rfl) rfl rfl rfl
    exact State.Quiet.sound (q'.of_fits (reshape_fits q'.fits hs idle a.params a.pair) (by simp)
      (by simp) (by simp))
  | enable role => exact enable_sound (applyRole_quiet q role)
  | disable role => exact disable_sound (applyRole_quiet q role)
  | purge p n self r => exact State.Quiet.sound (keepAccepted_quiet (purge_quiet q n self) p self r)

/-- A request granted keeps the law of service. -/
theorem grant_sound {s t : State} {p : Port} {takes : Request → Bool} {run : Request → State → Answer}
    (sound : s.Sound) (hr : Handles p run) (h : s.grant p takes run = .next t) : t.Sound := by
  rcases grant_cases h with rfl | ⟨r, u, a, -, -, -, e, rfl⟩
  · exact sound
  · have met : (s.settle.advance p).Quiet :=
      (settle_quiet sound).congr (fun _ => rfl) rfl rfl rfl
    rcases hr.answers e with ⟨-, rfl⟩ | ⟨-, effect⟩
    · exact met.sound.of_eq rfl rfl rfl rfl
    · exact (effect.sound met).of_eq rfl rfl rfl rfl

/-! ### The other rows -/

/-- What a reset leaves is sound: no record, no service and no claim (R24, R135). -/
theorem sound_of_reset {t : State} (ht : t.table = .reset) (hu : t.psu = .reset)
    (hc : t.claims = []) : t.Sound := by
  have blank := blank_of_table ht
  have idle : t.psu.Idle := by
    rw [hu]
    refine ⟨rfl, rfl, fun h => ?_, rfl, rfl⟩
    simp [PeriodService.reset, Vector.get]
  have flies : ∀ k, ¬t.psu.flies k := fun k fly => by
    unfold PeriodService.flies at fly
    simp [idle.tx, idle.rx] at fly
  refine State.Quiet.sound ⟨(idleLaw_iff t).mpr fun _ => idle, ⟨fun h st n hs => ?_,
    fun h st n hs => ?_, fun k fly => absurd fly (flies k), fun f _ hf => ?_, fun f hf => ?_⟩,
    fun f hf => ?_, hc⟩
  · cases (blank.vacant h).symm.trans hs
  · cases (blank.vacant h).symm.trans hs
  · cases idle.tx.symm.trans hf
  · cases idle.rx.symm.trans hf
  · cases idle.rx.symm.trans hf

/-- A frame judged keeps the law of service, a reset that it starts too. -/
theorem judgeFrame_sound {s : State} (sound : s.Sound) (p : Port) (mosi : List Byte) :
    (s.judgeFrame p mosi).Sound := by
  unfold State.judgeFrame
  split
  · exact sound
  · exact sound.of_eq rfl rfl rfl rfl
  · unfold State.takeFrame
    dsimp only
    split
    · exact sound.of_eq rfl rfl rfl rfl
    split
    · exact sound.of_eq rfl rfl rfl rfl
    split
    · exact sound_of_reset rfl rfl rfl
    · exact sound.of_eq rfl rfl rfl rfl

/-- TRANSACTION_START. -/
theorem transactionStart_sound {x : TransactionStart} {s t : State} (sound : s.Sound)
    (h : execTransactionStart x s = .next t) : t.Sound := by
  unfold execTransactionStart at h
  split at h
  · cases h; exact sound
  · cases h; exact sound.of_eq rfl rfl rfl rfl

/-- TRANSACTION_END. -/
theorem transactionEnd_sound {p : Port} {mosi : List Byte} {s t : State} (sound : s.Sound)
    (h : execTransactionEnd p mosi s = .next t) : t.Sound := by
  unfold execTransactionEnd at h
  dsimp only at h
  split at h
  · cases h; exact sound
  · split at h
    · cases h; exact sound.of_eq rfl rfl rfl rfl
    · cases h; exact judgeFrame_sound (s := s.setPort p _) (sound.of_eq rfl rfl rfl rfl) p _

/-- The entries that run nothing: the claims are taken, and a response placed. -/
theorem answered_sound {s : State} (sound : s.Sound) (p : Port) (code sequence : Byte) (a : Reply)
    (retain : Bool) : ((s.settle.advance p).answer p code sequence a retain).Sound :=
  ((settle_quiet sound).congr (t := (s.settle.advance p).answer p code sequence a retain)
    (fun _ => rfl) rfl rfl rfl).sound

/-- BAD_FRAME_ENTRY. -/
theorem badFrameEntry_sound {p : Port} {s t : State} (sound : s.Sound)
    (h : execBadFrameEntry p s = .next t) : t.Sound := by
  unfold execBadFrameEntry at h
  split at h
  · cases h; exact sound
  · dsimp only at h
    split at h
    · cases h; exact answered_sound sound p _ _ _ _
    · cases h; exact sound

/-- REPEAT_ENTRY. -/
theorem repeatEntry_sound {p : Port} {s t : State} (sound : s.Sound)
    (h : execRepeatEntry p s = .next t) : t.Sound := by
  unfold execRepeatEntry at h
  split at h
  · cases h; exact sound
  · dsimp only at h
    split at h
    · cases h; exact answered_sound sound p _ _ _ _
    · cases h; exact sound

/-- The end of a reset. -/
theorem endReset_sound {s : State} (sound : s.Sound) (high : Bool) : (s.endReset high).Sound := by
  unfold State.endReset
  split
  · exact sound
  · exact sound.of_eq rfl rfl rfl rfl

/-- Every command keeps the law of service. -/
theorem exec_sound {i : Instr} {s t : State} (sound : s.Sound) (h : exec i s = .next t) : t.Sound := by
  cases hi : requestRow i with
  | some p =>
    obtain ⟨takes, run, hr, e⟩ := requestRow_grants hi
    exact grant_sound sound hr (e s ▸ h)
  | none =>
    cases i <;> simp only [requestRow, reduceCtorEq] at hi <;> simp only [exec] at h
    case transactionStart => exact transactionStart_sound sound h
    case transactionEnd => exact transactionEnd_sound sound h
    case badFrameEntry => exact badFrameEntry_sound sound h
    case repeatEntry => exact repeatEntry_sound sound h
    case reset p =>
      unfold execReset at h
      split at h
      · split at h
        · cases h; exact sound
        · cases h; exact sound_of_reset rfl rfl rfl
      · simp [‹¬p = 0›] at hi
    case resetNAssert => cases h; exact sound_of_reset rfl rfl rfl
    case resetNRelease high =>
      unfold execResetNRelease at h
      split at h
      · cases h; exact endReset_sound (s := { s with resetPin := false }) (sound.of_eq rfl rfl rfl rfl) high
      · cases h; exact sound
    case resetHoldExpiry high =>
      unfold execResetHoldExpiry at h
      split at h
      · cases h; exact endReset_sound (s := { s with resetHold := false }) (sound.of_eq rfl rfl rfl rfl) high
      · cases h; exact sound
    case periodTimerExpiry => exact periodTimerExpiry_sound sound h
    case markArrival => cases h; exact receiveMark_sound sound _
    case echoArrival => cases h; exact receiveMark_sound sound _
    case lossTimerExpiry => exact lossTimerExpiry_sound sound h
    case alignmentLapse =>
      unfold execAlignmentLapse at h
      split at h
      · cases h; exact sound.of_eq rfl rfl rfl rfl
      · cases h; exact sound
    case trailerArrival => exact trailerArrival_sound sound h
    case leadCellArrival => exact leadCellArrival_sound sound h
    case payloadCellArrival =>
      unfold execPayloadCellArrival at h
      split at h
      · exact receivePayload_sound (catchUp_quiet sound) h
      · cases h; exact sound
    case idleCellArrival =>
      unfold execIdleCellArrival at h
      split at h
      · cases h; exact cutBurst_sound (catchUp_quiet sound)
      · cases h; exact sound
    case badCheckCellArrival =>
      unfold execBadCheckCellArrival at h
      split at h
      · exact receivePayload_sound (catchUp_quiet sound) h
      · cases h; exact sound
    case markProcessing => cases h; exact takeThrough_sound sound _
    case serviceStart =>
      unfold execServiceStart at h
      split at h
      · cases h; exact sound
      · exact takeOfLane_sound sound h
    case txCompletion =>
      unfold execTxCompletion at h
      split at h
      · cases h; exact sound
      · exact takeOfLane_sound sound h
    case matchClaim => cases h; exact takeThrough_sound sound _
    case rxCompletion => cases h; exact takeThrough_sound sound _
    case periodEnd => cases h; exact takeThrough_sound sound _
    case leavingUp => cases h; exact takeThrough_sound sound _
    case enteringUp => exact enteringUp_sound sound h
    case slip => cases h; exact takeThrough_sound sound _

/-- Every step keeps the law of service. -/
theorem step_sound {s t : State} (sound : s.Sound) (h : step s = .next t) : t.Sound := by
  unfold step at h
  split at h
  · exact cellTime_sound sound h
  · rename_i rest _
    exact exec_sound (s := { s with pending := rest }) (sound.of_eq rfl rfl rfl rfl) h

/-- Settles O15: the records by what a step can do to them, the services by the law of every claim and
event. -/
theorem stepKeepsRecords : Obligations.StepKeepsRecords := by
  intro s t h
  refine ⟨(step_moves h).recordsLaw, fun idle service => ?_⟩
  exact (sound_iff t).mp (step_sound ((sound_iff s).mpr ⟨idle, service⟩) h)

end Sys2Proof.Machine
end

