-- ==== Sys2Proof/Proofs/Holdings.lean ====
section
/-! SUPPORT. What the records hold and charge, with the load tables, the port charges and the free list:
the few things that can be done to it, and that every claim and every cell time does some of them.
`State.Follows` says what can become of a record; it says nothing of where its charge and its extents are
counted, and this does. -/

namespace Sys2Proof.Machine

/-! ### What a state holds -/

/-- What a stream holds and is charged for: its owner and direction, its parameters, its extents and its
pending amendment. -/
structure Holding where
  owner : Port
  direction : Direction
  params : Params
  extentA : Extent
  extentB : Extent
  pending : Option Amendment

/-- What a stream holds. -/
def Stream.holding (st : Stream) : Holding :=
  ⟨st.owner, st.direction, st.params, st.bufferA.extent, st.bufferB.extent, st.pending⟩

/-- What all records hold, and where it is counted. -/
structure Holdings where
  held : Handle → Option Holding
  loads : PerDirection Residues
  charges : PerDirection (Vector Nat 4)
  free : List Extent

/-- What all records of a state hold, and its load tables, port charges and free list. -/
def State.holdings (s : State) : Holdings :=
  ⟨fun k => (s.stream k).map Stream.holding, s.table.loads, s.table.charges, s.free⟩

/-- What a handle's record holds is what its stream does; a VACANT one holds nothing. -/
theorem holdings_held (s : State) (h : Handle) :
    s.holdings.held h = (s.stream h).map Stream.holding := rfl

/-- The same table and free list hold the same. -/
theorem holdings_of_table {s t : State} (table : t.table = s.table) (free : t.free = s.free) :
    t.holdings = s.holdings := by
  simp only [State.holdings, stream_of_table table, table, free]

/-- A notice of an optional kind changes nothing held. -/
@[simp] theorem notifyIf_holdings (s : State) (c : Bool) (p : Port) (x : Report) :
    (s.notifyIf c p x).holdings = s.holdings :=
  holdings_of_table (s.notifyIf_keeps c p x).1 (s.notifyIf_keeps c p x).2.1

/-- A record whose stream holds what it held. -/
theorem setStream_holdings {s : State} {h : Handle} {x y : Stream} (hs : s.stream h = some x)
    (e : y.holding = x.holding) : (s.setStream h y).holdings = s.holdings := by
  have held : ∀ k, ((s.setStream h y).stream k).map Stream.holding =
      (s.stream k).map Stream.holding := fun k => by
    rw [State.setStream_stream]
    split
    · subst_vars; rw [hs, Option.map_some, Option.map_some, e]
    · rfl
  simp only [State.holdings, held, State.setStream_loads, State.setStream_charges,
    State.setStream_free]

/-- A buffer keeps its extent whoever owns it and whatever its fill. -/
theorem setBuffer_holding (st : Stream) (n : BufferName) (x : Buffer)
    (e : x.extent = (st.buffer n).extent) : (st.setBuffer n x).holding = st.holding := by
  cases n <;> simp only [Stream.holding, Stream.setBuffer, e] <;> rfl

/-- A miss changes nothing held (R128). -/
theorem miss_holdings (s : State) (h : Handle) (c : MissCause) :
    (s.miss h c).holdings = s.holdings := by
  unfold State.miss
  split
  · rename_i st hs
    have run : ((s.setStream h { st with missRun := st.nextRun }).notifyIf st.notify.miss st.owner
        (.miss h (s.record h).generation c st.nextRun)).holdings = s.holdings :=
      (notifyIf_holdings _ _ _ _).trans (setStream_holdings hs rfl)
    dsimp only
    split
    · refine Eq.trans (setStream_holdings (x := { st with missRun := st.nextRun })
        (y := { st with missRun := st.nextRun, state := .suspended .misses }) ?_ rfl) run
      simp
    · exact run
  · rfl

/-! ### What can be done to it -/

/-- One state comes from another by things done to what the records hold, one after another: nothing at
all, a withdrawal, a retirement, an amendment that takes effect, a record opened, an amendment held or
carried through at once, or a reset. -/
inductive State.Evolves : State → State → Prop where
  | trans {s t u : State} (f : s.Evolves t) (g : t.Evolves u) : s.Evolves u
  | same {s t : State} (e : t.holdings = s.holdings) : s.Evolves t
  | withdraw (s : State) (h : Handle) : s.Evolves (s.withdrawAmendment h)
  | vacate (s : State) (h : Handle) : s.Evolves (s.vacate h)
  | takeEffect {s : State} {h : Handle} {st : Stream} {a : Amendment} (hs : s.stream h = some st)
      (pending : st.pending = some a) : s.Evolves (s.reshape h st a.params a.pair)
  /-- OPEN (R69) -/
  | openStream {s : State} (p : Port) (a : OpenArgs) {h : Handle} {g : (Extent × Extent) × List Extent}
      (vacant : s.stream h = none)
      (admitted : s.admission p a.direction noCells (contribution a.params) = none)
      (granted : s.pair (granulesFor a.params.cells) = .ok g) :
      s.Evolves ((s.setFree g.2).enter p a h g.1)
  /-- AMEND of a LIVE record (R94) -/
  | hold {s : State} {h : Handle} {st : Stream} {new : Params} (point : EffectivePoint)
      {g : Option ((Extent × Extent) × List Extent)} (hs : s.stream h = some st)
      (pending : st.pending = none)
      (admitted : s.admission st.owner st.direction (contribution st.params) (st.amendedCharge new) =
        none)
      (granted : s.amendPair st new = .ok g) :
      s.Evolves ((s.setFree (g.elim s.free Prod.snd)).holdAmendment h st new point (g.map Prod.fst))
  /-- AMEND of a record that is not LIVE (R105) -/
  | amend {s : State} {h : Handle} {st : Stream} {new : Params}
      {g : Option ((Extent × Extent) × List Extent)} (hs : s.stream h = some st)
      (pending : st.pending = none)
      (admitted : s.admission st.owner st.direction (contribution st.params) (st.amendedCharge new) =
        none)
      (granted : s.amendPair st new = .ok g) :
      s.Evolves ((s.setFree (g.elim s.free Prod.snd)).reshape h st new (g.map Prod.fst))
  | reset {s t : State} (e : t.holdings = State.reset.holdings) : s.Evolves t

theorem State.Evolves.refl (s : State) : s.Evolves s := .same rfl

/-- The same table and free list. -/
theorem State.Evolves.of_table {s t : State} (table : t.table = s.table) (free : t.free = s.free) :
    s.Evolves t := .same (holdings_of_table table free)

/-- Another link state. -/
theorem State.Evolves.with_link (s : State) (l : LinkController) : s.Evolves { s with link := l } :=
  .of_table rfl rfl

/-- From a state of the same table and free list. -/
theorem State.Evolves.after {s t u : State} (f : t.Evolves u) (table : t.table = s.table)
    (free : t.free = s.free) : s.Evolves u := (State.Evolves.of_table table free).trans f

/-- Either of two states. -/
theorem State.Evolves.ite {s t u : State} {c : Prop} [Decidable c] (ht : s.Evolves t)
    (hu : s.Evolves u) : s.Evolves (if c then t else u) := by
  split
  · exact ht
  · exact hu

/-- A walk whose every step evolves. -/
theorem State.Evolves.foldl {α : Type} {f : State → α → State}
    (hf : ∀ (s : State) (a : α), s.Evolves (f s a)) (l : List α) (s : State) :
    s.Evolves (l.foldl f s) := by
  induction l generalizing s with
  | nil => exact .refl s
  | cons a l ih => exact (hf s a).trans (ih (f s a))

/-- A record whose stream holds what it held. -/
theorem setStream_evolves {s : State} {h : Handle} {x y : Stream} (hs : s.stream h = some x)
    (e : y.holding = x.holding) : s.Evolves (s.setStream h y) := .same (setStream_holdings hs e)

theorem notifyIf_evolves (s : State) (c : Bool) (p : Port) (x : Report) :
    s.Evolves (s.notifyIf c p x) := .same (notifyIf_holdings s c p x)

theorem miss_evolves (s : State) (h : Handle) (c : MissCause) : s.Evolves (s.miss h c) :=
  .same (miss_holdings s h c)

/-- Retirement is its parts 1 to 4, 6 and 7, and notices. -/
theorem retire_evolves (s : State) (h : Handle) (c : Bool) : s.Evolves (s.retire h c) := by
  unfold State.retire
  split
  · rename_i st _
    refine (State.Evolves.vacate s h).trans (.trans ?_ (notifyIf_evolves _ c st.owner _))
    exact .of_table rfl rfl
  · exact .refl s

/-! ### The claims of the Period Service Unit -/

theorem takeEffect_evolves (m : Period) (s : State) (h : Handle) : s.Evolves (s.takeEffect m h) := by
  unfold State.takeEffect
  split
  · rename_i st hs
    split
    · rename_i a pending
      exact .ite ((State.Evolves.takeEffect hs pending).trans (.of_table rfl rfl)) (.refl s)
    · exact .refl s
  · exact .refl s

theorem starveWarning_evolves (n : Period) (s : State) (h : Handle) :
    s.Evolves (s.starveWarning n h) :=
  .of_table (s.starveWarning_keeps n h).1 (s.starveWarning_keeps n h).2.1

theorem buildLists_evolves (s : State) (n : Period) : s.Evolves (s.buildLists n) := .of_table rfl rfl

theorem dropLists_evolves (s : State) : s.Evolves s.dropLists := .of_table rfl rfl

theorem openList_evolves (s : State) : s.Evolves s.openList :=
  .of_table s.openList_keeps.1 s.openList_keeps.2.1

theorem takeMarkProcessing_evolves (s : State) (n : Period) : s.Evolves (s.takeMarkProcessing n) := by
  have effects := State.Evolves.foldl (takeEffect_evolves n) handles s
  unfold State.takeMarkProcessing
  dsimp only
  split
  · exact effects.trans ((buildLists_evolves _ n).trans
      ((State.Evolves.foldl (starveWarning_evolves n) handles _).trans (openList_evolves _)))
  · exact effects.trans (dropLists_evolves _)

theorem closeAfterService_evolves (s : State) (h : Handle) : s.Evolves (s.closeAfterService h) := by
  unfold State.closeAfterService
  split
  · exact .ite (retire_evolves s h true) (.refl s)
  · exact .refl s

theorem stage_evolves (s : State) (cells : List LaneCell) : s.Evolves (s.stage cells) :=
  .of_table rfl rfl

theorem startBurst_evolves {s : State} {e : TxEntry} {st : Stream} (hs : s.stream e.handle = some st) :
    s.Evolves (s.startBurst e st) := by
  have due : (st.setBuffer st.parity { st.dueBuffer with owner := .service }).holding = st.holding :=
    setBuffer_holding st st.parity _ rfl
  refine .trans (setStream_evolves (y := { st.setBuffer st.parity { st.dueBuffer with owner := .service }
    with lastSlot := some e.offset }) hs due) ?_
  exact .of_table rfl rfl

theorem takeServiceStart_evolves (s : State) (e : TxEntry) : s.Evolves (s.takeServiceStart e) := by
  unfold State.takeServiceStart
  split
  · exact stage_evolves s _
  · rename_i st hs
    refine .ite (stage_evolves s _) (.ite (stage_evolves s _) (.ite (stage_evolves s _) ?_))
    split
    · exact startBurst_evolves hs
    · exact .ite ((miss_evolves s _ _).trans (stage_evolves _ _))
        ((retire_evolves s _ _).trans (stage_evolves _ _))
    · exact stage_evolves s _

theorem startNext_evolves (s : State) (e : TxEntry) : s.Evolves (s.startNext e) :=
  .ite (.of_table rfl rfl) ((takeServiceStart_evolves _ e).after rfl rfl)

theorem takeNextStart_evolves (s : State) : s.Evolves s.takeNextStart := by
  unfold State.takeNextStart
  split
  · exact startNext_evolves s _
  · exact .refl s

theorem dropTx_evolves (s : State) : s.Evolves s.dropTx := .of_table rfl rfl

theorem dropRx_evolves (s : State) : s.Evolves s.dropRx := .of_table rfl rfl

theorem takeTxCompletion_evolves (s : State) : s.Evolves s.takeTxCompletion := by
  rcases takeTxCompletion_cases s with ⟨-, e⟩ | ⟨f, -, ⟨-, e⟩ | ⟨st, hs, -, e⟩⟩ <;> rw [e]
  · exact .refl s
  · exact dropTx_evolves s
  · have completed : (st.completeTx f.buffer).holding = st.holding :=
      setBuffer_holding st f.buffer { st.buffer f.buffer with owner := .host } rfl
    exact (dropTx_evolves s).trans ((setStream_evolves (s := s.dropTx) hs completed).trans
      ((notifyIf_evolves _ _ _ _).trans (closeAfterService_evolves _ _)))

theorem startReceive_evolves {s : State} {h : Handle} {st : Stream} (hs : s.stream h = some st)
    (count : Nat) : s.Evolves (s.startReceive h st count) :=
  (setStream_evolves hs (setBuffer_holding st st.parity
    { st.dueBuffer with owner := .service, fill := 0 } rfl)).trans (.of_table rfl rfl)

theorem takeMatch_evolves (s : State) (h : Handle) (count : Nat) : s.Evolves (s.takeMatch h count) := by
  unfold State.takeMatch
  dsimp only
  split
  · exact .refl s
  · rename_i st hs
    refine .ite (.refl s) (.ite (.refl s) (.ite (.refl s) (.ite (setStream_evolves hs rfl) ?_)))
    split
    · exact .ite ((miss_evolves (s.setStanding h .received) h .overrun).after rfl rfl)
        (retire_evolves s h true)
    · exact (startReceive_evolves (s := s.setStanding h .received) hs count).after rfl rfl
    · exact .refl s

theorem takeRxCompletion_evolves (s : State) : s.Evolves s.takeRxCompletion := by
  rcases takeRxCompletion_cases s with ⟨-, e⟩ | ⟨f, -, ⟨-, e⟩ | ⟨st, hs, -, ⟨-, e⟩ | ⟨-, e⟩⟩⟩ <;> rw [e]
  · exact .refl s
  · exact dropRx_evolves s
  · have damaged : (st.damageRx f.buffer f.excess).holding = st.holding :=
      setBuffer_holding st f.buffer { st.buffer f.buffer with owner := .link, fill := 0 } rfl
    exact (dropRx_evolves s).trans ((setStream_evolves (s := s.dropRx) hs damaged).trans
      ((miss_evolves _ _ _).trans (closeAfterService_evolves _ _)))
  · have completed : (st.completeRx f.buffer f.stored).holding = st.holding :=
      setBuffer_holding st f.buffer { st.buffer f.buffer with owner := .host, fill := f.stored } rfl
    exact (dropRx_evolves s).trans ((setStream_evolves (s := s.dropRx) hs completed).trans
      ((notifyIf_evolves _ _ _ _).trans (closeAfterService_evolves _ _)))

theorem decideHandle_evolves (s : State) (h : Handle) : s.Evolves (s.decideHandle h) := by
  unfold State.decideHandle
  dsimp only
  split
  · exact .refl s
  · refine .ite (.refl s) (.ite (.refl s) (.ite (.refl s) (.ite (.refl s) ?_)))
    split
    · exact .ite (miss_evolves s h _) (retire_evolves s h true)
    · exact miss_evolves s h _
    · exact .refl s

theorem takePeriodEnd_evolves (s : State) : s.Evolves s.takePeriodEnd :=
  (State.Evolves.foldl decideHandle_evolves s.periodEndOrder s).trans (.of_table rfl rfl)

/-! ### The claims of the Link Controller -/

theorem abortBuffer_evolves (s : State) (h : Handle) (g : Byte) (n : BufferName) :
    s.Evolves (s.abortBuffer h g n) := by
  unfold State.abortBuffer
  split
  · rename_i st hs
    exact .ite (setStream_evolves hs (setBuffer_holding st n _ rfl)) (.refl s)
  · exact .refl s

theorem abortTx_evolves (s : State) : s.Evolves s.abortTx := by
  unfold State.abortTx
  split
  · exact abortBuffer_evolves s _ _ _
  · exact .refl s

theorem abortRx_evolves (s : State) : s.Evolves s.abortRx := by
  unfold State.abortRx
  split
  · exact abortBuffer_evolves s _ _ _
  · exact .refl s

theorem abortService_evolves (s : State) : s.Evolves s.abortService := by
  rw [abortService_eq]
  exact (abortTx_evolves s).trans ((dropTx_evolves _).trans ((abortRx_evolves _).trans
    ((dropRx_evolves _).trans (dropLists_evolves _))))

theorem departRecord_evolves (s : State) (h : Handle) : s.Evolves (s.departRecord h) := by
  unfold State.departRecord
  split
  · rename_i st hs
    split
    · refine .ite (.trans (setStream_evolves hs (y := { st with state := .suspended .link }) rfl) ?_)
        (.refl s)
      exact .of_table rfl rfl
    · exact retire_evolves s h true
    · exact .refl s
  · exact .refl s

theorem notifyAll_evolves (s : State) (x : LinkEvent) : s.Evolves (s.notifyAll x) :=
  .of_table (s.notifyAll_keeps x).1 (s.notifyAll_keeps x).2.1

theorem leaveUp_evolves (s : State) : s.Evolves s.leaveUp :=
  (abortService_evolves s).trans
    ((State.Evolves.foldl departRecord_evolves handles _).trans (notifyAll_evolves _ _))

theorem cutPeriod_evolves (s : State) : s.Evolves s.cutPeriod := .of_table rfl rfl

theorem takeLeavingUp_evolves (s : State) : s.Evolves s.takeLeavingUp := by
  unfold State.takeLeavingUp
  dsimp only
  split
  · refine (leaveUp_evolves s).trans ?_
    split
    · exact .with_link _ _
    · exact (cutPeriod_evolves s.leaveUp).trans (.with_link _ _)
  · exact .refl s

/-! ### The claims taken, and the lane -/

theorem takeClaim_evolves (s : State) (c : Claim) : s.Evolves (s.takeClaim c) := by
  cases c with
  | markProcessing n => exact takeMarkProcessing_evolves s n
  | serviceStart => exact takeNextStart_evolves s
  | txCompletion => exact takeTxCompletion_evolves s
  | matchLead h count => exact takeMatch_evolves s h count
  | rxCompletion => exact takeRxCompletion_evolves s
  | periodEnd => exact takePeriodEnd_evolves s
  | leavingUp => exact takeLeavingUp_evolves s
  | enteringUp => exact notifyAll_evolves s .up
  | slip => exact notifyAll_evolves s .slip

/-- The claim at the front taken. -/
theorem front_evolves (s : State) (c : Claim) (rest : List Claim) :
    s.Evolves (State.takeClaim { s with claims := rest } c) :=
  (takeClaim_evolves { s with claims := rest } c).after rfl rfl

theorem settleFor_evolves (n : Nat) (s : State) : s.Evolves (State.settleFor n s) := by
  induction n generalizing s with
  | zero => exact .refl s
  | succ n ih =>
    unfold State.settleFor
    split
    · exact .refl s
    · rename_i c rest _
      exact (front_evolves s c rest).trans (ih _)

theorem settle_evolves (s : State) : s.Evolves s.settle := settleFor_evolves _ s

theorem catchUp_evolves (s : State) : s.Evolves s.catchUp :=
  (settle_evolves s).trans ((settle_evolves s.settle.enterUp).after
    (State.enterUp_keeps _).1 (State.enterUp_keeps _).2.1)

theorem takeThroughFor_evolves {kind : Claim → Bool} {n : Nat} {s t : State}
    (h : State.takeThroughFor kind n s = some t) : s.Evolves t := by
  induction n generalizing s with
  | zero => cases h
  | succ n ih =>
    unfold State.takeThroughFor at h
    split at h
    · cases h
    · rename_i c rest _
      dsimp only at h
      split at h
      · cases h; exact front_evolves s c rest
      · exact (front_evolves s c rest).trans (ih h)

theorem through_evolves {s t : State} {kind : Claim → Bool} (h : s.through kind = some t) :
    s.Evolves t := takeThroughFor_evolves h

theorem takeThrough_evolves (s : State) (kind : Claim → Bool) : s.Evolves (s.takeThrough kind) := by
  refine .ite (.refl s) (.ite ?_ (.refl s))
  cases h : s.through kind with
  | none => exact .refl s
  | some t => exact through_evolves h

theorem cellTime_evolves {s t : State} (h : s.cellTime = .next t) : s.Evolves t := by
  rcases cellTime_cases h with ⟨-, rfl⟩ | ⟨-, -, h⟩
  · exact .of_table rfl rfl
  · exact (catchUp_evolves s).trans (.of_table (State.stageNext_keeps h).1 (State.stageNext_keeps h).2.1)

theorem passTo_evolves {kind : Claim → Bool} {n : Nat} {s t : State}
    (h : s.passTo kind n = .next t) : s.Evolves t := by
  induction n generalizing s with
  | zero => cases h; exact .refl _
  | succ n ih =>
    unfold State.passTo at h
    split at h
    · cases h; exact .refl _
    · split at h
      · exact (cellTime_evolves ‹_›).trans (ih h)
      · cases h
      · cases h

theorem takeOfLane_evolves {s t : State} {kind : Claim → Bool} {toCome : State → Bool}
    (h : s.takeOfLane kind toCome = .next t) : s.Evolves t := by
  unfold State.takeOfLane at h
  split at h
  · cases h; exact through_evolves ‹_›
  · dsimp only at h
    split at h
    · split at h
      · rename_i u hu
        cases h
        cases ht : u.through kind with
        | none => exact .refl s
        | some v => exact (catchUp_evolves s).trans ((passTo_evolves hu).trans (through_evolves ht))
      · cases h
      · cases h
    · cases h; exact .refl s

theorem finishSlot_evolves (s : State) : s.Evolves s.finishSlot :=
  (takeTxCompletion_evolves s).trans (.of_table rfl rfl)

theorem runSlots_evolves (n : Nat) (s : State) : s.Evolves (State.runSlots n s) := by
  induction n generalizing s with
  | zero => exact finishSlot_evolves s
  | succ n ih =>
    unfold State.runSlots
    dsimp only
    split
    · exact finishSlot_evolves s
    · exact (finishSlot_evolves s).trans ((startNext_evolves _ _).trans (ih _))

theorem runOut_evolves (s : State) : s.Evolves s.runOut := runSlots_evolves _ s

end Sys2Proof.Machine
end

