-- ==== Sys2Proof/Proofs/HoldingsStep.lean ====
section
/-! SUPPORT. Every event of the link, every request and every row evolves what the records hold, and so
does every step. -/

namespace Sys2Proof.Machine

/-! ### The events of the link -/

theorem makeClaim_evolves (s : State) (c : Claim) : s.Evolves (s.makeClaim c) := .of_table rfl rfl

theorem cutBurst_evolves (s : State) : s.Evolves s.cutBurst :=
  .of_table s.cutBurst_keeps.1 s.cutBurst_keeps.2.1

theorem endReceive_evolves (s : State) : s.Evolves s.endReceive :=
  .of_table s.endReceive_keeps.1 s.endReceive_keeps.2.1

theorem reportMark_evolves (s : State) (n : Period) : s.Evolves (s.reportMark n) :=
  .of_table (s.reportMark_keeps n).1 (s.reportMark_keeps n).2.1

theorem emitMark_evolves (s : State) : s.Evolves s.emitMark :=
  .of_table s.emitMark_keeps.1 s.emitMark_keeps.2.1

theorem settlePeriod_evolves (s : State) : s.Evolves s.settlePeriod := by
  unfold State.settlePeriod
  dsimp only
  split
  · exact (State.Evolves.with_link s _).trans (makeClaim_evolves _ _)
  split
  · exact (State.Evolves.with_link s _).trans (runOut_evolves _)
  · exact .with_link s _

theorem takeMark_evolves (s : State) (m : Period) : s.Evolves (s.takeMark m) :=
  (State.Evolves.ite (runOut_evolves s) (.refl s)).trans
    ((State.Evolves.ite (makeClaim_evolves _ _) (.refl _)).trans
      ((State.Evolves.with_link _ _).trans ((reportMark_evolves _ m).trans (.of_table rfl rfl))))

theorem acceptEcho_evolves (s : State) : s.Evolves s.acceptEcho :=
  .of_table s.acceptEcho_keeps.1 s.acceptEcho_keeps.2.1

theorem receiveMark_evolves (s : State) (c : MarkCell) : s.Evolves (s.receiveMark c) := by
  unfold State.receiveMark
  split
  · have caught := (catchUp_evolves s).trans
      (.with_link s.catchUp { s.catchUp.link with aligned := true })
    dsimp only
    split
    · exact caught.trans (.ite (takeMark_evolves _ _) (cutBurst_evolves _))
    · exact caught.trans ((cutBurst_evolves _).trans (.ite (acceptEcho_evolves _) (.refl _)))
  · exact .refl s

theorem receivePayload_evolves {s t : State} {data : Payload} {sound : Bool}
    (h : s.receivePayload data sound = .next t) : s.Evolves t := by
  rcases receivePayload_cases h with rfl | ⟨f, m, -, -, e⟩
  · exact .refl _
  · rw [e]
    dsimp only
    split <;> exact .of_table rfl rfl

theorem periodTimerExpiry_evolves {s t : State} (h : execPeriodTimerExpiry s = .next t) :
    s.Evolves t := by
  unfold execPeriodTimerExpiry at h
  split at h
  · cases h
    exact (catchUp_evolves s).trans ((settlePeriod_evolves _).trans (emitMark_evolves _))
  · cases h; exact .refl _

theorem lossTimerExpiry_evolves {s t : State} (h : execLossTimerExpiry s = .next t) :
    s.Evolves t := by
  unfold execLossTimerExpiry at h
  split at h
  · have caught := (catchUp_evolves s).trans
      (.with_link s.catchUp { s.catchUp.link with lossTimer := false })
    dsimp only at h
    split at h
    · cases h; exact caught.trans (makeClaim_evolves _ _)
    · cases h; exact caught.trans (.with_link _ _)
  · cases h; exact .refl _

theorem trailerArrival_evolves {n : BitVec 16} {s t : State}
    (h : execTrailerArrival n s = .next t) : s.Evolves t := by
  unfold execTrailerArrival at h
  split at h
  · dsimp only at h
    split at h
    · cases h; exact catchUp_evolves s
    · cases h
      exact (catchUp_evolves s).trans
        ((cutBurst_evolves _).trans (.ite (endReceive_evolves _) (.refl _)))
  · cases h; exact .refl _

theorem leadCellArrival_evolves {channel count : Byte} {s t : State}
    (h : execLeadCellArrival channel count s = .next t) : s.Evolves t := by
  have cut : s.Evolves s.catchUp.cutBurst := (catchUp_evolves s).trans (cutBurst_evolves _)
  unfold execLeadCellArrival at h
  split at h
  · dsimp only at h
    split at h
    · cases h; exact cut
    split at h
    · cases h; exact cut
    split at h
    · cases h; exact cut.trans (makeClaim_evolves _ _)
    · cases h; exact cut
  · cases h; exact .refl _

theorem enteringUp_evolves {s t : State} (h : execEnteringUp s = .next t) : s.Evolves t := by
  unfold execEnteringUp at h
  split at h
  · cases h; exact .refl _
  split at h
  · cases h; exact takeThrough_evolves s _
  split at h
  · cases h; exact catchUp_evolves s
  · cases h; exact .refl _

/-! ### Requests -/

/-- The tests of an OPEN passed: the handle VACANT, the charge admitted and the pair granted (R68). -/
theorem openTests_ok {s : State} {p : Port} {a : OpenArgs} {h : Handle}
    {g : (Extent × Extent) × List Extent} (e : s.openTests p a = .ok (h, g)) :
    s.stream h = none ∧ s.admission p a.direction noCells (contribution a.params) = none ∧
      s.pair (granulesFor a.params.cells) = .ok g := by
  unfold State.openTests at e
  split at e
  · cases e
  · rename_i k hv
    split at e
    · cases e
    split at e
    · cases e
    split at e
    · cases e
    · rename_i admitted
      cases hg : s.pair (granulesFor a.params.cells) with
      | error r => rw [hg] at e; cases e
      | ok g =>
        rw [hg] at e
        cases e
        exact ⟨by simpa using List.find?_some hv, admitted, rfl⟩

theorem openRequest_evolves {p : Port} {r : Request} {s : State} {x : State × Reply}
    (e : openRequest p r s = .ok x) : s.Evolves x.1 := by
  unfold openRequest at e
  split at e
  · cases e; exact .refl s
  · rename_i a _
    split at e
    · cases e; exact .refl s
    · rename_i k hk
      obtain ⟨vacant, admitted, granted⟩ := openTests_ok hk
      split at e
      · cases e
      · rename_i t ht
        obtain ⟨m, rfl⟩ := takePair_ok ht
        cases e
        exact (State.Evolves.openStream p a vacant admitted granted).trans (.of_table rfl rfl)

/-- The tests of an AMEND passed: no amendment pending, the charge admitted and the pair granted
(R91). -/
theorem amendTests_ok {s : State} {st : Stream} {x : List Byte} {point : EffectivePoint}
    {new : Params} {g : Option ((Extent × Extent) × List Extent)}
    (e : s.amendTests st x point = .ok (new, g)) :
    st.pending = none ∧ s.admission st.owner st.direction (contribution st.params)
      (st.amendedCharge new) = none ∧ s.amendPair st new = .ok g := by
  unfold State.amendTests at e
  split at e
  · cases e
  all_goals
    split at e
    · cases e
    rename_i pending
    iterate 3
      split at e
      · cases e
    dsimp only at e
    split at e
    · cases e
    rename_i admitted
    cases hg : s.amendPair st (readParams x (readPolicy x st.direction)) with
    | error r => rw [hg] at e; cases e
    | ok g =>
      rw [hg] at e
      cases e
      exact ⟨by simpa using pending, admitted, hg⟩

/-- The pair of an amendment taken leaves the free list that the grant gives, and changes but that and
Stream Memory. -/
theorem takeAmendPair_eq {s t : State} {g : Option ((Extent × Extent) × List Extent)}
    (e : s.takeAmendPair g = .ok t) :
    ∃ m, t = { s.setFree (g.elim s.free Prod.snd) with memory := m } := by
  cases g with
  | none => cases e; exact ⟨s.memory, rfl⟩
  | some g => exact takePair_ok (s := s) (g := g) e

theorem amendRequest_evolves {p : Port} {r : Request} {s : State} {x : State × Reply}
    (e : amendRequest p r s = .ok x) : s.Evolves x.1 := by
  unfold amendRequest at e
  split at e
  · cases e; exact .refl s
  · rename_i point _
    split at e
    · cases e; exact .refl s
    · rename_i h st hn
      have hs := (nameCheck_ok hn).1.2.2
      split at e
      · cases e; exact .refl s
      · rename_i new g hg
        obtain ⟨pending, admitted, granted⟩ := amendTests_ok hg
        split at e
        · cases e
        · rename_i t ht
          obtain ⟨m, rfl⟩ := takeAmendPair_eq ht
          cases e
          unfold State.amend
          split
          · exact (State.Evolves.hold point hs pending admitted granted).trans (.of_table rfl rfl)
          · exact (State.Evolves.amend hs pending admitted granted).trans (.of_table rfl rfl)

theorem leaveLists_evolves (s : State) (h : Handle) : s.Evolves (s.leaveLists h) := .of_table rfl rfl

theorem startRequest_evolves (p : Port) (r : Request) (s : State) :
    s.Evolves (startRequest p r s).1 := by
  unfold startRequest
  split
  · exact .refl s
  · rename_i h st e
    have hs : (s.leaveLists h).stream h = some st := nameOnly_ok e
    have started : s.Evolves ((s.leaveLists h).setStream h { st with state := .live, missRun := 0 }) :=
      (leaveLists_evolves s h).trans (setStream_evolves hs rfl)
    split
    · exact started
    · exact started
    · exact .refl s
    · exact .refl s

theorem stopRequest_evolves (p : Port) (r : Request) (s : State) :
    s.Evolves (stopRequest p r s).1 := by
  unfold stopRequest
  split
  · exact .refl s
  · rename_i h st e
    have hs := nameOnly_ok e
    split
    · exact setStream_evolves hs rfl
    · exact setStream_evolves hs rfl
    · exact .refl s
    · exact .refl s

theorem closeOpen_evolves {s : State} {h : Handle} {st : Stream} (m : CloseMode)
    (hs : s.stream h = some st) : s.Evolves (s.closeOpen h st m).1 := by
  have withdrawn := withdrawAmendment_open hs
  have closes : ∀ t : State, t.stream h = some st.withdrawn →
      t.Evolves (t.setStream h { st.withdrawn with state := .closing m }) :=
    fun t ht => setStream_evolves ht rfl
  unfold State.closeOpen
  dsimp only
  split
  · refine (State.Evolves.withdraw s h).trans ?_
    split
    · exact (leaveLists_evolves _ h).trans (closes _ withdrawn)
    · exact closes _ withdrawn
  · exact (State.Evolves.withdraw s h).trans (retire_evolves _ h false)

theorem closeAgain_evolves {s : State} {h : Handle} {st : Stream} (old m : CloseMode)
    (hs : s.stream h = some st) : s.Evolves (s.closeAgain h st old m).1 := by
  unfold State.closeAgain
  split
  · split
    · exact setStream_evolves hs rfl
    · exact retire_evolves s h false
  · exact .refl s

theorem purgeRecord_evolves (s : State) (h : Handle) : s.Evolves (s.purgeRecord h) :=
  (State.Evolves.vacate (s.abortFlight h) h).after rfl rfl

theorem forceRetire_evolves (s : State) (h : Handle) : s.Evolves (s.forceRetire h) :=
  (retire_evolves (s.abortFlight h) h true).after rfl rfl

theorem closeRequest_evolves (p : Port) (r : Request) (s : State) :
    s.Evolves (closeRequest p r s).1 := by
  unfold closeRequest
  split
  · exact .refl s
  · rename_i m _
    split
    · exact .refl s
    · rename_i h st e
      have hs := (nameCheck_ok e).1.2.2
      split
      · exact forceRetire_evolves s h
      · split
        · exact closeAgain_evolves _ m hs
        all_goals exact closeOpen_evolves m hs

theorem withdrawRequest_evolves (p : Port) (r : Request) (s : State) :
    s.Evolves (withdrawRequest p r s).1 := by
  unfold withdrawRequest
  split
  · exact .refl s
  · split
    · exact .refl s
    · exact .withdraw s _

theorem putRequest_evolves {p : Port} {r : Request} {s : State} {x : State × Reply}
    (e : putRequest p r s = .ok x) : s.Evolves x.1 := by
  unfold putRequest at e
  split at e
  · cases e; exact .refl s
  split at e
  · cases e; exact .refl s
  iterate 3
    split at e
    · cases e; exact .refl s
  split at e
  · cases e; exact .of_table rfl rfl
  · cases e

theorem getRequest_evolves {p : Port} {r : Request} {s : State} {x : State × Reply}
    (e : getRequest p r s = .ok x) : s.Evolves x.1 := by
  unfold getRequest at e
  split at e
  · cases e; exact .refl s
  split at e
  · cases e; exact .refl s
  iterate 3
    split at e
    · cases e; exact .refl s
  · cases e

theorem handoverRequest_evolves (p : Port) (r : Request) (s : State) :
    s.Evolves (handoverRequest p r s).1 := by
  unfold handoverRequest
  split
  · exact .refl s
  · rename_i n fill _
    split
    · exact .refl s
    · rename_i h st e
      have hs := (nameCheck_ok e).1.2.2
      have handed := setStream_evolves hs
        (setBuffer_holding st n ⟨(st.buffer n).extent, .link, fill⟩ rfl)
      split
      · exact .refl s
      all_goals
        iterate 3
          split
          · exact .refl s
        exact handed

theorem quotaRequest_evolves (p : Port) (r : Request) (s : State) :
    s.Evolves (quotaRequest p r s).1 := by
  unfold quotaRequest
  split
  · exact .refl s
  · split
    · exact .refl s
    · exact .same rfl

theorem turnOff_evolves (s : State) : s.Evolves s.turnOff :=
  .of_table s.turnOff_keeps.1 s.turnOff_keeps.2.1

theorem disable_evolves (s : State) : s.Evolves s.disable := by
  unfold State.disable
  split
  · exact (leaveUp_evolves s).trans (turnOff_evolves _)
  · exact turnOff_evolves s
  · exact .refl s

theorem enable_evolves (s : State) : s.Evolves s.enable :=
  .of_table s.enable_keeps.1 s.enable_keeps.2.1

theorem applyRole_evolves (s : State) (x : Option Role) : s.Evolves (s.applyRole x) :=
  .of_table (s.applyRole_keeps x).1 (s.applyRole_keeps x).2.1

theorem linkctlRequest_evolves (p : Port) (action : Byte) {act : State → State}
    (acts : ∀ s : State, s.Evolves (act s)) (r : Request) (s : State) :
    s.Evolves (linkctlRequest p action act r s).1 := by
  unfold linkctlRequest
  split
  · exact .refl s
  · split
    · exact .refl s
    · split
      · exact .refl s
      · exact (applyRole_evolves s _).trans (acts _)

theorem purge_evolves (s : State) (n : Port) (self : Bool) : s.Evolves (s.purge n self) := by
  have records : s.Evolves (s.purgeRecords n self) :=
    (State.Evolves.foldl purgeRecord_evolves (s.ownedBy n) _).after rfl rfl
  rw [purge_eq]
  exact records.trans (.of_table rfl rfl)

theorem keepAccepted_evolves (s : State) (p : Port) (self : Bool) (r : Request) :
    s.Evolves (s.keepAccepted p self r) := .ite (.of_table rfl rfl) (.refl s)

theorem purgeRequest_evolves (p : Port) (r : Request) (s : State) :
    s.Evolves (purgeRequest p r s).1 := by
  unfold purgeRequest
  split
  · exact .refl s
  · split
    · exact .refl s
    · exact (purge_evolves s _ _).trans (keepAccepted_evolves _ p _ r)

/-- Whatever a row of requests runs evolves what the records hold. -/
theorem Handles.evolves {p : Port} {run : Request → State → Answer} (hr : Handles p run)
    {r : Request} {s : State} {x : State × Reply} (e : run r s = .ok x) : s.Evolves x.1 := by
  cases hr with
  | openStream => exact openRequest_evolves e
  | amend => exact amendRequest_evolves e
  | put => exact putRequest_evolves e
  | get => exact getRequest_evolves e
  | start => cases e; exact startRequest_evolves p r s
  | stop => cases e; exact stopRequest_evolves p r s
  | close => cases e; exact closeRequest_evolves p r s
  | withdraw => cases e; exact withdrawRequest_evolves p r s
  | handover => cases e; exact handoverRequest_evolves p r s
  | quota => cases e; exact quotaRequest_evolves p r s
  | linkctlEnable => cases e; exact linkctlRequest_evolves p 1 enable_evolves r s
  | linkctlDisable => cases e; exact linkctlRequest_evolves p 2 disable_evolves r s
  | purge => cases e; exact purgeRequest_evolves p r s
  | poll => cases e; unfold pollRequest; split <;> exact .of_table rfl rfl
  | unknownRequest => cases e; exact .refl s
  | reset => cases e; exact .refl s
  | findByTag => cases e; unfold findByTagRequest; split <;> exact .refl s
  | findByChannel =>
    cases e
    unfold findByChannelRequest
    split
    · exact .refl s
    · split <;> exact .refl s
  | read => cases e; unfold readRequest; split <;> exact .refl s
  | loads =>
    cases e
    unfold loadsRequest
    split
    · exact .refl s
    · split <;> exact .refl s
  | extents => cases e; unfold extentsRequest; split <;> exact .refl s
  | status => cases e; unfold statusRequest; split <;> exact .refl s

/-! ### Rows and steps -/

/-- A grant's arbiter pointer and its port hold nothing. -/
theorem grant_evolves {s t : State} {p : Port} {takes : Request → Bool}
    {run : Request → State → Answer} (hr : Handles p run) (h : s.grant p takes run = .next t) :
    s.Evolves t := by
  rcases grant_cases h with rfl | ⟨r, u, a, -, -, -, e, rfl⟩
  · exact .refl _
  · have met : s.Evolves (s.settle.advance p) := (settle_evolves s).trans (.same rfl)
    exact met.trans ((hr.evolves e).trans (.of_table rfl rfl))

theorem badFrameEntry_evolves {p : Port} {s t : State} (h : execBadFrameEntry p s = .next t) :
    s.Evolves t := by
  unfold execBadFrameEntry at h
  split at h
  · cases h; exact .refl _
  · dsimp only at h
    split at h
    · cases h; exact (settle_evolves s).trans (.same rfl)
    · cases h; exact .refl _

theorem repeatEntry_evolves {p : Port} {s t : State} (h : execRepeatEntry p s = .next t) :
    s.Evolves t := by
  unfold execRepeatEntry at h
  split at h
  · cases h; exact .refl _
  · dsimp only at h
    split at h
    · cases h; exact (settle_evolves s).trans (.same rfl)
    · cases h; exact .refl _

/-- A frame judged holds nothing, but for one that starts a reset. -/
theorem judgeFrame_evolves (s : State) (p : Port) (mosi : List Byte) :
    s.Evolves (s.judgeFrame p mosi) := by
  unfold State.judgeFrame
  split
  · exact .refl s
  · exact .of_table rfl rfl
  · exact .ite (.of_table rfl rfl) (.ite (.of_table rfl rfl) (.ite (.reset rfl) (.of_table rfl rfl)))

theorem transactionStart_evolves {x : TransactionStart} {s t : State}
    (h : execTransactionStart x s = .next t) : s.Evolves t := by
  unfold execTransactionStart at h
  split at h
  · cases h; exact .refl _
  · cases h; exact .of_table rfl rfl

theorem transactionEnd_evolves {p : Port} {mosi : List Byte} {s t : State}
    (h : execTransactionEnd p mosi s = .next t) : s.Evolves t := by
  unfold execTransactionEnd at h
  dsimp only at h
  split at h
  · cases h; exact .refl _
  · split at h
    · cases h; exact .of_table rfl rfl
    · cases h; exact (judgeFrame_evolves _ p _).after rfl rfl

theorem endReset_evolves (s : State) (high : Bool) : s.Evolves (s.endReset high) :=
  .ite (.refl s) (.with_link s _)

/-- Every row evolves what the records hold. -/
theorem exec_evolves {i : Instr} {s t : State} (h : exec i s = .next t) : s.Evolves t := by
  cases hi : requestRow i with
  | some p =>
    obtain ⟨takes, run, hr, e⟩ := requestRow_grants hi
    exact grant_evolves hr (e s ▸ h)
  | none =>
    cases i <;> simp only [requestRow, reduceCtorEq] at hi <;> simp only [exec] at h
    case transactionStart => exact transactionStart_evolves h
    case transactionEnd => exact transactionEnd_evolves h
    case badFrameEntry => exact badFrameEntry_evolves h
    case repeatEntry => exact repeatEntry_evolves h
    case reset p =>
      unfold execReset at h
      split at h
      · split at h
        · cases h; exact .refl _
        · cases h; exact .reset rfl
      · simp [‹¬p = 0›] at hi
    case resetNAssert => cases h; exact .reset rfl
    case resetNRelease high =>
      unfold execResetNRelease at h
      split at h
      · cases h; exact (endReset_evolves { s with resetPin := false } high).after rfl rfl
      · cases h; exact .refl _
    case resetHoldExpiry high =>
      unfold execResetHoldExpiry at h
      split at h
      · cases h; exact (endReset_evolves { s with resetHold := false } high).after rfl rfl
      · cases h; exact .refl _
    case periodTimerExpiry => exact periodTimerExpiry_evolves h
    case markArrival => cases h; exact receiveMark_evolves s _
    case echoArrival => cases h; exact receiveMark_evolves s _
    case lossTimerExpiry => exact lossTimerExpiry_evolves h
    case alignmentLapse =>
      unfold execAlignmentLapse at h
      split at h
      · cases h; exact .with_link _ _
      · cases h; exact .refl _
    case trailerArrival => exact trailerArrival_evolves h
    case leadCellArrival => exact leadCellArrival_evolves h
    case payloadCellArrival =>
      unfold execPayloadCellArrival at h
      split at h
      · exact (catchUp_evolves s).trans (receivePayload_evolves h)
      · cases h; exact .refl _
    case idleCellArrival =>
      unfold execIdleCellArrival at h
      split at h
      · cases h; exact (catchUp_evolves s).trans (cutBurst_evolves _)
      · cases h; exact .refl _
    case badCheckCellArrival =>
      unfold execBadCheckCellArrival at h
      split at h
      · exact (catchUp_evolves s).trans (receivePayload_evolves h)
      · cases h; exact .refl _
    case markProcessing => cases h; exact takeThrough_evolves s _
    case serviceStart =>
      unfold execServiceStart at h
      split at h
      · cases h; exact .refl _
      · exact takeOfLane_evolves h
    case txCompletion =>
      unfold execTxCompletion at h
      split at h
      · cases h; exact .refl _
      · exact takeOfLane_evolves h
    case matchClaim => cases h; exact takeThrough_evolves s _
    case rxCompletion => cases h; exact takeThrough_evolves s _
    case periodEnd => cases h; exact takeThrough_evolves s _
    case leavingUp => cases h; exact takeThrough_evolves s _
    case enteringUp => exact enteringUp_evolves h
    case slip => cases h; exact takeThrough_evolves s _

/-- Every step evolves what the records hold. -/
theorem step_evolves {s t : State} (h : step s = .next t) : s.Evolves t := by
  unfold step at h
  split at h
  · exact cellTime_evolves h
  · exact (exec_evolves h).after rfl rfl

end Sys2Proof.Machine
end

