-- ==== Sys2Proof/Proofs/Loads.lean ====
section
/-! SUPPORT. The statement about the load tables and the port charges in every step: each thing done to
what the records hold replaces one record's charge by another in the sums. -/

namespace Sys2Proof.Machine

/-! ### Sums over the handles -/

/-- A sum over the handles in which one handle's part is replaced. -/
theorem handles_sum_replace {f g : Handle → Nat} {h : Handle} (same : ∀ k, k ≠ h → g k = f k) :
    (handles.map g).sum + f h = (handles.map f).sum + g h := by
  have whole : ∀ e : Handle → Nat, (handles.map e).sum = e h + ∑ k ∈ Finset.univ.erase h, e k :=
    fun e => (Fin.sum_univ_def e).symm.trans (Finset.add_sum_erase _ e (Finset.mem_univ h)).symm
  have rest : ∑ k ∈ Finset.univ.erase h, g k = ∑ k ∈ Finset.univ.erase h, f k :=
    Finset.sum_congr rfl fun k hk => same k (Finset.ne_of_mem_erase hk)
  rw [whole f, whole g, rest]
  omega

/-! ### Charges -/

/-- The contribution of a parameter set at a residue (R26). -/
theorem contribution_get (v : Params) (r : Fin 32) :
    (contribution v).get r = if r.val % v.interval = v.phase then v.cells else 0 :=
  tabulate_get _ r

/-- The larger of two at a residue. -/
theorem larger_get (x y : Residues) (r : Fin 32) : (larger x y).get r = max (x.get r) (y.get r) :=
  tabulate_get _ r

/-- A record with nothing pending is charged the contribution of its parameters (R27). -/
theorem charge_of_none {st : Stream} (e : st.pending = none) : st.charge = contribution st.params := by
  simp only [Stream.charge, e]

/-- A record with an amendment pending is charged the larger of the old contribution and the new
(R27). -/
theorem charge_of_some {st : Stream} {a : Amendment} (e : st.pending = some a) :
    st.charge = larger a.old (contribution a.params) := by
  simp only [Stream.charge, e]

/-- The charge of what a stream holds (R27). -/
def Holding.charge (x : Holding) : Residues :=
  match x.pending with
  | none => contribution x.params
  | some a => larger a.old (contribution a.params)

/-- What a handle charges at a residue rests on what its record holds. -/
theorem chargeAt_eq (s : State) (d : Direction) (r : Fin 32) (h : Handle) :
    s.chargeAt d r h =
      (s.holdings.held h).elim 0 fun x => if x.direction = d then x.charge.get r else 0 := by
  rw [holdings_held, State.chargeAt]
  cases s.stream h <;> rfl

/-- The load units that a handle charges rest on what its record holds. -/
theorem unitsOf_eq (s : State) (p : Port) (d : Direction) (h : Handle) :
    s.unitsOf p d h =
      (s.holdings.held h).elim 0 fun x => if x.owner = p ∧ x.direction = d then units x.charge else 0 := by
  rw [holdings_held, State.unitsOf]
  cases s.stream h <;> rfl

/-- A handle charges a port and a direction these cells, and no others. -/
structure State.ChargesAs (s : State) (h : Handle) (p : Port) (d : Direction) (x : Residues) : Prop where
  cells : ∀ e r, s.chargeAt e r h = if e = d then x.get r else 0
  units : ∀ q e, s.unitsOf q e h = if q = p ∧ e = d then units x else 0

/-- An open record charges its owner port in its direction. -/
theorem chargesAs_stream {s : State} {h : Handle} {st : Stream} (hs : s.stream h = some st) :
    s.ChargesAs h st.owner st.direction st.charge where
  cells e r := by simp only [State.chargeAt, hs, eq_comm]
  units q e := by simp only [State.unitsOf, hs, eq_comm]

/-- A VACANT record charges nothing. -/
theorem chargesAs_vacant {s : State} {h : Handle} (hs : s.stream h = none) (p : Port) (d : Direction) :
    s.ChargesAs h p d noCells where
  cells e r := by simp only [State.chargeAt, hs, noCells_get, ite_self]
  units q e := by simp only [State.unitsOf, hs, units_noCells, ite_self]

/-! ### The law of the loads -/

/-- The law of the loads rests on what the records hold and where it is counted. -/
theorem loadLaw_congr {s t : State} (e : t.holdings = s.holdings) (law : s.loadLaw) : t.loadLaw := by
  have held : t.holdings.held = s.holdings.held := congrArg Holdings.held e
  have loads : t.table.loads = s.table.loads := congrArg Holdings.loads e
  have charges : t.table.charges = s.table.charges := congrArg Holdings.charges e
  obtain ⟨sums, totals, bound, old⟩ := law
  refine ⟨fun d r => ?_, fun p d => ?_, fun d r => loads ▸ bound d r, fun k y a ht pending => ?_⟩
  · have cells : t.chargeAt d r = s.chargeAt d r := funext fun k => by rw [chargeAt_eq, chargeAt_eq, held]
    rw [loads, cells, sums d r]
  · have units : t.unitsOf p d = s.unitsOf p d := funext fun k => by rw [unitsOf_eq, unitsOf_eq, held]
    rw [State.charge, charges, units, ← totals p d, State.charge]
  · have same : (s.stream k).map Stream.holding = some y.holding := by
      rw [← Option.map_some, ← ht]; exact (congrFun held k).symm
    obtain ⟨x, hs, xy⟩ := Option.map_eq_some_iff.mp same
    have params : x.params = y.params := congrArg Holding.params xy
    have pend : x.pending = y.pending := congrArg Holding.pending xy
    rw [← params]
    exact old k x a hs (pend.trans pending)

/-- One record is replaced, and its charge with it in the sums. -/
theorem loadLaw_of_replaced {s t : State} (law : s.loadLaw) {h : Handle}
    (others : ∀ k, k ≠ h → t.stream k = s.stream k)
    (loads : ∀ d r, (t.table.loads.get d).get r + s.chargeAt d r h =
      (s.table.loads.get d).get r + t.chargeAt d r h)
    (charges : ∀ p d, t.charge p d + s.unitsOf p d h = s.charge p d + t.unitsOf p d h)
    (bound : ∀ d r, (t.table.loads.get d).get r ≤ Config.periodCells)
    (old : ∀ y a, t.stream h = some y → y.pending = some a → a.old = contribution y.params) :
    t.loadLaw := by
  refine ⟨fun d r => ?_, fun p d => ?_, bound, fun k y a hy pending => ?_⟩
  · have sum := handles_sum_replace (f := s.chargeAt d r) (g := t.chargeAt d r) (h := h)
      fun k e => by simp only [State.chargeAt, others k e]
    have before := law.1 d r
    have change := loads d r
    omega
  · have sum := handles_sum_replace (f := s.unitsOf p d) (g := t.unitsOf p d) (h := h)
      fun k e => by simp only [State.unitsOf, others k e]
    have before := law.2.1 p d
    have change := charges p d
    omega
  · by_cases e : k = h
    · subst e; exact old y a hy pending
    · exact law.2.2.2 k y a (others k e ▸ hy) pending

/-- One record is replaced, with its charge in its direction's load table and its port's charge (R38). -/
theorem loadLaw_of_recharge {s t : State} (law : s.loadLaw) {h : Handle} {p : Port} {d : Direction}
    {x y : Residues} (before : s.ChargesAs h p d x) (after : t.ChargesAs h p d y)
    (others : ∀ k, k ≠ h → t.stream k = s.stream k)
    (loads : t.table.loads = (s.recharge p d x y).table.loads)
    (charges : t.table.charges = (s.recharge p d x y).table.charges)
    (bound : ∀ r, (s.table.loads.get d).get r - x.get r + y.get r ≤ Config.periodCells)
    (old : ∀ z a, t.stream h = some z → z.pending = some a → a.old = contribution z.params) :
    t.loadLaw := by
  have load : ∀ e r, (t.table.loads.get e).get r = if e = d then
      (s.table.loads.get d).get r - x.get r + y.get r else (s.table.loads.get e).get r :=
    fun e r => by rw [loads, recharge_load]
  have charge : ∀ q e, t.charge q e = if q = p ∧ e = d then
      s.charge p d - units x + units y else s.charge q e :=
    fun q e => by rw [← recharge_charge]; simp only [State.charge, charges]
  refine loadLaw_of_replaced law others (fun e r => ?_) (fun q e => ?_) (fun e r => ?_) old
  · have part := chargeAt_le law e r h
    rw [load, after.cells e r]
    rw [before.cells e r] at part ⊢
    split
    · subst_vars; rw [if_pos rfl] at part; omega
    · rfl
  · have part := unitsOf_le law q e h
    rw [charge, after.units q e]
    rw [before.units q e] at part ⊢
    split
    · rename_i c; obtain ⟨rfl, rfl⟩ := c; rw [if_pos ⟨rfl, rfl⟩] at part; omega
    · rfl
  · rw [load]
    split
    · exact bound r
    · exact law.2.2.1 e r

/-- A record's charge that grows nowhere keeps the load table in its bound. -/
theorem load_le_of_charge_le {s : State} (law : s.loadLaw) {h : Handle} {p : Port} {d : Direction}
    {x y : Residues} (before : s.ChargesAs h p d x) (le : ∀ r, y.get r ≤ x.get r) (r : Fin 32) :
    (s.table.loads.get d).get r - x.get r + y.get r ≤ Config.periodCells := by
  have part := chargeAt_le law d r h
  rw [before.cells d r, if_pos rfl] at part
  have bound := law.2.2.1 d r
  have less := le r
  omega

/-- The load part of the admission test passed: every resulting entry is at most 576 (R34). -/
theorem overload_none {s : State} {d : Direction} {x y : Residues} :
    s.overload d x y = none ↔
      ∀ r, (s.table.loads.get d).get r - x.get r + y.get r ≤ Config.periodCells := by
  simp only [State.overload, List.find?_eq_none, decide_eq_true_eq, Nat.not_lt]
  exact ⟨fun all r => all r (List.mem_finRange r), fun all r _ => all r⟩

/-- The admission test passed (R33, R34). -/
theorem load_le_of_admission {s : State} {p : Port} {d : Direction} {x y : Residues}
    (e : s.admission p d x y = none) (r : Fin 32) :
    (s.table.loads.get d).get r - x.get r + y.get r ≤ Config.periodCells := by
  unfold State.admission at e
  split at e
  · cases e
  · exact overload_none.mp (Option.map_eq_none_iff.mp e) r

/-! ### What keeps it -/

/-- Under the law a record's own contribution is part of its charge (R27). -/
theorem contribution_le_charge {s : State} (law : s.loadLaw) {h : Handle} {st : Stream}
    (hs : s.stream h = some st) (r : Fin 32) : (contribution st.params).get r ≤ st.charge.get r := by
  cases pending : st.pending with
  | none => rw [charge_of_none pending]
  | some a =>
    rw [charge_of_some pending, larger_get, law.2.2.2 h st a hs pending]
    exact le_max_left _ _

/-- A withdrawal leaves the record its own contribution (R41). -/
theorem withdrawAmendment_loadLaw {s : State} (law : s.loadLaw) (h : Handle) :
    (s.withdrawAmendment h).loadLaw := by
  cases pending : (s.stream h).bind Stream.pending with
  | none =>
    have same : s.withdrawAmendment h = s := by
      unfold State.withdrawAmendment
      cases hs : s.stream h with
      | none => rfl
      | some st => simp only [hs, Option.bind_some] at pending; simp only [pending]
    rw [same]; exact law
  | some a =>
    obtain ⟨st, hs, pending⟩ := Option.bind_eq_some_iff.mp pending
    have old := law.2.2.2 h st a hs pending
    have table : (s.withdrawAmendment h).table =
        ((s.recharge st.owner st.direction st.charge a.old).setStream h st.withdrawn).table := by
      unfold State.withdrawAmendment
      simp only [hs, pending]
      rfl
    have after : (s.withdrawAmendment h).ChargesAs h st.owner st.direction a.old := by
      rw [old]
      exact chargesAs_stream (withdrawAmendment_open hs)
    refine loadLaw_of_recharge law (chargesAs_stream hs) after (fun k e => ?_) (by rw [table]; rfl)
      (by rw [table]; rfl) (load_le_of_charge_le law (chargesAs_stream hs) fun r => ?_) fun z b hz pend => ?_
    · rw [withdrawAmendment_stream, if_neg e]
    · rw [old]; exact contribution_le_charge law hs r
    · rw [withdrawAmendment_open hs] at hz; cases hz; cases pend

/-- A retirement takes the record's charge out (R20). -/
theorem vacate_loadLaw {s : State} (law : s.loadLaw) (h : Handle) : (s.vacate h).loadLaw := by
  cases hs : s.stream h with
  | none => rw [vacate_none hs]; exact law
  | some st =>
    have vacant : (s.vacate h).stream h = none := by rw [vacate_stream, if_pos rfl]
    refine loadLaw_of_replaced law (h := h) (fun k e => by rw [vacate_stream, if_neg e]) (fun d r => ?_)
      (fun p d => ?_) (fun d r => ?_) fun y a hy => nomatch vacant.symm.trans hy
    · rw [vacate_load law hs, State.chargeAt, vacant, Nat.add_zero]
    · rw [vacate_charge law hs, State.unitsOf, vacant, Nat.add_zero]
    · have out := vacate_load law hs d r
      have bound := law.2.2.1 d r
      omega

/-- A stream in its new form is charged the contribution of its new parameters, under its owner and
direction (R100). -/
theorem reshape_charge (st : Stream) (x : Params) (g : Option (Extent × Extent)) :
    (st.reshape x g).owner = st.owner ∧ (st.reshape x g).direction = st.direction ∧
      (st.reshape x g).pending = none ∧ (st.reshape x g).charge = contribution x := by
  cases g <;> exact ⟨rfl, rfl, rfl, rfl⟩

/-- A record takes a new form whose contribution the load table holds (R100). -/
theorem reshape_loadLaw {s : State} (law : s.loadLaw) {h : Handle} {st : Stream}
    (hs : s.stream h = some st) (x : Params) (g : Option (Extent × Extent))
    (bound : ∀ r, (s.table.loads.get st.direction).get r - st.charge.get r + (contribution x).get r ≤
      Config.periodCells) : (s.reshape h st x g).loadLaw := by
  obtain ⟨owner, direction, pending, charge⟩ := reshape_charge st x g
  have stream : ∀ k, (s.reshape h st x g).stream k =
      if k = h then some (st.reshape x g) else s.stream k := fun k => by
    rw [State.stream, reshape_record]
    split <;> rfl
  have own : (s.reshape h st x g).stream h = some (st.reshape x g) := by rw [stream, if_pos rfl]
  have after : (s.reshape h st x g).ChargesAs h st.owner st.direction (contribution x) := by
    rw [← owner, ← direction, ← charge]
    exact chargesAs_stream own
  refine loadLaw_of_recharge law (chargesAs_stream hs) after
    (fun k e => by rw [stream, if_neg e]) rfl rfl bound fun z a hz pend => ?_
  rw [own] at hz
  cases hz
  rw [pending] at pend
  cases pend

/-- A record opened within the load table (R69). -/
theorem enter_loadLaw {s : State} (law : s.loadLaw) (p : Port) (a : OpenArgs) {h : Handle}
    (pair : Extent × Extent) (vacant : s.stream h = none)
    (bound : ∀ r, (s.table.loads.get a.direction).get r - noCells.get r +
      (contribution a.params).get r ≤ Config.periodCells) : (s.enter p a h pair).loadLaw := by
  have stream : ∀ k, (s.enter p a h pair).stream k =
      if k = h then some (a.stream p pair) else s.stream k := fun k => by
    rw [State.stream, enter_record]
    split <;> rfl
  have own : (s.enter p a h pair).stream h = some (a.stream p pair) := by rw [stream, if_pos rfl]
  refine loadLaw_of_recharge law (chargesAs_vacant vacant p a.direction) (chargesAs_stream own)
    (fun k e => by rw [stream, if_neg e]) rfl rfl bound fun z b hz pend => ?_
  rw [own] at hz
  cases hz
  cases pend

/-- An amendment held within the load table (R39, R94). -/
theorem holdAmendment_loadLaw {s : State} (law : s.loadLaw) {h : Handle} {st : Stream}
    (hs : s.stream h = some st) (pending : st.pending = none) (new : Params) (point : EffectivePoint)
    (pair : Option (Extent × Extent))
    (bound : ∀ r, (s.table.loads.get st.direction).get r - (contribution st.params).get r +
      (st.amendedCharge new).get r ≤ Config.periodCells) :
    (s.holdAmendment h st new point pair).loadLaw := by
  have stream : ∀ k, (s.holdAmendment h st new point pair).stream k = if k = h then
      some { st with pending := some ⟨new, point, pair, contribution st.params⟩ } else s.stream k :=
    fun k => by
      rw [State.stream, holdAmendment_record]
      split <;> rfl
  have own := (stream h).trans (if_pos rfl)
  have before : s.ChargesAs h st.owner st.direction (contribution st.params) :=
    charge_of_none pending ▸ chargesAs_stream hs
  have after : (s.holdAmendment h st new point pair).ChargesAs h st.owner st.direction
      (st.amendedCharge new) := chargesAs_stream own
  refine loadLaw_of_recharge law before after
    (fun k e => by rw [stream, if_neg e]) rfl rfl bound fun z a hz pend => ?_
  rw [own] at hz
  cases hz
  cases pend
  rfl

/-- The load tables and the charges after reset are those of no records (R24, R45). -/
theorem reset_loadLaw : State.reset.loadLaw := by
  have vacant : ∀ k, State.reset.stream k = none := fun k => congrArg Record.stream (reset_record k)
  have zero : ∀ d r, (State.reset.table.loads.get d).get r = 0 := fun d r => by
    cases d <;> exact replicate_get 0 r
  refine ⟨fun d r => ?_, fun p d => ?_, fun d r => by rw [zero]; exact Nat.zero_le _,
    fun k y a hy => nomatch (vacant k).symm.trans hy⟩
  · rw [zero, List.sum_eq_zero]
    simp [State.chargeAt, vacant]
  · have charge : State.reset.charge p d = 0 := (resetBlocks_charge State.reset p d).1
    rw [charge, List.sum_eq_zero]
    simp [State.unitsOf, vacant]

/-- Whatever is done to what the records hold keeps the law of the loads: OPEN and AMEND by their
admission tests, and everything else because no charge grows. -/
theorem State.Evolves.loadLaw {s t : State} (f : s.Evolves t) (law : s.loadLaw) : t.loadLaw := by
  induction f with
  | trans _ _ first then_ => exact then_ (first law)
  | same e => exact loadLaw_congr e law
  | withdraw s h => exact withdrawAmendment_loadLaw law h
  | vacate s h => exact vacate_loadLaw law h
  | takeEffect hs pending =>
    refine reshape_loadLaw law hs _ _ (load_le_of_charge_le law (chargesAs_stream hs) fun r => ?_)
    rw [charge_of_some pending, larger_get]
    exact le_max_right _ _
  | @openStream s p a h g vacant admitted =>
    exact enter_loadLaw (s := s.setFree g.2) (loadLaw_congr rfl law) p a g.1 vacant
      (load_le_of_admission admitted)
  | @hold s h st new point g hs pending admitted =>
    exact holdAmendment_loadLaw (s := s.setFree _) law hs pending new point _ (load_le_of_admission admitted)
  | @amend s h st new g hs pending admitted =>
    refine reshape_loadLaw (s := s.setFree _) law hs new _ fun r => ?_
    have bound := load_le_of_admission admitted r
    have le : (contribution new).get r ≤ (st.amendedCharge new).get r := by
      rw [Stream.amendedCharge, larger_get]; exact le_max_right _ _
    rw [charge_of_none pending]
    exact le_trans (Nat.add_le_add_left le _) bound
  | reset e => exact loadLaw_congr e reset_loadLaw

/-- Settles O11: a step does to what the records hold only what keeps the law of the loads. -/
theorem stepKeepsLoads : Obligations.StepKeepsLoads := by
  intro s t law h
  exact (step_evolves h).loadLaw law

end Sys2Proof.Machine
end

