-- ==== Sys2Proof/Proofs/Admission.lean ====
section
/-! SUPPORT. The statements about the contribution of a parameter set, the admission test and LOADS. -/

namespace Sys2Proof.Machine

/-! ### The contribution (R26) -/

/-- The residues that an interval in range meets in one phase are 32 / interval. -/
theorem residues_countP {i ph : Nat} (range : intervalOk i = true) (lt : ph < i) :
    residues.countP (fun r => r.val % i = ph) = 32 / i := by
  have each : ∀ j ∈ [1, 2, 4, 8, 16, 32], ∀ k < j,
      residues.countP (fun r => r.val % j = k) = 32 / j := by decide
  exact each i (by simpa [intervalOk] using range) ph lt

/-- An interval in range divides the residues (R26). -/
theorem interval_dvd {i : Nat} (range : intervalOk i = true) : i ∣ 32 := by
  have each : ∀ j ∈ [1, 2, 4, 8, 16, 32], j ∣ 32 := by decide
  exact each i (by simpa [intervalOk] using range)

/-- A sum of one number at the places that pass a test, and nothing at the rest. -/
theorem sum_map_ite {α : Type} (l : List α) (test : α → Prop) [DecidablePred test] (n : Nat) :
    (l.map fun x => if test x then n else 0).sum = n * l.countP fun x => test x := by
  induction l with
  | nil => rfl
  | cons x l ih =>
    rw [List.map_cons, List.sum_cons, ih, List.countP_cons]
    by_cases h : test x <;> simp [h, Nat.mul_add, Nat.add_comm]

/-- The load units of a contribution: its cells at each residue of its phase (R26). -/
theorem units_contribution {v : Params} (range : v.inRange = true) :
    units (contribution v) = v.cells * 32 / v.interval := by
  simp only [Params.inRange, Bool.and_eq_true, decide_eq_true_eq] at range
  obtain ⟨⟨⟨⟨⟨-, interval⟩, phase⟩, -⟩, -⟩, -⟩ := range
  calc units (contribution v)
      = (residues.map fun r => if r.val % v.interval = v.phase then v.cells else 0).sum := by
        rw [units, funext (contribution_get v)]
    _ = v.cells * residues.countP (fun r => r.val % v.interval = v.phase) :=
        sum_map_ite residues _ v.cells
    _ = v.cells * (32 / v.interval) := by rw [residues_countP interval phase]
    _ = v.cells * 32 / v.interval := (Nat.mul_div_assoc _ (interval_dvd interval)).symm

/-! ### The admission test (R33 to R36) -/

/-- The quota part fails exactly where the resulting charge is above the quota and above the present
charge (R33). -/
theorem quotaAdmits_false {s : State} {p : Port} {d : Direction} {x y : Residues} :
    s.quotaAdmits p d x y = false ↔
      s.resultingCharge p d x y > s.quota p d ∧ s.resultingCharge p d x y > s.charge p d := by
  simp only [State.quotaAdmits, Bool.or_eq_false_iff, decide_eq_false_iff_not, Nat.not_le]

/-- The lowest residue whose resulting entry is above 576 is the one at which the load part fails
(R34, R36). -/
theorem overload_some {s : State} {d : Direction} {x y : Residues} {r : Fin 32}
    (above : Config.periodCells < (s.table.loads.get d).get r - x.get r + y.get r)
    (below : ∀ k, k < r → (s.table.loads.get d).get k - x.get k + y.get k ≤ Config.periodCells) :
    s.overload d x y = some r := by
  unfold State.overload residues
  refine List.find?_eq_some_iff_getElem.mpr ⟨by simpa using above, r.val, by simp, by simp, ?_⟩
  intro j lt
  have le := below ⟨j, lt.trans r.isLt⟩ lt
  simpa using le

/-- Settles O10: the contribution entry by entry and in load units, then the two parts of the test in
their order. -/
theorem admissionTest : Obligations.AdmissionTest := by
  refine ⟨fun v => ⟨contribution_get v, units_contribution⟩, fun s p d present proposed => ?_⟩
  intro charge entry
  refine ⟨fun quota risen => ?_, fun quota => ?_⟩
  · rw [State.admission, if_pos (quotaAdmits_false.mpr ⟨quota, risen⟩)]
    rfl
  · have admits : ¬s.quotaAdmits p d present proposed = false := fun fails => by
      obtain ⟨a, b⟩ := quotaAdmits_false.mp fails
      exact quota.elim (Nat.not_le.mpr a) (Nat.not_le.mpr b)
    rw [State.admission, if_neg admits]
    refine ⟨fun r above below => ?_, fun within => ?_⟩
    · rw [overload_some above below]
      rfl
    · rw [overload_none.mpr within]
      rfl

/-! ### LOADS (R44) -/

/-- A byte above 1 names no direction (R206). -/
theorem directionOf_reserved {b : Byte} (h : 1 < b.toNat) : directionOf b = none := by
  have zero : b ≠ 0 := fun e => by rw [e] at h; exact absurd h (by decide)
  have one : b ≠ 1 := fun e => by rw [e] at h; exact absurd h (by decide)
  rw [directionOf, if_neg zero, if_neg one]

/-- A LOADS granted of a direction answers with its load table. -/
theorem loads_exec {s : State} {p : Port} {r : Request} {rest : List Entry} (hg : s.Grants p r rest)
    (code : r.code = 0x0C) {d : Direction} (body : r.body = [directionByte d]) :
    exec (.loads p) s = .next (s.settle.responded p r rest .ok (directionByte d ::
      (be16 s.settle.link.period.toNat ++
        residues.flatMap fun k => be16 ((s.settle.table.loads.get d).get k)))) := by
  refine grants_refused (run := fun r t => .ok (loadsRequest r t)) (takes := ofCode 0x0C) hg
    (by simp [ofCode, code]) ?_
  have direction : directionOf (byteAt r.body 0) = some d := by
    rw [body]; exact directionOf_directionByte d
  have len : r.body.length = 1 := by rw [body]; rfl
  simp only [loadsRequest, direction, len, ne_eq, not_true, if_false]
  rfl

/-- A LOADS granted of a reserved direction is refused (R44, R206). -/
theorem loads_refused {s : State} {p : Port} {r : Request} {rest : List Entry} (hg : s.Grants p r rest)
    (code : r.code = 0x0C) {b : Byte} (reserved : 1 < b.toNat) (body : r.body = [b]) :
    exec (.loads p) s = .next (s.settle.responded p r rest .badArg []) := by
  refine grants_refused (run := fun r t => .ok (loadsRequest r t)) (takes := ofCode 0x0C) hg
    (by simp [ofCode, code]) ?_
  have direction : directionOf (byteAt r.body 0) = none := by
    rw [body]; exact directionOf_reserved reserved
  simp only [loadsRequest, direction]
  rfl

end Sys2Proof.Machine

namespace Sys2Proof

open Machine

/-- Settles O39: LOADS reads the load table of its direction, whose entries the law of the loads
bounds. -/
theorem loadsRequest : Obligations.LoadsRequest := by
  intro s p r rest hg code u
  refine ⟨fun d body => ?_, fun law => law.2.2.1, fun b reserved => loads_refused hg code reserved⟩
  rw [loads_exec hg code body, List.flatMap_def]
  rfl

end Sys2Proof
end

section
/-! SUPPORT. The granules that a list of extents covers, and releases: a release frees the granules of its
extent and keeps the form of the free list, and the form determines the list from the granules (R48, R52). -/

namespace Sys2Proof.Machine

/-! ### Granules covered -/

/-- How many extents of a list cover a granule. -/
def coverings (l : List Extent) (g : Nat) : Nat := l.countP fun e => e.covers g

/-- An extent covers a granule once or not at all. -/
def Extent.covering (e : Extent) (g : Nat) : Nat := if e.base ≤ g ∧ g < e.base + e.length then 1 else 0

@[simp] theorem coverings_nil (g : Nat) : coverings [] g = 0 := rfl

@[simp] theorem coverings_cons (e : Extent) (l : List Extent) (g : Nat) :
    coverings (e :: l) g = coverings l g + e.covering g := by
  simp [coverings, List.countP_cons, Extent.covers, Extent.covering]

@[simp] theorem coverings_append (k l : List Extent) (g : Nat) :
    coverings (k ++ l) g = coverings k g + coverings l g := List.countP_append

/-- A granule is covered exactly where some extent of the list covers it. -/
theorem coverings_pos {l : List Extent} {g : Nat} :
    0 < coverings l g ↔ ∃ e ∈ l, e.base ≤ g ∧ g < e.base + e.length := by
  simp [coverings, List.countP_pos_iff, Extent.covers]

/-- Two extents that touch cover together what one from the first's base to the second's end does. -/
theorem covering_join {d e : Extent} (touch : d.base + d.length = e.base) (g : Nat) :
    Extent.covering ⟨d.base, d.length + e.length⟩ g = d.covering g + e.covering g := by
  simp only [Extent.covering]
  split_ifs <;> omega

/-! ### Releases (R52) -/

/-- Extents that have no granule in common, the one behind the other. -/
def Extent.apart (x e : Extent) : Prop :=
  x.base + x.length ≤ e.base ∨ e.base + e.length ≤ x.base

/-- Sound extents that cover no granule together are apart. -/
theorem apart_of_covering {x e : Extent} (hx : x.sound) (he : e.sound)
    (once : ∀ g, x.covering g + e.covering g ≤ 1) : x.apart e := by
  by_contra overlap
  simp only [Extent.apart, not_or, Nat.not_le] at overlap
  have pos := hx.1
  have pos' := he.1
  have both := once (max x.base e.base)
  rw [Extent.covering, Extent.covering, if_pos (by omega), if_pos (by omega)] at both
  omega

/-- An extent that no granule of a list covers besides it is apart from each of the list. -/
theorem apart_of_once {x : Extent} {l : List Extent} (hx : x.sound) (hl : ∀ e ∈ l, e.sound)
    (once : ∀ g, coverings (x :: l) g ≤ 1) : ∀ e ∈ l, x.apart e := by
  intro e he
  refine apart_of_covering hx (hl e he) fun g => ?_
  obtain ⟨low, high, rfl⟩ := List.append_of_mem he
  have both := once g
  simp only [coverings_cons, coverings_append] at both
  omega

/-- An extent put in front covers what it covers, merged or not. -/
@[simp] theorem coverings_joinRight (x : Extent) (l : List Extent) (g : Nat) :
    coverings (joinRight x l) g = coverings l g + x.covering g := by
  cases l with
  | nil => simp [joinRight]
  | cons e l =>
    rw [joinRight]
    split_ifs with touch
    · rw [coverings_cons, covering_join touch, coverings_cons]
      omega
    · rw [coverings_cons]

/-- A release frees the granules of its extent, and no others. -/
@[simp] theorem coverings_release (x : Extent) (l : List Extent) (g : Nat) :
    coverings (release x l) g = coverings l g + x.covering g := by
  induction l with
  | nil => simp [release]
  | cons e l ih =>
    rw [release]
    split_ifs with below touch
    · rw [coverings_cons, ih, coverings_cons]
      omega
    · rw [coverings_joinRight, covering_join touch, coverings_cons]
      omega
    · rw [coverings_joinRight]

/-- Every entry of a list with an extent put in front begins where the extent or an entry did. -/
theorem joinRight_base {x : Extent} {l : List Extent} {y : Extent} (h : y ∈ joinRight x l) :
    y.base = x.base ∨ ∃ e ∈ l, y.base = e.base := by
  cases l with
  | nil => exact .inl (congrArg Extent.base (List.mem_singleton.mp h))
  | cons e l =>
    rw [joinRight] at h
    split_ifs at h with touch
    · rcases List.mem_cons.mp h with rfl | h
      · exact .inl rfl
      · exact .inr ⟨y, List.mem_cons_of_mem _ h, rfl⟩
    · rcases List.mem_cons.mp h with rfl | h
      · exact .inl rfl
      · exact .inr ⟨y, h, rfl⟩

/-- Every entry that a release leaves begins where the extent or an entry did. -/
theorem release_base {x : Extent} {l : List Extent} {y : Extent} (h : y ∈ release x l) :
    y.base = x.base ∨ ∃ e ∈ l, y.base = e.base := by
  induction l with
  | nil => exact .inl (congrArg Extent.base (List.mem_singleton.mp h))
  | cons e l ih =>
    rw [release] at h
    split_ifs at h with below touch
    · rcases List.mem_cons.mp h with rfl | h
      · exact .inr ⟨y, List.mem_cons_self, rfl⟩
      · exact (ih h).imp_right fun ⟨d, hd, b⟩ => ⟨d, List.mem_cons_of_mem _ hd, b⟩
    · rcases joinRight_base h with b | ⟨d, hd, b⟩
      · exact .inr ⟨e, List.mem_cons_self, b⟩
      · exact .inr ⟨d, List.mem_cons_of_mem _ hd, b⟩
    · exact joinRight_base h

/-- A sound extent in front of a list of the form, which it may touch. -/
theorem joinRight_form {x : Extent} {l : List Extent} (form : freeForm l) (hx : x.sound)
    (front : ∀ e ∈ l, x.base + x.length ≤ e.base) : freeForm (joinRight x l) := by
  cases l with
  | nil => exact ⟨List.pairwise_singleton _ _, by simpa [joinRight] using hx⟩
  | cons e l =>
    obtain ⟨order, sound⟩ := form
    obtain ⟨first, order⟩ := List.pairwise_cons.mp order
    have he := sound e List.mem_cons_self
    have hl : ∀ d ∈ l, d.sound := fun d hd => sound d (List.mem_cons_of_mem _ hd)
    have le := front e List.mem_cons_self
    rw [joinRight]
    split_ifs with touch
    · refine ⟨List.pairwise_cons.mpr ⟨fun d hd => ?_, order⟩, List.forall_mem_cons.mpr ⟨⟨?_, ?_⟩, hl⟩⟩
      · have lt := first d hd
        show x.base + (x.length + e.length) < d.base
        omega
      · exact Nat.le_trans hx.1 (Nat.le_add_right _ _)
      · have bound := he.2
        show x.base + (x.length + e.length) ≤ Config.granules
        omega
    · refine ⟨List.pairwise_cons.mpr ⟨List.forall_mem_cons.mpr ⟨by omega, fun d hd => ?_⟩,
        List.pairwise_cons.mpr ⟨first, order⟩⟩, List.forall_mem_cons.mpr ⟨hx, sound⟩⟩
      have lt := first d hd
      omega

/-- A release keeps the free list ordered and merged (R48, R52). -/
theorem release_form {x : Extent} {l : List Extent} (form : freeForm l) (hx : x.sound)
    (apart : ∀ e ∈ l, x.apart e) : freeForm (release x l) := by
  induction l with
  | nil => exact joinRight_form form hx fun _ h => nomatch h
  | cons e l ih =>
    obtain ⟨order, sound⟩ := form
    obtain ⟨first, order'⟩ := List.pairwise_cons.mp order
    obtain ⟨he, hl⟩ := List.forall_mem_cons.mp sound
    obtain ⟨ae, al⟩ := List.forall_mem_cons.mp apart
    have pos := he.1
    unfold release
    split_ifs with below touch
    · obtain ⟨order, sound⟩ := ih ⟨order', hl⟩ al
      refine ⟨List.pairwise_cons.mpr ⟨fun y hy => ?_, order⟩, List.forall_mem_cons.mpr ⟨he, sound⟩⟩
      rcases release_base hy with b | ⟨d, hd, b⟩
      · rwa [b]
      · rw [b]; exact first d hd
    · refine joinRight_form ⟨order', hl⟩ ⟨Nat.le_trans pos (Nat.le_add_right _ _), ?_⟩ fun d hd => ?_
      · have bound := hx.2
        show e.base + (e.length + x.length) ≤ Config.granules
        omega
      · have lt := first d hd
        have ad := al d hd
        have dpos := (hl d hd).1
        show e.base + (e.length + x.length) ≤ d.base
        unfold Extent.apart at ad
        omega
    · refine joinRight_form ⟨order, sound⟩ hx (List.forall_mem_cons.mpr ?_)
      have le : x.base + x.length ≤ e.base := ae.resolve_right (by omega)
      refine ⟨le, fun d hd => ?_⟩
      have lt := first d hd
      omega

/-- A release behind entries that it does not touch leaves them (R52). -/
theorem release_append {x : Extent} {low : List Extent} (l : List Extent)
    (below : ∀ e ∈ low, e.base + e.length < x.base) : release x (low ++ l) = low ++ release x l := by
  induction low with
  | nil => rfl
  | cons e low ih =>
    obtain ⟨he, hl⟩ := List.forall_mem_cons.mp below
    rw [List.cons_append, release, if_pos he, ih hl, List.cons_append]

/-- An extent in front of a list that it does not touch. -/
theorem joinRight_apart {x : Extent} {l : List Extent} (above : ∀ e ∈ l, x.base + x.length < e.base) :
    joinRight x l = x :: l := by
  cases l with
  | nil => rfl
  | cons e l =>
    have lt := above e List.mem_cons_self
    rw [joinRight, if_neg (by omega)]

/-- A release in front of every entry. -/
theorem release_front {x : Extent} {l : List Extent} (above : ∀ e ∈ l, x.base < e.base) :
    release x l = joinRight x l := by
  cases l with
  | nil => rfl
  | cons e l =>
    have lt := above e List.mem_cons_self
    rw [release, if_neg (by omega), if_neg (by omega)]

/-- The four cases of R52's table: merged with the neighbour that ends at its base, and with the one that
begins at its end. -/
theorem release_cases {b n : Nat} {low high : List Extent} {left right : Option Nat} (pos : 1 ≤ n)
    (hl : ∀ a, left = some a → a < b) (hr : ∀ m, right = some m → 1 ≤ m)
    (below : ∀ x ∈ low, x.base + x.length < left.getD b)
    (above : ∀ x ∈ high, b + n + right.getD 0 < x.base) :
    release ⟨b, n⟩ (low ++ left.elim [] (fun a => [⟨a, b - a⟩]) ++
        right.elim [] (fun m => [⟨b + n, m⟩]) ++ high) =
      low ++ [⟨left.getD b, b - left.getD b + n + right.getD 0⟩] ++ high := by
  have merged : ∀ a k, a + k = b + n → joinRight ⟨a, k⟩ (right.elim [] (fun m => [⟨b + n, m⟩]) ++ high) =
      ⟨a, k + right.getD 0⟩ :: high := by
    intro a k e
    cases right with
    | none =>
      refine joinRight_apart fun x hx => ?_
      have lt := above x hx
      simp only [Option.getD_none] at lt
      show a + k < x.base
      omega
    | some m => exact if_pos e
  have le : left.getD b ≤ b := by
    cases left with
    | none => exact Nat.le_refl _
    | some a => exact Nat.le_of_lt (hl a rfl)
  simp only [List.append_assoc, List.singleton_append]
  rw [release_append _ fun x hx => Nat.lt_of_lt_of_le (below x hx) le]
  congr 1
  cases left with
  | none =>
    have front : ∀ e ∈ right.elim [] (fun m => [⟨b + n, m⟩]) ++ high, b < Extent.base e := by
      intro e he
      rcases List.mem_append.mp he with he | he
      · cases right with
        | none => cases he
        | some m => rw [List.mem_singleton.mp he]; show b < b + n; omega
      · have lt := above e he
        omega
    exact (release_front front).trans ((merged b n rfl).trans (by simp))
  | some a =>
    have lt := hl a rfl
    have ends : a + (b - a) = b := by omega
    have touch : release ⟨b, n⟩ (⟨a, b - a⟩ :: (right.elim [] (fun m => [⟨b + n, m⟩]) ++ high)) =
        joinRight ⟨a, b - a + n⟩ (right.elim [] (fun m => [⟨b + n, m⟩]) ++ high) := by
      rw [release, if_neg (by show ¬a + (b - a) < b; omega), if_pos ends]
    exact touch.trans (merged a (b - a + n) (by omega))

/-! ### One list for each set of free granules (R48) -/

/-- In a list of the form the first entry begins at the first granule covered. -/
theorem freeForm_first {e : Extent} {l : List Extent} (form : freeForm (e :: l)) {g : Nat}
    (covered : 0 < coverings (e :: l) g) : e.base ≤ g := by
  obtain ⟨d, hd, le, -⟩ := coverings_pos.mp covered
  rcases List.mem_cons.mp hd with rfl | hd
  · exact le
  · have lt := (List.pairwise_cons.mp form.1).1 d hd
    omega

/-- In a list of the form the granule behind the first entry is not covered. -/
theorem freeForm_gap {e : Extent} {l : List Extent} (form : freeForm (e :: l)) :
    coverings (e :: l) (e.base + e.length) = 0 := by
  by_contra covered
  obtain ⟨d, hd, le, lt⟩ := coverings_pos.mp (Nat.pos_of_ne_zero covered)
  rcases List.mem_cons.mp hd with rfl | hd
  · omega
  · have lt := (List.pairwise_cons.mp form.1).1 d hd
    omega

/-- The first entry of a list of the form covers its granules. -/
theorem freeForm_head {e : Extent} (l : List Extent) {g : Nat} (le : e.base ≤ g)
    (lt : g < e.base + e.length) : 0 < coverings (e :: l) g :=
  coverings_pos.mpr ⟨e, List.mem_cons_self, le, lt⟩

/-- The entries behind the first keep the form. -/
theorem freeForm_tail {e : Extent} {l : List Extent} (form : freeForm (e :: l)) : freeForm l :=
  ⟨(List.pairwise_cons.mp form.1).2, fun d hd => form.2 d (List.mem_cons_of_mem _ hd)⟩

/-- Two lists of the form that cover the same granules have the same first entry. -/
theorem freeForm_head_le {d e : Extent} {k l : List Extent} (hk : freeForm (d :: k))
    (hl : freeForm (e :: l)) (same : ∀ g, coverings (d :: k) g = coverings (e :: l) g) :
    e.base ≤ d.base ∧ (d.base = e.base → e.length ≤ d.length) := by
  have pos := (hk.2 d List.mem_cons_self).1
  refine ⟨freeForm_first hl ?_, fun b => ?_⟩
  · rw [← same]
    exact freeForm_head k (Nat.le_refl _) (by omega)
  · by_contra lt
    have gap := freeForm_gap hk
    have covered := freeForm_head (e := e) l (g := d.base + d.length) (by omega) (by omega)
    rw [← same] at covered
    omega

/-- The form determines the list from the granules that it covers. -/
theorem freeForm_ext {k l : List Extent} (hk : freeForm k) (hl : freeForm l)
    (same : ∀ g, coverings k g = coverings l g) : k = l := by
  have empty : ∀ {e : Extent} {l : List Extent}, freeForm (e :: l) →
      ¬∀ g, coverings (e :: l) g = 0 := fun {e l} form none => by
    have pos := (form.2 e List.mem_cons_self).1
    have covered := freeForm_head (e := e) l (Nat.le_refl _) (by omega)
    rw [none] at covered
    omega
  induction k generalizing l with
  | nil =>
    cases l with
    | nil => rfl
    | cons e l => exact absurd (fun g => (same g).symm) (empty hl)
  | cons d k ih =>
    cases l with
    | nil => exact absurd same (empty hk)
    | cons e l =>
      obtain ⟨below, short⟩ := freeForm_head_le hk hl same
      obtain ⟨below', short'⟩ := freeForm_head_le hl hk fun g => (same g).symm
      have base : d.base = e.base := Nat.le_antisymm below' below
      have length : d.length = e.length := Nat.le_antisymm (short' base.symm) (short base)
      obtain rfl : d = e := by cases d; cases e; simp_all
      refine congrArg _ (ih (freeForm_tail hk) (freeForm_tail hl) fun g => ?_)
      have both := same g
      simp only [coverings_cons] at both
      omega

/-- Two releases give one list in either order (R52). -/
theorem release_comm {x y : Extent} {l : List Extent} (form : freeForm l) (hx : x.sound) (hy : y.sound)
    (once : ∀ g, coverings (x :: y :: l) g ≤ 1) : release x (release y l) = release y (release x l) := by
  have twice : ∀ {x y : Extent}, x.sound → y.sound → (∀ g, coverings (x :: y :: l) g ≤ 1) →
      freeForm (release x (release y l)) := fun {x y} hx hy once => by
    have inner : freeForm (release y l) := release_form form hy <|
      apart_of_once hy form.2 fun g => by
        have le := once g
        simp only [coverings_cons] at le ⊢
        omega
    refine release_form inner hx (apart_of_once hx inner.2 fun g => ?_)
    have le := once g
    simp only [coverings_cons, coverings_release] at le ⊢
    omega
  have swapped : ∀ g, coverings (y :: x :: l) g ≤ 1 := fun g => by
    have le := once g
    simp only [coverings_cons] at le ⊢
    omega
  refine freeForm_ext (twice hx hy once) (twice hy hx swapped) fun g => ?_
  simp only [coverings_release]
  omega

end Sys2Proof.Machine
end

section
/-! SUPPORT. Allocations: a single one and a pair, what each takes from the free list, and the statements about
them (R50 to R52). -/

namespace Sys2Proof.Machine

/-! ### Single allocations (R50) -/

/-- What is left of an entry behind its first granules, if anything is. -/
def Extent.behind (e : Extent) (n : Nat) : List Extent :=
  if e.length = n then [] else [⟨e.base + n, e.length - n⟩]

/-- The first entry that is long enough is taken from its low end (R50). -/
theorem allocate_first {n : Nat} {low : List Extent} {e : Extent} (high : List Extent)
    (short : ∀ x ∈ low, x.length < n) (fits : n ≤ e.length) :
    allocate n (low ++ e :: high) = some (e.base, low ++ e.behind n ++ high) := by
  induction low with
  | nil =>
    rw [List.nil_append, allocate, if_pos fits, Extent.behind]
    split_ifs <;> rfl
  | cons x low ih =>
    obtain ⟨hx, hl⟩ := List.forall_mem_cons.mp short
    rw [List.cons_append, allocate, if_neg (Nat.not_le.mpr hx), ih hl]
    rfl

/-- No entry is long enough. -/
theorem allocate_none {n : Nat} {l : List Extent} (short : ∀ x ∈ l, x.length < n) :
    allocate n l = none := by
  induction l with
  | nil => rfl
  | cons x l ih =>
    obtain ⟨hx, hl⟩ := List.forall_mem_cons.mp short
    rw [allocate, if_neg (Nat.not_le.mpr hx), ih hl]
    rfl

/-- A list without an entry that is long enough, or its first one. -/
theorem first_fit (n : Nat) (l : List Extent) :
    (∀ x ∈ l, x.length < n) ∨
      ∃ low e high, l = low ++ e :: high ∧ (∀ x ∈ low, x.length < n) ∧ n ≤ e.length := by
  induction l with
  | nil => exact .inl fun _ h => nomatch h
  | cons x l ih =>
    rcases Nat.lt_or_ge x.length n with hx | hx
    · rcases ih with short | ⟨low, e, high, rfl, short, fits⟩
      · exact .inl (List.forall_mem_cons.mpr ⟨hx, short⟩)
      · exact .inr ⟨x :: low, e, high, rfl, List.forall_mem_cons.mpr ⟨hx, short⟩, fits⟩
    · exact .inr ⟨[], x, l, rfl, by simp, hx⟩

/-- An allocation granted is of the first entry that is long enough (R50). -/
theorem allocate_some {n : Nat} {l rest : List Extent} {b : Nat} (h : allocate n l = some (b, rest)) :
    ∃ low e high, l = low ++ e :: high ∧ (∀ x ∈ low, x.length < n) ∧ n ≤ e.length ∧ b = e.base ∧
      rest = low ++ e.behind n ++ high := by
  rcases first_fit n l with short | ⟨low, e, high, rfl, short, fits⟩
  · rw [allocate_none short] at h; cases h
  · rw [allocate_first high short fits] at h
    cases h
    exact ⟨low, e, high, rfl, short, fits, rfl, rfl⟩

/-- Some entry is long enough exactly where an allocation is granted. -/
theorem allocate_isSome {n : Nat} {l : List Extent} :
    (allocate n l).isSome = true ↔ ∃ e ∈ l, n ≤ e.length := by
  rcases first_fit n l with short | ⟨low, e, high, rfl, short, fits⟩
  · rw [allocate_none short]
    exact iff_of_false (by simp) fun ⟨e, he, fits⟩ => Nat.not_lt.mpr fits (short e he)
  · rw [allocate_first high short fits]
    exact iff_of_true rfl ⟨e, by simp, fits⟩

/-- What is left of an entry covers what its first granules do not. -/
theorem coverings_behind {e : Extent} {n : Nat} (fits : n ≤ e.length) (g : Nat) :
    coverings (e.behind n) g + Extent.covering ⟨e.base, n⟩ g = e.covering g := by
  unfold Extent.behind
  split_ifs with all
  · simp [← all]
  · simp only [coverings_cons, coverings_nil, Extent.covering]
    split_ifs <;> omega

/-- An allocation takes its granules from the free list, and no others. -/
theorem coverings_allocate {n : Nat} {l rest : List Extent} {b : Nat}
    (h : allocate n l = some (b, rest)) (g : Nat) :
    coverings rest g + Extent.covering ⟨b, n⟩ g = coverings l g := by
  obtain ⟨low, e, high, rfl, -, fits, rfl, rfl⟩ := allocate_some h
  have split := coverings_behind fits g
  simp only [coverings_append, coverings_cons]
  omega

/-- Fewer entries keep the form. -/
theorem freeForm_sublist {k l : List Extent} (sub : k.Sublist l) (form : freeForm l) : freeForm k :=
  ⟨form.1.sublist sub, fun e he => form.2 e (sub.subset he)⟩

/-- An entry shortened from its low end stays in its place. -/
theorem freeForm_shorten {e f : Extent} {low high : List Extent} (form : freeForm (low ++ e :: high))
    (pos : 1 ≤ f.length) (base : e.base ≤ f.base) (ends : f.base + f.length = e.base + e.length) :
    freeForm (low ++ f :: high) := by
  obtain ⟨order, sound⟩ := form
  obtain ⟨below, above, across⟩ := List.pairwise_append.mp order
  obtain ⟨first, above⟩ := List.pairwise_cons.mp above
  refine ⟨List.pairwise_append.mpr ⟨below, List.pairwise_cons.mpr ⟨fun d hd => ?_, above⟩, ?_⟩, ?_⟩
  · rw [ends]; exact first d hd
  · refine fun d hd => List.forall_mem_cons.mpr ⟨?_, fun x hx => ?_⟩
    · exact Nat.lt_of_lt_of_le (across d hd e List.mem_cons_self) base
    · exact across d hd x (List.mem_cons_of_mem _ hx)
  · intro d hd
    rcases List.mem_append.mp hd with hd | hd
    · exact sound d (List.mem_append_left _ hd)
    rcases List.mem_cons.mp hd with rfl | hd
    · exact ⟨pos, ends ▸ (sound e (by simp)).2⟩
    · exact sound d (by simp [hd])

/-- An allocation keeps the free list ordered and merged, and grants a sound extent (R48, R50). -/
theorem allocate_form {n : Nat} {l rest : List Extent} {b : Nat} (form : freeForm l) (pos : 1 ≤ n)
    (h : allocate n l = some (b, rest)) : freeForm rest ∧ Extent.sound ⟨b, n⟩ := by
  obtain ⟨low, e, high, rfl, -, fits, rfl, rfl⟩ := allocate_some h
  have bound := (form.2 e (by simp)).2
  refine ⟨?_, pos, ?_⟩
  · unfold Extent.behind
    split_ifs with all
    · exact freeForm_sublist (by simp) form
    · rw [List.append_assoc]
      refine freeForm_shorten form ?_ (Nat.le_add_right _ _) ?_
      · show 1 ≤ e.length - n
        omega
      · show e.base + n + (e.length - n) = e.base + e.length
        omega
  · show e.base + n ≤ Config.granules
    omega

/-! ### Pairs (R51) -/

/-- A pair granted is two allocations, one after the other. -/
theorem allocatePair_some {n : Nat} {l rest : List Extent} {p : Extent × Extent}
    (h : allocatePair n l = some (p, rest)) :
    ∃ a b mid, p = (⟨a, n⟩, ⟨b, n⟩) ∧ allocate n l = some (a, mid) ∧ allocate n mid = some (b, rest) := by
  unfold allocatePair at h
  split at h
  · cases h
  · split at h
    · cases h
    · cases h; exact ⟨_, _, _, rfl, ‹_›, ‹_›⟩

/-- A pair takes its granules from the free list, and no others. -/
theorem coverings_allocatePair {n : Nat} {l rest : List Extent} {p : Extent × Extent}
    (h : allocatePair n l = some (p, rest)) (g : Nat) :
    coverings rest g + coverings [p.1, p.2] g = coverings l g := by
  obtain ⟨a, b, mid, rfl, first, second⟩ := allocatePair_some h
  have one := coverings_allocate first g
  have two := coverings_allocate second g
  simp only [coverings_cons, coverings_nil]
  omega

/-- A pair keeps the free list ordered and merged, and its extents are sound (R48, R51). -/
theorem allocatePair_form {n : Nat} {l rest : List Extent} {p : Extent × Extent} (form : freeForm l)
    (pos : 1 ≤ n) (h : allocatePair n l = some (p, rest)) :
    freeForm rest ∧ p.1.sound ∧ p.2.sound := by
  obtain ⟨a, b, mid, rfl, first, second⟩ := allocatePair_some h
  obtain ⟨form, hx⟩ := allocate_form form pos first
  obtain ⟨form, hy⟩ := allocate_form form pos second
  exact ⟨form, hx, hy⟩

/-- Buffer A of a pair lies below buffer B: what the first allocation leaves of its entry, and the entries
behind it, lie above it (R51). -/
theorem allocatePair_below {n : Nat} {l rest : List Extent} {p : Extent × Extent} (form : freeForm l)
    (h : allocatePair n l = some (p, rest)) :
    p.1.length = n ∧ p.2.length = n ∧ p.1.base + n ≤ p.2.base := by
  obtain ⟨a, b, mid, rfl, first, second⟩ := allocatePair_some h
  refine ⟨rfl, rfl, ?_⟩
  obtain ⟨low, e, high, rfl, short, fits, rfl, rfl⟩ := allocate_some first
  obtain ⟨low', f, high', hf, -, long, rfl, -⟩ := allocate_some second
  have mem : f ∈ low ++ e.behind n ++ high := by rw [hf]; simp
  show e.base + n ≤ f.base
  rcases List.mem_append.mp mem with mem | above
  · rcases List.mem_append.mp mem with below | rest
    · exact absurd (short f below) (Nat.not_lt.mpr long)
    · unfold Extent.behind at rest
      split_ifs at rest
      · cases rest
      · rw [List.mem_singleton.mp rest]
  · have lt := (List.pairwise_cons.mp (List.pairwise_append.mp form.1).2.1).1 f above
    omega

/-- A first allocation granted, the second one decides (R51). -/
theorem allocatePair_isSome_of {n b : Nat} {l mid : List Extent} (h : allocate n l = some (b, mid)) :
    (allocatePair n l).isSome = (allocate n mid).isSome := by
  simp only [allocatePair, h]
  cases allocate n mid <;> rfl

/-- An entry is long enough behind the first allocation: what is left of its entry, or one behind it. -/
theorem second_fit {n : Nat} {low : List Extent} {e : Extent} {high : List Extent}
    (short : ∀ x ∈ low, x.length < n) (pos : 1 ≤ n) :
    (∃ f ∈ low ++ e.behind n ++ high, n ≤ f.length) ↔
      2 * n ≤ e.length ∨ ∃ f ∈ high, n ≤ f.length := by
  have behind : (∃ f ∈ e.behind n, n ≤ f.length) ↔ 2 * n ≤ e.length := by
    unfold Extent.behind
    split_ifs with all
    · exact iff_of_false (by simp) (by omega)
    · simp only [List.mem_singleton, exists_eq_left]
      omega
  rw [← behind]
  constructor
  · rintro ⟨f, hf, fits⟩
    rcases List.mem_append.mp hf with hf | hf
    · rcases List.mem_append.mp hf with hf | hf
      · exact absurd (short f hf) (Nat.not_lt.mpr fits)
      · exact .inl ⟨f, hf, fits⟩
    · exact .inr ⟨f, hf, fits⟩
  · rintro (⟨f, hf, fits⟩ | ⟨f, hf, fits⟩) <;> exact ⟨f, by simp [hf], fits⟩

/-- Two entries in a row behind entries that are not among them. -/
theorem sublist_of_append {α : Type} {d e : α} {low l : List α} (out : d ∉ low)
    (sub : [d, e].Sublist (low ++ l)) : [d, e].Sublist l := by
  induction low with
  | nil => exact sub
  | cons x low ih =>
    obtain ⟨ne, out⟩ := not_or.mp (mt List.mem_cons.mpr out)
    exact ih out (sub.of_cons_of_ne ne)

/-- A pair is granted where one entry holds both its extents or two entries hold one each (R51). -/
theorem allocatePair_isSome {n : Nat} {l : List Extent} (pos : 1 ≤ n) :
    (allocatePair n l).isSome = true ↔
      (∃ e ∈ l, 2 * n ≤ e.length) ∨ ∃ d e, [d, e].Sublist l ∧ n ≤ d.length ∧ n ≤ e.length := by
  rcases first_fit n l with short | ⟨low, e, high, rfl, short, fits⟩
  · refine iff_of_false (by simp [allocatePair, allocate_none short]) ?_
    rintro (⟨e, he, fits⟩ | ⟨d, e, sub, fits, -⟩)
    · have lt := short e he
      omega
    · have lt := short d (sub.subset List.mem_cons_self)
      omega
  · rw [allocatePair_isSome_of (allocate_first high short fits), allocate_isSome, second_fit short pos]
    constructor
    · rintro (twice | ⟨f, hf, long⟩)
      · exact .inl ⟨e, by simp, twice⟩
      · exact .inr ⟨e, f, ((List.singleton_sublist.mpr hf).cons_cons e).trans
          (List.sublist_append_right low _), fits, long⟩
    · rintro (⟨f, hf, twice⟩ | ⟨d, f, sub, hd, hf⟩)
      · rcases List.mem_append.mp hf with hf | hf
        · have lt := short f hf
          omega
        rcases List.mem_cons.mp hf with rfl | hf
        · exact .inl twice
        · exact .inr ⟨f, hf, by omega⟩
      · have out : d ∉ low := fun mem => absurd (short d mem) (Nat.not_lt.mpr hd)
        have behind : [f].Sublist high := (sublist_of_append out sub).tail
        exact .inr ⟨f, List.singleton_sublist.mp behind, hf⟩

/-- Settles O8: an allocation granted and one refused. -/
theorem firstFitAllocation : Obligations.FirstFitAllocation := by
  rintro n free - -
  refine ⟨fun low e high same short fits => ?_, allocate_none⟩
  rw [same, allocate_first high short fits]
  rfl

/-- Settles O9: the pairs granted, the four cases of a release, and two releases, whose lists have the
form and cover the same granules. -/
theorem pairsAndReleases : Obligations.PairsAndReleases := by
  refine ⟨fun n free pos form => ⟨allocatePair_isSome pos, fun x y rest h => allocatePair_below form h⟩,
    fun b n low high left right pos hl hr => ?_, fun x y free form hx hy once => ?_⟩
  · intro l r below above
    exact release_cases pos hl hr below above
  · refine release_comm form hx hy fun g => ?_
    have le : coverings ([x, y] ++ free) g ≤ 1 := once g
    exact le

end Sys2Proof.Machine
end

section
/-! SUPPORT. The statement about bytes read: a run of bytes written anywhere, also where Stream Memory has no
bytes, so that what is kept here is the rising order of the addresses alone. -/

namespace Sys2Proof.Machine

/-- A byte written leaves every other byte as it was. -/
theorem memory_read_write_other {a x : Nat} (other : x ≠ a) (m : List Host.Cell) (v : Byte) :
    Memory.read (Memory.write m a v) x = Memory.read m x := by
  have listed : ∀ l : List Host.Cell, Memory.read ((a, v) :: l) x = Memory.read l x :=
    fun _ => if_neg other
  induction m with
  | nil =>
    rw [Memory.write]
    split_ifs
    · rfl
    · exact listed []
  | cons c m ih =>
    rw [Memory.write]
    split_ifs with below zero at_ zero
    · rfl
    · exact listed _
    · exact (if_neg (at_ ▸ other)).symm
    · rw [listed]
      exact (if_neg (at_ ▸ other)).symm
    · rw [Memory.read, Memory.read, ih]

/-- A byte written among rising addresses is the byte read. -/
theorem memory_read_write_same {m : List Host.Cell} (rising : m.Pairwise fun c d => c.1 < d.1)
    (a : Nat) (v : Byte) : Memory.read (Memory.write m a v) a = v := by
  induction m with
  | nil =>
    rw [Memory.write]
    split_ifs with zero
    · exact zero.symm
    · exact if_pos rfl
  | cons c m ih =>
    obtain ⟨first, rising⟩ := List.pairwise_cons.mp rising
    rw [Memory.write]
    split_ifs with below zero at_ zero
    · rw [zero]
      refine memory_read_below _ a (List.forall_mem_cons.mpr ⟨below, fun d hd => ?_⟩)
      exact Nat.lt_trans below (first d hd)
    · exact if_pos rfl
    · rw [zero]
      exact memory_read_below _ a fun d hd => at_ ▸ first d hd
    · exact if_pos rfl
    · rw [Memory.read, if_neg at_, ih rising]

/-- A byte written anywhere keeps the listed addresses rising. -/
theorem memory_write_rising {m : List Host.Cell} (rising : m.Pairwise fun c d => c.1 < d.1) (a : Nat)
    (v : Byte) : (Memory.write m a v).Pairwise fun c d => c.1 < d.1 := by
  induction m with
  | nil => rw [Memory.write]; split_ifs <;> simp
  | cons c m ih =>
    obtain ⟨first, tail⟩ := List.pairwise_cons.mp rising
    rw [Memory.write]
    split_ifs with below zero at_ zero
    · exact rising
    · refine List.pairwise_cons.mpr ⟨List.forall_mem_cons.mpr ⟨below, fun d hd => ?_⟩, rising⟩
      exact Nat.lt_trans below (first d hd)
    · exact tail
    · exact List.pairwise_cons.mpr ⟨fun d hd => at_ ▸ first d hd, tail⟩
    · refine List.pairwise_cons.mpr ⟨fun d hd => ?_, ih tail⟩
      rcases memory_write_mem m a v d hd with hd | ⟨rfl, -⟩
      · exact first d hd
      · show c.1 < a
        omega

/-- A byte read after a run of bytes is written among rising addresses (R46). -/
theorem memory_read_writeBytes {m : List Host.Cell} (rising : m.Pairwise fun c d => c.1 < d.1)
    (a x : Nat) (vs : List Byte) : Memory.read (Memory.writeBytes m a vs) x =
      if a ≤ x ∧ x < a + vs.length then vs.getD (x - a) 0 else Memory.read m x := by
  induction vs generalizing m a with
  | nil => exact (if_neg (by simp)).symm
  | cons v vs ih =>
    rw [Memory.writeBytes, ih (memory_write_rising rising a v), List.length_cons]
    rcases Nat.lt_trichotomy x a with lt | rfl | gt
    · rw [if_neg (by omega), if_neg (by omega), memory_read_write_other (by omega)]
    · rw [if_neg (by omega), if_pos (by omega), memory_read_write_same rising, Nat.sub_self]
      rfl
    · obtain ⟨k, rfl⟩ := Nat.exists_eq_add_of_lt gt
      rw [show a + k + 1 - (a + 1) = k by omega, show a + k + 1 - a = k + 1 by omega,
        List.getD_cons_succ, memory_read_write_other (by omega)]
      by_cases c : k < vs.length
      · rw [if_pos (by omega), if_pos (by omega)]
      · rw [if_neg (by omega), if_neg (by omega)]

/-- Settles O6: a run of bytes written one by one, and a run no longer listed. -/
theorem bytesReadAsWritten : Obligations.BytesReadAsWritten := fun m a x wf =>
  ⟨memory_read_writeBytes wf.1 a x, fun n => memory_read_zero m a n x⟩

end Sys2Proof.Machine
end

section
/-! SUPPORT. The extent law: what one handle holds, and what each thing done to a record does to the extents
held and to the free list (R48, R49). -/

namespace Sys2Proof.Machine

/-! ### What a handle holds -/

/-- The extents that a handle's record holds (R49); a VACANT one holds none. -/
def State.extentsOf (s : State) (h : Handle) : List Extent := (s.stream h).elim [] Stream.extents

/-- The extents of an open record. -/
theorem extentsOf_some {s : State} {h : Handle} {st : Stream} (hs : s.stream h = some st) :
    s.extentsOf h = st.extents := by rw [State.extentsOf, hs]; rfl

/-- A VACANT record holds no extents. -/
theorem extentsOf_none {s : State} {h : Handle} (hs : s.stream h = none) : s.extentsOf h = [] := by
  rw [State.extentsOf, hs]; rfl

/-- All extents held are those of the handles, one after another. -/
theorem heldExtents_eq (s : State) : s.heldExtents = handles.flatMap s.extentsOf := by
  unfold State.heldExtents
  congr 1
  funext h
  rw [State.extentsOf]
  cases s.stream h <;> rfl

/-- The extents of a stream: those of its buffers, and of its pending new pair. -/
theorem extents_eq (st : Stream) : st.extents = [st.bufferA.extent, st.bufferB.extent] ++
    (st.pending.bind Amendment.pair).elim [] fun p => [p.1, p.2] := by
  unfold Stream.extents
  cases st.pending.bind Amendment.pair <;> rfl

/-- A handle's extents are held. -/
theorem mem_heldExtents {s : State} {e : Extent} :
    e ∈ s.heldExtents ↔ ∃ h, e ∈ s.extentsOf h := by
  rw [heldExtents_eq, List.mem_flatMap]
  exact ⟨fun ⟨h, _, he⟩ => ⟨h, he⟩, fun ⟨h, he⟩ => ⟨h, List.mem_finRange h, he⟩⟩

/-- What covers a granule among all extents held is the sum over the handles. -/
theorem coverings_held (s : State) (g : Nat) :
    coverings s.heldExtents g = (handles.map fun h => coverings (s.extentsOf h) g).sum := by
  rw [heldExtents_eq, coverings, List.countP_flatMap]
  rfl

/-- One handle's extents are some of all extents held. -/
theorem coverings_extentsOf_le (s : State) (h : Handle) (g : Nat) :
    coverings (s.extentsOf h) g ≤ coverings s.heldExtents g := by
  rw [coverings_held]
  exact List.single_le_sum (fun _ _ => Nat.zero_le _) _
    (List.mem_map_of_mem (f := fun h => coverings (s.extentsOf h) g) (List.mem_finRange h))

/-! ### The law of the extents -/

/-- The extent law in coverings. -/
theorem extentLaw_iff (s : State) : s.extentLaw ↔ freeForm s.free ∧
    (∀ h, ∀ e ∈ s.extentsOf h, e.sound) ∧
      ∀ g < Config.granules, coverings s.free g + coverings s.heldExtents g = 1 := by
  have sound : (∀ e ∈ s.heldExtents, e.sound) ↔ ∀ h, ∀ e ∈ s.extentsOf h, e.sound :=
    ⟨fun all h e he => all e (mem_heldExtents.mpr ⟨h, he⟩), fun all e he =>
      let ⟨h, he⟩ := mem_heldExtents.mp he; all h e he⟩
  simp only [State.extentLaw, sound, ← coverings_append]
  rfl

/-- Sound extents cover nothing behind Stream Memory. -/
theorem coverings_beyond {l : List Extent} (sound : ∀ e ∈ l, e.sound) {g : Nat}
    (beyond : Config.granules ≤ g) : coverings l g = 0 := by
  by_contra covered
  obtain ⟨e, he, -, lt⟩ := coverings_pos.mp (Nat.pos_of_ne_zero covered)
  have bound := (sound e he).2
  omega

/-- The law of the extents rests on what each handle holds and on the free list. -/
theorem extentLaw_congr {s t : State} (free : t.free = s.free)
    (held : ∀ h, t.extentsOf h = s.extentsOf h) (law : s.extentLaw) : t.extentLaw := by
  have all : t.heldExtents = s.heldExtents := by
    rw [heldExtents_eq, heldExtents_eq, funext held]
  simpa only [State.extentLaw, free, all] using law

/-- One record is replaced by one of the same extents. -/
theorem extentLaw_of_same {s t : State} (law : s.extentLaw) {h : Handle}
    (others : ∀ k, k ≠ h → t.stream k = s.stream k) (free : t.free = s.free)
    (held : t.extentsOf h = s.extentsOf h) : t.extentLaw := by
  refine extentLaw_congr free (fun k => ?_) law
  by_cases e : k = h
  · exact e ▸ held
  · rw [State.extentsOf, others k e, State.extentsOf]

/-- Under the law no granule is free and held, or held twice, by one handle. -/
theorem once_of_extentLaw {s : State} (law : s.extentLaw) (h : Handle) (g : Nat) :
    coverings s.free g + coverings (s.extentsOf h) g ≤ 1 := by
  obtain ⟨form, sound, once⟩ := (extentLaw_iff s).mp law
  rcases Nat.lt_or_ge g Config.granules with lt | ge
  · have one := once g lt
    have part := coverings_extentsOf_le s h g
    omega
  · rw [coverings_beyond form.2 ge, coverings_beyond (sound h) ge]
    exact Nat.zero_le _

/-- One handle's extents are replaced, and what they no longer cover is free. -/
theorem extentLaw_of_replaced {s t : State} (law : s.extentLaw) {h : Handle}
    (others : ∀ k, k ≠ h → t.stream k = s.stream k) (form : freeForm t.free)
    (sound : ∀ e ∈ t.extentsOf h, e.sound)
    (moved : ∀ g, coverings t.free g + coverings (t.extentsOf h) g =
      coverings s.free g + coverings (s.extentsOf h) g) : t.extentLaw := by
  obtain ⟨-, held, once⟩ := (extentLaw_iff s).mp law
  have kept : ∀ k, k ≠ h → t.extentsOf k = s.extentsOf k := fun k ne => by
    rw [State.extentsOf, others k ne, State.extentsOf]
  refine (extentLaw_iff t).mpr ⟨form, fun k => ?_, fun g lt => ?_⟩
  · by_cases e : k = h
    · exact e ▸ sound
    · exact kept k e ▸ held k
  · have sum := handles_sum_replace (f := fun k => coverings (s.extentsOf k) g)
      (g := fun k => coverings (t.extentsOf k) g) (h := h) fun k ne => by rw [kept k ne]
    have one := once g lt
    have change := moved g
    simp only [coverings_held] at one ⊢
    omega

/-! ### Pairs released -/

/-- A pair released frees its granules, and no others. -/
@[simp] theorem coverings_releasePair (p : Extent × Extent) (l : List Extent) (g : Nat) :
    coverings (releasePair p l) g = coverings l g + coverings [p.1, p.2] g := by
  simp only [releasePair, coverings_release, coverings_cons, coverings_nil]
  omega

/-- A pair released keeps the free list ordered and merged (R52). -/
theorem releasePair_form {p : Extent × Extent} {l : List Extent} (form : freeForm l)
    (hx : p.1.sound) (hy : p.2.sound) (once : ∀ g, coverings l g + coverings [p.1, p.2] g ≤ 1) :
    freeForm (releasePair p l) := by
  have first : freeForm (release p.1 l) := release_form form hx <|
    apart_of_once hx form.2 fun g => by
      have le := once g
      simp only [coverings_cons, coverings_nil] at le ⊢
      omega
  refine release_form first hy (apart_of_once hy first.2 fun g => ?_)
  have le := once g
  simp only [coverings_cons, coverings_nil, coverings_release] at le ⊢
  omega

/-- One handle keeps some of its extents and gives a pair of them back. -/
theorem extentLaw_of_released {s t : State} (law : s.extentLaw) {h : Handle} {p : Extent × Extent}
    (others : ∀ k, k ≠ h → t.stream k = s.stream k) (free : t.free = releasePair p s.free)
    (held : (s.extentsOf h).Perm ([p.1, p.2] ++ t.extentsOf h)) : t.extentLaw := by
  obtain ⟨form, all, -⟩ := (extentLaw_iff s).mp law
  have sound : ∀ e ∈ [p.1, p.2] ++ t.extentsOf h, e.sound := fun e he => all h e (held.mem_iff.mpr he)
  have split : ∀ g, coverings (s.extentsOf h) g = coverings [p.1, p.2] g + coverings (t.extentsOf h) g :=
    fun g => (held.countP_eq _).trans (coverings_append _ _ g)
  refine extentLaw_of_replaced law others ?_ (fun e he => sound e (List.mem_append_right _ he)) fun g => ?_
  · rw [free]
    refine releasePair_form form (sound p.1 (by simp)) (sound p.2 (by simp)) fun g => ?_
    have once := once_of_extentLaw law h g
    rw [split] at once
    omega
  · rw [free, coverings_releasePair, split]
    omega

/-- One handle gets a pair that the free list gives. -/
theorem extentLaw_of_granted {s t : State} (law : s.extentLaw) {h : Handle} {n : Nat}
    {g : (Extent × Extent) × List Extent} (pos : 1 ≤ n) (granted : allocatePair n s.free = some g)
    (others : ∀ k, k ≠ h → t.stream k = s.stream k) (free : t.free = g.2)
    (held : t.extentsOf h = s.extentsOf h ++ [g.1.1, g.1.2]) : t.extentLaw := by
  obtain ⟨form, all, -⟩ := (extentLaw_iff s).mp law
  obtain ⟨form, hx, hy⟩ := allocatePair_form form pos granted
  refine extentLaw_of_replaced law others (free ▸ form) ?_ fun k => ?_
  · rw [held]
    exact List.forall_mem_append.mpr ⟨all h, by simp [hx, hy]⟩
  · have taken := coverings_allocatePair granted k
    rw [free, held, coverings_append]
    omega

/-! ### What keeps it -/

/-- The extents that a handle holds rest on what its record holds. -/
theorem extentsOf_holdings {s t : State} (e : t.holdings = s.holdings) (h : Handle) :
    t.extentsOf h = s.extentsOf h := by
  have of_holding : ∀ u : State, u.extentsOf h = (u.holdings.held h).elim [] fun x =>
      [x.extentA, x.extentB] ++ (x.pending.bind Amendment.pair).elim [] fun p => [p.1, p.2] :=
    fun u => by
      rw [holdings_held, State.extentsOf]
      cases u.stream h with
      | none => rfl
      | some st => exact extents_eq st
  rw [of_holding, of_holding, e]

/-- The law of the extents rests on what the records hold and on the free list. -/
theorem extentLaw_of_holdings {s t : State} (e : t.holdings = s.holdings) (law : s.extentLaw) :
    t.extentLaw := extentLaw_congr (congrArg Holdings.free e) (extentsOf_holdings e) law

/-- A withdrawal gives a pending new pair back (R41). -/
theorem withdrawAmendment_extentLaw {s : State} (law : s.extentLaw) (h : Handle) :
    (s.withdrawAmendment h).extentLaw := by
  have others : ∀ k, k ≠ h → (s.withdrawAmendment h).stream k = s.stream k := fun k ne => by
    rw [withdrawAmendment_stream, if_neg ne]
  cases hs : s.stream h with
  | none =>
    have same : s.withdrawAmendment h = s := by unfold State.withdrawAmendment; simp only [hs]
    rwa [same]
  | some st =>
    have own := extentsOf_some (withdrawAmendment_open hs)
    have free := withdrawAmendment_free hs
    have extents := extents_eq st
    cases pair : st.pending.bind Amendment.pair with
    | none =>
      rw [pair] at free extents
      refine extentLaw_of_same law others free ?_
      rw [own, extentsOf_some hs, extents]
      rfl
    | some p =>
      rw [pair] at free extents
      refine extentLaw_of_released law others free ?_
      rw [own, extentsOf_some hs, extents]
      exact List.perm_append_comm

/-- A retirement gives all extents of its record back (R20). -/
theorem vacate_extentLaw {s : State} (law : s.extentLaw) (h : Handle) : (s.vacate h).extentLaw := by
  cases hs : s.stream h with
  | none => rwa [vacate_none hs]
  | some st =>
    have vacant : (s.vacate h).extentsOf h = [] := extentsOf_none (by rw [vacate_stream, if_pos rfl])
    refine extentLaw_of_released (withdrawAmendment_extentLaw law h) (h := h)
      (p := (st.bufferA.extent, st.bufferB.extent)) (fun k ne => ?_) ?_ ?_
    · rw [vacate_stream, if_neg ne, withdrawAmendment_stream, if_neg ne]
    · rw [vacate_eq hs]; rfl
    · rw [vacant, extentsOf_some (withdrawAmendment_open hs)]
      exact List.Perm.refl _

/-- An amendment that takes effect gives the old pair back where there is a new one (R101, R102). -/
theorem reshape_extentLaw {s : State} (law : s.extentLaw) {h : Handle} {st : Stream} {a : Amendment}
    (hs : s.stream h = some st) (pending : st.pending = some a) :
    (s.reshape h st a.params a.pair).extentLaw := by
  have stream : ∀ k, (s.reshape h st a.params a.pair).stream k =
      if k = h then some (st.reshape a.params a.pair) else s.stream k := fun k => by
    rw [State.stream, reshape_record]
    split <;> rfl
  have others : ∀ k, k ≠ h → (s.reshape h st a.params a.pair).stream k = s.stream k :=
    fun k ne => (stream k).trans (if_neg ne)
  have own : (s.reshape h st a.params a.pair).extentsOf h = (st.reshape a.params a.pair).extents :=
    extentsOf_some ((stream h).trans (if_pos rfl))
  have extents := extents_eq st
  rw [pending, Option.bind_some] at extents
  cases pair : a.pair with
  | none =>
    rw [pair] at own extents others
    refine extentLaw_of_same law others rfl ?_
    rw [own, extentsOf_some hs, extents]
    rfl
  | some p =>
    rw [pair] at own extents others
    refine extentLaw_of_released law others rfl ?_
    rw [own, extentsOf_some hs, extents]
    exact List.Perm.refl _

/-- The granules of at least one cell are at least one (R54). -/
theorem granulesFor_pos {v : Params} (range : v.inRange = true) : 1 ≤ granulesFor v.cells := by
  simp only [Params.inRange, Bool.and_eq_true, decide_eq_true_eq] at range
  obtain ⟨⟨⟨⟨⟨⟨cells, -⟩, -⟩, -⟩, -⟩, -⟩, -⟩ := range
  unfold granulesFor
  omega

/-- A pair granted is one that the free list gives (R51). -/
theorem pair_ok {s : State} {n : Nat} {g : (Extent × Extent) × List Extent} (e : s.pair n = .ok g) :
    allocatePair n s.free = some g := by
  unfold State.pair at e
  split at e
  · cases e; assumption
  · cases e

/-- A record opened holds the pair granted (R69). -/
theorem enter_extentLaw {s : State} (law : s.extentLaw) (p : Port) {a : OpenArgs} {h : Handle}
    {g : (Extent × Extent) × List Extent} (range : a.params.inRange = true) (vacant : s.stream h = none)
    (granted : s.pair (granulesFor a.params.cells) = .ok g) :
    ((s.setFree g.2).enter p a h g.1).extentLaw := by
  have stream : ∀ k, ((s.setFree g.2).enter p a h g.1).stream k =
      if k = h then some (a.stream p g.1) else s.stream k := fun k => by
    rw [State.stream, enter_record]
    split <;> rfl
  refine extentLaw_of_granted law (granulesFor_pos range) (pair_ok granted)
    (fun k ne => (stream k).trans (if_neg ne)) rfl ?_
  rw [extentsOf_some ((stream h).trans (if_pos rfl)), extentsOf_none vacant]
  rfl

/-- A record with an amendment held holds the pair granted besides its own (R93, R94). -/
theorem hold_extentLaw {s : State} (law : s.extentLaw) {h : Handle} {st : Stream} {new : Params}
    (point : EffectivePoint) {g : Option ((Extent × Extent) × List Extent)} (range : new.inRange = true)
    (hs : s.stream h = some st) (pending : st.pending = none) (granted : s.amendPair st new = .ok g) :
    ((s.setFree (g.elim s.free Prod.snd)).holdAmendment h st new point (g.map Prod.fst)).extentLaw := by
  have stream : ∀ k, ((s.setFree (g.elim s.free Prod.snd)).holdAmendment h st new point
      (g.map Prod.fst)).stream k = if k = h then
        some { st with pending := some ⟨new, point, g.map Prod.fst, contribution st.params⟩ }
      else s.stream k := fun k => by
    rw [State.stream, holdAmendment_record]
    split <;> rfl
  have others := fun k (ne : k ≠ h) => (stream k).trans (if_neg ne)
  have own := extentsOf_some ((stream h).trans (if_pos rfl))
  have before := extents_eq st
  rw [pending] at before
  unfold State.amendPair at granted
  split at granted
  · cases granted
    refine extentLaw_of_same law others rfl ?_
    rw [own, extentsOf_some hs, before]
    rfl
  · cases pair : s.pair (granulesFor new.cells) with
    | error r => rw [pair] at granted; cases granted
    | ok g' =>
      rw [pair] at granted
      cases granted
      refine extentLaw_of_granted law (granulesFor_pos range) (pair_ok pair) others rfl ?_
      rw [own, extentsOf_some hs, before]
      rfl

/-- An amendment carried through at once is one held that takes effect (R105). -/
theorem amend_extentLaw {s : State} (law : s.extentLaw) {h : Handle} {st : Stream} {new : Params}
    {g : Option ((Extent × Extent) × List Extent)} (range : new.inRange = true)
    (hs : s.stream h = some st) (pending : st.pending = none) (granted : s.amendPair st new = .ok g) :
    ((s.setFree (g.elim s.free Prod.snd)).reshape h st new (g.map Prod.fst)).extentLaw := by
  have held := hold_extentLaw law .next range hs pending granted
  have taken := reshape_extentLaw (h := h) held (by simp [State.holdAmendment]; rfl) rfl
  refine extentLaw_congr ?_ (fun k => ?_) taken
  · cases g <;> rfl
  · simp only [State.extentsOf, State.stream, reshape_record, holdAmendment_record]
    split
    · cases g <;> rfl
    · rfl

/-- After reset every granule is free (R48, R66). -/
theorem reset_extentLaw : State.reset.extentLaw := by
  have vacant : ∀ k, State.reset.extentsOf k = [] := fun k =>
    extentsOf_none (congrArg Record.stream (reset_record k))
  refine (extentLaw_iff _).mpr ⟨⟨List.pairwise_singleton _ _, ?_⟩, fun h e he => ?_, fun g lt => ?_⟩
  · exact List.forall_mem_singleton.mpr ⟨by decide, Nat.le_refl _⟩
  · rw [vacant] at he; cases he
  · rw [coverings_held, List.sum_eq_zero (by simp [vacant])]
    simpa [State.reset, freeReset, Extent.covering] using lt

end Sys2Proof.Machine
end

section
/-! SUPPORT. What every step keeps: a property that rests on what the records hold, that holds after reset,
and that withdrawals, retirements, amendments that take effect, OPEN and AMEND keep. `State.Evolves` says of an
OPEN and of an AMEND that its pair was granted, and not that its parameters were in range, so that the pair
could be one of no granules; here both requests are left to the property. -/

namespace Sys2Proof.Machine

/-- A property of the state that rests on what the records hold, and that all that changes it keeps. -/
structure Steady (P : State → Prop) : Prop where
  same : ∀ {s t : State}, t.holdings = s.holdings → P s → P t
  withdraw : ∀ {s : State} (h : Handle), P s → P (s.withdrawAmendment h)
  vacate : ∀ {s : State} (h : Handle), P s → P (s.vacate h)
  reshape : ∀ {s : State} {h : Handle} {st : Stream} {a : Amendment}, s.stream h = some st →
    st.pending = some a → P s → P (s.reshape h st a.params a.pair)
  openStream : ∀ {p : Port} {r : Request} {s : State} {x : State × Reply},
    openRequest p r s = .ok x → P s → P x.1
  amend : ∀ {p : Port} {r : Request} {s : State} {x : State × Reply},
    amendRequest p r s = .ok x → P s → P x.1
  reset : P State.reset

namespace Steady

variable {P : State → Prop} {s t : State}

/-- Either of two states. -/
theorem ite {c : Prop} [Decidable c] (hs : P s) (ht : P t) : P (if c then s else t) := by
  split
  · exact hs
  · exact ht

/-- A walk whose every step keeps the property. -/
theorem foldl {α : Type} {f : State → α → State} (keeps : ∀ {s : State} (a : α), P s → P (f s a))
    (l : List α) (hs : P s) : P (l.foldl f s) := by
  induction l generalizing s with
  | nil => exact hs
  | cons a l ih => exact ih (keeps a hs)

/-- The same table and free list. -/
theorem of_table (k : Steady P) (hs : P s) (table : t.table = s.table) (free : t.free = s.free) : P t :=
  k.same (holdings_of_table table free) hs

/-- A record whose stream holds what it held. -/
theorem setStream (k : Steady P) {h : Handle} {x y : Stream} (hx : s.stream h = some x)
    (e : y.holding = x.holding) (hs : P s) : P (s.setStream h y) := k.same (setStream_holdings hx e) hs

theorem notifyIf (k : Steady P) (c : Bool) (p : Port) (x : Report) (hs : P s) : P (s.notifyIf c p x) :=
  k.same (notifyIf_holdings s c p x) hs

theorem notifyAll (k : Steady P) (x : LinkEvent) (hs : P s) : P (s.notifyAll x) :=
  k.of_table hs (s.notifyAll_keeps x).1 (s.notifyAll_keeps x).2.1

theorem miss (k : Steady P) (h : Handle) (c : MissCause) (hs : P s) : P (s.miss h c) :=
  k.same (miss_holdings s h c) hs

/-- Retirement is its parts 1 to 4, 6 and 7, and notices. -/
theorem retire (k : Steady P) (h : Handle) (c : Bool) (hs : P s) : P (s.retire h c) := by
  unfold State.retire
  split
  · exact k.notifyIf _ _ _ (k.of_table (k.vacate h hs) rfl rfl)
  · exact hs

theorem makeClaim (k : Steady P) (c : Claim) (hs : P s) : P (s.makeClaim c) := k.of_table hs rfl rfl

theorem stage (k : Steady P) (cells : List LaneCell) (hs : P s) : P (s.stage cells) :=
  k.of_table hs rfl rfl

theorem with_link (k : Steady P) (hs : P s) (l : LinkController) : P { s with link := l } :=
  k.of_table hs rfl rfl

theorem buildLists (k : Steady P) (n : Period) (hs : P s) : P (s.buildLists n) := k.of_table hs rfl rfl

theorem dropLists (k : Steady P) (hs : P s) : P s.dropLists := k.of_table hs rfl rfl

theorem cutPeriod (k : Steady P) (hs : P s) : P s.cutPeriod := k.of_table hs rfl rfl

/-! ### The claims of the Period Service Unit -/

theorem takeEffect (k : Steady P) (m : Period) (h : Handle) (hs : P s) : P (s.takeEffect m h) := by
  unfold State.takeEffect
  split
  · split
    · exact ite (k.of_table (k.reshape ‹_› ‹_› hs) rfl rfl) hs
    · exact hs
  · exact hs

theorem takeMarkProcessing (k : Steady P) (n : Period) (hs : P s) : P (s.takeMarkProcessing n) := by
  have effects := foldl (fun h => k.takeEffect n h) handles hs
  have warns : ∀ {u : State} (h : Handle), P u → P (u.starveWarning n h) := fun h hu =>
    k.of_table hu (State.starveWarning_keeps _ n h).1 (State.starveWarning_keeps _ n h).2.1
  have opens : ∀ {u : State}, P u → P u.openList := fun hu =>
    k.of_table hu (State.openList_keeps _).1 (State.openList_keeps _).2.1
  unfold State.takeMarkProcessing
  dsimp only
  split
  · exact opens (foldl warns handles (k.buildLists n effects))
  · exact k.dropLists effects

theorem closeAfterService (k : Steady P) (h : Handle) (hs : P s) : P (s.closeAfterService h) := by
  unfold State.closeAfterService
  split
  · exact ite (k.retire h true hs) hs
  · exact hs

theorem takeServiceStart (k : Steady P) (e : TxEntry) (hs : P s) : P (s.takeServiceStart e) := by
  have idle := fun cells => k.stage cells hs
  unfold State.takeServiceStart
  split
  · exact idle _
  · rename_i st hst
    refine ite (idle _) (ite (idle _) (ite (idle _) ?_))
    split
    · have due : (st.setBuffer st.parity { st.dueBuffer with owner := .service }).holding = st.holding :=
        setBuffer_holding st st.parity _ rfl
      exact k.of_table (k.setStream (y := { st.setBuffer st.parity
        { st.dueBuffer with owner := .service } with lastSlot := some e.offset }) hst due hs) rfl rfl
    · exact ite (k.stage _ (k.miss _ _ hs)) (k.stage _ (k.retire _ _ hs))
    · exact idle _

theorem startNext (k : Steady P) (e : TxEntry) (hs : P s) : P (s.startNext e) :=
  ite (k.of_table hs rfl rfl) (k.takeServiceStart e (k.of_table hs rfl rfl))

theorem takeNextStart (k : Steady P) (hs : P s) : P s.takeNextStart := by
  unfold State.takeNextStart
  split
  · exact k.startNext _ hs
  · exact hs

theorem takeTxCompletion (k : Steady P) (hs : P s) : P s.takeTxCompletion := by
  have dropped : P s.dropTx := k.of_table hs rfl rfl
  rcases takeTxCompletion_cases s with ⟨-, e⟩ | ⟨f, -, ⟨-, e⟩ | ⟨st, hst, -, e⟩⟩ <;> rw [e]
  · exact hs
  · exact dropped
  · have completed : (st.completeTx f.buffer).holding = st.holding :=
      setBuffer_holding st f.buffer { st.buffer f.buffer with owner := .host } rfl
    exact k.closeAfterService _ (k.notifyIf _ _ _ (k.setStream (s := s.dropTx) hst completed dropped))

theorem takeRxCompletion (k : Steady P) (hs : P s) : P s.takeRxCompletion := by
  have dropped : P s.dropRx := k.of_table hs rfl rfl
  rcases takeRxCompletion_cases s with
    ⟨-, e⟩ | ⟨f, -, ⟨-, e⟩ | ⟨st, hst, -, ⟨-, e⟩ | ⟨-, e⟩⟩⟩ <;> rw [e]
  · exact hs
  · exact dropped
  · have damaged : (st.damageRx f.buffer f.excess).holding = st.holding :=
      setBuffer_holding st f.buffer { st.buffer f.buffer with owner := .link, fill := 0 } rfl
    exact k.closeAfterService _ (k.miss _ _ (k.setStream (s := s.dropRx) hst damaged dropped))
  · have completed : (st.completeRx f.buffer f.stored).holding = st.holding :=
      setBuffer_holding st f.buffer { st.buffer f.buffer with owner := .host, fill := f.stored } rfl
    exact k.closeAfterService _ (k.notifyIf _ _ _ (k.setStream (s := s.dropRx) hst completed dropped))

theorem takeMatch (k : Steady P) (h : Handle) (count : Nat) (hs : P s) : P (s.takeMatch h count) := by
  have standing : P (s.setStanding h .received) := k.of_table hs rfl rfl
  unfold State.takeMatch
  dsimp only
  split
  · exact hs
  · rename_i st hst
    refine ite hs (ite hs (ite hs (ite (k.setStream hst rfl hs) ?_)))
    split
    · exact ite (k.miss h .overrun standing) (k.retire h true hs)
    · exact k.of_table (k.setStream (s := s.setStanding h .received) hst
        (setBuffer_holding st st.parity { st.dueBuffer with owner := .service, fill := 0 } rfl) standing) rfl rfl
    · exact hs

theorem decideHandle (k : Steady P) (h : Handle) (hs : P s) : P (s.decideHandle h) := by
  unfold State.decideHandle
  dsimp only
  split
  · exact hs
  · refine ite hs (ite hs (ite hs (ite hs ?_)))
    split
    · exact ite (k.miss h _ hs) (k.retire h true hs)
    · exact k.miss h _ hs
    · exact hs

theorem takePeriodEnd (k : Steady P) (hs : P s) : P s.takePeriodEnd :=
  k.of_table (foldl (fun h => k.decideHandle h) s.periodEndOrder hs) rfl rfl

/-! ### The claims of the Link Controller -/

theorem abortBuffer (k : Steady P) (h : Handle) (g : Byte) (n : BufferName) (hs : P s) :
    P (s.abortBuffer h g n) := by
  unfold State.abortBuffer
  split
  · exact ite (k.setStream ‹_› (setBuffer_holding _ n _ rfl) hs) hs
  · exact hs

theorem abortTx (k : Steady P) (hs : P s) : P s.abortTx := by
  unfold State.abortTx
  split
  · exact k.abortBuffer _ _ _ hs
  · exact hs

theorem abortRx (k : Steady P) (hs : P s) : P s.abortRx := by
  unfold State.abortRx
  split
  · exact k.abortBuffer _ _ _ hs
  · exact hs

theorem abortService (k : Steady P) (hs : P s) : P s.abortService := by
  rw [abortService_eq]
  exact k.of_table (k.abortRx (k.of_table (t := s.abortTx.dropTx) (k.abortTx hs) rfl rfl)) rfl rfl

theorem departRecord (k : Steady P) (h : Handle) (hs : P s) : P (s.departRecord h) := by
  unfold State.departRecord
  split
  · rename_i st hst
    split
    · exact ite (k.of_table (k.setStream (y := { st with state := .suspended .link }) hst rfl hs) rfl rfl) hs
    · exact k.retire h true hs
    · exact hs
  · exact hs

theorem leaveUp (k : Steady P) (hs : P s) : P s.leaveUp :=
  k.notifyAll _ (foldl (fun h => k.departRecord h) handles (k.abortService hs))

theorem takeLeavingUp (k : Steady P) (hs : P s) : P s.takeLeavingUp := by
  unfold State.takeLeavingUp
  dsimp only
  split
  · have left := k.leaveUp hs
    split
    · exact k.with_link left _
    · exact k.with_link (k.cutPeriod left) _
  · exact hs

/-! ### The claims taken, and the lane -/

theorem takeClaim (k : Steady P) (c : Claim) (hs : P s) : P (s.takeClaim c) := by
  unfold State.takeClaim
  cases c with
  | markProcessing n => exact k.takeMarkProcessing n hs
  | serviceStart => exact k.takeNextStart hs
  | txCompletion => exact k.takeTxCompletion hs
  | matchLead h count => exact k.takeMatch h count hs
  | rxCompletion => exact k.takeRxCompletion hs
  | periodEnd => exact k.takePeriodEnd hs
  | leavingUp => exact k.takeLeavingUp hs
  | enteringUp => exact k.notifyAll .up hs
  | slip => exact k.notifyAll .slip hs

/-- The claim at the front taken. -/
theorem front (k : Steady P) (c : Claim) (rest : List Claim) (hs : P s) :
    P (State.takeClaim { s with claims := rest } c) := k.takeClaim c (k.of_table hs rfl rfl)

theorem settleFor (k : Steady P) (n : Nat) (hs : P s) : P (State.settleFor n s) := by
  induction n generalizing s with
  | zero => exact hs
  | succ n ih =>
    unfold State.settleFor
    split
    · exact hs
    · exact ih (k.front _ _ hs)

theorem settle (k : Steady P) (hs : P s) : P s.settle := k.settleFor _ hs

theorem catchUp (k : Steady P) (hs : P s) : P s.catchUp :=
  k.settle (k.of_table (k.settle hs) (State.enterUp_keeps _).1 (State.enterUp_keeps _).2.1)

theorem through (k : Steady P) {kind : Claim → Bool} (h : s.through kind = some t) (hs : P s) : P t := by
  have upTo : ∀ (n : Nat) {s : State}, State.takeThroughFor kind n s = some t → P s → P t := by
    intro n
    induction n with
    | zero => exact fun h => nomatch h
    | succ n ih =>
      intro s h hs
      unfold State.takeThroughFor at h
      split at h
      · cases h
      · dsimp only at h
        split at h
        · cases h; exact k.front _ _ hs
        · exact ih h (k.front _ _ hs)
  exact upTo _ h hs

theorem takeThrough (k : Steady P) (kind : Claim → Bool) (hs : P s) : P (s.takeThrough kind) := by
  refine ite hs (ite ?_ hs)
  cases h : s.through kind with
  | none => exact hs
  | some t => exact k.through h hs

theorem cellTime (k : Steady P) (h : s.cellTime = .next t) (hs : P s) : P t := by
  rcases cellTime_cases h with ⟨-, rfl⟩ | ⟨-, -, h⟩
  · exact k.of_table hs rfl rfl
  · exact k.of_table (k.catchUp hs) (State.stageNext_keeps h).1 (State.stageNext_keeps h).2.1

theorem passTo (k : Steady P) {kind : Claim → Bool} {n : Nat} (h : s.passTo kind n = .next t)
    (hs : P s) : P t := by
  induction n generalizing s with
  | zero => cases h; exact hs
  | succ n ih =>
    unfold State.passTo at h
    split at h
    · cases h; exact hs
    · split at h
      · exact ih h (k.cellTime ‹_› hs)
      · cases h
      · cases h

theorem takeOfLane (k : Steady P) {kind : Claim → Bool} {toCome : State → Bool}
    (h : s.takeOfLane kind toCome = .next t) (hs : P s) : P t := by
  unfold State.takeOfLane at h
  split at h
  · cases h; exact k.through ‹_› hs
  · dsimp only at h
    split at h
    · split at h
      · rename_i u passed
        cases h
        cases taken : u.through kind with
        | none => exact hs
        | some v => exact k.through taken (k.passTo passed (k.catchUp hs))
      · cases h
      · cases h
    · cases h; exact hs

theorem runOut (k : Steady P) (hs : P s) : P s.runOut := by
  have finish : ∀ {s : State}, P s → P s.finishSlot := fun hs =>
    k.of_table (k.takeTxCompletion hs) rfl rfl
  have slots : ∀ (n : Nat) {s : State}, P s → P (State.runSlots n s) := by
    intro n
    induction n with
    | zero => exact finish
    | succ n ih =>
      intro s hs
      unfold State.runSlots
      dsimp only
      split
      · exact finish hs
      · exact ih (k.startNext _ (finish hs))
  exact slots _ hs

/-! ### The events of the link -/

theorem cutBurst (k : Steady P) (hs : P s) : P s.cutBurst :=
  k.of_table hs s.cutBurst_keeps.1 s.cutBurst_keeps.2.1

theorem endReceive (k : Steady P) (hs : P s) : P s.endReceive :=
  k.of_table hs s.endReceive_keeps.1 s.endReceive_keeps.2.1

theorem settlePeriod (k : Steady P) (hs : P s) : P s.settlePeriod :=
  ite (k.makeClaim _ (k.with_link hs _)) (ite (k.runOut (k.with_link hs _)) (k.with_link hs _))

theorem takeMark (k : Steady P) (m : Period) (hs : P s) : P (s.takeMark m) := by
  have ran : P (if s.link.state = .up then s.runOut else s) := ite (k.runOut hs) hs
  refine k.of_table ?_ (State.reportMark_keeps _ m).1 (State.reportMark_keeps _ m).2.1
  exact k.with_link (ite (k.makeClaim _ ran) ran) _

theorem receiveMark (k : Steady P) (c : MarkCell) (hs : P s) : P (s.receiveMark c) := by
  unfold State.receiveMark
  split
  · have caught := k.with_link (k.catchUp hs) { s.catchUp.link with aligned := true }
    dsimp only
    split
    · exact ite (k.takeMark _ caught) (k.cutBurst caught)
    · have cut := k.cutBurst caught
      exact ite (k.of_table cut (State.acceptEcho_keeps _).1 (State.acceptEcho_keeps _).2.1) cut
  · exact hs

theorem receivePayload (k : Steady P) {data : Payload} {sound : Bool}
    (h : s.receivePayload data sound = .next t) (hs : P s) : P t := by
  rcases receivePayload_cases h with rfl | ⟨f, m, -, -, e⟩
  · exact hs
  · rw [e]
    dsimp only
    split <;> exact k.of_table hs rfl rfl

theorem periodTimerExpiry (k : Steady P) (h : execPeriodTimerExpiry s = .next t) (hs : P s) : P t := by
  unfold execPeriodTimerExpiry at h
  split at h
  · cases h
    exact k.of_table (k.settlePeriod (k.catchUp hs)) (State.emitMark_keeps _).1 (State.emitMark_keeps _).2.1
  · cases h; exact hs

theorem lossTimerExpiry (k : Steady P) (h : execLossTimerExpiry s = .next t) (hs : P s) : P t := by
  unfold execLossTimerExpiry at h
  split at h
  · have caught := k.with_link (k.catchUp hs) { s.catchUp.link with lossTimer := false }
    dsimp only at h
    split at h
    · cases h; exact k.makeClaim _ caught
    · cases h; exact k.with_link caught _
  · cases h; exact hs

theorem trailerArrival (k : Steady P) {n : BitVec 16} (h : execTrailerArrival n s = .next t)
    (hs : P s) : P t := by
  unfold execTrailerArrival at h
  split at h
  · have caught := k.catchUp hs
    dsimp only at h
    split at h
    · cases h; exact caught
    · cases h; exact ite (k.endReceive (k.cutBurst caught)) (k.cutBurst caught)
  · cases h; exact hs

theorem leadCellArrival (k : Steady P) {channel count : Byte}
    (h : execLeadCellArrival channel count s = .next t) (hs : P s) : P t := by
  have cut := k.cutBurst (k.catchUp hs)
  unfold execLeadCellArrival at h
  split at h
  · dsimp only at h
    split at h
    · cases h; exact cut
    split at h
    · cases h; exact cut
    split at h
    · cases h; exact k.makeClaim _ cut
    · cases h; exact cut
  · cases h; exact hs

theorem enteringUp (k : Steady P) (h : execEnteringUp s = .next t) (hs : P s) : P t := by
  unfold execEnteringUp at h
  split at h
  · cases h; exact hs
  split at h
  · cases h; exact k.takeThrough _ hs
  split at h
  · cases h; exact k.catchUp hs
  · cases h; exact hs

/-! ### Requests -/

theorem startRequest (k : Steady P) (p : Port) (r : Request) (hs : P s) : P (startRequest p r s).1 := by
  unfold Machine.startRequest
  split
  · exact hs
  · rename_i h st e
    have left : (s.leaveLists h).stream h = some st := nameOnly_ok e
    have started : P ((s.leaveLists h).setStream h { st with state := .live, missRun := 0 }) :=
      k.setStream left rfl (k.of_table hs rfl rfl)
    split
    · exact started
    · exact started
    · exact hs
    · exact hs

theorem stopRequest (k : Steady P) (p : Port) (r : Request) (hs : P s) : P (stopRequest p r s).1 := by
  unfold Machine.stopRequest
  split
  · exact hs
  · rename_i h st e
    have stopped := k.setStream (y := { st with state := .standby }) (nameOnly_ok e) rfl hs
    split
    · exact stopped
    · exact stopped
    · exact hs
    · exact hs

theorem closeOpen (k : Steady P) {h : Handle} {st : Stream} (m : CloseMode)
    (hst : s.stream h = some st) (hs : P s) : P (s.closeOpen h st m).1 := by
  have withdrawn := k.withdraw h hs
  have closes : ∀ {t : State}, t.stream h = some st.withdrawn → P t →
      P (t.setStream h { st.withdrawn with state := .closing m }) := fun ht => k.setStream ht rfl
  unfold State.closeOpen
  dsimp only
  split
  · show P (State.setStream (if _ then _ else _) h { st.withdrawn with state := .closing m })
    split
    · exact closes (withdrawAmendment_open hst) (k.of_table withdrawn rfl rfl)
    · exact closes (withdrawAmendment_open hst) withdrawn
  · exact k.retire h false withdrawn

theorem closeAgain (k : Steady P) {h : Handle} {st : Stream} (old m : CloseMode)
    (hst : s.stream h = some st) (hs : P s) : P (s.closeAgain h st old m).1 := by
  unfold State.closeAgain
  split
  · split
    · exact k.setStream hst rfl hs
    · exact k.retire h false hs
  · exact hs

theorem closeRequest (k : Steady P) (p : Port) (r : Request) (hs : P s) : P (closeRequest p r s).1 := by
  unfold Machine.closeRequest
  split
  · exact hs
  split
  · exact hs
  rename_i m _ _ h st e
  have hst := (nameCheck_ok e).1.2.2
  split
  · exact k.retire h true (k.of_table hs rfl rfl)
  split
  · exact k.closeAgain _ m hst hs
  all_goals exact k.closeOpen m hst hs

theorem withdrawRequest (k : Steady P) (p : Port) (r : Request) (hs : P s) :
    P (withdrawRequest p r s).1 := by
  unfold Machine.withdrawRequest
  split
  · exact hs
  split
  · exact hs
  · exact k.withdraw _ hs

theorem putRequest (k : Steady P) {p : Port} {r : Request} {x : State × Reply}
    (e : putRequest p r s = .ok x) (hs : P s) : P x.1 := by
  unfold Machine.putRequest at e
  split at e
  · cases e; exact hs
  split at e
  · cases e; exact hs
  iterate 3
    split at e
    · cases e; exact hs
  split at e
  · cases e; exact k.of_table hs rfl rfl
  · cases e

theorem handoverRequest (k : Steady P) (p : Port) (r : Request) (hs : P s) :
    P (handoverRequest p r s).1 := by
  unfold Machine.handoverRequest
  split
  · exact hs
  rename_i n fill _
  split
  · exact hs
  rename_i h st e
  have handed := k.setStream (nameCheck_ok e).1.2.2
    (setBuffer_holding st n ⟨(st.buffer n).extent, .link, fill⟩ rfl) hs
  split
  · exact hs
  all_goals
    iterate 3
      split
      · exact hs
    exact handed

theorem disable (k : Steady P) (hs : P s) : P s.disable := by
  have off : ∀ {u : State}, P u → P u.turnOff := fun hu =>
    k.of_table hu (State.turnOff_keeps _).1 (State.turnOff_keeps _).2.1
  unfold State.disable
  split
  · exact off (k.leaveUp hs)
  · exact off hs
  · exact hs

theorem linkctlRequest (k : Steady P) (p : Port) (action : Byte) {act : State → State}
    (acts : ∀ {s : State}, P s → P (act s)) (r : Request) (hs : P s) :
    P (linkctlRequest p action act r s).1 := by
  unfold Machine.linkctlRequest
  split
  · exact hs
  split
  · exact hs
  split
  · exact hs
  · exact acts (k.of_table hs (State.applyRole_keeps s _).1 (State.applyRole_keeps s _).2.1)

theorem purgeRequest (k : Steady P) (p : Port) (r : Request) (hs : P s) : P (purgeRequest p r s).1 := by
  unfold Machine.purgeRequest
  split
  · exact hs
  split
  · exact hs
  · rename_i n _ _
    have record : ∀ {u : State} (h : Handle), P u → P (u.purgeRecord h) := fun h hu =>
      k.vacate h (k.of_table hu rfl rfl)
    have records : P (s.purgeRecords n (n = p)) := foldl record _ (k.of_table hs rfl rfl)
    have purged : P (s.purge n (n = p)) := by rw [purge_eq]; exact k.of_table records rfl rfl
    exact ite (k.of_table purged rfl rfl) purged

/-- Whatever a row of requests runs keeps the property. -/
theorem handles (k : Steady P) {p : Port} {run : Request → State → Answer} (hr : Handles p run)
    {r : Request} {x : State × Reply} (e : run r s = .ok x) (hs : P s) : P x.1 := by
  cases hr with
  | openStream => exact k.openStream e hs
  | amend => exact k.amend e hs
  | put => exact k.putRequest e hs
  | get =>
    unfold getRequest at e
    split at e
    · cases e; exact hs
    split at e
    · cases e; exact hs
    iterate 3
      split at e
      · cases e; exact hs
    · cases e
  | start => cases e; exact k.startRequest p r hs
  | stop => cases e; exact k.stopRequest p r hs
  | close => cases e; exact k.closeRequest p r hs
  | withdraw => cases e; exact k.withdrawRequest p r hs
  | handover => cases e; exact k.handoverRequest p r hs
  | quota =>
    cases e
    unfold quotaRequest
    split
    · exact hs
    split
    · exact hs
    · exact k.same (s := s) rfl hs
  | linkctlEnable =>
    cases e
    exact k.linkctlRequest p 1
      (fun hu => k.of_table hu (State.enable_keeps _).1 (State.enable_keeps _).2.1) r hs
  | linkctlDisable => cases e; exact k.linkctlRequest p 2 k.disable r hs
  | purge => cases e; exact k.purgeRequest p r hs
  | poll => cases e; unfold pollRequest; split <;> exact k.of_table hs rfl rfl
  | unknownRequest => cases e; exact hs
  | reset => cases e; exact hs
  | findByTag => cases e; unfold findByTagRequest; split <;> exact hs
  | findByChannel =>
    cases e
    unfold findByChannelRequest
    split
    · exact hs
    · split <;> exact hs
  | read => cases e; unfold readRequest; split <;> exact hs
  | loads =>
    cases e
    unfold Machine.loadsRequest
    split
    · exact hs
    · split <;> exact hs
  | extents => cases e; unfold extentsRequest; split <;> exact hs
  | status => cases e; unfold statusRequest; split <;> exact hs

/-! ### Rows and steps -/

/-- A grant's arbiter pointer and its port hold nothing. -/
theorem grant (k : Steady P) {p : Port} {takes : Request → Bool} {run : Request → State → Answer}
    (hr : Handles p run) (h : s.grant p takes run = .next t) (hs : P s) : P t := by
  rcases grant_cases h with rfl | ⟨r, u, a, -, -, -, e, rfl⟩
  · exact hs
  · exact k.of_table (k.handles hr e (k.same (s := s.settle) rfl (k.settle hs))) rfl rfl

theorem badFrameEntry (k : Steady P) {p : Port} (h : execBadFrameEntry p s = .next t) (hs : P s) :
    P t := by
  unfold execBadFrameEntry at h
  split at h
  · cases h; exact hs
  · dsimp only at h
    split at h
    · cases h; exact k.same (s := s.settle) rfl (k.settle hs)
    · cases h; exact hs

theorem repeatEntry (k : Steady P) {p : Port} (h : execRepeatEntry p s = .next t) (hs : P s) :
    P t := by
  unfold execRepeatEntry at h
  split at h
  · cases h; exact hs
  · dsimp only at h
    split at h
    · cases h; exact k.same (s := s.settle) rfl (k.settle hs)
    · cases h; exact hs

/-- A state of the table and free list after reset. -/
theorem of_reset (k : Steady P) (table : t.table = .reset) (free : t.free = freeReset) : P t :=
  k.of_table k.reset table free

/-- A frame judged holds nothing, but for one that starts a reset. -/
theorem judgeFrame (k : Steady P) (p : Port) (mosi : List Byte) (hs : P s) : P (s.judgeFrame p mosi) := by
  unfold State.judgeFrame
  split
  · exact hs
  · exact k.of_table hs rfl rfl
  · exact ite (k.of_table hs rfl rfl) (ite (k.of_table hs rfl rfl)
      (ite (k.of_reset rfl rfl) (k.of_table hs rfl rfl)))

theorem transactionStart (k : Steady P) {x : TransactionStart} (h : execTransactionStart x s = .next t)
    (hs : P s) : P t := by
  unfold execTransactionStart at h
  split at h
  · cases h; exact hs
  · cases h; exact k.of_table hs rfl rfl

theorem transactionEnd (k : Steady P) {p : Port} {mosi : List Byte}
    (h : execTransactionEnd p mosi s = .next t) (hs : P s) : P t := by
  unfold execTransactionEnd at h
  dsimp only at h
  split at h
  · cases h; exact hs
  · split at h
    · cases h; exact k.of_table hs rfl rfl
    · cases h; exact k.judgeFrame p _ (k.of_table hs rfl rfl)

theorem endReset (k : Steady P) (high : Bool) (hs : P s) : P (s.endReset high) :=
  ite hs (k.with_link hs _)

/-- Every row keeps the property. -/
theorem exec (k : Steady P) {i : Instr} (h : exec i s = .next t) (hs : P s) : P t := by
  cases hi : requestRow i with
  | some p =>
    obtain ⟨takes, run, hr, e⟩ := requestRow_grants hi
    exact k.grant hr (e s ▸ h) hs
  | none =>
    cases i <;> simp only [requestRow, reduceCtorEq] at hi <;> simp only [Machine.exec] at h
    case transactionStart => exact k.transactionStart h hs
    case transactionEnd => exact k.transactionEnd h hs
    case badFrameEntry => exact k.badFrameEntry h hs
    case repeatEntry => exact k.repeatEntry h hs
    case reset p =>
      unfold execReset at h
      split at h
      · split at h
        · cases h; exact hs
        · cases h; exact k.of_reset rfl rfl
      · simp [‹¬p = 0›] at hi
    case resetNAssert => cases h; exact k.of_reset rfl rfl
    case resetNRelease high =>
      unfold execResetNRelease at h
      split at h
      · cases h; exact k.endReset high (k.of_table hs rfl rfl)
      · cases h; exact hs
    case resetHoldExpiry high =>
      unfold execResetHoldExpiry at h
      split at h
      · cases h; exact k.endReset high (k.of_table hs rfl rfl)
      · cases h; exact hs
    case periodTimerExpiry => exact k.periodTimerExpiry h hs
    case markArrival => cases h; exact k.receiveMark _ hs
    case echoArrival => cases h; exact k.receiveMark _ hs
    case lossTimerExpiry => exact k.lossTimerExpiry h hs
    case alignmentLapse =>
      unfold execAlignmentLapse at h
      split at h
      · cases h; exact k.with_link hs _
      · cases h; exact hs
    case trailerArrival => exact k.trailerArrival h hs
    case leadCellArrival => exact k.leadCellArrival h hs
    case payloadCellArrival =>
      unfold execPayloadCellArrival at h
      split at h
      · exact k.receivePayload h (k.catchUp hs)
      · cases h; exact hs
    case idleCellArrival =>
      unfold execIdleCellArrival at h
      split at h
      · cases h; exact k.cutBurst (k.catchUp hs)
      · cases h; exact hs
    case badCheckCellArrival =>
      unfold execBadCheckCellArrival at h
      split at h
      · exact k.receivePayload h (k.catchUp hs)
      · cases h; exact hs
    case markProcessing => cases h; exact k.takeThrough _ hs
    case serviceStart =>
      unfold execServiceStart at h
      split at h
      · cases h; exact hs
      · exact k.takeOfLane h hs
    case txCompletion =>
      unfold execTxCompletion at h
      split at h
      · cases h; exact hs
      · exact k.takeOfLane h hs
    case matchClaim => cases h; exact k.takeThrough _ hs
    case rxCompletion => cases h; exact k.takeThrough _ hs
    case periodEnd => cases h; exact k.takeThrough _ hs
    case leavingUp => cases h; exact k.takeThrough _ hs
    case enteringUp => exact k.enteringUp h hs
    case slip => cases h; exact k.takeThrough _ hs

/-- Every step keeps the property. -/
theorem step (k : Steady P) (h : step s = .next t) (hs : P s) : P t := by
  unfold Machine.step at h
  split at h
  · exact k.cellTime h hs
  · exact k.exec h (k.of_table hs rfl rfl)

end Steady

/-! ### The extents -/

/-- The parameters of an amendment that its tests pass are those read (R91). -/
theorem amendTests_params {s : State} {st : Stream} {x : List Byte} {point : EffectivePoint}
    {new : Params} {g : Option ((Extent × Extent) × List Extent)}
    (e : s.amendTests st x point = .ok (new, g)) : new = readParams x (readPolicy x st.direction) := by
  unfold State.amendTests at e
  split at e
  · cases e
  all_goals
    iterate 4
      split at e
      · cases e
    dsimp only at e
    split at e
    · cases e
    cases hg : s.amendPair st (readParams x (readPolicy x st.direction)) with
    | error r => rw [hg] at e; cases e
    | ok g => rw [hg] at e; cases e; rfl

/-- An OPEN keeps the extent law (R51, R69). -/
theorem openRequest_extentLaw {p : Port} {r : Request} {s : State} {x : State × Reply}
    (e : openRequest p r s = .ok x) (law : s.extentLaw) : x.1.extentLaw := by
  unfold openRequest at e
  split at e
  · cases e; exact law
  rename_i a read
  split at e
  · cases e; exact law
  rename_i k tests
  obtain ⟨vacant, -, granted⟩ := openTests_ok tests
  split at e
  · cases e
  rename_i t taken
  obtain ⟨m, rfl⟩ := takePair_ok taken
  cases e
  exact extentLaw_congr rfl (fun _ => rfl)
    (enter_extentLaw law p (readOpen_range read).1 vacant granted)

/-- An AMEND keeps the extent law (R93, R94, R105). -/
theorem amendRequest_extentLaw {p : Port} {r : Request} {s : State} {x : State × Reply}
    (e : amendRequest p r s = .ok x) (law : s.extentLaw) : x.1.extentLaw := by
  unfold amendRequest at e
  split at e
  · cases e; exact law
  rename_i point read
  split at e
  · cases e; exact law
  rename_i h st named
  have hs := (nameCheck_ok named).1.2.2
  split at e
  · cases e; exact law
  rename_i new g tests
  obtain ⟨pending, -, granted⟩ := amendTests_ok tests
  have range : new.inRange = true := by
    rw [amendTests_params tests, readParams_inRange, readAmend_range read]
  split at e
  · cases e
  rename_i t taken
  obtain ⟨m, rfl⟩ := takeAmendPair_eq taken
  cases e
  unfold State.amend
  split
  · exact extentLaw_congr rfl (fun _ => rfl) (hold_extentLaw law point range hs pending granted)
  · exact extentLaw_congr rfl (fun _ => rfl) (amend_extentLaw law range hs pending granted)

/-- The extent law is kept by all that changes what the records hold. -/
theorem extentLaw_steady : Steady State.extentLaw where
  same := extentLaw_of_holdings
  withdraw h law := withdrawAmendment_extentLaw law h
  vacate h law := vacate_extentLaw law h
  reshape hs pending law := reshape_extentLaw law hs pending
  openStream := openRequest_extentLaw
  amend := amendRequest_extentLaw
  reset := reset_extentLaw

/-- Settles O12: the extent law holds after reset, and what changes what the records hold keeps it. -/
theorem stepKeepsExtents : Obligations.StepKeepsExtents := fun _ _ law h => extentLaw_steady.step h law

end Sys2Proof.Machine
end

section
/-! SUPPORT. The statement about PUT, GET and HANDOVER. -/

namespace Sys2Proof.Machine

/-! ### Bodies as they are spelt (11.4) -/

/-- A byte spells a number below 256. -/
theorem byte_toNat {x : Nat} (h : x < 256) : (byte x).toNat = x := by
  rw [byte, BitVec.toNat_ofNat]
  exact Nat.mod_eq_of_lt h

/-- The byte of a buffer names it. -/
@[simp] theorem bufferOf_bufferByte (n : BufferName) : bufferOf (bufferByte n) = some n := by
  cases n <;> decide

/-- Two bytes spell a number below 65536 (11, opening). -/
theorem join16_be16 {x : Nat} (h : x < 65536) : join16 (BitVec.ofNat 8 (x / 256)) (BitVec.ofNat 8 x) = x := by
  simp only [join16, BitVec.toNat_ofNat]
  omega

/-- The buffer, the offset and the length that the body of a PUT or of a GET names (R57, R58). -/
theorem readSpan_spelt (i j : Byte) (n : BufferName) {offset length : Nat} (rest : List Byte)
    (ho : offset ≤ 2047) (pos : 1 ≤ length) (le : length ≤ 2048) :
    readSpan ([i, j, bufferByte n] ++ be16 offset ++ rest) length = some ⟨n, offset, length⟩ := by
  have number : numberAt ([i, j, bufferByte n] ++ be16 offset ++ rest) 3 = offset :=
    join16_be16 (by omega)
  have buffer : bufferOf (byteAt ([i, j, bufferByte n] ++ be16 offset ++ rest) 2) = some n :=
    bufferOf_bufferByte n
  have range : offset < Config.maxTransfer ∧ 1 ≤ length ∧ length ≤ Config.maxTransfer :=
    ⟨Nat.lt_succ_of_le ho, pos, le⟩
  simp only [readSpan, buffer, number, if_pos range]

/-- The span that the body of a PUT names, and its data (R57). -/
theorem readPut_spelt (i j : Byte) (n : BufferName) {offset : Nat} {data : List Byte}
    (ho : offset ≤ 2047) (pos : 1 ≤ data.length) (le : data.length ≤ 2048) :
    readPut ([i, j, bufferByte n] ++ be16 offset ++ data) = some ⟨n, offset, data.length⟩ := by
  have length : ([i, j, bufferByte n] ++ be16 offset ++ data).length - 5 = data.length := by
    simp [be16]
  rw [readPut, length, readSpan_spelt i j n data ho pos le]

/-- The span that the body of a GET names (R58). -/
theorem readGet_spelt (i j : Byte) (n : BufferName) {offset length : Nat}
    (ho : offset ≤ 2047) (pos : 1 ≤ length) (le : length ≤ 2048) :
    readGet ([i, j, bufferByte n] ++ be16 offset ++ be16 length) = some ⟨n, offset, length⟩ := by
  have number : numberAt ([i, j, bufferByte n] ++ be16 offset ++ be16 length) 5 = length :=
    join16_be16 (by omega)
  have seven : ([i, j, bufferByte n] ++ be16 offset ++ be16 length).length = 7 := rfl
  rw [readGet, if_pos seven, number, readSpan_spelt i j n (be16 length) ho pos le]

/-- The buffer and the fill that the body of a HANDOVER names (R59). -/
theorem readHandover_spelt (i j : Byte) (n : BufferName) {fill : Nat} (le : fill ≤ 128) :
    readHandover [i, j, bufferByte n, byte fill] = some (n, fill) := by
  have buffer : bufferOf (byteAt [i, j, bufferByte n, byte fill] 2) = some n := bufferOf_bufferByte n
  have number : (byteAt [i, j, bufferByte n, byte fill] 3).toNat = fill := byte_toNat (by omega)
  have range : [i, j, bufferByte n, byte fill].length = 4 ∧ fill ≤ Config.maxCells := ⟨rfl, le⟩
  simp only [readHandover, buffer, number, if_pos range]

/-! ### What the requests do with a record named -/

section Named

variable {s : State} {p : Port} {r : Request} {h : Handle} {st : Stream}

/-- The name check of a record of the caller, in the state that a grant's handler meets. -/
theorem nameCheck_advance (named : s.Names r.body h st) (own : st.owner = p) :
    (s.advance p).nameCheck p false r.body = .ok (h, st) :=
  nameCheck_names (s := s.advance p) named (.inr own)

/-- PUT of a span of a record named: its checks in order, then the bytes written (R57). -/
theorem putRequest_named {w : Span} (read : readPut r.body = some w)
    (named : s.nameCheck p false r.body = .ok (h, st)) :
    putRequest p r s =
      if st.direction = .rx then .ok (refuse s .direction)
      else if (st.buffer w.buffer).owner ≠ .host then .ok (refuse s .owner)
      else if st.spanValid w = false then .ok (refuse s .range)
      else if Memory.holds (st.spanAddress w) w.length then
        .ok ({ s with memory := Memory.writeBytes s.memory (st.spanAddress w) (r.body.drop 5) },
          .plain .done)
      else .error .streamMemoryAddress := by
  simp only [putRequest, read, named]

/-- GET of a span of a record named: its checks in order, then the bytes read (R58). -/
theorem getRequest_named {w : Span} (read : readGet r.body = some w)
    (named : s.nameCheck p false r.body = .ok (h, st)) :
    getRequest p r s =
      if (st.buffer w.buffer).owner ≠ .host then .ok (refuse s .owner)
      else if st.spanValid w = false then .ok (refuse s .range)
      else if Memory.holds (st.spanAddress w) w.length then
        .ok (s, ⟨.ok, byte (st.buffer w.buffer).fill ::
          Memory.readBytes s.memory (st.spanAddress w) w.length⟩)
      else .error .streamMemoryAddress := by
  simp only [getRequest, read, named]

/-- HANDOVER of a buffer of a record named: its checks in order, then the buffer given (R59). -/
theorem handoverRequest_named {n : BufferName} {fill : Nat} (read : readHandover r.body = some (n, fill))
    (named : s.nameCheck p false r.body = .ok (h, st)) :
    handoverRequest p r s =
      if st.isClosing = true then refuse s .state
      else if st.direction = .rx ∧ fill ≠ 0 then refuse s .direction
      else if (st.buffer n).owner ≠ .host then refuse s .owner
      else if st.direction = .tx ∧ (fill = 0 ∨ st.params.cells < fill) then refuse s .range
      else (s.setStream h (st.setBuffer n ⟨(st.buffer n).extent, .link, fill⟩),
        ⟨.done, [bufferByte n, byte fill]⟩) := by
  simp only [handoverRequest, read, named]
  cases state : st.state <;> simp [Stream.isClosing, state]

/-- A span goes beyond the valid bytes (R57, R58). -/
theorem spanValid_false {w : Span} : st.spanValid w = false ↔ 16 * st.params.cells < w.offset + w.length := by
  simp only [Stream.spanValid, decide_eq_false_iff_not, Nat.not_le]
  rfl

/-- A run of bytes lies in Stream Memory (R46). -/
theorem holds_iff {a n : Nat} : Memory.holds a n = true ↔ a + n ≤ 32768 := decide_eq_true_iff

/-! ### The rows -/

variable {rest : List Entry} {n : BufferName} {offset : Nat} {i j : Byte}

/-- PUT granted, for a record of the caller: its refusals in order, and the bytes written (R57). -/
theorem put_exec (hg : s.Grants p r rest) (named : s.settle.Names r.body h st) (own : st.owner = p)
    (ho : offset ≤ 2047) {data : List Byte} (code : r.code = 0x09) (pos : 1 ≤ data.length)
    (le : data.length ≤ 2048) (body : r.body = [i, j, bufferByte n] ++ be16 offset ++ data) :
    (st.direction = .rx → exec (.put p) s = .next (s.settle.responded p r rest .direction [])) ∧
    (st.direction = .tx → (st.buffer n).owner ≠ .host →
      exec (.put p) s = .next (s.settle.responded p r rest .owner [])) ∧
    (st.direction = .tx → (st.buffer n).owner = .host → 16 * st.params.cells < offset + data.length →
      exec (.put p) s = .next (s.settle.responded p r rest .range [])) ∧
    (st.direction = .tx → (st.buffer n).owner = .host → offset + data.length ≤ 16 * st.params.cells →
      64 * (st.buffer n).extent.base + offset + data.length ≤ 32768 →
      exec (.put p) s = .next (State.responded { s.settle with
        memory := Memory.writeBytes s.settle.memory (64 * (st.buffer n).extent.base + offset) data }
          p r rest .done [])) := by
  have read : readPut r.body = some ⟨n, offset, data.length⟩ := body ▸ readPut_spelt i j n ho pos le
  have answer := putRequest_named read (nameCheck_advance named own)
  have taken : ofCode 0x09 r = true := by simp [ofCode, code]
  have bytes : r.body.drop 5 = data := by rw [body]; rfl
  refine ⟨fun rx => ?_, fun tx link => ?_, fun tx host beyond => ?_, fun tx host within inside => ?_⟩
  · exact grants_refused hg taken (answer.trans (if_pos rx))
  all_goals rw [if_neg (by rw [tx]; decide)] at answer
  · exact grants_refused hg taken (answer.trans (if_pos link))
  all_goals rw [if_neg (not_not.mpr host)] at answer
  · exact grants_refused hg taken (answer.trans (if_pos (spanValid_false.mpr beyond)))
  · have holds : Memory.holds (st.spanAddress ⟨n, offset, data.length⟩) data.length = true :=
      holds_iff.mpr inside
    rw [if_neg (mt spanValid_false.mp (Nat.not_lt.mpr within)), if_pos holds, bytes] at answer
    exact grants_next hg taken answer rfl rfl

/-- GET granted, for a record of the caller: its refusals in order, and the bytes read (R58). -/
theorem get_exec (hg : s.Grants p r rest) (named : s.settle.Names r.body h st) (own : st.owner = p)
    (ho : offset ≤ 2047) {length : Nat} (code : r.code = 0x0A) (pos : 1 ≤ length) (le : length ≤ 2048)
    (body : r.body = [i, j, bufferByte n] ++ be16 offset ++ be16 length) :
    ((st.buffer n).owner ≠ .host →
      exec (.get p) s = .next (s.settle.responded p r rest .owner [])) ∧
    ((st.buffer n).owner = .host → 16 * st.params.cells < offset + length →
      exec (.get p) s = .next (s.settle.responded p r rest .range [])) ∧
    ((st.buffer n).owner = .host → offset + length ≤ 16 * st.params.cells →
      64 * (st.buffer n).extent.base + offset + length ≤ 32768 →
      exec (.get p) s = .next (s.settle.responded p r rest .ok (byte (st.buffer n).fill ::
        (List.range length).map fun k =>
          Memory.read s.settle.memory (64 * (st.buffer n).extent.base + offset + k)))) := by
  have read : readGet r.body = some ⟨n, offset, length⟩ := body ▸ readGet_spelt i j n ho pos le
  have answer := getRequest_named read (nameCheck_advance named own)
  have taken : ofCode 0x0A r = true := by simp [ofCode, code]
  refine ⟨fun link => ?_, fun host beyond => ?_, fun host within inside => ?_⟩
  · exact grants_refused hg taken (answer.trans (if_pos link))
  all_goals rw [if_neg (not_not.mpr host)] at answer
  · exact grants_refused hg taken (answer.trans (if_pos (spanValid_false.mpr beyond)))
  · have holds : Memory.holds (st.spanAddress ⟨n, offset, length⟩) length = true := holds_iff.mpr inside
    rw [if_neg (mt spanValid_false.mp (Nat.not_lt.mpr within)), if_pos holds] at answer
    exact grants_refused hg taken answer

/-- HANDOVER granted, for a record of the caller: its refusals in order, and the buffer given (R59). -/
theorem handover_exec (hg : s.Grants p r rest) (named : s.settle.Names r.body h st) (own : st.owner = p)
    {fill : Nat} (code : r.code = 0x0B) (le : fill ≤ 128)
    (body : r.body = [i, j, bufferByte n, byte fill]) :
    (st.isClosing = true → exec (.handover p) s = .next (s.settle.responded p r rest .state [])) ∧
    (st.isClosing = false → st.direction = .rx → fill ≠ 0 →
      exec (.handover p) s = .next (s.settle.responded p r rest .direction [])) ∧
    (st.isClosing = false → (st.direction = .rx → fill = 0) → (st.buffer n).owner ≠ .host →
      exec (.handover p) s = .next (s.settle.responded p r rest .owner [])) ∧
    (st.isClosing = false → (st.direction = .rx → fill = 0) → (st.buffer n).owner = .host →
      (st.direction = .tx ∧ (fill = 0 ∨ st.params.cells < fill)) →
      exec (.handover p) s = .next (s.settle.responded p r rest .range [])) ∧
    (st.isClosing = false → (st.direction = .rx → fill = 0) → (st.buffer n).owner = .host →
      ¬(st.direction = .tx ∧ (fill = 0 ∨ st.params.cells < fill)) →
      exec (.handover p) s = .next (State.responded
        (s.settle.setStream h (st.setBuffer n ⟨(st.buffer n).extent, .link, fill⟩)) p r rest .done
        [bufferByte n, byte fill])) := by
  have read : readHandover r.body = some (n, fill) := body ▸ readHandover_spelt i j n le
  have answer := handoverRequest_named read (nameCheck_advance named own)
  have taken : ofCode 0x0B r = true := by simp [ofCode, code]
  have refused : ∀ {x : Status}, handoverRequest p r (s.settle.advance p) = refuse (s.settle.advance p) x →
      exec (.handover p) s = .next (s.settle.responded p r rest x []) := fun e =>
    grants_refused (run := fun r t => .ok (handoverRequest p r t)) hg taken (congrArg Except.ok e)
  have fits : (st.direction = .rx → fill = 0) → ¬(st.direction = .rx ∧ fill ≠ 0) := fun zero c =>
    c.2 (zero c.1)
  refine ⟨fun closing => ?_, fun closing rx given => ?_, fun closing zero link => ?_,
    fun closing zero host beyond => ?_, fun closing zero host within => ?_⟩
  · exact refused (answer.trans (if_pos closing))
  all_goals rw [if_neg (by rw [closing]; decide)] at answer
  · exact refused (answer.trans (if_pos ⟨rx, given⟩))
  all_goals rw [if_neg (fits zero)] at answer
  · exact refused (answer.trans (if_pos link))
  all_goals rw [if_neg (not_not.mpr host)] at answer
  · exact refused (answer.trans (if_pos beyond))
  · rw [if_neg within] at answer
    exact grants_next (run := fun r t => .ok (handoverRequest p r t)) hg taken
      (congrArg Except.ok answer) rfl rfl

end Named

/-- Settles O41: each row granted, its checks one after another. -/
theorem bufferRequests : Obligations.BufferRequests := by
  refine ⟨fun s p r rest h st n offset hg named own ho => ?_,
    fun s p r rest h st n fill i j hg code named own le body => ?_⟩
  · exact ⟨fun i j data code pos le body => put_exec hg named own ho code pos le body,
      fun i j length code pos le body => get_exec hg named own ho code pos le body⟩
  · intro u x fits
    obtain ⟨closing, direction, owner, range, done⟩ := handover_exec hg named own code le body
    have unfit : ¬fits ↔ st.direction = .tx ∧ (fill = 0 ∨ st.params.cells < fill) := by
      simp only [fits]
      cases st.direction with
      | tx => simp only [true_and]; omega
      | rx => simp
    refine ⟨closing, direction, owner, fun c z host out => range c z host (unfit.mp out),
      fun c z host within => ?_⟩
    rw [done c z host (mt unfit.mpr (not_not.mpr within))]
    cases n <;> rfl

end Sys2Proof.Machine
end

section
/-! SUPPORT. The statements about OPEN: its body as it is spelt, its tests in their order, and the record
opened. -/

namespace Sys2Proof.Machine

/-! ### The body as it is spelt (R67, 11.4) -/

/-- The byte of a miss policy names it. -/
@[simp] theorem missPolicyOf_missPolicyByte (m : MissPolicy) : missPolicyOf (missPolicyByte m) = some m := by
  cases m <;> rfl

/-- The byte of a link policy names it. -/
@[simp] theorem linkPolicyOf_linkPolicyByte (l : LinkPolicy) : linkPolicyOf (linkPolicyByte l) = some l := by
  cases l <;> rfl

/-- The byte of a notify set names it. -/
@[simp] theorem notifySetOf_notifySetByte (n : NotifySet) : notifySetOf (notifySetByte n) = some n := by
  obtain ⟨done, miss, warn⟩ := n
  revert done miss warn
  decide

/-- A tag stands in a body where the four bytes that spell it do. -/
theorem tagAt_spelt {x : List Byte} {i : Nat} {tag : BitVec 32} (h : x.drop i = be32 tag) :
    tagAt x i = tag := by
  have place : ∀ k, byteAt x (i + k) = byteAt (be32 tag) k := fun k => by
    rw [← h]; simp [byteAt, List.getD_eq_getElem?_getD]
  calc tagAt x i = tagAt (be32 tag) 0 := by simp only [tagAt, ← place, Nat.add_zero, Nat.zero_add]
    _ = tag := tagAt_be32 0 0 0 tag

/-- The parameter set that a body spells is the one read from it (R67, R90). -/
theorem readParams_spelt {v : Params} {d : Direction} {x : List Byte} (h : v.speltIn d x) :
    readParams x (readPolicy x d) = v ∧ (d = .tx → (readPolicy x d).isSome = true) := by
  obtain ⟨cells, interval, phase, serviceClass, limit, lead, -, policy⟩ := h
  have read : readPolicy x d = v.missPolicy ∧ (d = .tx → (readPolicy x d).isSome = true) := by
    cases d with
    | tx =>
      obtain ⟨m, present, spelt⟩ := policy
      have named : readPolicy x .tx = some m := by rw [readPolicy, spelt, missPolicyOf_missPolicyByte]
      exact ⟨named.trans present.symm, fun _ => by rw [named]; rfl⟩
    | rx => exact ⟨Eq.symm policy, fun e => nomatch e⟩
  refine ⟨?_, read.2⟩
  rw [readParams, cells, interval, phase, serviceClass, limit, lead, read.1]

/-- The arguments that a body spells are the ones read from it (R67). -/
theorem readOpen_spelt {a : OpenArgs} {x : List Byte} (h : a.speltIn x) : readOpen x = some a := by
  obtain ⟨length, direction, channel, params, link, notify, tag⟩ := h
  obtain ⟨read, policy⟩ := readParams_spelt params
  have range : (readParams x none).inRange = true := by
    rw [← readParams_inRange x (readPolicy x a.direction), read]
    exact params.2.2.2.2.2.2.1
  simp only [readOpen, direction, link, notify, directionOf_directionByte, linkPolicyOf_linkPolicyByte,
    notifySetOf_notifySetByte]
  rw [if_pos ⟨length, range, policy⟩, read, channel, tagAt_spelt tag]

/-! ### What the tests of an OPEN look at (R68) -/

/-- With every record open there is no VACANT handle. -/
theorem firstVacant_none {s : State} (full : ∀ h, s.stream h ≠ none) : s.firstVacant = none :=
  List.find?_eq_none.mpr fun h _ => by simpa using full h

/-- The lowest VACANT handle is the one found. -/
theorem firstVacant_lowest {s : State} {h : Handle} (vacant : s.stream h = none)
    (below : ∀ k, k < h → s.stream k ≠ none) : s.firstVacant = some h := by
  unfold State.firstVacant handles
  refine List.find?_eq_some_iff_getElem.mpr ⟨by simp [vacant], h.val, by simp, by simp, ?_⟩
  intro j lt
  simpa [Option.isSome_iff_ne_none] using below ⟨j, lt.trans h.isLt⟩ lt

/-- With a record VACANT a handle is found. -/
theorem firstVacant_some {s : State} (vacant : ∃ h, s.stream h = none) : ∃ h, s.firstVacant = some h := by
  obtain ⟨h, vacant⟩ := vacant
  refine Option.isSome_iff_exists.mp (List.find?_isSome.mpr ⟨h, List.mem_finRange h, ?_⟩)
  rw [vacant]
  rfl

/-- A tag of 0 clashes with none, and another only with an entry of its port and its own (R8). -/
theorem tagHolder_none_of_find {s : State} {p : Port} {tag : BitVec 32}
    (free : tag = 0 ∨ s.findTag p tag = none) : s.tagHolder p tag = none := by
  unfold State.tagHolder
  split_ifs with zero
  · rfl
  · exact free.resolve_left zero

/-- The tag map gives nothing where no entry has the port and the tag. -/
theorem findTag_none_of_entries {s : State} {p : Port} {tag : BitVec 32}
    (free : ∀ e ∈ s.table.tagMap, ¬(e.port = p ∧ e.tag = tag)) : s.findTag p tag = none := by
  rw [State.findTag, Option.map_eq_none_iff, List.find?_eq_none]
  simpa using free

/-- The channel map gives nothing where no entry has the direction and the channel. -/
theorem findChannel_none_of_entries {s : State} {d : Direction} {c : Byte}
    (free : ∀ e ∈ s.table.channelMap, ¬(e.direction = d ∧ e.channel = c)) : s.findChannel d c = none := by
  rw [State.findChannel, Option.map_eq_none_iff, List.find?_eq_none]
  simpa using free

/-! ### The tests in their order (R68) -/

section Tests

variable {s : State} {p : Port} {a : OpenArgs} {h k : Handle} {x : Reply}

theorem openTests_noHandle (full : ∀ h, s.stream h ≠ none) :
    s.openTests p a = .error (.plain .noHandle) := by
  simp only [State.openTests, firstVacant_none full]

theorem openTests_tagTaken (vacant : s.firstVacant = some h) (tag : a.tag ≠ 0)
    (held : s.findTag p a.tag = some k) :
    s.openTests p a = .error ⟨.tagTaken, s.nameBytes k⟩ := by
  simp only [State.openTests, vacant, State.tagHolder, if_neg tag, held]

theorem openTests_channelTaken (vacant : s.firstVacant = some h) (tag : s.tagHolder p a.tag = none)
    (held : s.findChannel a.direction a.channel ≠ none) :
    s.openTests p a = .error (.plain .channelTaken) := by
  simp only [State.openTests, vacant, tag, if_pos (Option.isSome_iff_ne_none.mpr held)]

theorem openTests_notAdmitted (vacant : s.firstVacant = some h) (tag : s.tagHolder p a.tag = none)
    (channel : s.findChannel a.direction a.channel = none)
    (refused : s.admission p a.direction noCells (contribution a.params) = some x) :
    s.openTests p a = .error x := by
  simp only [State.openTests, vacant, tag, channel, refused, Option.isSome_none, Bool.false_eq_true, if_false]

theorem openTests_admitted (vacant : s.firstVacant = some h) (tag : s.tagHolder p a.tag = none)
    (channel : s.findChannel a.direction a.channel = none)
    (admitted : s.admission p a.direction noCells (contribution a.params) = none) :
    s.openTests p a = (s.pair (granulesFor a.params.cells)).map fun g => (h, g) := by
  simp only [State.openTests, vacant, tag, channel, admitted, Option.isSome_none, Bool.false_eq_true, if_false]

end Tests

/-! ### The record opened (R69) -/

/-- A load table with a record's charge added where it had none. -/
theorem shiftLoads_noCells (table new : Residues) :
    shiftLoads table noCells new = tabulate fun r => table.get r + new.get r := by
  simp only [shiftLoads, noCells_get, Nat.sub_zero]

/-- An extent of the granules of Stream Memory lies in it (R46). -/
theorem inMemory_of_granules {x : Extent} (le : x.base + x.length ≤ 512) : x.inMemory = true :=
  holds_iff.mpr (show 64 * x.base + 64 * x.length ≤ 32768 by omega)

/-- A pair in Stream Memory is taken from the free list and zeroed (R47, R51). -/
theorem takePair_inMemory (s : State) {x y : Extent} (free : List Extent)
    (hx : x.base + x.length ≤ 512) (hy : y.base + y.length ≤ 512) :
    s.takePair ((x, y), free) = .ok { s with
      free := free
      memory := Memory.zero (Memory.zero s.memory x.address x.bytes) y.address y.bytes } := by
  simp only [State.takePair, zeroPair, inMemory_of_granules hx, inMemory_of_granules hy, Bool.and_self, if_true]

/-- The state with a record opened: its record, its charge and its map entries (R69). -/
theorem enter_eq (s : State) (p : Port) (a : OpenArgs) (h : Handle) (pair : Extent × Extent) :
    s.enter p a h pair = { s with table := { s.table with
      records := s.table.records.set h.val ⟨(s.record h).generation, some (a.stream p pair)⟩ h.isLt
      loads := s.table.loads.set a.direction (tabulate fun r =>
        (s.table.loads.get a.direction).get r + (contribution a.params).get r)
      charges := s.table.charges.set a.direction ((s.table.charges.get a.direction).set p.val
        (s.charge p a.direction + units (contribution a.params)) p.isLt)
      tagMap := if a.tag = 0 then s.table.tagMap else s.table.tagMap ++ [⟨p, a.tag, h⟩]
      channelMap := s.table.channelMap ++ [⟨a.direction, a.channel, h⟩] } } := by
  rw [← shiftLoads_noCells]
  rfl

/-- The tests of an OPEN do not look at the arbiter pointer. -/
theorem openTests_advance (s : State) (p q : Port) (a : OpenArgs) :
    (s.advance q).openTests p a = s.openTests p a := by
  have vacant : (s.advance q).firstVacant = s.firstVacant := by
    simp only [State.firstVacant, State.advance_stream]
  have pair : (s.advance q).pair = s.pair := rfl
  have admission : (s.advance q).admission = s.admission := rfl
  have tag : (s.advance q).tagHolder = s.tagHolder := rfl
  have channel : (s.advance q).findChannel = s.findChannel := rfl
  have name : (s.advance q).nameBytes = s.nameBytes := rfl
  simp only [State.openTests, vacant, pair, admission, tag, channel, name]

/-- An OPEN granted that its tests refuse (R68). -/
theorem open_refused {s : State} {p : Port} {r : Request} {rest : List Entry} {a : OpenArgs} {x : Reply}
    (hg : s.Grants p r rest) (code : r.code = 0x01) (spelt : a.speltIn r.body)
    (refused : s.settle.openTests p a = .error x) :
    exec (.openStream p) s = .next (s.settle.responded p r rest x.status x.body) := by
  have tests : (s.settle.advance p).openTests p a = .error x := (openTests_advance ..).trans refused
  refine grants_refused (run := openRequest p) (takes := ofCode 0x01) hg (by simp [ofCode, code]) ?_
  simp only [openRequest, readOpen_spelt spelt, tests]

/-- A record opened beside the arbiter pointer moved on. -/
theorem enter_advance (s : State) (p q : Port) (a : OpenArgs) (h : Handle) (pair : Extent × Extent)
    (free : List Extent) (memory : List Host.Cell) :
    State.enter { s.advance q with free := free, memory := memory } p a h pair =
      let t := State.enter { s with free := free, memory := memory } p a h pair
      { t with table := { t.table with arbiter := q + 1 } } := rfl

/-- An OPEN granted that passes its tests, with a pair in Stream Memory (R69). -/
theorem open_admitted {s : State} {p : Port} {r : Request} {rest : List Entry} {a : OpenArgs} {h : Handle}
    {x y : Extent} {free : List Extent} (hg : s.Grants p r rest) (code : r.code = 0x01)
    (spelt : a.speltIn r.body) (passed : s.settle.openTests p a = .ok (h, (x, y), free))
    (hx : x.base + x.length ≤ 512) (hy : y.base + y.length ≤ 512) :
    exec (.openStream p) s = .next (State.responded
      (State.enter { s.settle with
        free := free
        memory := Memory.zero (Memory.zero s.settle.memory x.address x.bytes) y.address y.bytes }
        p a h (x, y))
      p r rest .done (s.settle.nameBytes h)) := by
  have tests : (s.settle.advance p).openTests p a = .ok (h, (x, y), free) := (openTests_advance ..).trans passed
  refine grants_next (run := openRequest p) (takes := ofCode 0x01) hg (by simp [ofCode, code]) ?_
    (enter_advance ..) rfl
  simp only [openRequest, readOpen_spelt spelt, tests, takePair_inMemory _ free hx hy]
  rfl

/-- Settles O30: the tests pass one after another, and the record is entered with the pair zeroed. -/
theorem openAdmitted : Obligations.OpenAdmitted := by
  intro s p r rest a h x y free hg code spelt u vacant below tag channel admitted granted hx hy st d
  have untagged : u.tagHolder p a.tag = none := tagHolder_none_of_find (tag.imp_right findTag_none_of_entries)
  have pair : u.pair (granulesFor a.params.cells) = .ok ((x, y), free) := by
    have alloc : allocatePair (granulesFor a.params.cells) u.free = some ((x, y), free) := granted
    rw [State.pair, alloc]
  have passed : u.openTests p a = .ok (h, (x, y), free) := by
    rw [openTests_admitted (firstVacant_lowest vacant below) untagged
      (findChannel_none_of_entries channel) admitted, pair]
    rfl
  rw [open_admitted hg code spelt passed hx hy, enter_eq]
  rfl

/-- Settles O31: each test fails where the ones before it pass. -/
theorem openRefusals : Obligations.OpenRefusals := by
  intro s p r rest a hg code spelt u
  refine ⟨fun full => open_refused hg code spelt (openTests_noHandle full), fun vacant => ?_⟩
  obtain ⟨h, lowest⟩ := firstVacant_some vacant
  refine ⟨fun k tag held => open_refused hg code spelt (openTests_tagTaken lowest tag held),
    fun tag => ?_⟩
  have untagged := tagHolder_none_of_find tag
  refine ⟨fun held => open_refused hg code spelt (openTests_channelTaken lowest untagged held),
    fun channel => ⟨fun x refused =>
      open_refused hg code spelt (openTests_notAdmitted lowest untagged channel refused),
    fun admitted short => ?_⟩⟩
  have none : u.pair (granulesFor a.params.cells) = .error (u.noSpace (granulesFor a.params.cells)) := by
    have alloc : allocatePair (granulesFor a.params.cells) u.free = none := short
    rw [State.pair, alloc]
  have refused : u.openTests p a = .error (u.noSpace (granulesFor a.params.cells)) := by
    rw [openTests_admitted lowest untagged channel admitted, none]
    rfl
  exact open_refused hg code spelt refused

end Sys2Proof.Machine
end

section
/-! SUPPORT. The statement about mark processing: the amendments and the warnings of a walk over the
records, each of which touches one record and its notice, and the lists that the mark builds. -/

namespace Sys2Proof.Machine

/-! ### Walks over the handles -/

/-- A walk that meets each handle once does to its record what its step does. -/
theorem foldl_record {f : State → Handle → State} {g : Record → Record}
    (step : ∀ s h k, (f s h).record k = if k = h then g (s.record h) else s.record k)
    {l : List Handle} (once : l.Nodup) (s : State) (k : Handle) :
    (l.foldl f s).record k = if k ∈ l then g (s.record k) else s.record k := by
  induction l generalizing s with
  | nil => rfl
  | cons h l ih =>
    obtain ⟨out, once⟩ := List.nodup_cons.mp once
    rw [List.foldl_cons, ih once, step]
    by_cases e : k = h
    · subst e; simp [out]
    · simp [e]

/-- A walk that meets each handle once offers a port's queue the notices that the state before it gives,
where a step leaves those of the other handles. -/
theorem foldl_noticesOf {f : State → Handle → State} {g : State → NoticeQueue → Handle → NoticeQueue}
    {p : Port} (step : ∀ s h, (f s h).noticesOf p = g s (s.noticesOf p) h)
    (apart : ∀ s h k q, k ≠ h → g (f s h) q k = g s q k) {l : List Handle} (once : l.Nodup) (s : State) :
    (l.foldl f s).noticesOf p = l.foldl (g s) (s.noticesOf p) := by
  induction l generalizing s with
  | nil => rfl
  | cons h l ih =>
    obtain ⟨out, once⟩ := List.nodup_cons.mp once
    rw [List.foldl_cons, List.foldl_cons, ih once, step]
    exact List.foldl_ext _ _ _ fun q k mem => apart s h k q fun e => out (e ▸ mem)

/-! ### The amendments that take effect (R96 to R103) -/

/-- The stream after the mark of a number: in its new form where the mark reaches its amendment. -/
def Stream.atMark (n : Period) (st : Stream) : Stream :=
  match st.pending with
  | some a => if a.point.reached n then st.reshape a.params a.pair else st
  | none => st

/-- The record after the mark of a number. -/
def Record.atMark (n : Period) (r : Record) : Record := { r with stream := r.stream.map (Stream.atMark n) }

/-- The mark reaches no amendment of the stream. -/
theorem atMark_of_not_reached {n : Period} {st : Stream}
    (none : ∀ a, st.pending = some a → a.point.reached n = false) : st.atMark n = st := by
  unfold Stream.atMark
  split
  · rename_i a pending
    rw [none a pending]
    rfl
  · rfl

/-- The mark reaches the amendment of the stream. -/
theorem atMark_of_reached {n : Period} {st : Stream} {a : Amendment} (pending : st.pending = some a)
    (reached : a.point.reached n = true) : st.atMark n = st.reshape a.params a.pair := by
  simp only [Stream.atMark, pending, reached, if_true]

/-- What an amendment that takes effect writes, whether the pair is replaced or kept (R100). -/
theorem reshape_fields (st : Stream) (v : Params) (pair : Option (Extent × Extent)) :
    (st.reshape v pair).params = v ∧ (st.reshape v pair).missRun = 0 ∧
      (st.reshape v pair).lastSlot = none ∧ (st.reshape v pair).pending = none ∧
      (st.reshape v pair).state = st.state := by
  cases pair <;> exact ⟨rfl, rfl, rfl, rfl, rfl⟩

/-- All that the take-effect of a handle can do: its record reshaped and AMENDED queued, or nothing where
the mark reaches no amendment of it. -/
theorem takeEffect_cases (n : Period) (s : State) (h : Handle) :
    (∃ st a, s.stream h = some st ∧ st.pending = some a ∧ a.point.reached n = true ∧
      s.takeEffect n h = (s.reshape h st a.params a.pair).notify st.owner
        (.amended h (s.record h).generation n (st.dropped a.pair) (st.clipped a.params a.pair))) ∨
    ((∀ st a, s.stream h = some st → st.pending = some a → a.point.reached n = false) ∧
      s.takeEffect n h = s) := by
  unfold State.takeEffect
  split
  · rename_i st hs
    split
    · rename_i a pending
      split
      · rename_i reached
        exact .inl ⟨st, a, hs, pending, reached, rfl⟩
      · rename_i early
        refine .inr ⟨fun x b hx hb => ?_, rfl⟩
        obtain rfl : st = x := Option.some.inj (hs.symm.trans hx)
        obtain rfl : a = b := Option.some.inj (pending.symm.trans hb)
        exact Bool.eq_false_iff.mpr early
    · rename_i pending
      refine .inr ⟨fun x b hx hb => ?_, rfl⟩
      obtain rfl : st = x := Option.some.inj (hs.symm.trans hx)
      exact nomatch pending.symm.trans hb
  · rename_i vacant
    exact .inr ⟨fun x b hx => (nomatch vacant.symm.trans hx), rfl⟩

/-- The take-effect of a handle writes its record alone. -/
theorem takeEffect_record (n : Period) (s : State) (h k : Handle) :
    (s.takeEffect n h).record k = if k = h then (s.record h).atMark n else s.record k := by
  rcases takeEffect_cases n s h with ⟨st, a, hs, pending, reached, e⟩ | ⟨none, e⟩
  · have after : (s.record h).atMark n = ⟨(s.record h).generation, some (st.reshape a.params a.pair)⟩ := by
      rw [← atMark_of_reached pending reached, record_of_stream hs]
      rfl
    rw [e, State.notify_record, reshape_record, after]
  · have after : (s.record h).atMark n = s.record h := by
      unfold Record.atMark
      cases hs : (s.record h).stream with
      | none => rw [Option.map_none, ← hs]
      | some st => rw [Option.map_some, atMark_of_not_reached (none st · hs), ← hs]
    rw [e, after]
    split
    · rename_i same; rw [same]
    · rfl

/-- AMENDED offered to a port's queue for a handle whose record, of that port, has an amendment that the
mark reaches. -/
def State.amendedNotice (s : State) (n : Period) (p : Port) (q : NoticeQueue) (h : Handle) : NoticeQueue :=
  match s.stream h, (s.stream h).bind Stream.pending with
  | some st, some a =>
    if st.owner = p ∧ a.point.reached n = true then
      q.enqueue (.amended h (s.record h).generation n (st.dropped a.pair) (st.clipped a.params a.pair))
        s.link.period
    else q
  | _, _ => q

/-- The take-effect of a handle offers its AMENDED. -/
theorem takeEffect_noticesOf (n : Period) (p : Port) (s : State) (h : Handle) :
    (s.takeEffect n h).noticesOf p = s.amendedNotice n p (s.noticesOf p) h := by
  rcases takeEffect_cases n s h with ⟨st, a, hs, pending, reached, e⟩ | ⟨none, e⟩
  · have kept : ∀ k, (s.reshape h st a.params a.pair).noticesOf k = s.noticesOf k := fun k => by
      simp [State.noticesOf]
    have link : (s.reshape h st a.params a.pair).link = s.link := by simp
    rw [e, State.notify_noticesOf, kept, kept, link]
    simp only [State.amendedNotice, hs, Option.bind_some, pending, reached, and_true]
    by_cases own : st.owner = p
    · rw [own, if_pos rfl]
    · rw [if_neg (Ne.symm own), if_neg own]
  · rw [e]
    unfold State.amendedNotice
    split
    · rename_i st a hs pending
      rw [hs, Option.bind_some] at pending
      rw [if_neg fun due => by simp [none st a hs pending] at due]
    · rfl

/-- AMENDED of a handle rests on its record and the period number alone. -/
theorem amendedNotice_congr {s t : State} {h : Handle} (record : t.record h = s.record h)
    (link : t.link = s.link) (n : Period) (p : Port) (q : NoticeQueue) :
    t.amendedNotice n p q h = s.amendedNotice n p q h := by
  simp only [State.amendedNotice, State.stream, record, link]

/-- The state with the amendments that the mark of a number reaches. Irreducible, as the walk over the
records is too long to be compared step by step. -/
@[irreducible] def State.amendedAt (s : State) (n : Period) : State := handles.foldl (State.takeEffect n) s

/-- The amendments leave the unit, the claims and the link. -/
theorem amendedAt_keeps (s : State) (n : Period) :
    (s.amendedAt n).psu = s.psu ∧ (s.amendedAt n).claims = s.claims ∧ (s.amendedAt n).link = s.link := by
  unfold State.amendedAt
  have kept := foldl_keeps (State.takeEffect n) (fun t => (t.psu, t.claims, t.link)) (by simp) handles s
  rwa [Prod.mk.injEq, Prod.mk.injEq] at kept

/-- Each record is its record at the mark: the walk meets each handle once. -/
theorem amendedAt_record (s : State) (n : Period) (k : Handle) :
    (s.amendedAt n).record k = (s.record k).atMark n := by
  unfold State.amendedAt
  exact (foldl_record (takeEffect_record n) (List.nodup_finRange 64) s k).trans
    (if_pos (List.mem_finRange k))

/-- The walk offers AMENDED by ascending handle. -/
theorem amendedAt_noticesOf (s : State) (n : Period) (p : Port) :
    (s.amendedAt n).noticesOf p = handles.foldl (s.amendedNotice n p) (s.noticesOf p) := by
  unfold State.amendedAt
  exact foldl_noticesOf (g := fun s => s.amendedNotice n p) (takeEffect_noticesOf n p)
    (fun s h k q other => amendedNotice_congr ((takeEffect_record n s h k).trans (if_neg other))
      (by simp) n p q) (List.nodup_finRange 64) s

/-! ### The starve warnings (R115) -/

/-- WARN offered to a port's queue for a handle whose record, of that port, is to be warned. -/
def State.warnedNotice (s : State) (n : Period) (p : Port) (q : NoticeQueue) (h : Handle) : NoticeQueue :=
  match s.stream h with
  | some st =>
    if st.owner = p ∧ st.notify.warn = true ∧ st.warned n = true then
      q.enqueue (.warn h (s.record h).generation st.params.lead) s.link.period
    else q
  | none => q

/-- The starve warning of a handle offers its WARN. -/
theorem starveWarning_noticesOf (n : Period) (p : Port) (s : State) (h : Handle) :
    (s.starveWarning n h).noticesOf p = s.warnedNotice n p (s.noticesOf p) h := by
  cases hs : s.stream h with
  | none => simp only [State.starveWarning, State.warnedNotice, hs]
  | some st =>
    simp only [State.starveWarning, State.warnedNotice, hs]
    by_cases warned : st.warned n = true
    · by_cases asked : st.notify.warn = true
      · rw [if_pos warned, State.notifyIf, if_pos asked, State.notify_noticesOf]
        by_cases own : st.owner = p
        · rw [own, if_pos rfl, if_pos ⟨rfl, asked, warned⟩]
        · rw [if_neg (Ne.symm own), if_neg fun due => own due.1]
      · rw [if_pos warned, State.notifyIf, if_neg asked, if_neg fun due => asked due.2.1]
    · rw [if_neg warned, if_neg fun due => warned due.2.2]

/-- WARN rests on the records and the period number alone. -/
theorem warnedNotice_congr {s t : State} (table : t.table = s.table) (link : t.link = s.link) (n : Period)
    (p : Port) : t.warnedNotice n p = s.warnedNotice n p := by
  funext q h
  simp only [State.warnedNotice, stream_of_table table, record_of_table table, link]

/-- The state with the warnings at the mark of a number, as long a walk. -/
@[irreducible] def State.warnedAt (s : State) (n : Period) : State := handles.foldl (State.starveWarning n) s

/-- The warnings leave all but the notices. -/
theorem warnedAt_keeps (s : State) (n : Period) :
    (s.warnedAt n).table = s.table ∧ (s.warnedAt n).psu = s.psu ∧ (s.warnedAt n).claims = s.claims ∧
      (s.warnedAt n).link = s.link := by
  unfold State.warnedAt
  have kept := foldl_keeps (State.starveWarning n) (fun t => (t.table, t.psu, t.claims, t.link)) (by simp)
    handles s
  rwa [Prod.mk.injEq, Prod.mk.injEq, Prod.mk.injEq] at kept

/-- The walk offers WARN by ascending handle. -/
theorem warnedAt_noticesOf (s : State) (n : Period) (p : Port) :
    (s.warnedAt n).noticesOf p = handles.foldl (s.warnedNotice n p) (s.noticesOf p) := by
  unfold State.warnedAt
  exact foldl_noticesOf (g := fun s => s.warnedNotice n p) (starveWarning_noticesOf n p)
    (fun s h k q _ => congrFun (congrFun (warnedNotice_congr (by simp) (by simp) n p) q) k)
    (List.nodup_finRange 64) s

/-! ### The lists (R113, R114) -/

/-- One handle comes before another in a list of the period: by class, then by handle. -/
def State.walksBefore (s : State) (h k : Handle) : Prop :=
  ∀ x y, s.stream h = some x → s.stream k = some y →
    x.params.serviceClass < y.params.serviceClass ∨
      (x.params.serviceClass = y.params.serviceClass ∧ h < k)

/-- A handle is in its class's part of a list exactly where its stream passes the test. -/
theorem mem_listed_class {s : State} {test : Stream → Bool} {c : Nat} {h : Handle} :
    h ∈ handles.filter (fun h => (s.stream h).any fun st => test st && st.params.serviceClass = c) ↔
      ∃ st, s.stream h = some st ∧ test st = true ∧ st.params.serviceClass = c := by
  simp [handles, Option.any_eq_true]

/-- With every class in range, a handle is listed exactly where its stream passes the test. -/
theorem mem_listed {s : State} (law : s.recordsLaw) {test : Stream → Bool} {h : Handle} :
    h ∈ s.listed test ↔ ∃ st, s.stream h = some st ∧ test st = true := by
  simp only [State.listed, List.mem_flatMap, mem_listed_class]
  constructor
  · rintro ⟨-, -, st, hs, passes, -⟩
    exact ⟨st, hs, passes⟩
  · rintro ⟨st, hs, passes⟩
    have range := (law h st hs).1
    simp only [Params.inRange, Bool.and_eq_true, decide_eq_true_eq] at range
    obtain ⟨⟨⟨-, le⟩, -⟩, -⟩ := range
    refine ⟨st.params.serviceClass, ?_, st, hs, passes, rfl⟩
    simp only [List.mem_cons, List.not_mem_nil, or_false]
    omega

/-- A list is by class and then by handle. -/
theorem listed_walksBefore (s : State) (test : Stream → Bool) :
    (s.listed test).Pairwise s.walksBefore := by
  have classOf : ∀ {c h x}, h ∈ handles.filter (fun h => (s.stream h).any fun st =>
      test st && st.params.serviceClass = c) → s.stream h = some x → x.params.serviceClass = c := by
    intro c h x mem hx
    obtain ⟨st, hs, -, same⟩ := mem_listed_class.mp mem
    rwa [Option.some.inj (hx.symm.trans hs)]
  refine List.pairwise_flatMap.mpr ⟨fun c _ => ?_, ?_⟩
  · refine ((List.pairwise_lt_finRange 64).filter _).imp_of_mem fun hh hk lt x y hx hy => ?_
    exact .inr ⟨(classOf hh hx).trans (classOf hk hy).symm, lt⟩
  · have rising : ([0, 1, 2, 3] : List Nat).Pairwise (· < ·) := by decide
    refine rising.imp fun lt h hh k hk x y hx hy => .inl ?_
    rw [classOf hh hx, classOf hk hy]
    exact lt

/-- The entries of the TX list are of its handles. -/
theorem txEntries_handles (s : State) (offset : Nat) (l : List Handle) :
    (s.txEntries offset l).map TxEntry.handle = l := by
  induction l generalizing offset with
  | nil => rfl
  | cons h l ih => rw [State.txEntries, List.map_cons, ih]

/-- An entry of the TX list is of its record, on the list, and at the offset of the cells before it. -/
theorem txEntries_entry {s : State} {offset : Nat} {l : List Handle} {k : Nat} {e : TxEntry}
    (place : (s.txEntries offset l)[k]? = some e) :
    e.absent = false ∧ e.generation = (s.record e.handle).generation ∧ e.form = s.formOf e.handle ∧
      e.offset = offset + (((s.txEntries offset l).take k).map fun x => x.form.cells).sum := by
  induction l generalizing offset k with
  | nil => exact nomatch place
  | cons h l ih =>
    rw [State.txEntries] at place ⊢
    cases k with
    | zero =>
      obtain rfl := Option.some.inj place
      exact ⟨rfl, rfl, rfl, rfl⟩
    | succ k =>
      obtain ⟨absent, generation, form, cells⟩ := ih place
      refine ⟨absent, generation, form, ?_⟩
      rw [cells, List.take_succ_cons, List.map_cons, List.sum_cons, Nat.add_assoc]

/-- The form of an open record. -/
theorem formOf_some {s : State} {h : Handle} {st : Stream} (hs : s.stream h = some st) :
    s.formOf h = st.form := by
  simp only [State.formOf, hs]

/-- A served record is LIVE, or CLOSING in mode DRAIN (R4). -/
theorem served_iff {st : Stream} : st.served = true ↔ st.state = .live ∨ st.state = .closing .drain := by
  simp [Stream.served]

/-- A record is listed in its direction where it is served and due. -/
theorem owes_iff {st : Stream} {d : Direction} {n : Period} :
    st.owes d n = true ↔ st.direction = d ∧ (st.state = .live ∨ st.state = .closing .drain) ∧
      n.toNat % st.params.interval = st.params.phase := by
  simp only [Stream.owes, Stream.dueIn, Bool.and_eq_true, decide_eq_true_eq, served_iff, and_assoc]

/-- A record that is no served RX record has standing NONE (R114). -/
theorem standingOf_none {n : Period} {x : Option Stream}
    (unserved : ∀ st, x = some st → st.direction = .rx →
      ¬(st.state = .live ∨ st.state = .closing .drain)) : standingOf n x = .none := by
  cases x with
  | none => rfl
  | some st => exact if_neg fun both => unserved st rfl both.1 (served_iff.mp both.2)

/-- A served RX record is DUE or NOT_DUE (R114). -/
theorem standingOf_served {n : Period} {st : Stream} (rx : st.direction = .rx)
    (served : st.state = .live ∨ st.state = .closing .drain) :
    standingOf n (some st) =
      if n.toNat % st.params.interval = st.params.phase then .due else .notDue := by
  refine (if_pos ⟨rx, served_iff.mpr served⟩).trans ?_
  simp only [Stream.dueIn, decide_eq_true_eq]

/-- The lists of a mark rest on the records alone: they are what the records behind it give. -/
theorem buildLists_again {s t : State} {n : Period} (table : t.table = s.table)
    (psu : t.psu = (s.buildLists n).psu) : t.psu = (t.buildLists n).psu := by
  have form : t.formOf = s.formOf := by
    funext h; simp only [State.formOf, stream_of_table table]
  have listed : t.listed = s.listed := by
    funext test; simp only [State.listed, stream_of_table table]
  have entry : t.rxEntryOf = s.rxEntryOf := by
    funext n h; simp only [State.rxEntryOf, record_of_table table, form, stream_of_table table]
  have entries : ∀ l offset, t.txEntries offset l = s.txEntries offset l := by
    intro l
    induction l with
    | nil => exact fun _ => rfl
    | cons h l ih => intro offset; simp only [State.txEntries, record_of_table table, form, ih]
  simp only [State.buildLists, listed, entry, entries] at psu ⊢
  rw [psu]

/-! ### The claim (R112 to R115) -/

/-- Mark processing in its stages, the link as the mark finds it. -/
theorem takeMarkProcessing_eq (s : State) (n : Period) :
    s.takeMarkProcessing n =
      if s.link.state = .up then (((s.amendedAt n).buildLists n).warnedAt n).openList
      else (s.amendedAt n).dropLists := by
  have link := (amendedAt_keeps s n).2.2
  unfold State.amendedAt at link ⊢
  unfold State.takeMarkProcessing State.warnedAt
  simp only [link]

section Claim

variable (s : State) (n : Period)

theorem takeMarkProcessing_up (up : s.link.state = .up) :
    s.takeMarkProcessing n = (((s.amendedAt n).buildLists n).warnedAt n).openList :=
  (takeMarkProcessing_eq s n).trans (if_pos up)

theorem takeMarkProcessing_down (down : s.link.state ≠ .up) :
    s.takeMarkProcessing n = (s.amendedAt n).dropLists :=
  (takeMarkProcessing_eq s n).trans (if_neg down)

/-- The lists and the warnings leave the records and the link as the amendments do. -/
theorem takeMarkProcessing_amended :
    (s.takeMarkProcessing n).table = (s.amendedAt n).table ∧
      (s.takeMarkProcessing n).link = s.link := by
  rw [← (amendedAt_keeps s n).2.2]
  by_cases up : s.link.state = .up
  · obtain ⟨table, -, -, link⟩ := warnedAt_keeps ((s.amendedAt n).buildLists n) n
    simp [takeMarkProcessing_up s n up, table, link]
  · simp [takeMarkProcessing_down s n up]

/-- Each record after the claim is its record at the mark. -/
theorem takeMarkProcessing_record (k : Handle) :
    (s.takeMarkProcessing n).record k = (s.record k).atMark n :=
  (record_of_table (takeMarkProcessing_amended s n).1 k).trans (amendedAt_record s n k)

theorem takeMarkProcessing_stream (k : Handle) :
    (s.takeMarkProcessing n).stream k = (s.stream k).map (Stream.atMark n) :=
  congrArg Record.stream (takeMarkProcessing_record s n k)

/-- In UP the lists and the table are what the records give. -/
theorem takeMarkProcessing_lists (up : s.link.state = .up) :
    (s.takeMarkProcessing n).psu = ((s.takeMarkProcessing n).buildLists n).psu := by
  refine buildLists_again (takeMarkProcessing_amended s n).1 ?_
  rw [takeMarkProcessing_up s n up, State.openList_keeps _ |>.2.2.2.1]
  exact (warnedAt_keeps ((s.amendedAt n).buildLists n) n).2.1

/-- The services in flight stay. -/
theorem takeMarkProcessing_flights :
    (s.takeMarkProcessing n).psu.txFlight = s.psu.txFlight ∧
      (s.takeMarkProcessing n).psu.rxFlight = s.psu.rxFlight := by
  rw [← (amendedAt_keeps s n).1]
  by_cases up : s.link.state = .up
  · obtain ⟨-, psu, -, -⟩ := warnedAt_keeps ((s.amendedAt n).buildLists n) n
    simp only [takeMarkProcessing_up s n up, State.openList_keeps, psu]
    exact ⟨rfl, rfl⟩
  · rw [takeMarkProcessing_down s n up]
    exact ⟨rfl, rfl⟩

/-- The service-start claim of the first entry is made, where there is one. -/
theorem openList_claims : s.openList.claims =
    s.claims ++ if s.openList.psu.txList = [] then [] else [.serviceStart] := by
  simp only [State.openList_keeps]
  unfold State.openList
  by_cases none : s.psu.txList = []
  · simp [none]
  · simp [none, State.makeClaim]

theorem takeMarkProcessing_claims : (s.takeMarkProcessing n).claims =
    s.claims ++ if (s.takeMarkProcessing n).psu.txList = [] then [] else [.serviceStart] := by
  rw [← (amendedAt_keeps s n).2.1]
  by_cases up : s.link.state = .up
  · rw [takeMarkProcessing_up s n up, openList_claims]
    rw [(warnedAt_keeps ((s.amendedAt n).buildLists n) n).2.2.1]
    rfl
  · rw [takeMarkProcessing_down s n up]
    exact (List.append_nil _).symm

/-- The notices queued to a port: AMENDED by ascending handle, then in UP WARN by ascending handle. -/
theorem takeMarkProcessing_noticesOf (p : Port) :
    (s.takeMarkProcessing n).noticesOf p =
      if s.link.state = .up then
        handles.foldl ((s.takeMarkProcessing n).warnedNotice n p)
          (handles.foldl (s.amendedNotice n p) (s.noticesOf p))
      else handles.foldl (s.amendedNotice n p) (s.noticesOf p) := by
  obtain ⟨table, link⟩ := takeMarkProcessing_amended s n
  rw [← amendedAt_noticesOf]
  split
  · rename_i up
    have warned : (s.takeMarkProcessing n).warnedNotice n p =
        ((s.amendedAt n).buildLists n).warnedNotice n p :=
      warnedNotice_congr table (link.trans (amendedAt_keeps s n).2.2.symm) n p
    rw [warned, takeMarkProcessing_up s n up]
    calc (((s.amendedAt n).buildLists n).warnedAt n).openList.noticesOf p
        = (((s.amendedAt n).buildLists n).warnedAt n).noticesOf p := by simp [State.noticesOf]
      _ = _ := warnedAt_noticesOf ((s.amendedAt n).buildLists n) n p
  · rename_i down
    rw [takeMarkProcessing_down s n down]
    rfl

end Claim

/-- The buffers dropped, counted: the old buffers in LINK where the pair is replaced (R101). -/
theorem dropped_eq (st : Stream) (pair : Option (Extent × Extent)) :
    st.dropped pair = if pair = none then 0 else
      (if st.bufferA.owner = .link then 1 else 0) + (if st.bufferB.owner = .link then 1 else 0) := by
  cases pair with
  | none => rfl
  | some g =>
    simp only [Stream.dropped, Bool.toNat, Bool.cond_decide, reduceCtorEq, if_false]

/-- A clip is reported of a TX record whose pair is kept (R102). -/
theorem clipped_eq (st : Stream) (v : Params) (pair : Option (Extent × Extent)) :
    st.clipped v pair = decide (pair = none ∧ st.direction = .tx ∧
      ((st.bufferA.owner = .link ∧ v.cells < st.bufferA.fill) ∨
        (st.bufferB.owner = .link ∧ v.cells < st.bufferB.fill))) := by
  simp only [Stream.clipped, Buffer.clipped, Bool.decide_and, Bool.decide_or, Bool.and_assoc]
  cases pair <;> rfl

/-- A record is warned while LIVE, due in LEAD periods, with its due buffer HOST (R115). -/
theorem warned_iff {st : Stream} {n : Period} : st.warned n = true ↔
    st.state = .live ∧ st.params.lead ≠ 0 ∧
      ((n.toNat + st.params.lead) % 4096) % st.params.interval = st.params.phase ∧
      (st.buffer st.parity).owner = .host := by
  simp only [Stream.warned, Stream.dueIn, Bool.and_eq_true, decide_eq_true_eq, and_assoc]
  exact Iff.rfl

/-! ### What the lists of a mark hold (R113, R114) -/

section Lists

variable {t : State} {n : Period} (lists : t.psu = (t.buildLists n).psu)

include lists

theorem txList_eq : t.psu.txList = t.txEntries 0 (t.listed fun st => st.owes .tx n) :=
  congrArg PeriodService.txList lists

theorem rxList_eq : t.psu.rxList = t.listed fun st => st.owes .rx n :=
  congrArg PeriodService.rxList lists

theorem rxTable_get (h : Handle) : t.psu.rxTable.get h = t.rxEntryOf n h :=
  (congrArg (fun u => u.rxTable.get h) lists).trans (tabulate_get _ h)

theorem mem_txList (law : t.recordsLaw) (h : Handle) :
    h ∈ t.psu.txList.map TxEntry.handle ↔ ∃ st, t.stream h = some st ∧ st.direction = .tx ∧
      (st.state = .live ∨ st.state = .closing .drain) ∧ n.toNat % st.params.interval = st.params.phase := by
  rw [txList_eq lists, txEntries_handles, mem_listed law]
  simp only [owes_iff]

theorem mem_rxList (law : t.recordsLaw) (h : Handle) :
    h ∈ t.psu.rxList ↔ ∃ st, t.stream h = some st ∧ st.direction = .rx ∧
      (st.state = .live ∨ st.state = .closing .drain) ∧ n.toNat % st.params.interval = st.params.phase := by
  rw [rxList_eq lists, mem_listed law]
  simp only [owes_iff]

theorem txList_walksBefore : t.psu.txList.Pairwise fun x y => t.walksBefore x.handle y.handle := by
  rw [txList_eq lists, ← List.pairwise_map (f := TxEntry.handle) (R := t.walksBefore), txEntries_handles]
  exact listed_walksBefore t _

theorem rxList_walksBefore : t.psu.rxList.Pairwise t.walksBefore := by
  rw [rxList_eq lists]
  exact listed_walksBefore t _

theorem txList_entry (k : Nat) (e : TxEntry) (place : t.psu.txList[k]? = some e) :
    e.absent = false ∧ e.generation = (t.record e.handle).generation ∧
      (∀ st, t.stream e.handle = some st → e.form = st.form) ∧
      e.offset = ((t.psu.txList.take k).map fun x => x.form.cells).sum := by
  rw [txList_eq lists] at place ⊢
  obtain ⟨absent, generation, form, offset⟩ := txEntries_entry place
  exact ⟨absent, generation, fun st hs => form.trans (formOf_some hs), offset.trans (Nat.zero_add _)⟩

theorem rxTable_served (h : Handle) (st : Stream) (hs : t.stream h = some st) (direction : st.direction = .rx)
    (served : st.state = .live ∨ st.state = .closing .drain) :
    t.psu.rxTable.get h = ⟨(t.record h).generation, st.form,
      if n.toNat % st.params.interval = st.params.phase then .due else .notDue⟩ := by
  rw [rxTable_get lists, State.rxEntryOf, formOf_some hs, hs, standingOf_served direction served]

theorem rxTable_unserved (h : Handle) (unserved : ∀ st, t.stream h = some st → st.direction = .rx →
    ¬(st.state = .live ∨ st.state = .closing .drain)) : (t.psu.rxTable.get h).standing = .none := by
  rw [rxTable_get lists]
  exact standingOf_none unserved

end Lists

/-! ### The row -/

/-- The row takes the claim at the front (R16). -/
theorem markProcessing_exec {s : State} {n : Period} {rest : List Claim} (held : s.held = false)
    (claims : s.claims = .markProcessing n :: rest) :
    exec .markProcessing s = .next (State.takeMarkProcessing { s with claims := rest } n) := by
  calc exec .markProcessing s = .next (s.takeThrough Claim.isMarkProcessing) := rfl
    _ = .next (State.takeClaim { s with claims := rest } (.markProcessing n)) := by
      rw [takeThrough_front held claims rfl]
    _ = _ := by rw [State.takeClaim]

/-- Settles O53: each record is its record at the mark, the notices are those of the two walks, and the
lists are what the records behind the mark give. -/
theorem markProcessing : Obligations.MarkProcessing := by
  intro s n rest held claims law
  refine ⟨_, markProcessing_exec held claims, ?_⟩
  have notices := takeMarkProcessing_noticesOf { s with claims := rest } n
  have record := takeMarkProcessing_record { s with claims := rest } n
  have stream := takeMarkProcessing_stream { s with claims := rest } n
  have link := (takeMarkProcessing_amended { s with claims := rest } n).2
  have lists := takeMarkProcessing_lists { s with claims := rest } n
  have down := takeMarkProcessing_down { s with claims := rest } n
  have starts := takeMarkProcessing_claims { s with claims := rest } n
  obtain ⟨txFlight, rxFlight⟩ := takeMarkProcessing_flights { s with claims := rest } n
  obtain ⟨-, -, memory, lane, ports, -⟩ := State.takeMarkProcessing_keeps { s with claims := rest } n
  have kept := (takeMarkProcessing_follows { s with claims := rest } n).recordsLaw law
  generalize State.takeMarkProcessing { s with claims := rest } n = t at *
  have generation : ∀ h, (t.record h).generation = (s.record h).generation := fun h => by
    rw [record h]
    rfl
  refine ⟨generation, fun h vacant => ?_, fun h st hs => ?_, fun p => ?_,
    ⟨fun up => ?_, fun off => ?_⟩, starts, link, memory, ports, lane, txFlight, rxFlight⟩
  · exact (stream h).trans (congrArg (Option.map (Stream.atMark n)) vacant)
  · refine ⟨st.atMark n, (stream h).trans (congrArg (Option.map (Stream.atMark n)) hs),
      atMark_of_not_reached, fun a pending reached => ?_⟩
    rw [atMark_of_reached pending reached]
    exact reshape_fields st a.params a.pair
  · intro dropped clipped amended warned q
    have effect : State.amendedNotice { s with claims := rest } n p = amended := by
      funext q h
      simp only [State.amendedNotice, dropped_eq, clipped_eq]
      rfl
    have warning : t.warnedNotice n p = warned := by
      funext q h
      simp only [State.warnedNotice, warned_iff, generation, link]
      rfl
    rw [notices p, effect, warning]
    rfl
  · have built := lists up
    exact ⟨mem_txList built kept, txList_walksBefore built, txList_entry built,
      congrArg PeriodService.txNext built, mem_rxList built kept, rxList_walksBefore built,
      rxTable_served built, rxTable_unserved built⟩
  · rw [down off]
    exact ⟨rfl, rfl, clearStandings_standing _⟩

end Sys2Proof.Machine
end

section
/-! SUPPORT. The statements about amendments: a record in its new form, the body of an AMEND as it is
spelt, its tests in their order, and its withdrawal. -/

namespace Sys2Proof.Machine

/-! ### A record in its new form (R99 to R102, R105) -/

/-- A new pair: the old pair released, and the new buffers HOST with fill 0 and next parity A (R101). -/
theorem reshape_some (s : State) (h : Handle) (st : Stream) (new : Params) (x y : Extent) :
    s.reshape h st new (some (x, y)) =
      State.setStream { s.recharge st.owner st.direction st.charge (contribution new) with
        free := release st.bufferB.extent (release st.bufferA.extent s.free) } h
        { st with
          params := new, missRun := 0, lastSlot := none, pending := none
          bufferA := ⟨x, .host, 0⟩, bufferB := ⟨y, .host, 0⟩, parity := .a } := rfl

/-- The pair kept: a fill above the new cells is lowered to them (R102). -/
theorem reshape_none (s : State) (h : Handle) (st : Stream) (new : Params) :
    s.reshape h st new none =
      (s.recharge st.owner st.direction st.charge (contribution new)).setStream h
        { st with
          params := new, missRun := 0, lastSlot := none, pending := none
          bufferA := { st.bufferA with fill := min st.bufferA.fill new.cells }
          bufferB := { st.bufferB with fill := min st.bufferB.fill new.cells } } := rfl

/-! ### The take-effect of a pending amendment (R96 to R103) -/

/-- Every mark reaches the point NEXT (R96). -/
theorem reached_next (n : Period) : EffectivePoint.next.reached n = true := rfl

/-- A mark reaches a period that lies at most 2047 periods behind it (R97). -/
theorem reached_period {n e : Period} : (EffectivePoint.period e).reached n = true ↔ (n - e).toNat < 2048 :=
  decide_eq_true_iff

/-- The take-effect of a handle whose amendment the mark reaches. -/
theorem takeEffect_reached {s : State} {n : Period} {h : Handle} {st : Stream} {a : Amendment}
    (hs : s.stream h = some st) (pending : st.pending = some a) (reached : a.point.reached n = true) :
    s.takeEffect n h = (s.reshape h st a.params a.pair).notify st.owner
      (.amended h (s.record h).generation n (st.dropped a.pair) (st.clipped a.params a.pair)) := by
  simp only [State.takeEffect, hs, pending, reached, if_true]

/-- The take-effect of a handle whose amendment the mark does not reach. -/
theorem takeEffect_early {s : State} {n : Period} {h : Handle} {st : Stream} {a : Amendment}
    (hs : s.stream h = some st) (pending : st.pending = some a) (early : ¬a.point.reached n = true) :
    s.takeEffect n h = s := by
  simp only [State.takeEffect, hs, pending, if_neg early]

/-- Settles O52: the mark reaches the point or not, and the record is reshaped with its new pair or the
one it keeps. -/
theorem takeEffect : Obligations.TakeEffect := by
  intro s n h st a hs pending d p both reached kept v
  have reached_iff : reached ↔ a.point.reached n = true := by
    simp only [reached]
    cases a.point with
    | next => exact iff_of_true trivial (reached_next n)
    | period e => exact reached_period.symm
  refine ⟨fun early => takeEffect_early hs pending (mt reached_iff.mpr early),
    fun due x y pair => ?_, fun due pair => ?_⟩
  · rw [takeEffect_reached hs pending (reached_iff.mp due), dropped_eq, clipped_eq, pair, reshape_some,
      charge_of_some pending]
    simp only [v, pair]
    rfl
  · rw [takeEffect_reached hs pending (reached_iff.mp due), dropped_eq, clipped_eq, pair, reshape_none,
      charge_of_some pending]
    simp only [v, pair, true_and]
    rfl

/-! ### WITHDRAW (R106) -/

/-- The withdrawal of the amendment that a record has pending (R41). -/
theorem withdrawAmendment_pending {s : State} {h : Handle} {st : Stream} {a : Amendment}
    (hs : s.stream h = some st) (pending : st.pending = some a) :
    s.withdrawAmendment h = State.setStream
      { s.recharge st.owner st.direction (larger a.old (contribution a.params)) a.old with
        free := a.pair.elim s.free fun g => releasePair g s.free } h
      { st with pending := none } := by
  simp only [State.withdrawAmendment, hs, pending, charge_of_some pending]
  cases a.pair <;> rfl

/-- WITHDRAW of a record named: NONE_PENDING, or its amendment withdrawn (R106). -/
theorem withdrawRequest_named {s : State} {p : Port} {r : Request} {h : Handle} {st : Stream}
    (length : r.body.length = 2) (named : s.nameCheck p false r.body = .ok (h, st)) :
    withdrawRequest p r s = st.pending.elim (refuse s .nonePending) fun a =>
      (s.withdrawAmendment h, ⟨.done, pointBytes a.point⟩) := by
  simp only [withdrawRequest, nameOnly_eq s p false length, named]
  cases st.pending <;> rfl

/-- A withdrawal beside the arbiter pointer moved on. -/
theorem withdrawAmendment_advance {s : State} {h : Handle} {st : Stream} {a : Amendment} (q : Port)
    (hs : s.stream h = some st) (pending : st.pending = some a) :
    (s.advance q).withdrawAmendment h =
      { s.withdrawAmendment h with table := { (s.withdrawAmendment h).table with arbiter := q + 1 } } := by
  have advanced : (s.advance q).stream h = some st := (State.advance_stream ..).trans hs
  rw [withdrawAmendment_pending hs pending, withdrawAmendment_pending advanced pending]
  rfl

/-- WITHDRAW granted with an amendment pending: it is withdrawn and its effective point reported
(R106). -/
theorem withdraw_pending {s : State} {p : Port} {r : Request} {rest : List Entry} {h : Handle}
    {st : Stream} {a : Amendment} (hg : s.Grants p r rest) (code : r.code = 0x06)
    (length : r.body.length = 2) (named : s.settle.Names r.body h st) (own : st.owner = p)
    (pending : st.pending = some a) :
    exec (.withdraw p) s =
      .next ((s.settle.withdrawAmendment h).responded p r rest .done (pointBytes a.point)) := by
  have answer := withdrawRequest_named length (nameCheck_advance named own)
  rw [pending, Option.elim_some] at answer
  exact grants_next (run := fun r t => .ok (withdrawRequest p r t)) hg (decide_eq_true code)
    (congrArg Except.ok answer) (withdrawAmendment_advance p named.2.2 pending)
    (by simp [State.port])

/-! ### AMEND: its body as it is spelt (R90, 11.4) -/

/-- A byte of 0 or 1 names a miss policy, and no other (11.4). -/
theorem missPolicyOf_none {x : Byte} : missPolicyOf x = none ↔ ¬x.toNat ≤ 1 := by
  unfold missPolicyOf
  split_ifs with zero one
  · simp [zero]
  · simp [one]
  · simp only [true_iff]
    bv_omega

/-- A miss policy byte that names none, of a TX record (R90). -/
theorem readPolicy_none {d : Direction} {x : List Byte} :
    (d = .tx ∧ readPolicy x .tx = none) ↔ ¬(d = .tx → (byteAt x 6).toNat ≤ 1) := by
  rw [readPolicy, missPolicyOf_none, Classical.not_imp]

/-- The effective point that a body spells is the one read from it (R90). -/
theorem readPoint_spelt {point : EffectivePoint} {x : List Byte} (h : point.speltIn x) :
    readPoint x = some point := by
  cases point with
  | next => exact if_pos h
  | period e =>
    obtain ⟨kind, number⟩ := h
    have range : byteAt x 9 = 1 ∧ numberAt x 10 < 4096 := ⟨kind, number ▸ e.isLt⟩
    rw [readPoint, if_neg (by rw [kind]; decide), if_pos range, number, BitVec.ofNat_toNat,
      BitVec.setWidth_eq]

/-- The body of an AMEND that spells its parameters and its point passes its check (R90). -/
theorem readAmend_spelt {new : Params} {d : Direction} {point : EffectivePoint} {x : List Byte}
    (length : x.length = 12) (params : new.speltIn d x) (spelt : point.speltIn x) :
    readAmend x = some point := by
  have ⟨_, _, _, _, _, _, inRange, _⟩ := params
  have range : (readParams x none).inRange = true := by
    rwa [← readParams_inRange x (readPolicy x d), (readParams_spelt params).1]
  rw [readAmend, if_pos ⟨length, range⟩, readPoint_spelt spelt]

/-! ### The tests of an AMEND in their order (R91) -/

/-- The effective window (R92). -/
theorem inWindow_iff {now : Period} {point : EffectivePoint} : point.inWindow now = true ↔
    ∀ e, point = .period e → 1 ≤ (e - now).toNat ∧ (e - now).toNat ≤ 2047 := by
  cases point <;> simp [EffectivePoint.inWindow]

/-- No buffer of the record is in SERVICE. -/
theorem hasOwner_service {st : Stream} : st.hasOwner .service = false ↔
    st.bufferA.owner ≠ .service ∧ st.bufferB.owner ≠ .service := by
  simp only [Stream.hasOwner, Bool.or_eq_false_iff, decide_eq_false_iff_not]

/-- The tests of an AMEND, one after another (R91). -/
theorem amendTests_eq (s : State) (st : Stream) (x : List Byte) (point : EffectivePoint) :
    s.amendTests st x point =
      if st.isClosing = true then .error (.plain .state)
      else if st.pending.isSome = true then .error (.plain .amendPending)
      else if st.direction = .tx ∧ readPolicy x .tx = none then .error (.plain .badArg)
      else if st.state ≠ .live ∧ st.hasOwner .service = true then .error (.plain .owner)
      else if point.inWindow s.link.period = false then .error ⟨.late, be16 s.link.period.toNat⟩
      else (s.admission st.owner st.direction (contribution st.params)
          (st.amendedCharge (readParams x (readPolicy x st.direction)))).elim
        ((s.amendPair st (readParams x (readPolicy x st.direction))).map fun g =>
          (readParams x (readPolicy x st.direction), g)) .error := by
  unfold State.amendTests
  dsimp only
  generalize readParams x (readPolicy x st.direction) = new
  cases s.admission st.owner st.direction (contribution st.params) (st.amendedCharge new) with
  | none => cases state : st.state <;> simp [Stream.isClosing, state]
  | some reply => cases state : st.state <;> simp [Stream.isClosing, state]

/-- The tests of an AMEND up to the effective window passed, for the parameters that its body spells: the
admission test and the pair are left (R91). -/
theorem amendTests_spelt {s : State} {st : Stream} {x : List Byte} {point : EffectivePoint} {new : Params}
    (spelt : new.speltIn st.direction x) (closing : st.isClosing = false) (pending : st.pending = none)
    (rests : st.state = .live ∨ (st.bufferA.owner ≠ .service ∧ st.bufferB.owner ≠ .service))
    (window : ∀ e, point = .period e →
      1 ≤ (e - s.link.period).toNat ∧ (e - s.link.period).toNat ≤ 2047) :
    s.amendTests st x point =
      (s.admission st.owner st.direction (contribution st.params) (st.amendedCharge new)).elim
        ((s.amendPair st new).map fun g => (new, g)) .error := by
  obtain ⟨params, policy⟩ := readParams_spelt spelt
  have named : ¬(st.direction = .tx ∧ readPolicy x .tx = none) := fun c => by
    simpa [c.1, c.2] using policy c.1
  have idle : ¬(st.state ≠ .live ∧ st.hasOwner .service = true) := fun c => by
    simpa [c.2] using hasOwner_service.mpr (rests.resolve_left c.1)
  rw [amendTests_eq, if_neg (by simp [closing]), if_neg (by simp [pending]), if_neg named, if_neg idle,
    if_neg (by simp [inWindow_iff.mpr window]), params]

/-- The tests of an AMEND do not look at the arbiter pointer. -/
theorem amendTests_advance (s : State) (q : Port) (st : Stream) (x : List Byte) (point : EffectivePoint) :
    (s.advance q).amendTests st x point = s.amendTests st x point := by
  have admission : (s.advance q).admission = s.admission := rfl
  have pair : (s.advance q).amendPair = s.amendPair := rfl
  simp only [amendTests_eq, admission, pair, State.advance_link]

/-- The pair that an amendment needs is granted as the statements say it: its tests find it, and it is
taken (R93). -/
theorem amendPair_granted {s v : State} {st : Stream} {new : Params} {g : Option (Extent × Extent)}
    (granted : s.GrantsPair v st.params.cells new.cells g) :
    ∃ x, s.amendPair st new = .ok x ∧ s.takeAmendPair x = .ok v ∧ x.map Prod.fst = g := by
  rcases granted with ⟨same, rfl, rfl⟩ | ⟨differs, a, c, free, alloc, ha, hc, rfl, rfl⟩
  · exact ⟨none, if_pos same, rfl, rfl⟩
  · refine ⟨some ((a, c), free), ?_, ?_, rfl⟩
    · rw [State.amendPair, if_neg differs, State.pair, alloc]
      rfl
    · simp only [State.takeAmendPair, State.takePair, zeroPair, ha, hc, Bool.and_self, if_true]

/-- The pair that an amendment needs cannot be granted (R51, R93). -/
theorem amendPair_noSpace {s : State} {st : Stream} {new : Params}
    (differs : granulesFor new.cells ≠ granulesFor st.params.cells)
    (short : allocatePair (granulesFor new.cells) s.free = none) :
    s.amendPair st new = .error (s.noSpace (granulesFor new.cells)) := by
  rw [State.amendPair, if_neg differs, State.pair, short]
  rfl

/-! ### AMEND granted -/

section Granted

variable {s v : State} {p : Port} {r : Request} {rest : List Entry} {h : Handle} {st : Stream}
  {point : EffectivePoint}

/-- An AMEND granted that its tests refuse (R91). -/
theorem amend_refused (hg : s.Grants p r rest) (code : r.code = 0x05) (read : readAmend r.body = some point)
    (named : s.settle.Names r.body h st) (own : st.owner = p) {x : Reply}
    (refused : s.settle.amendTests st r.body point = .error x) :
    exec (.amend p) s = .next (s.settle.responded p r rest x.status x.body) := by
  have tests := (amendTests_advance s.settle p st r.body point).trans refused
  refine grants_refused (run := amendRequest p) (takes := ofCode 0x05) hg (decide_eq_true code) ?_
  simp only [amendRequest, read, nameCheck_advance named own, tests]

/-- The pair of an amendment taken beside the arbiter pointer moved on. -/
theorem takeAmendPair_advance {g : Option ((Extent × Extent) × List Extent)} (q : Port)
    (taken : s.takeAmendPair g = .ok v) : (s.advance q).takeAmendPair g = .ok (v.advance q) := by
  cases g with
  | none => cases taken; rfl
  | some g =>
    simp only [State.takeAmendPair, State.takePair, State.advance_memory] at taken ⊢
    split at taken
    · cases taken
      rfl
    · cases taken

/-- An amendment carried through beside the arbiter pointer moved on. -/
theorem amend_advance (v : State) (q : Port) (h : Handle) (st : Stream) (new : Params)
    (point : EffectivePoint) (g : Option (Extent × Extent)) :
    (v.advance q).amend h st new point g =
      ((v.amend h st new point g).1.advance q, (v.amend h st new point g).2) := by
  unfold State.amend
  split <;> rfl

/-- Carrying an amendment through leaves the ports. -/
theorem amend_ports (v : State) (h : Handle) (st : Stream) (new : Params) (point : EffectivePoint)
    (g : Option (Extent × Extent)) : (v.amend h st new point g).1.ports = v.ports := by
  unfold State.amend
  split
  · rfl
  · simp

/-- An AMEND granted that passes its tests, with its pair taken: the amendment carried through (R94,
R105). -/
theorem amend_passed (hg : s.Grants p r rest) (code : r.code = 0x05) (read : readAmend r.body = some point)
    (named : s.settle.Names r.body h st) (own : st.owner = p) {new : Params}
    {x : Option ((Extent × Extent) × List Extent)}
    (passed : s.settle.amendTests st r.body point = .ok (new, x))
    (taken : s.settle.takeAmendPair x = .ok v) :
    exec (.amend p) s = .next ((v.amend h st new point (x.map Prod.fst)).1.responded p r rest
      (v.amend h st new point (x.map Prod.fst)).2.status
      (v.amend h st new point (x.map Prod.fst)).2.body) := by
  have tests := (amendTests_advance s.settle p st r.body point).trans passed
  have ports : v.ports = s.settle.ports := by
    obtain ⟨free, m, rfl⟩ := takeAmendPair_ok taken
    rfl
  refine grants_next (run := amendRequest p) (takes := ofCode 0x05) hg (decide_eq_true code)
    (w := (v.amend h st new point (x.map Prod.fst)).1.advance p) ?_ rfl ?_
  · simp only [amendRequest, read, nameCheck_advance named own, tests, takeAmendPair_advance p taken,
      amend_advance]
  · simp only [State.port, amend_ports, ports]

end Granted

/-- Settles O34: the tests pass, and the amendment is held or the record put in its new form, with its new
pair or the one it keeps. -/
theorem amendAccepted : Obligations.AmendAccepted := by
  intro s v p r rest h st new point g hg code length params spelt u named own closing pending rests window
    d old both admitted granted charged
  subst own
  obtain ⟨x, found, taken, rfl⟩ := amendPair_granted granted
  have unloaded : u.admission st.owner st.direction (contribution st.params)
      (st.amendedCharge new) = none := admitted
  have passed : u.amendTests st r.body point = .ok (new, x) := by
    rw [amendTests_spelt params closing pending (or_iff_not_imp_left.mpr rests) window, unloaded, found]
    rfl
  rw [amend_passed hg code (readAmend_spelt length params spelt) named rfl passed taken]
  have charge : st.charge = contribution st.params := charge_of_none pending
  have period : v.link.period = u.link.period := by
    obtain ⟨free, m, rfl⟩ := takeAmendPair_ok taken
    rfl
  refine ⟨fun live => ?_, fun other w hw => ?_⟩
  · rw [State.amend, if_pos live, period]
    cases point <;> rfl
  · rw [State.amend, if_neg other, period, dropped_eq, clipped_eq]
    subst hw
    refine ⟨fun a c pair => ?_, fun kept => ?_⟩
    · rw [pair, reshape_some, charge, ← pending]
      rfl
    · rw [kept, reshape_none, charge, ← pending]
      simp only [boolByte, decide_eq_true_eq, true_and]
      rfl

/-- Settles O35: each test refuses where the ones before it pass. -/
theorem amendRefusals : Obligations.AmendRefusals := by
  intro s p r rest h st point hg code read u named own now open' policy free' window
  have refused : ∀ {x : Reply}, u.amendTests st r.body point = .error x →
      exec (.amend p) s = .next (u.responded p r rest x.status x.body) :=
    amend_refused hg code read named own
  have busy : ¬free' ↔ st.state ≠ .live ∧ st.hasOwner .service = true := by
    rw [not_or, ← hasOwner_service, Bool.not_eq_false]
  have inside : ¬window ↔ point.inWindow now = false := by
    rw [← Bool.not_eq_true, inWindow_iff]
  have tests := amendTests_eq u st r.body point
  refine ⟨fun closing => refused (tests.trans (if_pos closing)), fun opened held => ?_,
    fun ⟨opened, unheld⟩ bad => ?_, fun ⟨opened, unheld⟩ good service => ?_,
    fun ⟨opened, unheld⟩ good rests late => ?_, fun new spelt ⟨opened, unheld⟩ rests on => ?_⟩
  · rw [if_neg (by simp [opened]), if_pos (Option.isSome_iff_ne_none.mpr held)] at tests
    exact refused tests
  · rw [if_neg (by simp [opened]), if_neg (by simp [unheld]), if_pos (readPolicy_none.mpr bad)] at tests
    exact refused tests
  · rw [if_neg (by simp [opened]), if_neg (by simp [unheld]),
      if_neg (mt readPolicy_none.mp (not_not.mpr good)), if_pos (busy.mp service)] at tests
    exact refused tests
  · rw [if_neg (by simp [opened]), if_neg (by simp [unheld]),
      if_neg (mt readPolicy_none.mp (not_not.mpr good)), if_neg (mt busy.mpr (not_not.mpr rests)),
      if_pos (inside.mp late)] at tests
    exact refused tests
  · subst own
    have left := amendTests_spelt spelt opened unheld rests on
    refine ⟨fun x out => ?_, fun passed differs short => ?_⟩
    · have overloaded : u.admission st.owner st.direction (contribution st.params)
          (st.amendedCharge new) = some x := out
      rw [overloaded] at left
      exact refused left
    · have admitted : u.admission st.owner st.direction (contribution st.params)
          (st.amendedCharge new) = none := passed
      rw [admitted, amendPair_noSpace differs short] at left
      exact refused left

end Sys2Proof.Machine

namespace Sys2Proof

open Machine

/-- Settles O36: the row granted, with an amendment pending and with none. -/
theorem withdrawRequest : Obligations.WithdrawRequest := by
  intro s p r rest h st hg code length named own u d
  refine ⟨fun none => ?_, fun a pending => ?_⟩
  · have answer := withdrawRequest_named length (nameCheck_advance named own)
    rw [none] at answer
    exact grants_refused (run := fun r t => .ok (Machine.withdrawRequest p r t)) hg (decide_eq_true code)
      (congrArg Except.ok answer)
  · subst own
    rw [withdraw_pending hg code length named rfl pending, withdrawAmendment_pending named.2.2 pending]
    cases a.pair <;> cases a.point <;> rfl

end Sys2Proof
end

section
/-! SUPPORT. The law of the link (R134, R136, R145, R152): its parts, and what the claims and the lane leave of
them. -/

namespace Sys2Proof.Machine

/-! ### The parts of the law -/

/-- The transmit lane with no cell staged, none behind it and no period open. -/
structure TransmitLane.Still (l : TransmitLane) : Prop where
  staged : l.staged = none
  queue : l.queue = []
  opened : l.opened = none

/-- The Link Controller with nothing running (R138, R152). -/
structure LinkController.Stopped (l : LinkController) : Prop where
  periodTimer : l.periodTimer = false
  lossTimer : l.lossTimer = false
  acquire : l.acquire = 0
  missingEchoes : l.missingEchoes = 0
  echoRecord : l.echoRecord = none
  aligned : l.aligned = false

/-- The timers by role, the acquire counter, and nothing running in OFF (R136, R145, R152). -/
structure LinkController.Timed (l : LinkController) : Prop where
  leader : l.role = .leader → l.lossTimer = false
  follower : l.role = .follower → l.periodTimer = false
  bound : l.acquire ≤ 2
  entered : l.state = .up → l.acquire = 0
  off : l.state = .off → l.Stopped

/-- The law of the link, taken apart by the block that each part is of. -/
structure State.Linked (s : State) : Prop where
  timed : s.link.Timed
  unit : s.link.state ≠ .up → s.psu.Idle
  lane : s.link.state = .off → s.lane.Still

theorem linkLaw_iff (s : State) : s.linkLaw ↔ s.Linked := by
  unfold State.linkLaw State.offLaw
  rw [idleLaw_iff]
  constructor
  · rintro ⟨leader, follower, bound, entered, off, unit⟩
    refine ⟨⟨leader, follower, bound, entered, fun e => ?_⟩, unit, fun e => ?_⟩
    · obtain ⟨period, loss, acquire, missing, echo, aligned, -⟩ := off e
      exact ⟨period, loss, acquire, missing, echo, aligned⟩
    · obtain ⟨-, -, -, -, -, -, staged, queue, opened⟩ := off e
      exact ⟨staged, queue, opened⟩
  · rintro ⟨⟨leader, follower, bound, entered, off⟩, unit, lane⟩
    refine ⟨leader, follower, bound, entered, fun e => ?_, unit⟩
    obtain ⟨period, loss, acquire, missing, echo, aligned⟩ := off e
    obtain ⟨staged, queue, opened⟩ := lane e
    exact ⟨period, loss, acquire, missing, echo, aligned, staged, queue, opened⟩

/-- A stopped Link Controller keeps the timers' law in any role. -/
theorem LinkController.Stopped.timed {l : LinkController} (stopped : l.Stopped) : l.Timed where
  leader _ := stopped.lossTimer
  follower _ := stopped.periodTimer
  bound := by rw [stopped.acquire]; exact Nat.zero_le 2
  entered _ := stopped.acquire
  off _ := stopped

namespace State.Linked

variable {s t : State}

/-- The link left alone, an idle unit left idle and a still lane left still. -/
theorem rest (law : s.Linked) (link : t.link = s.link) (unit : s.psu.Idle → t.psu.Idle)
    (lane : s.lane.Still → t.lane.Still) : t.Linked where
  timed := link ▸ law.timed
  unit down := unit (law.unit (link ▸ down))
  lane off := lane (law.lane (link ▸ off))

/-- The same link, unit and lane. -/
theorem of_eq (law : s.Linked) (link : t.link = s.link) (unit : t.psu = s.psu)
    (lane : t.lane = s.lane) : t.Linked :=
  law.rest link (fun idle => unit ▸ idle) fun still => lane ▸ still

/-- In UP the law is about the Link Controller alone. -/
theorem of_up (timed : t.link.Timed) (up : t.link.state = .up) : t.Linked :=
  ⟨timed, fun down => absurd up down, fun off => by rw [up] at off; cases off⟩

/-- In ACQUIRE the law asks for an idle unit, and nothing of the lane. -/
theorem of_acquire (timed : t.link.Timed) (acquire : t.link.state = .acquire) (unit : t.psu.Idle) :
    t.Linked :=
  ⟨timed, fun _ => unit, fun off => by rw [acquire] at off; cases off⟩

/-- In UP what leaves the link alone keeps its law. -/
theorem stays_up (law : s.Linked) (link : t.link = s.link) (up : s.link.state = .up) : t.Linked :=
  of_up (link ▸ law.timed) (link ▸ up)

/-- Another state of the Link Controller under the same link state. -/
theorem with_link (law : s.Linked) {l : LinkController} (timed : l.Timed)
    (state : l.state = s.link.state) : State.Linked { s with link := l } :=
  ⟨timed, fun down => law.unit (state ▸ down), fun off => law.lane (state ▸ off)⟩

/-- Either of two states. -/
theorem ite {c : Prop} [Decidable c] (hs : s.Linked) (ht : t.Linked) : (if c then s else t).Linked := by
  split
  · exact hs
  · exact ht

end State.Linked

/-! ### Units that stay idle -/

/-- Services dropped leave an idle unit idle. -/
theorem PeriodService.Drops.idle {u v : PeriodService} (drops : u.Drops v) (idle : u.Idle) : v.Idle where
  list := drops.list.trans idle.list
  order := drops.order.trans idle.order
  standings := drops.table ▸ idle.standings
  tx := drops.tx.elim (fun e => e.trans idle.tx) id
  rx := drops.rx.elim (fun e => e.trans idle.rx) id

/-- Services that moved on leave an idle unit idle: there is none. -/
theorem PeriodService.MovesOn.idle {u v : PeriodService} (moves : u.MovesOn v) (idle : u.Idle) :
    v.Idle where
  list := moves.list.trans idle.list
  order := moves.order.trans idle.order
  standings := moves.table ▸ idle.standings
  tx := by simpa [idle.tx] using moves.tx
  rx := by simpa [idle.rx] using moves.rx

/-- An idle unit has no entry whose turn could come. -/
theorem takeNextStart_idle {s : State} (idle : s.psu.Idle) : s.takeNextStart = s := by
  simp [State.takeNextStart, State.nextEntry, idle.list]

/-- In an idle unit no lead cell is matched (R123). -/
theorem takeMatch_idle {s : State} (idle : s.psu.Idle) (h : Handle) (count : Nat) :
    s.takeMatch h count = s := by
  unfold State.takeMatch
  simp only [idle.standings h, true_or, if_true, ite_self]
  split <;> rfl

/-- Leaving UP leaves the unit idle (R150). -/
theorem leaveUp_idle (s : State) : s.leaveUp.psu.Idle := by
  have departed := foldl_keeps State.departRecord State.psu (by simp) handles s.abortService
  simpa [State.leaveUp, departed] using abortService_idle s

/-- The lists dropped leave an idle unit idle. -/
theorem dropLists_idle {s : State} (idle : s.psu.Idle) : s.dropLists.psu.Idle :=
  ⟨rfl, rfl, clearStandings_standing _, idle.tx, idle.rx⟩

/-- A record that leaves the lists of an idle unit leaves it idle. -/
theorem leaveLists_idle {s : State} (idle : s.psu.Idle) (h : Handle) : (s.leaveLists h).psu.Idle := by
  obtain ⟨-, tx, rx, -⟩ := leave_flights s.psu h (s.record h).generation (s.formOf h)
  rcases leave_cases s.psu h (s.record h).generation (s.formOf h) with ⟨-, -, e⟩ | ⟨-, e⟩ <;>
    refine ⟨?_, ?_, fun k => ?_, tx.trans idle.tx, rx.trans idle.rx⟩ <;> rw [State.leaveLists, e]
  · simp [idle.list]
  · simp [idle.order]
  · rw [vector_get_set]
    split
    · rfl
    · exact idle.standings k
  · simp [idle.list]
  · exact idle.order
  · exact idle.standings k

/-! ### The claims -/

/-- Leaving UP puts the link in ACQUIRE, with its counters 0 and nothing in service (R149, R150). -/
theorem takeLeavingUp_linked {s : State} (law : s.Linked) : s.takeLeavingUp.Linked := by
  unfold State.takeLeavingUp
  split
  · have idle := leaveUp_idle s
    have link : s.leaveUp.link = s.link := by simp
    generalize s.leaveUp = u at idle link
    have timed : LinkController.Timed { u.link with state := .acquire, acquire := 0, missingEchoes := 0 } := by
      rw [link]
      exact { leader := law.timed.leader, follower := law.timed.follower, bound := Nat.zero_le 2
              entered := fun _ => rfl, off := nofun }
    dsimp only
    split
    · exact .of_acquire timed rfl idle
    · exact .of_acquire timed rfl (cutPeriod_idle idle)
  · exact law

/-- The mark processing claim builds lists in UP alone (R113, R114). -/
theorem takeMarkProcessing_linked {s : State} (law : s.Linked) (n : Period) :
    (s.takeMarkProcessing n).Linked := by
  have link := (takeMarkProcessing_amended s n).2
  by_cases up : s.link.state = .up
  · exact law.stays_up link up
  · refine law.rest link (fun idle => ?_) fun still => ?_
    · rw [takeMarkProcessing_down s n up]
      exact dropLists_idle ((amendedAt_keeps s n).1 ▸ idle)
    · simpa using still

/-- A notice to every port. -/
theorem notifyAll_linked {s : State} (law : s.Linked) (x : LinkEvent) : (s.notifyAll x).Linked :=
  law.of_eq (by simp) (by simp) (by simp)

/-- Every claim keeps the law of the link. -/
theorem takeClaim_linked {s : State} (law : s.Linked) (c : Claim) : (s.takeClaim c).Linked := by
  cases c with
  | markProcessing n => exact takeMarkProcessing_linked law n
  | serviceStart =>
    by_cases up : s.link.state = .up
    · exact law.stays_up (by simp [State.takeClaim]) up
    · rwa [State.takeClaim, takeNextStart_idle (law.unit up)]
  | txCompletion =>
    exact law.rest (by simp [State.takeClaim]) (takeTxCompletion_psu s ▸ dropTx_drops s).idle
      (by simp [State.takeClaim])
  | matchLead h count =>
    by_cases up : s.link.state = .up
    · exact law.stays_up (by simp [State.takeClaim]) up
    · rwa [State.takeClaim, takeMatch_idle (law.unit up)]
  | rxCompletion =>
    exact law.rest (by simp [State.takeClaim]) (takeRxCompletion_psu s ▸ dropRx_drops s).idle
      (by simp [State.takeClaim])
  | periodEnd =>
    refine law.rest (by simp [State.takeClaim]) (fun idle => ?_) (by simp [State.takeClaim])
    rw [State.takeClaim, takePeriodEnd_psu]
    exact ⟨idle.list, rfl, clearStandings_standing _, idle.tx, idle.rx⟩
  | leavingUp => exact takeLeavingUp_linked law
  | enteringUp => exact notifyAll_linked law .up
  | slip => exact notifyAll_linked law .slip

/-- A claim leaves the link alone, but that one leaving UP puts it in ACQUIRE with its counters 0. -/
theorem takeClaim_link (s : State) (c : Claim) :
    (s.takeClaim c).link = s.link ∨ s.link.state = .up ∧
      (s.takeClaim c).link = { s.link with state := .acquire, acquire := 0, missingEchoes := 0 } := by
  cases c with
  | markProcessing n => exact .inl (takeMarkProcessing_amended s n).2
  | leavingUp =>
    rw [State.takeClaim, State.takeLeavingUp]
    split
    · rename_i up
      refine .inr ⟨up, ?_⟩
      dsimp only
      split <;> simp
    · exact .inl rfl
  | serviceStart => exact .inl (by simp [State.takeClaim])
  | txCompletion => exact .inl (by simp [State.takeClaim])
  | matchLead h count => exact .inl (by simp [State.takeClaim])
  | rxCompletion => exact .inl (by simp [State.takeClaim])
  | periodEnd => exact .inl (by simp [State.takeClaim])
  | enteringUp => exact .inl (by simp [State.takeClaim, State.takeEnteringUp])
  | slip => exact .inl (by simp [State.takeClaim, State.takeSlip])

/-! ### The claims taken -/

theorem settleFor_linked {s : State} (law : s.Linked) (n : Nat) : (State.settleFor n s).Linked := by
  induction n generalizing s with
  | zero => exact law
  | succ n ih =>
    unfold State.settleFor
    split
    · exact law
    · rename_i c rest _
      exact ih (takeClaim_linked (s := { s with claims := rest }) (law.of_eq rfl rfl rfl) c)

theorem settle_linked {s : State} (law : s.Linked) : s.settle.Linked := settleFor_linked law _

/-- A follower's entry into UP starts from an acquire counter of 0 (R145). -/
theorem enterUp_linked {s : State} (law : s.Linked) : s.enterUp.Linked := by
  unfold State.enterUp
  split
  · exact State.Linked.of_up
      { leader := law.timed.leader, follower := law.timed.follower, bound := Nat.zero_le 2
        entered := fun _ => rfl, off := by simp [State.makeClaim] } rfl
  · exact law

theorem catchUp_linked {s : State} (law : s.Linked) : s.catchUp.Linked :=
  settle_linked (enterUp_linked (settle_linked law))

theorem through_linked {s t : State} {kind : Claim → Bool} (law : s.Linked)
    (h : s.through kind = some t) : t.Linked := by
  unfold State.through at h
  generalize 2 * s.claims.length = n at h
  induction n generalizing s with
  | zero => cases h
  | succ n ih =>
    unfold State.takeThroughFor at h
    split at h
    · cases h
    · rename_i c rest _
      have taken := takeClaim_linked (s := { s with claims := rest }) (law.of_eq rfl rfl rfl) c
      dsimp only at h
      split at h
      · cases h; exact taken
      · exact ih taken h

theorem takeThrough_linked {s : State} (law : s.Linked) (kind : Claim → Bool) :
    (s.takeThrough kind).Linked := by
  unfold State.takeThrough
  split
  · exact law
  · split
    · cases h : s.through kind with
      | none => exact law
      | some t => exact through_linked law h
    · exact law

/-- The claims taken leave the link in OFF or out of it. -/
theorem settleFor_off (n : Nat) (s : State) :
    (State.settleFor n s).link.state = .off ↔ s.link.state = .off := by
  induction n generalizing s with
  | zero => exact Iff.rfl
  | succ n ih =>
    unfold State.settleFor
    split
    · exact Iff.rfl
    · rename_i c rest _
      rw [ih]
      rcases takeClaim_link { s with claims := rest } c with e | ⟨up, e⟩ <;> rw [e]
      have up : s.link.state = .up := up
      simp [up]

/-- Catching up leaves the link in OFF or out of it. -/
theorem catchUp_off (s : State) : s.catchUp.link.state = .off ↔ s.link.state = .off := by
  have entered (u : State) : u.enterUp.link.state = .off ↔ u.link.state = .off := by
    unfold State.enterUp
    split
    · rename_i due
      have acquire : u.link.state = .acquire := by simp_all [State.entryDue]
      simp [State.makeClaim, acquire]
    · exact Iff.rfl
  rw [State.catchUp, State.settle, settleFor_off, entered, State.settle, settleFor_off]

/-! ### The transmit lane -/

/-- The staging of a cell stages nothing on a still lane. -/
theorem stageNext_linked {s t : State} (law : s.Linked) (h : s.stageNext = .next t) : t.Linked := by
  rcases stageNext_cases h with ⟨c, rest, w, queue, -, rfl⟩ | ⟨n, -, opened, rfl⟩ | ⟨queue, opened, rfl⟩
  · exact law.rest rfl (stageCell_moves s c rest w).idle fun still => nomatch still.queue.symm.trans queue
  · exact law.rest rfl id fun still => nomatch still.opened.symm.trans opened
  · exact law.rest rfl id fun _ => ⟨rfl, queue, opened⟩

theorem cellTime_linked {s t : State} (law : s.Linked) (h : s.cellTime = .next t) : t.Linked := by
  rcases cellTime_cases h with ⟨-, rfl⟩ | ⟨-, -, h⟩
  · exact law.rest rfl id fun ⟨staged, queue, opened⟩ => ⟨staged, queue, opened⟩
  · exact stageNext_linked (s := s.catchUp.sendStaged) ((catchUp_linked law).rest rfl id
      fun ⟨staged, queue, opened⟩ => ⟨staged, queue, opened⟩) h

theorem passTo_linked {kind : Claim → Bool} {n : Nat} {s t : State} (law : s.Linked)
    (h : s.passTo kind n = .next t) : t.Linked := by
  induction n generalizing s with
  | zero => cases h; exact law
  | succ n ih =>
    unfold State.passTo at h
    split at h
    · cases h; exact law
    · split at h
      · exact ih (cellTime_linked law ‹_›) h
      · cases h
      · cases h

theorem takeOfLane_linked {s t : State} {kind : Claim → Bool} {toCome : State → Bool} (law : s.Linked)
    (h : s.takeOfLane kind toCome = .next t) : t.Linked := by
  unfold State.takeOfLane at h
  split at h
  · cases h; exact through_linked law ‹_›
  · dsimp only at h
    split at h
    · split at h
      · rename_i u hu
        cases h
        cases ht : u.through kind with
        | none => exact law
        | some v => exact through_linked (passTo_linked (catchUp_linked law) hu) ht
      · cases h
      · cases h
    · cases h; exact law

theorem enteringUp_linked {s t : State} (law : s.Linked) (h : execEnteringUp s = .next t) : t.Linked := by
  unfold execEnteringUp at h
  split at h
  · cases h; exact law
  split at h
  · cases h; exact takeThrough_linked law _
  split at h
  · cases h; exact catchUp_linked law
  · cases h; exact law

end Sys2Proof.Machine
end

section
/-! SUPPORT. The events of the link, the requests and the resets keep the law of the link, and the statement
about every step. -/

namespace Sys2Proof.Machine

/-! ### Bursts and receive periods -/

theorem cutBurst_linked {s : State} (law : s.Linked) : s.cutBurst.Linked :=
  law.rest (by simp) (cutBurst_eq s ▸ burstCut_moves s).idle (by simp)

theorem endReceive_linked {s : State} (law : s.Linked) : s.endReceive.Linked :=
  .ite (law.rest rfl (fun ⟨list, order, standings, tx, rx⟩ => ⟨list, order, standings, tx, rx⟩) id) law

theorem reportMark_linked {s : State} (law : s.Linked) (n : Period) : (s.reportMark n).Linked :=
  (endReceive_linked (cutBurst_linked law)).rest (by simp [State.reportMark])
    (fun ⟨list, order, standings, tx, rx⟩ => ⟨list, order, standings, tx, rx⟩) (by simp [State.reportMark])

/-! ### Marks -/

/-- Out of OFF the lane is free. -/
theorem State.Linked.with_lane {s : State} (law : s.Linked) (on : s.link.state ≠ .off)
    (l : TransmitLane) : ({ s with lane := l } : State).Linked :=
  ⟨law.timed, law.unit, fun off => absurd off on⟩

/-- A leader that is not OFF opens a period (R140). -/
theorem emitMark_linked {s : State} (law : s.Linked) (on : s.link.state ≠ .off) : s.emitMark.Linked := by
  have timed : LinkController.Timed { s.link with period := s.link.period + 1, markTaken := true } :=
    { leader := law.timed.leader, follower := law.timed.follower, bound := law.timed.bound
      entered := law.timed.entered, off := fun off => absurd off on }
  exact (reportMark_linked (law.with_link timed rfl) _).with_lane (by simpa using on) _

/-- What is left of a transmit period runs out in UP (R17). -/
theorem runOut_linked {s : State} (law : s.Linked) (up : s.link.state = .up) : s.runOut.Linked :=
  law.stays_up (by simp) up

/-- The Link Controller with its ending period settled at the leader (R138, R140, R149). -/
def State.settledLink (s : State) : LinkController :=
  { s.link with
    missingEchoes := if s.link.state = .up then (if s.echoed then 0 else s.link.missingEchoes + 1)
      else s.link.missingEchoes
    acquire := if s.link.state = .acquire ∧ s.echoed = false then 0 else s.link.acquire
    aligned := s.link.aligned && s.echoed }

/-- The ending period settled: a leaving-UP claim made, or what is left of the period run out, in UP. -/
theorem settlePeriod_eq (s : State) :
    s.settlePeriod =
      if s.losesEchoes then State.makeClaim { s with link := s.settledLink } .leavingUp
      else if s.link.state = .up then State.runOut { s with link := s.settledLink }
      else { s with link := s.settledLink } := rfl

theorem settlePeriod_link (s : State) : s.settlePeriod.link = s.settledLink := by
  rw [settlePeriod_eq]
  split
  · rfl
  · split
    · simp
    · rfl

/-- A period settled stops nothing and starts nothing in OFF, and leaves the acquire counter in UP. -/
theorem settledLink_timed {s : State} (timed : s.link.Timed) : s.settledLink.Timed where
  leader := timed.leader
  follower := timed.follower
  bound := by
    unfold State.settledLink
    dsimp only
    split
    · exact Nat.zero_le 2
    · exact timed.bound
  entered up := by
    have up : s.link.state = .up := up
    simp [State.settledLink, up, timed.entered up]
  off off := by
    have off : s.link.state = .off := off
    have stopped := timed.off off
    exact ⟨stopped.periodTimer, stopped.lossTimer, by simp [State.settledLink, off, stopped.acquire],
      by simp [State.settledLink, off, stopped.missingEchoes], stopped.echoRecord,
      by simp [State.settledLink, stopped.aligned]⟩

/-- The ending period settled at the leader (R140, R149). -/
theorem settlePeriod_linked {s : State} (law : s.Linked) : s.settlePeriod.Linked := by
  have settled := law.with_link (settledLink_timed law.timed) rfl
  rw [settlePeriod_eq]
  split
  · exact settled.of_eq rfl rfl rfl
  · split
    · exact runOut_linked settled ‹_›
    · exact settled

/-- A follower's acquire counter after a mark: at most 2, and what it was in UP (R145). -/
theorem acquireAfterMark_bound {s : State} (law : s.Linked) (m : Period) :
    s.acquireAfterMark m ≤ 2 ∧ (s.link.state = .up → s.acquireAfterMark m = 0) := by
  unfold State.acquireAfterMark
  split
  · rename_i acquire
    refine ⟨?_, fun up => nomatch acquire.symm.trans up⟩
    split <;> decide
  · exact ⟨law.timed.bound, law.timed.entered⟩

/-- A follower that is not OFF takes a valid mark (R141). -/
theorem takeMark_linked {s : State} (law : s.Linked) (on : s.link.state ≠ .off)
    (follower : s.link.role = .follower) (m : Period) : (s.takeMark m).Linked := by
  have ran : (if s.link.state = .up then s.runOut else s).Linked ∧
      (if s.link.state = .up then s.runOut else s).link = s.link := by
    split
    · exact ⟨runOut_linked law ‹_›, by simp⟩
    · exact ⟨law, rfl⟩
  unfold State.takeMark
  dsimp only
  generalize (if s.link.state = .up then s.runOut else s) = u at ran
  obtain ⟨ran, link⟩ := ran
  have slipped : (if u.link.state = .up ∧ m ≠ u.link.period + 1 then u.makeClaim .slip else u).Linked ∧
      (if u.link.state = .up ∧ m ≠ u.link.period + 1 then u.makeClaim .slip else u).link = s.link := by
    split
    · exact ⟨ran.of_eq rfl rfl rfl, link⟩
    · exact ⟨ran, link⟩
  generalize (if u.link.state = .up ∧ m ≠ u.link.period + 1 then u.makeClaim .slip else u) = v
    at slipped
  obtain ⟨slipped, link⟩ := slipped
  rw [← link] at on follower
  obtain ⟨bound, entered⟩ := acquireAfterMark_bound slipped m
  have timed : LinkController.Timed { v.link with
      period := m, lossTimer := true, markTaken := true, acquire := v.acquireAfterMark m } :=
    { leader := fun leader => (nomatch follower.symm.trans leader), follower := slipped.timed.follower
      bound := bound, entered := entered, off := fun off => absurd off on }
  exact (reportMark_linked (slipped.with_link timed rfl) m).with_lane (by simpa using on) _

/-- A leader that is not OFF accepts a valid echo (R142, R146). -/
theorem acceptEcho_linked {s : State} (law : s.Linked) (on : s.link.state ≠ .off) :
    s.acceptEcho.Linked := by
  unfold State.acceptEcho
  dsimp only
  split
  · rename_i acquire
    split
    · exact .of_up { leader := law.timed.leader, follower := law.timed.follower, bound := Nat.zero_le 2
                     entered := fun _ => rfl, off := by simp [State.makeClaim] } rfl
    · exact law.with_link ⟨law.timed.leader, law.timed.follower, one_le_two,
        fun up => (nomatch acquire.symm.trans up), fun off => absurd off on⟩ rfl
  · exact law.with_link ⟨law.timed.leader, law.timed.follower, law.timed.bound, law.timed.entered,
      fun off => absurd off on⟩ rfl

/-- A part that hears its receive lane is not OFF, also when it has caught up (R137). -/
theorem hears_on {s : State} (h : s.hears = true) : s.catchUp.link.state ≠ .off := by
  rw [Ne, catchUp_off]
  unfold State.hears at h
  simp only [Bool.and_eq_true, decide_eq_true_eq] at h
  obtain ⟨-, on⟩ := h
  exact on

/-- A cell of type mark (R138, R141, R142). -/
theorem receiveMark_linked {s : State} (law : s.Linked) (c : MarkCell) : (s.receiveMark c).Linked := by
  unfold State.receiveMark
  split
  · have on := hears_on ‹_›
    have caught := catchUp_linked law
    generalize s.catchUp = u at on caught
    have aligned : State.Linked { u with link := { u.link with aligned := true } } :=
      caught.with_link ⟨caught.timed.leader, caught.timed.follower, caught.timed.bound,
        caught.timed.entered, fun off => absurd off on⟩ rfl
    dsimp only
    split
    · rename_i follower
      exact .ite (takeMark_linked aligned on follower _) (cutBurst_linked aligned)
    · exact .ite (acceptEcho_linked (cutBurst_linked aligned) (by simpa using on))
        (cutBurst_linked aligned)
  · exact law

/-! ### Timers and cells -/

/-- PERIOD_TIMER_EXPIRY (R140). -/
theorem periodTimerExpiry_linked {s t : State} (law : s.Linked)
    (h : execPeriodTimerExpiry s = .next t) : t.Linked := by
  unfold execPeriodTimerExpiry at h
  split at h
  · rename_i runs
    simp only [Bool.and_eq_true] at runs
    obtain ⟨⟨hears, -⟩, -⟩ := runs
    cases h
    refine emitMark_linked (settlePeriod_linked (catchUp_linked law)) ?_
    rw [settlePeriod_link]
    exact hears_on hears
  · cases h; exact law

/-- LOSS_TIMER_EXPIRY (R148). -/
theorem lossTimerExpiry_linked {s t : State} (law : s.Linked)
    (h : execLossTimerExpiry s = .next t) : t.Linked := by
  unfold execLossTimerExpiry at h
  split at h
  · have caught := catchUp_linked law
    generalize s.catchUp = u at caught h
    have off := caught.timed.off
    have expired : State.Linked { u with link := { u.link with lossTimer := false } } :=
      caught.with_link ⟨fun _ => rfl, caught.timed.follower, caught.timed.bound, caught.timed.entered,
        fun e => { off e with lossTimer := rfl }⟩ rfl
    dsimp only at h
    split at h
    · cases h; exact expired.of_eq rfl rfl rfl
    · cases h
      exact caught.with_link ⟨fun _ => rfl, caught.timed.follower, Nat.zero_le 2, fun _ => rfl,
        fun e => { off e with lossTimer := rfl, acquire := rfl }⟩ rfl
  · cases h; exact law

/-- ALIGNMENT_LAPSE (R138). -/
theorem alignmentLapse_linked {s t : State} (law : s.Linked)
    (h : execAlignmentLapse s = .next t) : t.Linked := by
  unfold execAlignmentLapse at h
  split at h
  · cases h
    exact law.with_link ⟨law.timed.leader, law.timed.follower, law.timed.bound, law.timed.entered,
      fun e => { law.timed.off e with aligned := rfl }⟩ rfl
  · cases h; exact law

/-- TRAILER_ARRIVAL (R124, R143). -/
theorem trailerArrival_linked {s t : State} {n : BitVec 16} (law : s.Linked)
    (h : execTrailerArrival n s = .next t) : t.Linked := by
  unfold execTrailerArrival at h
  split at h
  · have cut := cutBurst_linked (catchUp_linked law)
    dsimp only at h
    split at h
    · cases h; exact catchUp_linked law
    · cases h; exact .ite (endReceive_linked cut) cut
  · cases h; exact law

/-- LEAD_CELL_ARRIVAL (R122, R124). -/
theorem leadCellArrival_linked {s t : State} {channel count : Byte} (law : s.Linked)
    (h : execLeadCellArrival channel count s = .next t) : t.Linked := by
  unfold execLeadCellArrival at h
  split at h
  · have cut := cutBurst_linked (catchUp_linked law)
    dsimp only at h
    split at h
    · cases h; exact cut
    split at h
    · cases h; exact cut
    split at h
    · cases h; exact cut.of_eq rfl rfl rfl
    · cases h; exact cut
  · cases h; exact law

/-- A payload cell moves a burst on, which is there in UP alone (R124). -/
theorem receivePayload_linked {s t : State} {data : Payload} {sound : Bool} (law : s.Linked)
    (h : s.receivePayload data sound = .next t) : t.Linked := by
  rcases receivePayload_cases h with rfl | ⟨f, m, hf, -, rfl⟩
  · exact law
  · have up : s.link.state = .up := by
      by_contra down
      exact nomatch (law.unit down).rx.symm.trans hf
    dsimp only
    split <;> exact law.stays_up rfl up

/-! ### Requests -/

/-- The services of a record aborted: an idle unit has none, and a still lane carries none of their cells
(R21). -/
theorem abortFlight_linked {s : State} (law : s.Linked) (h : Handle) : (s.abortFlight h).Linked := by
  refine law.rest (by simp) (abortFlight_drops s h).idle fun still => ?_
  unfold State.abortFlight
  dsimp only
  split
  · exact ⟨by simp [TransmitLane.silence, still.queue, still.staged],
      by simp [TransmitLane.silence, still.queue], still.opened⟩
  · exact still

/-- A record force-retired within a PURGE (R197). -/
theorem purgeRecord_linked {s : State} (law : s.Linked) (h : Handle) : (s.purgeRecord h).Linked :=
  (abortFlight_linked law h).of_eq (by simp [State.purgeRecord]) (by simp [State.purgeRecord])
    (by simp [State.purgeRecord])

/-- A record that leaves the lists (R72, R80). -/
theorem leaveLists_linked {s : State} (law : s.Linked) (h : Handle) : (s.leaveLists h).Linked :=
  law.rest rfl (fun idle => leaveLists_idle idle h) id

/-- A PURGE (R196). -/
theorem purge_linked {s : State} (law : s.Linked) (n : Port) (self : Bool) : (s.purge n self).Linked := by
  have records : (s.purgeRecords n self).Linked :=
    List.foldlRecOn (motive := State.Linked) (s.ownedBy n) State.purgeRecord
      (law.of_eq (t := s.setPort n ((s.port n).purgeRequests self)) rfl rfl rfl)
      fun _ law h _ => purgeRecord_linked law h
  rw [purge_eq]
  exact records.of_eq rfl rfl rfl

/-- The role is given in OFF alone (R152). -/
theorem applyRole_linked {s : State} (law : s.Linked) {role : Option Role}
    (off : role.isSome = true → s.link.state = .off) : (s.applyRole role).Linked := by
  cases role with
  | none => exact law
  | some x =>
    have stopped := law.timed.off (off rfl)
    have still : LinkController.Stopped { s.link with role := x } := { stopped with }
    exact law.with_link still.timed rfl

/-- ENABLE: from OFF to ACQUIRE, where a leader emits its first mark (R140, R152). -/
theorem enable_linked {s : State} (law : s.Linked) : s.enable.Linked := by
  unfold State.enable
  split
  · rename_i off
    have stopped := law.timed.off off
    have idle := law.unit (by simp [off])
    dsimp only
    split
    · exact .of_acquire ⟨law.timed.leader, law.timed.follower, Nat.zero_le 2, fun _ => rfl, nofun⟩ rfl idle
    · rename_i leader
      refine emitMark_linked (.of_acquire ⟨fun _ => stopped.lossTimer,
        fun follower => (nomatch leader.symm.trans follower), Nat.zero_le 2, fun _ => rfl, nofun⟩ rfl idle) ?_
      simp
  · exact law

/-- The link turned off with its unit idle (R152). -/
theorem turnOff_linked {s : State} (idle : s.psu.Idle) : s.turnOff.Linked where
  timed := LinkController.Stopped.timed ⟨rfl, rfl, rfl, rfl, rfl, rfl⟩
  unit _ := cutPeriod_idle idle
  lane _ := ⟨rfl, rfl, rfl⟩

/-- DISABLE (R150, R152). -/
theorem disable_linked {s : State} (law : s.Linked) : s.disable.Linked := by
  unfold State.disable
  split
  · exact turnOff_linked (leaveUp_idle s)
  · rename_i acquire
    exact turnOff_linked (law.unit (by simp [acquire]))
  · exact law

/-- Every accepted request keeps the law of the link: all but CLOSE from port 0, LINKCTL, PURGE and those
that take a record off the lists leave link, unit and lane alone. -/
theorem RequestEffect.linked {s t : State} (e : RequestEffect s t) (law : s.Linked) : t.Linked := by
  cases e with
  | read => exact law
  | put => exact law.of_eq rfl rfl rfl
  | poll => exact law.of_eq rfl rfl rfl
  | quota => exact law.of_eq rfl rfl rfl
  | openStream => exact law.of_eq rfl rfl rfl
  | start h => exact (leaveLists_linked law h).of_eq rfl rfl rfl
  | stop => exact law.of_eq rfl rfl rfl
  | withdraw => exact law.of_eq (by simp) (by simp) (by simp)
  | handover => exact law.of_eq rfl rfl rfl
  | close => exact law.of_eq (by simp) (by simp) (by simp)
  | closing => exact law.of_eq (by simp) (by simp) (by simp)
  | draining h =>
    have withdrawn : (s.withdrawAmendment h).Linked := law.of_eq (by simp) (by simp) (by simp)
    exact (leaveLists_linked withdrawn h).of_eq rfl rfl rfl
  | upgrade => exact law.of_eq rfl rfl rfl
  | closeDraining => exact law.of_eq (by simp) (by simp) (by simp)
  | closeForced h =>
    exact (abortFlight_linked law h).of_eq (by simp [State.forceRetire]) (by simp [State.forceRetire])
      (by simp [State.forceRetire])
  | hold => exact law.of_eq rfl rfl rfl
  | reshape => exact law.of_eq (by simp) (by simp) (by simp)
  | enable role off => exact enable_linked (applyRole_linked law off)
  | disable role off => exact disable_linked (applyRole_linked law off)
  | purge p n self r =>
    have purged := purge_linked law n self
    exact .ite (purged.of_eq rfl rfl rfl) purged

theorem grant_linked {s t : State} {p : Port} {takes : Request → Bool} {run : Request → State → Answer}
    (law : s.Linked) (hr : Handles p run) (h : s.grant p takes run = .next t) : t.Linked := by
  rcases grant_cases h with rfl | ⟨r, u, a, -, -, -, e, rfl⟩
  · exact law
  · have met : (s.settle.advance p).Linked := (settle_linked law).of_eq rfl rfl rfl
    rcases hr.answers e with ⟨-, rfl⟩ | ⟨-, effect⟩
    · exact met.of_eq rfl rfl rfl
    · exact (effect.linked met).of_eq rfl rfl rfl

/-! ### Entries that run nothing, transactions and resets -/

theorem badFrameEntry_linked {p : Port} {s t : State} (law : s.Linked)
    (h : execBadFrameEntry p s = .next t) : t.Linked := by
  unfold execBadFrameEntry at h
  split at h
  · cases h; exact law
  · dsimp only at h
    split at h
    · cases h; exact (settle_linked law).of_eq rfl rfl rfl
    · cases h; exact law

theorem repeatEntry_linked {p : Port} {s t : State} (law : s.Linked)
    (h : execRepeatEntry p s = .next t) : t.Linked := by
  unfold execRepeatEntry at h
  split at h
  · cases h; exact law
  · dsimp only at h
    split at h
    · cases h; exact (settle_linked law).of_eq rfl rfl rfl
    · cases h; exact law

/-- Every block at its reset values: the link OFF with nothing running (R135, R154). -/
theorem linked_of_reset {s : State} {role : Role} (link : s.link = .reset role) (unit : s.psu = .reset)
    (lane : s.lane = .reset) : s.Linked where
  timed := link ▸ LinkController.Stopped.timed ⟨rfl, rfl, rfl, rfl, rfl, rfl⟩
  unit _ := unit ▸ ⟨rfl, rfl, fun h => by simp [PeriodService.reset], rfl, rfl⟩
  lane _ := lane ▸ ⟨rfl, rfl, rfl⟩

/-- A frame judged touches ports alone, but that one may start a reset (R201). -/
theorem judgeFrame_linked {s : State} (law : s.Linked) (p : Port) (mosi : List Byte) :
    (s.judgeFrame p mosi).Linked := by
  unfold State.judgeFrame
  split
  · exact law
  · exact law.of_eq rfl rfl rfl
  · exact .ite (law.of_eq rfl rfl rfl) (.ite (law.of_eq rfl rfl rfl)
      (.ite (linked_of_reset rfl rfl rfl) (law.of_eq rfl rfl rfl)))

theorem transactionStart_linked {x : TransactionStart} {s t : State} (law : s.Linked)
    (h : execTransactionStart x s = .next t) : t.Linked := by
  unfold execTransactionStart at h
  split at h
  · cases h; exact law
  · cases h; exact law.of_eq rfl rfl rfl

theorem transactionEnd_linked {p : Port} {mosi : List Byte} {s t : State} (law : s.Linked)
    (h : execTransactionEnd p mosi s = .next t) : t.Linked := by
  unfold execTransactionEnd at h
  dsimp only at h
  split at h
  · cases h; exact law
  · split at h
    · cases h; exact law.of_eq rfl rfl rfl
    · cases h; exact judgeFrame_linked (s := s.setPort p _) (law.of_eq rfl rfl rfl) p _

/-- The end of a reset: the link is at its reset values, so that it may take either role (R154, R203). -/
theorem endReset_linked {s : State} (reset : s.resetBlocks = s) (pin hold high : Bool) :
    (State.endReset { s with resetPin := pin, resetHold := hold } high).Linked := by
  have link : s.link = .reset s.link.role := (congrArg State.link reset).symm
  have unit : s.psu = .reset := (congrArg State.psu reset).symm
  have lane : s.lane = .reset := (congrArg State.lane reset).symm
  refine .ite (linked_of_reset link unit lane) (linked_of_reset (role := rolePinRole high) ?_ unit lane)
  dsimp only
  rw [link]
  rfl

/-- Every command keeps the law of the link. -/
theorem exec_linked {i : Instr} {s t : State} (law : s.Linked) (reset : s.heldLaw)
    (h : exec i s = .next t) : t.Linked := by
  cases hi : requestRow i with
  | some p =>
    obtain ⟨takes, run, hr, e⟩ := requestRow_grants hi
    exact grant_linked law hr (e s ▸ h)
  | none =>
    cases i <;> simp only [requestRow, reduceCtorEq] at hi <;> simp only [exec] at h
    case transactionStart => exact transactionStart_linked law h
    case transactionEnd => exact transactionEnd_linked law h
    case badFrameEntry => exact badFrameEntry_linked law h
    case repeatEntry => exact repeatEntry_linked law h
    case reset p =>
      unfold execReset at h
      split at h
      · split at h
        · cases h; exact law
        · cases h; exact linked_of_reset rfl rfl rfl
      · simp [‹¬p = 0›] at hi
    case resetNAssert => cases h; exact linked_of_reset rfl rfl rfl
    case resetNRelease high =>
      unfold execResetNRelease at h
      split at h
      · rename_i pin
        cases h
        exact endReset_linked (reset (by simp [State.held, pin])) false s.resetHold high
      · cases h; exact law
    case resetHoldExpiry high =>
      unfold execResetHoldExpiry at h
      split at h
      · rename_i hold
        cases h
        exact endReset_linked (reset (by simp [State.held, hold])) s.resetPin false high
      · cases h; exact law
    case periodTimerExpiry => exact periodTimerExpiry_linked law h
    case markArrival => cases h; exact receiveMark_linked law _
    case echoArrival => cases h; exact receiveMark_linked law _
    case lossTimerExpiry => exact lossTimerExpiry_linked law h
    case alignmentLapse => exact alignmentLapse_linked law h
    case trailerArrival => exact trailerArrival_linked law h
    case leadCellArrival => exact leadCellArrival_linked law h
    case payloadCellArrival =>
      unfold execPayloadCellArrival at h
      split at h
      · exact receivePayload_linked (catchUp_linked law) h
      · cases h; exact law
    case idleCellArrival =>
      unfold execIdleCellArrival at h
      split at h
      · cases h; exact cutBurst_linked (catchUp_linked law)
      · cases h; exact law
    case badCheckCellArrival =>
      unfold execBadCheckCellArrival at h
      split at h
      · exact receivePayload_linked (catchUp_linked law) h
      · cases h; exact law
    case markProcessing => cases h; exact takeThrough_linked law _
    case serviceStart =>
      unfold execServiceStart at h
      split at h
      · cases h; exact law
      · exact takeOfLane_linked law h
    case txCompletion =>
      unfold execTxCompletion at h
      split at h
      · cases h; exact law
      · exact takeOfLane_linked law h
    case matchClaim => cases h; exact takeThrough_linked law _
    case rxCompletion => cases h; exact takeThrough_linked law _
    case periodEnd => cases h; exact takeThrough_linked law _
    case leavingUp => cases h; exact takeThrough_linked law _
    case enteringUp => exact enteringUp_linked law h
    case slip => cases h; exact takeThrough_linked law _

/-- The law of a part held in reset speaks of no waiting command. -/
theorem heldLaw_pending {s : State} (reset : s.heldLaw) (rest : List Instr) :
    State.heldLaw { s with pending := rest } := fun held =>
  congrArg (fun t : State => { t with pending := rest }) (reset held)

/-- Settles O16: the law holds of each block where the link's state asks for it, and every claim, event,
request and reset leaves it so. -/
theorem stepKeepsLink : Obligations.StepKeepsLink := by
  intro s t law reset h
  rw [linkLaw_iff] at law ⊢
  unfold step at h
  split at h
  · exact cellTime_linked law h
  · rename_i rest _
    exact exec_linked (s := { s with pending := rest }) (law.of_eq rfl rfl rfl)
      (heldLaw_pending reset rest) h

end Sys2Proof.Machine
end

section
/-! SUPPORT. The statements about the miss rule, the match of a lead cell and the completion of an RX burst. -/

namespace Sys2Proof.Machine

/-! ### The miss rule (R128) -/

/-- The run after one more miss: up to the limit or, with limit 0, to 15. -/
theorem nextRun_eq (st : Stream) :
    st.nextRun = if st.params.missLimit = 0 then min 15 (st.missRun + 1)
      else min st.params.missLimit (st.missRun + 1) := by
  unfold Stream.nextRun
  split <;> rfl

/-- A LIVE record below its limit meets it exactly at the miss that makes up the number. -/
theorem nextRun_meets {st : Stream} (law : st.runLaw) :
    (st.state = .live ∧ st.params.missLimit ≠ 0 ∧ st.nextRun = st.params.missLimit) ↔
      (st.state = .live ∧ st.params.missLimit ≠ 0 ∧ st.missRun + 1 = st.params.missLimit) := by
  obtain ⟨-, -, below⟩ := law
  refine and_congr_right fun live => and_congr_right fun limit => ?_
  have below := below limit live
  rw [nextRun_eq, if_neg limit]
  omega

/-- A miss of an open record: its run raised and MISS queued where it is asked for, and the record SUSPENDED
where it meets its limit. -/
theorem miss_open {s : State} {h : Handle} {st : Stream} (hs : s.stream h = some st) (cause : MissCause) :
    let counted := (s.setStream h { st with missRun := st.nextRun }).notifyIf st.notify.miss st.owner
      (.miss h (s.record h).generation cause st.nextRun)
    s.miss h cause =
      if st.state = .live ∧ st.params.missLimit ≠ 0 ∧ st.nextRun = st.params.missLimit then
        (counted.setStream h { st with missRun := st.nextRun, state := .suspended .misses }).notify st.owner
          (.suspended h (s.record h).generation .misses)
      else counted := by
  unfold State.miss
  rw [hs]

/-- Settles O23: under the law of the run, the run meets the limit where it was one below. -/
theorem missRule : Obligations.MissRule := by
  intro s h st cause hs law
  rw [← nextRun_eq, ← nextRun_meets law, miss_open hs cause]
  exact ⟨fun meets => if_pos meets, fun below => if_neg below⟩

/-! ### The match of a lead cell (R123, R124) -/

/-- The table entry of a handle is of its record as it stands, and listed: its generation, a served state and
its form (R123). -/
def State.Stands (s : State) (h : Handle) (st : Stream) : Prop :=
  (s.record h).generation = (s.psu.rxTable.get h).generation ∧
    (st.state = .live ∨ st.state = .closing .drain) ∧ (s.psu.rxTable.get h).standing ≠ .none ∧
    (s.psu.rxTable.get h).form = st.form

section Match

variable {s : State} {h : Handle} {st : Stream}

/-- A lead cell whose table entry is not of its record as it stands is discarded. -/
theorem takeMatch_discarded (fails : ∀ st, s.stream h = some st → ¬s.Stands h st) (count : Nat) :
    s.takeMatch h count = s := by
  unfold State.takeMatch
  dsimp only
  split
  · rfl
  · rename_i st hs
    split
    · rfl
    split
    · rfl
    split
    · rfl
    · rename_i generation served listed
      rw [not_or, not_not] at listed
      exact absurd ⟨not_not.mp generation, served_iff.mp (by simpa using served), listed.1, listed.2.symm⟩
        (fails st hs)

/-- A lead cell whose table entry stands: OFFSCHEDULE where it is not DUE, else what its due buffer's owner
asks for. -/
theorem takeMatch_stands (hs : s.stream h = some st) (stands : s.Stands h st) (count : Nat) :
    ((s.psu.rxTable.get h).standing ≠ .due → s.takeMatch h count =
      s.setStream h { st with policing := { st.policing with offSchedule := true } }) ∧
    ((s.psu.rxTable.get h).standing = .due →
      (st.dueBuffer.owner = .host → st.state = .live →
        s.takeMatch h count = (s.setStanding h .received).miss h .overrun) ∧
      (st.dueBuffer.owner = .host → st.state ≠ .live → s.takeMatch h count = s.retire h true) ∧
      (st.dueBuffer.owner = .link →
        s.takeMatch h count = (s.setStanding h .received).startReceive h st count)) := by
  obtain ⟨generation, served, listed, form⟩ := stands
  have early : ((s.psu.rxTable.get h).standing = .notDue ∨ (s.psu.rxTable.get h).standing = .received) ↔
      (s.psu.rxTable.get h).standing ≠ .due := by
    cases e : (s.psu.rxTable.get h).standing <;> simp_all
  unfold State.takeMatch
  simp only [hs]
  rw [if_neg (not_not.mpr generation), if_neg (by simp [served_iff.mpr served]),
    if_neg (not_or.mpr ⟨listed, not_not.mpr form.symm⟩)]
  simp only [early]
  refine ⟨fun e => if_pos e, fun due => ?_⟩
  rw [if_neg (not_not.mpr due)]
  refine ⟨fun host live => ?_, fun host other => ?_, fun link => ?_⟩
  · rw [host]; exact if_pos live
  · rw [host]; exact if_neg other
  · rw [link]

end Match

/-- The row takes the claim at the front (R16). -/
theorem matchClaim_exec {s : State} {h : Handle} {count : Nat} {rest : List Claim} (held : s.held = false)
    (claims : s.claims = .matchLead h count :: rest) :
    exec .matchClaim s = .next (State.takeMatch { s with claims := rest } h count) :=
  congrArg Host.Outcome.next (takeThrough_front held claims rfl)

/-- Settles O56: the rows of R123 in order. -/
theorem matchClaim : Obligations.MatchClaim := by
  intro s h count rest held claims v e stands w
  rw [matchClaim_exec held claims]
  refine ⟨fun fails => congrArg _ (takeMatch_discarded (s := v) fails count), fun st hs stood => ?_⟩
  obtain ⟨early, due⟩ := takeMatch_stands (s := v) (h := h) hs stood count
  rw [imp_and, imp_and] at due
  obtain ⟨overrun, drained, begun⟩ := due
  refine ⟨fun e => congrArg _ (early e), fun e host live => congrArg _ (overrun e host live),
    fun e host drain => congrArg _ (drained e host (by simp [drain])), fun e link => ?_⟩
  obtain ⟨generation, -⟩ := stood
  rw [begun e link, State.startReceive, ← generation]
  split
  · rfl
  · rw [List.append_nil]; rfl

/-! ### The completion of an RX burst (R125, R126) -/

/-- The record ends with its service: it closes in mode IMMEDIATE, or in mode DRAIN with no buffer LINK
(R82, R84). -/
def Stream.Ends (st : Stream) : Prop :=
  st.state = .closing .immediate ∨
    (st.state = .closing .drain ∧ st.bufferA.owner ≠ .link ∧ st.bufferB.owner ≠ .link)

theorem ends_iff (st : Stream) : st.Ends ↔
    st.state = .closing .immediate ∨ (st.state = .closing .drain ∧ st.hasOwner .link = false) := by
  simp [Stream.Ends, Stream.hasOwner]

/-- A miss suspends a LIVE record alone, so that a record ends with its service as it would without it. -/
theorem missed_ends (st : Stream) : st.missed.Ends ↔ st.Ends := by
  have closing (m : CloseMode) : st.missed.state = .closing m ↔ st.state = .closing m := by
    unfold Stream.missed
    dsimp only
    split
    · rename_i meets
      simp [meets.1]
    · exact Iff.rfl
  simp only [Stream.Ends, closing]
  exact Iff.rfl

section Close

variable {s : State} {h : Handle} {st : Stream}

theorem closeAfterService_ends (hs : s.stream h = some st) (ends : st.Ends) :
    s.closeAfterService h = s.retire h true := by
  simp only [State.closeAfterService, hs]
  exact if_pos ((ends_iff st).mp ends)

theorem closeAfterService_stays (hs : s.stream h = some st) (stays : ¬st.Ends) :
    s.closeAfterService h = s := by
  simp only [State.closeAfterService, hs]
  exact if_neg (mt (ends_iff st).mpr stays)

end Close

/-- The row takes the claim at the front (R16). -/
theorem rxCompletion_exec {s : State} {rest : List Claim} (held : s.held = false)
    (claims : s.claims = .rxCompletion :: rest) :
    exec .rxCompletion s = .next (State.takeRxCompletion { s with claims := rest }) :=
  congrArg Host.Outcome.next (takeThrough_front held claims (by simp))

/-- The replacement of a buffer leaves the record's state. -/
theorem setBuffer_state (st : Stream) (n : BufferName) (b : Buffer) :
    (st.setBuffer n b).state = st.state := by
  cases n <;> rfl

section Completion

variable {s : State} {f : RxFlight} {st : Stream}

theorem takeRxCompletion_none (none : s.psu.rxFlight = none) : s.takeRxCompletion = s.dropRx := by
  rcases takeRxCompletion_cases s with ⟨-, e⟩ | ⟨f, hf, -⟩
  · rw [e, State.dropRx, ← none]
  · cases none.symm.trans hf

/-- A burst whose record is no longer the one matched has no effect on it (R7). -/
theorem takeRxCompletion_stale (hf : s.psu.rxFlight = some f)
    (stale : s.stream f.handle = none ∨ (s.record f.handle).generation ≠ f.generation) :
    s.takeRxCompletion = s.dropRx := by
  rcases takeRxCompletion_cases s with ⟨none, -⟩ | ⟨g, hg, ⟨-, e⟩ | ⟨st, hs, same, -⟩⟩
  · cases none.symm.trans hf
  · exact e
  · obtain rfl := Option.some.inj (hf.symm.trans hg)
    rcases stale with vacant | other
    · cases vacant.symm.trans hs
    · exact absurd same other

/-- The record of a burst is completed, sound or damaged, and then closes where it is to. -/
theorem takeRxCompletion_open (hf : s.psu.rxFlight = some f) (hs : s.stream f.handle = some st)
    (same : (s.record f.handle).generation = f.generation) :
    s.takeRxCompletion = State.closeAfterService
      (if f.damaged then (s.dropRx.setStream f.handle (st.damageRx f.buffer f.excess)).miss f.handle .damaged
        else (s.dropRx.setStream f.handle (st.completeRx f.buffer f.stored)).notifyIf st.notify.done st.owner
          (.done f.handle f.generation f.buffer f.stored (st.policing.addExcess f.excess))) f.handle := by
  rcases takeRxCompletion_cases s with ⟨none, -⟩ | ⟨g, hg, ⟨stale, -⟩ | ⟨x, hx, -, done⟩⟩
  · cases none.symm.trans hf
  · obtain rfl := Option.some.inj (hf.symm.trans hg)
    exact absurd same (stale st hs)
  · obtain rfl := Option.some.inj (hf.symm.trans hg)
    obtain rfl := Option.some.inj (hs.symm.trans hx)
    rcases done with ⟨damaged, e⟩ | ⟨sound, e⟩
    · rw [e, if_pos damaged]
    · rw [e, if_neg (by simp [sound])]

end Completion

/-- Settles O57: no burst, a stale one, or the record completed or damaged, which then ends or stays. -/
theorem rxCompletion : Obligations.RxCompletion := by
  intro s rest held claims v
  rw [rxCompletion_exec held claims]
  refine ⟨fun none => congrArg _ (takeRxCompletion_none (s := { s with claims := rest }) none),
    fun f hf => ⟨fun stale => congrArg _ (takeRxCompletion_stale (s := { s with claims := rest }) hf stale),
      fun st hs same => ?_⟩⟩
  intro b flags sound damaged x t ends
  have completed : State.takeRxCompletion { s with claims := rest } = t.closeAfterService f.handle :=
    takeRxCompletion_open (s := { s with claims := rest }) hf hs same
  have after : ∃ y, t.stream f.handle = some y ∧ (y.Ends ↔ ends) := by
    have state : x.state = st.state := by
      unfold x
      split <;> exact setBuffer_state st f.buffer _
    have kept : x.Ends ↔ ends := by simp only [Stream.Ends, state, ends]
    unfold x at kept
    unfold t
    split
    · rename_i hd
      refine ⟨damaged.missed, by simp [miss_stream], (missed_ends damaged).trans ?_⟩
      rwa [if_pos hd] at kept
    · rename_i hd
      refine ⟨sound, by simp, ?_⟩
      rwa [if_neg hd] at kept
  obtain ⟨y, hy, iff⟩ := after
  rw [completed]
  exact ⟨fun e => congrArg _ (closeAfterService_ends hy (iff.mpr e)),
    fun e => congrArg _ (closeAfterService_stays hy (mt iff.mp e))⟩

end Sys2Proof.Machine
end

section
/-! SUPPORT. The statement about a step on an empty queue: one cell time of the transmit lane. -/

namespace Sys2Proof.Machine

/-! ### Caught up -/

/-- With the claims taken the link is as it was, or its acquire counter is 0, as leaving UP puts it (R149). -/
theorem settleFor_link (n : Nat) (s : State) :
    (State.settleFor n s).link = s.link ∨ (State.settleFor n s).link.acquire = 0 := by
  induction n generalizing s with
  | zero => exact .inl rfl
  | succ n ih =>
    unfold State.settleFor
    split
    · exact .inl rfl
    · rename_i c rest _
      rcases ih (State.takeClaim { s with claims := rest } c) with kept | zero
      · rw [kept]
        rcases takeClaim_link { s with claims := rest } c with e | ⟨-, e⟩
        · exact .inl e
        · exact .inr (by rw [e])
      · exact .inr zero

/-- A follower's entry into UP is due in ACQUIRE, with the acquire counter at 2 (R145). -/
theorem entryDue_false {s : State} (h : s.link.state ≠ .acquire ∨ s.link.acquire ≠ 2) :
    s.entryDue = false := by
  rcases h with h | h <;> simp [State.entryDue, h]

/-- Caught up, no entry into UP is due: it has been made, or was not due (R145). -/
theorem catchUp_entryDue (s : State) : s.catchUp.entryDue = false := by
  unfold State.catchUp State.enterUp
  split
  · rename_i due
    rcases settleFor_link _ (State.makeClaim { s.settle with
      link := { s.settle.link with state := .up, acquire := 0 } } .enteringUp) with e | zero
    · exact entryDue_false (.inl (by rw [State.settle, e]; simp [State.makeClaim]))
    · exact entryDue_false (.inr (by rw [State.settle, zero]; decide))
  · rename_i due
    rw [settle_nil (settle_claims s)]
    simpa using due

/-- A part that has caught up has nothing left to catch up on. -/
theorem catchUp_catchUp (s : State) : s.catchUp.catchUp = s.catchUp :=
  catchUp_nil (settle_claims _) (catchUp_entryDue s)

/-! ### A cell time of a part that sends -/

section Sends

variable {s : State}

theorem step_cellTime (empty : s.pending = []) : step s = s.cellTime := by
  rw [step, empty]

/-- The lane carries an idle cell while the part is held or the link OFF (R137, R200). -/
theorem cellTime_idle (idle : s.held = true ∨ s.link.state = .off) :
    s.cellTime = .next { s with lane := { s.lane with sending := .idle } } :=
  if_pos (by simpa using idle)

/-- Else the claims are taken, the staged cell goes out and the next is staged (R139). -/
theorem cellTime_sends (held : s.held = false) (on : s.link.state ≠ .off) :
    s.cellTime = s.catchUp.sendStaged.stageNext :=
  if_neg (by simp [held, on])

/-- A burst in flight ends with its last payload cell, at the latest with the last cell of its slot (R119). -/
theorem burstEnds_iff {c : LaneCell} {rest : List LaneCell} :
    s.burstEnds c rest = true ↔
      ∃ f, s.psu.txFlight = some f ∧ (((∃ a, c = .payload a) ∧ f.toSend ≤ 1) ∨ rest = []) := by
  have payload : c.isPayload = true ↔ ∃ a, c = .payload a := by
    cases c <;> simp [LaneCell.isPayload]
  unfold State.burstEnds
  rw [← payload]
  cases s.psu.txFlight <;> simp

/-- With the last cell of a slot the turn of the next entry comes, where there is one (R139). -/
theorem startsNext_iff {rest : List LaneCell} :
    (rest.isEmpty && s.nextEntry.isSome) = true ↔
      rest = [] ∧ ∃ e, s.psu.txList[s.psu.txNext]? = some e := by
  simp only [State.nextEntry, Bool.and_eq_true, List.isEmpty_iff, Option.isSome_iff_exists]

/-- The claims that a staged cell makes: the completion of the burst that ends with it, then the start of the
next entry (R119, R139). -/
theorem stagedClaims_cases (c : LaneCell) (rest : List LaneCell) :
    let ends := ∃ f, s.psu.txFlight = some f ∧ (((∃ a, c = .payload a) ∧ f.toSend ≤ 1) ∨ rest = [])
    let next := rest = [] ∧ ∃ e, s.psu.txList[s.psu.txNext]? = some e
    (ends → next → s.stagedClaims c rest = [.txCompletion, .serviceStart]) ∧
    (ends → ¬next → s.stagedClaims c rest = [.txCompletion]) ∧
    (¬ends → next → s.stagedClaims c rest = [.serviceStart]) ∧
    (¬ends → ¬next → s.stagedClaims c rest = []) := by
  intro ends next
  unfold State.stagedClaims
  refine ⟨fun e n => ?_, fun e n => ?_, fun e n => ?_, fun e n => ?_⟩
  · rw [if_pos (burstEnds_iff.mpr e), if_pos (startsNext_iff.mpr n)]; rfl
  · rw [if_pos (burstEnds_iff.mpr e), if_neg (mt startsNext_iff.mp n)]; rfl
  · rw [if_neg (mt burstEnds_iff.mp e), if_pos (startsNext_iff.mpr n)]; rfl
  · rw [if_neg (mt burstEnds_iff.mp e), if_neg (mt startsNext_iff.mp n)]; rfl

/-- A payload cell is counted off the burst in flight, and no other cell is (R110). -/
theorem count_cases (f : TxFlight) (c : LaneCell) :
    ((∃ a, c = .payload a) → f.count c = { f with toSend := f.toSend - 1 }) ∧
      ((¬∃ a, c = .payload a) → f.count c = f) := by
  cases c <;> simp [TxFlight.count, LaneCell.isPayload]

/-- A payload cell carries the 16 bytes of Stream Memory that it names (R46). -/
theorem payload_onWire {m : List Host.Cell} {a : Nat} (inside : a + 16 ≤ 32768) :
    LaneCell.onWire m (.payload a) = .ok (.payload (tabulate fun i => Memory.read m (a + i.val))) :=
  if_pos (decide_eq_true inside)

theorem stageNext_cell {c : LaneCell} {rest : List LaneCell} {w : WireCell} (queue : s.lane.queue = c :: rest)
    (wire : c.onWire s.memory = .ok w) : s.stageNext = .next (s.stageCell c rest w) := by
  simp only [State.stageNext, queue, wire]

theorem stageNext_trailer {n : Period} (queue : s.lane.queue = []) (opened : s.lane.opened = some n) :
    s.stageNext = .next { s with lane := ⟨s.lane.sending, some (.trailer n), [], none⟩ } := by
  simp only [State.stageNext, queue, opened]

theorem stageNext_none (queue : s.lane.queue = []) (opened : s.lane.opened = none) :
    s.stageNext = .next { s with lane := ⟨s.lane.sending, none, [], none⟩ } := by
  simp only [State.stageNext, queue, opened]

end Sends

/-- Settles O2: the cell time of a part that sends is that of the part caught up, and then goes by what the lane
has to stage. -/
theorem emptyQueueIsOneCellTime : Obligations.EmptyQueueIsOneCellTime := by
  intro s empty
  refine ⟨fun idle => (step_cellTime empty).trans (cellTime_idle idle), fun held on => ⟨?_, ?_⟩⟩
  · have caught : s.catchUp.cellTime = s.cellTime := by
      rw [cellTime_sends held on, cellTime_sends ((catchUp_held s).trans held) (mt (catchUp_off s).mp on),
        catchUp_catchUp]
    rw [step_cellTime empty, step_cellTime (s := s.catchUp) (by simpa using empty), caught]
  · intro none due sending
    have sends : step s = s.sendStaged.stageNext := by
      rw [step_cellTime empty, cellTime_sends held on, catchUp_nil none due]
    have cell : ∀ {c rest w}, s.lane.queue = c :: rest → c.onWire s.memory = .ok w →
        step s = .next (s.sendStaged.stageCell c rest w) := fun queue wire =>
      sends.trans (stageNext_cell (s := s.sendStaged) queue wire)
    refine ⟨fun c rest w queue wire => ⟨_, cell queue wire, rfl, rfl, fun payload => ?_, fun other => ?_, ?_⟩,
      fun a rest queue inside => ⟨_, _, fun i => tabulate_get _ i, cell queue (payload_onWire inside), rfl⟩,
      fun queue closed => sends.trans (stageNext_none (s := s.sendStaged) queue closed),
      fun n queue opened => sends.trans (stageNext_trailer (s := s.sendStaged) queue opened)⟩
    · exact congrArg (s.psu.txFlight.map ·) (funext fun f => (count_cases f c).1 payload)
    · have same : (fun f : TxFlight => f.count c) = id := funext fun f => (count_cases f c).2 other
      exact (congrArg (s.psu.txFlight.map ·) same).trans (Option.map_id_apply)
    · have made : (s.sendStaged.stageCell c rest w).claims = s.stagedClaims c rest := by
        rw [State.stageCell, show s.sendStaged.claims = [] from none]; rfl
      rw [made]
      exact stagedClaims_cases c rest

end Sys2Proof.Machine
end

section
/-! SUPPORT. The Notice Unit's queues (8.1 to 8.4): the place that a report has in a queue, what a notice
queued does, the law of a queue, and the statements about a notice queued and about POLL. -/

namespace Sys2Proof.Machine

/-! ### Places in a queue (R159) -/

/-- The place of a report in a queue: its kind's value (11.7), and its handle but for LINK (R159). -/
def Report.place (x : Report) : Byte × Option Handle := (x.fields.1, x.handle?)

/-- Two reports match exactly when they have one place. -/
theorem matches_iff (x y : Report) : x.matches y = true ↔ x.place = y.place := by
  cases x <;> cases y <;> simp [Report.matches, Report.place, Report.fields, Report.handle?]

theorem matches_false {x y : Report} : x.matches y = false ↔ x.place ≠ y.place := by
  rw [← Bool.not_eq_true, matches_iff]

/-! ### A notice queued (R159 to R162) -/

/-- An entry after a report has been queued where it matches one. -/
def Notice.coalesced (m : Notice) (x : Report) (n : Period) : Notice :=
  if m.report.matches x then m.coalesce x n else m

/-- An entry keeps its place. -/
theorem coalesced_place (m : Notice) (x : Report) (n : Period) :
    (m.coalesced x n).report.place = m.report.place := by
  unfold Notice.coalesced
  split
  · exact ((matches_iff _ _).mp ‹_›).symm
  · rfl

/-- Entries that do not match stay as they are. -/
theorem map_coalesced {l : List Notice} {x : Report} (none : ∀ k ∈ l, k.report.matches x = false)
    (n : Period) : l.map (·.coalesced x n) = l :=
  (List.map_congr_left fun k hk => if_neg (by simp [none k hk])).trans l.map_id

/-- A report that matches an entry is queued in the entry's place (R160). -/
theorem enqueue_matched {q : NoticeQueue} {x : Report} {m : Notice} (mem : m ∈ q.entries)
    (hit : m.report.matches x = true) (n : Period) :
    q.enqueue x n = ⟨q.entries.map (·.coalesced x n), q.overflow⟩ :=
  if_pos (List.any_eq_true.mpr ⟨m, mem, hit⟩)

/-- A report that matches no entry is appended, or sets OVERFLOW (R159, R162). -/
theorem enqueue_unmatched {q : NoticeQueue} {x : Report} (none : ∀ k ∈ q.entries, k.report.matches x = false)
    (n : Period) : q.enqueue x n =
      if q.entries.length < 32 then ⟨q.entries ++ [⟨x, n, 1⟩], q.overflow⟩ else ⟨q.entries, true⟩ :=
  if_neg (by simpa using none)

/-- Settles O21: a match is coalesced where it stands, and without one the length decides. -/
theorem noticeQueued : Obligations.NoticeQueued := by
  intro q x n
  refine ⟨fun before m after entries hit others => ?_, fun none => ⟨fun room => ?_, fun full => ?_⟩⟩
  · have stay := fun k hk => others k (List.mem_append.mpr hk)
    rw [enqueue_matched (m := m) (by simp [entries]) hit, entries, List.map_append, List.map_cons,
      map_coalesced fun k hk => stay k (.inl hk), map_coalesced fun k hk => stay k (.inr hk),
      Notice.coalesced, if_pos hit]
    rfl
  · rw [enqueue_unmatched none, if_pos room]
  · rw [enqueue_unmatched none, if_neg (Nat.not_lt.mpr full)]

/-! ### The law of a queue (R155, R156) -/

/-- The empty queue is lawful. -/
theorem queueLaw_empty (overflow : Bool) : NoticeQueue.law ⟨[], overflow⟩ :=
  ⟨Nat.zero_le _, .nil, fun _ h => nomatch h⟩

/-- A queue with some of a lawful queue's entries, in their order, is lawful. -/
theorem queueLaw_sublist {q : NoticeQueue} (law : q.law) {l : List Notice} (part : l.Sublist q.entries)
    (overflow : Bool) : NoticeQueue.law ⟨l, overflow⟩ := by
  obtain ⟨short, apart, counts⟩ := law
  exact ⟨part.length_le.trans short, apart.sublist part, fun n hn => counts n (part.subset hn)⟩

/-- A notice queued keeps the law (R159). -/
theorem enqueue_law {q : NoticeQueue} (law : q.law) (x : Report) (n : Period) : (q.enqueue x n).law := by
  obtain ⟨short, apart, counts⟩ := law
  rcases enqueue_cases q x n with ⟨-, e⟩ | ⟨none, room, e⟩ | ⟨-, -, e⟩ <;> rw [e]
  · refine ⟨by simpa using short, List.pairwise_map.mpr (apart.imp fun {a b} ab => ?_), ?_⟩
    · show (a.coalesced x n).report.matches (b.coalesced x n).report = false
      rw [matches_false, coalesced_place, coalesced_place]
      exact matches_false.mp ab
    · simp only [List.forall_mem_map]
      intro k hk
      have count := counts k hk
      unfold Notice.coalesce
      split
      · exact ⟨by dsimp only; omega, Nat.min_le_left ..⟩
      · exact count
  · refine ⟨by simpa [Config.noticeCapacity] using room, ?_, ?_⟩
    · exact List.pairwise_append.mpr ⟨apart, List.pairwise_singleton .., by simpa using none⟩
    · simp only [List.forall_mem_append, List.forall_mem_singleton]
      exact ⟨counts, by decide⟩
  · exact ⟨short, apart, counts⟩

/-- The entries of a handle taken out (R163). -/
theorem purgeHandle_law {q : NoticeQueue} (law : q.law) (h : Handle) : (q.purgeHandle h).law :=
  queueLaw_sublist law List.filter_sublist _

/-- A queue polled (R165). -/
theorem polled_law {q : NoticeQueue} (law : q.law) : q.polled.law :=
  queueLaw_sublist law (List.drop_sublist _ _) _

/-- The CLOSED notices of a PURGE queued (R196). -/
theorem enqueueClosed_law {q : NoticeQueue} (law : q.law) (now : Period) (names : List (Handle × Byte)) :
    (q.enqueueClosed now names).law := by
  unfold NoticeQueue.enqueueClosed
  induction names generalizing q with
  | nil => exact law
  | cons n names ih => exact ih (enqueue_law law _ _)

/-! ### POLL (R165) -/

/-- The queue after a POLL: the entries behind the eighth, with OVERFLOW clear where none is left. -/
theorem polled_eq (q : NoticeQueue) :
    q.polled = ⟨q.entries.drop 8, if q.entries.drop 8 = [] then false else q.overflow⟩ := by
  unfold NoticeQueue.polled Config.pollEntries
  cases q.entries.drop 8 <;> simp

/-- A POLL granted answers with the entries it takes. -/
theorem poll_exec {s : State} {p : Port} {r : Request} {rest : List Entry} (hg : s.Grants p r rest)
    (code : r.code = 0x0E) (body : r.body = []) :
    let q := s.settle.noticesOf p
    exec (.poll p) s = .next ((s.settle.setNotices p q.polled).responded p r rest .ok
      ([byte (q.entries.take 8).length, byte q.polled.entries.length, boolByte q.overflow] ++
        (q.entries.take 8).flatMap Notice.bytes)) := by
  refine grants_next (run := fun r t => .ok (pollRequest p r t)) (takes := ofCode 0x0E) hg
    (by simp [ofCode, code]) (w := (s.settle.advance p).setNotices p (s.settle.noticesOf p).polled) ?_ rfl rfl
  simp only [pollRequest, body]
  rfl

/-- The bytes of an entry: kind, name, period, count and the four bytes of the kind fields (11.7). -/
theorem notice_bytes (x : Report) (n : Period) (k : Nat) :
    Notice.bytes ⟨x, n, k⟩ = [x.fields.1, x.fields.2.1, x.fields.2.2.1] ++ be16 n.toNat ++ [byte k] ++
      x.fields.2.2.2 := by
  simp [Notice.bytes]

end Sys2Proof.Machine

namespace Sys2Proof

open Machine

/-- Settles O40: the grant of a POLL, and the layout of an entry kind by kind. -/
theorem pollRequest : Obligations.PollRequest := by
  refine ⟨fun s p r rest hg code body => ?_, fun x n k => ⟨_, _, _, _, notice_bytes x n k, ?_, ?_⟩⟩
  · intro u q left
    rw [poll_exec hg code body, polled_eq, List.length_take, List.flatMap_def]
    rfl
  · cases x <;> rfl
  · cases x with
    | done => exact ⟨rfl, rfl⟩
    | miss _ _ cause => cases cause <;> exact ⟨rfl, rfl⟩
    | warn => exact ⟨rfl, rfl⟩
    | suspended _ _ cause => cases cause <;> exact ⟨rfl, rfl⟩
    | amended => exact ⟨rfl, rfl⟩
    | closed => exact ⟨rfl, rfl⟩
    | link event => cases event <;> exact ⟨rfl, rfl⟩

end Sys2Proof
end

section
/-! SUPPORT. The limits of the notice queues (R155, R156) and of the ports (R181) in what the claims do and in
the transmit lane. The claims change no port and change the notice queues only by queueing notices and by taking
out a handle's. -/

namespace Sys2Proof.Machine

/-! ### The two limits kept -/

/-- What leads from one state to the other keeps the law of the notice queues and that of the ports. -/
structure State.KeepsLimits (s t : State) : Prop where
  notices : s.noticeLaw → t.noticeLaw
  flow : s.flowLaw → t.flowLaw

namespace State.KeepsLimits

variable {s t u : State}

theorem refl (s : State) : s.KeepsLimits s := ⟨id, id⟩

theorem trans (f : s.KeepsLimits t) (g : t.KeepsLimits u) : s.KeepsLimits u :=
  ⟨g.notices ∘ f.notices, g.flow ∘ f.flow⟩

/-- The same notice queues and ports. -/
theorem of_eq (notices : t.notices = s.notices) (ports : t.ports = s.ports) : s.KeepsLimits t where
  notices law p := by rw [State.noticesOf, notices]; exact law p
  flow law p := by rw [State.port, ports]; exact law p

/-- The notice queues and the ports that a state before had. -/
theorem same (f : s.KeepsLimits t) (notices : u.notices = t.notices) (ports : u.ports = t.ports) :
    s.KeepsLimits u := f.trans (.of_eq notices ports)

/-- The notice queues and the ports that a state behind has. -/
theorem after (f : t.KeepsLimits u) (notices : t.notices = s.notices) (ports : t.ports = s.ports) :
    s.KeepsLimits u := (State.KeepsLimits.of_eq notices ports).trans f

/-- Either of two states. -/
theorem ite {c : Prop} [Decidable c] (ht : s.KeepsLimits t) (hu : s.KeepsLimits u) :
    s.KeepsLimits (if c then t else u) := by
  split
  · exact ht
  · exact hu

/-- A walk whose every step keeps the limits. -/
theorem foldl {α : Type} {f : State → α → State} (keeps : ∀ (s : State) a, s.KeepsLimits (f s a)) (l : List α)
    (s : State) : s.KeepsLimits (l.foldl f s) := by
  induction l generalizing s with
  | nil => exact .refl s
  | cons a l ih => exact (keeps s a).trans (ih _)

/-- Every notice queue and every port at its reset values (R169, R189). -/
theorem of_reset (notices : ∀ p, t.noticesOf p = ⟨[], false⟩) (ports : ∀ p, (t.port p).outstanding = 0) :
    s.KeepsLimits t where
  notices _ p := by rw [notices]; exact queueLaw_empty false
  flow _ p := by rw [ports]; exact Nat.zero_le _

end State.KeepsLimits

/-! ### One queue or one port written -/

/-- A notice queue replaced by one that is lawful where the old one was. -/
theorem setNotices_limits (s : State) (p : Port) {q : NoticeQueue} (keeps : (s.noticesOf p).law → q.law) :
    s.KeepsLimits (s.setNotices p q) where
  notices law k := by
    rw [State.setNotices_noticesOf]
    split
    · exact keeps (law p)
    · exact law k
  flow law := law

/-- A port replaced by one with no more outstanding, or with at most 4. -/
theorem setPort_limits (s : State) (p : Port) {x : PortInterface}
    (room : x.outstanding ≤ (s.port p).outstanding ∨ x.outstanding ≤ 4) : s.KeepsLimits (s.setPort p x) where
  notices law := law
  flow law k := by
    rw [State.setPort_port]
    split
    · exact room.elim (·.trans (law p)) id
    · exact law k

/-! ### Notices queued and taken out -/

theorem notify_limits (s : State) (p : Port) (x : Report) : s.KeepsLimits (s.notify p x) :=
  setNotices_limits s p fun law => enqueue_law law x _

theorem notifyIf_limits (s : State) (c : Bool) (p : Port) (x : Report) : s.KeepsLimits (s.notifyIf c p x) :=
  .ite (notify_limits s p x) (.refl s)

theorem notifyAll_limits (s : State) (x : LinkEvent) : s.KeepsLimits (s.notifyAll x) :=
  .foldl (fun t p => notify_limits t p _) allPorts s

theorem miss_limits (s : State) (h : Handle) (c : MissCause) : s.KeepsLimits (s.miss h c) := by
  unfold State.miss
  split
  · rename_i st _
    have counted : s.KeepsLimits ((s.setStream h { st with missRun := st.nextRun }).notifyIf st.notify.miss
        st.owner (.miss h (s.record h).generation c st.nextRun)) := (notifyIf_limits _ _ _ _).after rfl rfl
    exact .ite (counted.trans ((notify_limits _ _ _).after rfl rfl)) counted
  · exact .refl s

theorem retire_limits (s : State) (h : Handle) (c : Bool) : s.KeepsLimits (s.retire h c) := by
  unfold State.retire
  split
  · have vacated : s.KeepsLimits (s.vacate h) := .of_eq (by simp) (by simp)
    exact (vacated.trans (setNotices_limits _ _ fun law => purgeHandle_law law h)).trans
      (notifyIf_limits _ _ _ _)
  · exact .refl s

/-! ### The claims of the Period Service Unit -/

theorem takeEffect_limits (n : Period) (s : State) (h : Handle) : s.KeepsLimits (s.takeEffect n h) := by
  unfold State.takeEffect
  split
  · split
    · exact .ite ((notify_limits _ _ _).after rfl rfl) (.refl s)
    · exact .refl s
  · exact .refl s

theorem starveWarning_limits (n : Period) (s : State) (h : Handle) : s.KeepsLimits (s.starveWarning n h) := by
  unfold State.starveWarning
  split
  · exact .ite (notifyIf_limits _ _ _ _) (.refl s)
  · exact .refl s

theorem takeMarkProcessing_limits (s : State) (n : Period) : s.KeepsLimits (s.takeMarkProcessing n) := by
  have effects := State.KeepsLimits.foldl (takeEffect_limits n) handles s
  unfold State.takeMarkProcessing
  dsimp only
  generalize handles.foldl (State.takeEffect n) s = t at effects ⊢
  have built : s.KeepsLimits (t.buildLists n) := effects.same rfl rfl
  have warned := built.trans (.foldl (starveWarning_limits n) handles _)
  split
  · exact warned.same (by simp) (by simp)
  · exact effects.same rfl rfl

theorem closeAfterService_limits (s : State) (h : Handle) : s.KeepsLimits (s.closeAfterService h) := by
  unfold State.closeAfterService
  split
  · exact .ite (retire_limits s h true) (.refl s)
  · exact .refl s

theorem takeServiceStart_limits (s : State) (e : TxEntry) : s.KeepsLimits (s.takeServiceStart e) := by
  have idle : ∀ cells, s.KeepsLimits (s.stage cells) := fun _ => .of_eq rfl rfl
  unfold State.takeServiceStart
  split
  · exact idle _
  · refine .ite (idle _) (.ite (idle _) (.ite (idle _) ?_))
    split
    · exact .of_eq (by simp) (by simp)
    · exact .ite ((miss_limits s _ _).same rfl rfl) ((retire_limits s _ _).same rfl rfl)
    · exact idle _

theorem startNext_limits (s : State) (e : TxEntry) : s.KeepsLimits (s.startNext e) :=
  .ite (.of_eq rfl rfl) ((takeServiceStart_limits _ e).after rfl rfl)

theorem takeNextStart_limits (s : State) : s.KeepsLimits s.takeNextStart := by
  unfold State.takeNextStart
  split
  · exact startNext_limits s _
  · exact .refl s

theorem takeTxCompletion_limits (s : State) : s.KeepsLimits s.takeTxCompletion := by
  rcases takeTxCompletion_cases s with ⟨-, e⟩ | ⟨f, -, ⟨-, e⟩ | ⟨st, -, -, e⟩⟩ <;> rw [e]
  · exact .refl s
  · exact .of_eq rfl rfl
  · refine .trans ?_ (closeAfterService_limits _ _)
    exact (notifyIf_limits _ _ _ _).after rfl rfl

theorem takeRxCompletion_limits (s : State) : s.KeepsLimits s.takeRxCompletion := by
  rcases takeRxCompletion_cases s with
    ⟨-, e⟩ | ⟨f, -, ⟨-, e⟩ | ⟨st, -, -, ⟨-, e⟩ | ⟨-, e⟩⟩⟩ <;> rw [e]
  · exact .refl s
  · exact .of_eq rfl rfl
  · refine .trans ?_ (closeAfterService_limits _ _)
    exact (miss_limits _ _ _).after rfl rfl
  · refine .trans ?_ (closeAfterService_limits _ _)
    exact (notifyIf_limits _ _ _ _).after rfl rfl

theorem takeMatch_limits (s : State) (h : Handle) (count : Nat) : s.KeepsLimits (s.takeMatch h count) := by
  unfold State.takeMatch
  dsimp only
  split
  · exact .refl s
  · refine .ite (.refl s) (.ite (.refl s) (.ite (.refl s) (.ite (.of_eq rfl rfl) ?_)))
    split
    · exact .ite ((miss_limits _ _ _).after rfl rfl) (retire_limits s h true)
    · exact .of_eq (by simp) (by simp)
    · exact .refl s

theorem decideHandle_limits (s : State) (h : Handle) : s.KeepsLimits (s.decideHandle h) := by
  unfold State.decideHandle
  dsimp only
  split
  · exact .refl s
  · refine .ite (.refl s) (.ite (.refl s) (.ite (.refl s) (.ite (.refl s) ?_)))
    split
    · exact .ite (miss_limits s h _) (retire_limits s h true)
    · exact miss_limits s h _
    · exact .refl s

theorem takePeriodEnd_limits (s : State) : s.KeepsLimits s.takePeriodEnd :=
  (State.KeepsLimits.foldl decideHandle_limits s.periodEndOrder s).same rfl rfl

/-! ### The claims of the Link Controller -/

theorem departRecord_limits (s : State) (h : Handle) : s.KeepsLimits (s.departRecord h) := by
  unfold State.departRecord
  split
  · split
    · exact .ite ((notify_limits _ _ _).after rfl rfl) (.refl s)
    · exact retire_limits s h true
    · exact .refl s
  · exact .refl s

theorem leaveUp_limits (s : State) : s.KeepsLimits s.leaveUp :=
  have aborted : s.KeepsLimits s.abortService := .of_eq (by simp) (by simp)
  (aborted.trans (.foldl departRecord_limits handles _)).trans (notifyAll_limits _ _)

theorem takeLeavingUp_limits (s : State) : s.KeepsLimits s.takeLeavingUp := by
  have left := leaveUp_limits s
  unfold State.takeLeavingUp
  dsimp only
  generalize s.leaveUp = t at left ⊢
  split
  · split <;> exact left.same rfl rfl
  · exact .refl s

/-! ### The claims taken, and the lane -/

theorem takeClaim_limits (s : State) (c : Claim) : s.KeepsLimits (s.takeClaim c) := by
  cases c with
  | markProcessing n => exact takeMarkProcessing_limits s n
  | serviceStart => exact takeNextStart_limits s
  | txCompletion => exact takeTxCompletion_limits s
  | matchLead h count => exact takeMatch_limits s h count
  | rxCompletion => exact takeRxCompletion_limits s
  | periodEnd => exact takePeriodEnd_limits s
  | leavingUp => exact takeLeavingUp_limits s
  | enteringUp => exact notifyAll_limits s .up
  | slip => exact notifyAll_limits s .slip

/-- The claim at the front taken. -/
theorem front_limits (s : State) (c : Claim) (rest : List Claim) :
    s.KeepsLimits (State.takeClaim { s with claims := rest } c) :=
  (takeClaim_limits _ c).after rfl rfl

theorem settleFor_limits (n : Nat) (s : State) : s.KeepsLimits (State.settleFor n s) := by
  induction n generalizing s with
  | zero => exact .refl s
  | succ n ih =>
    unfold State.settleFor
    split
    · exact .refl s
    · exact (front_limits s _ _).trans (ih _)

theorem settle_limits (s : State) : s.KeepsLimits s.settle := settleFor_limits _ s

theorem catchUp_limits (s : State) : s.KeepsLimits s.catchUp :=
  ((settle_limits s).same (by simp) (by simp)).trans (settle_limits s.settle.enterUp)

theorem takeThroughFor_limits {kind : Claim → Bool} {n : Nat} {s t : State}
    (h : State.takeThroughFor kind n s = some t) : s.KeepsLimits t := by
  induction n generalizing s with
  | zero => cases h
  | succ n ih =>
    unfold State.takeThroughFor at h
    split at h
    · cases h
    · dsimp only at h
      split at h
      · cases h; exact front_limits s _ _
      · exact (front_limits s _ _).trans (ih h)

theorem through_limits {s t : State} {kind : Claim → Bool} (h : s.through kind = some t) :
    s.KeepsLimits t := takeThroughFor_limits h

/-- The claim of a kind taken, or nothing done where there is none. -/
theorem through_getD_limits (s : State) (kind : Claim → Bool) {t : State} (f : t.KeepsLimits s) :
    t.KeepsLimits ((s.through kind).getD t) := by
  cases h : s.through kind with
  | none => exact .refl t
  | some u => exact f.trans (through_limits h)

theorem takeThrough_limits (s : State) (kind : Claim → Bool) : s.KeepsLimits (s.takeThrough kind) :=
  .ite (.refl s) (.ite (through_getD_limits s kind (.refl s)) (.refl s))

theorem cellTime_limits {s t : State} (h : s.cellTime = .next t) : s.KeepsLimits t := by
  rcases cellTime_cases h with ⟨-, rfl⟩ | ⟨-, -, h⟩
  · exact .of_eq rfl rfl
  · obtain ⟨-, -, -, -, notices, ports, -⟩ := State.stageNext_keeps h
    exact (catchUp_limits s).same notices ports

theorem passTo_limits {kind : Claim → Bool} {n : Nat} {s t : State} (h : s.passTo kind n = .next t) :
    s.KeepsLimits t := by
  induction n generalizing s with
  | zero => cases h; exact .refl _
  | succ n ih =>
    unfold State.passTo at h
    split at h
    · cases h; exact .refl _
    · split at h
      · exact (cellTime_limits ‹_›).trans (ih h)
      · cases h
      · cases h

theorem takeOfLane_limits {s t : State} {kind : Claim → Bool} {toCome : State → Bool}
    (h : s.takeOfLane kind toCome = .next t) : s.KeepsLimits t := by
  unfold State.takeOfLane at h
  split at h
  · cases h; exact through_limits ‹_›
  · dsimp only at h
    split at h
    · split at h
      · cases h
        exact through_getD_limits _ kind ((catchUp_limits s).trans (passTo_limits ‹_›))
      · cases h
      · cases h
    · cases h; exact .refl _

theorem finishSlot_limits (s : State) : s.KeepsLimits s.finishSlot :=
  (takeTxCompletion_limits s).same rfl rfl

theorem runOut_limits (s : State) : s.KeepsLimits s.runOut := by
  have slots : ∀ (n : Nat) (s : State), s.KeepsLimits (State.runSlots n s) := by
    intro n
    induction n with
    | zero => exact finishSlot_limits
    | succ n ih =>
      intro s
      unfold State.runSlots
      dsimp only
      split
      · exact finishSlot_limits s
      · exact ((finishSlot_limits s).trans (startNext_limits _ _)).trans (ih _)
  exact slots _ s

end Sys2Proof.Machine
end

section
/-! SUPPORT. The limits of the notice queues and of the ports in the events of the link, the requests, the
transactions and the resets, and the statement about every step. -/

namespace Sys2Proof.Machine

/-! ### The events of the link -/

theorem settlePeriod_limits (s : State) : s.KeepsLimits s.settlePeriod :=
  .ite (.of_eq rfl rfl) (.ite ((runOut_limits _).after rfl rfl) (.of_eq rfl rfl))

theorem takeMark_limits (s : State) (m : Period) : s.KeepsLimits (s.takeMark m) := by
  have ran : s.KeepsLimits (if s.link.state = .up then s.runOut else s) := .ite (runOut_limits s) (.refl s)
  unfold State.takeMark
  dsimp only
  generalize (if s.link.state = .up then s.runOut else s) = t at ran ⊢
  split <;> exact ran.same (by simp) (by simp)

theorem receiveMark_limits (s : State) (c : MarkCell) : s.KeepsLimits (s.receiveMark c) := by
  have caught : s.KeepsLimits { s.catchUp with link := { s.catchUp.link with aligned := true } } :=
    (catchUp_limits s).same rfl rfl
  refine .ite ?_ (.refl s)
  dsimp only
  split
  · exact .ite (caught.trans (takeMark_limits _ _)) (caught.same (by simp) (by simp))
  · exact .ite (caught.same (by simp) (by simp)) (caught.same (by simp) (by simp))

theorem receivePayload_limits {s t : State} {data : Payload} {sound : Bool}
    (h : s.receivePayload data sound = .next t) : s.KeepsLimits t := by
  rcases receivePayload_cases h with rfl | ⟨f, m, -, -, e⟩
  · exact .refl _
  · rw [e]
    dsimp only
    split <;> exact .of_eq rfl rfl

theorem periodTimerExpiry_limits {s t : State} (h : execPeriodTimerExpiry s = .next t) : s.KeepsLimits t := by
  unfold execPeriodTimerExpiry at h
  split at h <;> cases h
  · exact ((catchUp_limits s).trans (settlePeriod_limits _)).same (by simp) (by simp)
  · exact .refl _

theorem lossTimerExpiry_limits {s t : State} (h : execLossTimerExpiry s = .next t) : s.KeepsLimits t := by
  have caught := catchUp_limits s
  unfold execLossTimerExpiry at h
  dsimp only at h
  split at h
  · split at h <;> cases h <;> exact caught.same rfl rfl
  · cases h; exact .refl _

theorem trailerArrival_limits {n : BitVec 16} {s t : State} (h : execTrailerArrival n s = .next t) :
    s.KeepsLimits t := by
  have caught := catchUp_limits s
  unfold execTrailerArrival at h
  dsimp only at h
  split at h
  · split at h <;> cases h
    · exact caught
    · exact .ite (caught.same (by simp) (by simp)) (caught.same (by simp) (by simp))
  · cases h; exact .refl _

theorem leadCellArrival_limits {channel count : Byte} {s t : State}
    (h : execLeadCellArrival channel count s = .next t) : s.KeepsLimits t := by
  have cut : s.KeepsLimits s.catchUp.cutBurst := (catchUp_limits s).same (by simp) (by simp)
  unfold execLeadCellArrival at h
  dsimp only at h
  split at h
  · split at h
    · cases h; exact cut
    split at h
    · cases h; exact cut
    split at h <;> cases h
    · exact cut.same rfl rfl
    · exact cut
  · cases h; exact .refl _

theorem enteringUp_limits {s t : State} (h : execEnteringUp s = .next t) : s.KeepsLimits t := by
  unfold execEnteringUp at h
  split at h
  · cases h; exact .refl _
  split at h
  · cases h; exact takeThrough_limits s _
  split at h <;> cases h
  · exact catchUp_limits s
  · exact .refl _

/-! ### The requests that leave the notice queues and the ports alone -/

theorem openRequest_limits {p : Port} {r : Request} {s : State} {x : State × Reply}
    (e : openRequest p r s = .ok x) : s.KeepsLimits x.1 := by
  unfold openRequest at e
  split at e
  · cases e; exact .refl s
  split at e
  · cases e; exact .refl s
  split at e
  · cases e
  rename_i t taken
  obtain ⟨m, rfl⟩ := takePair_ok taken
  cases e
  exact .of_eq rfl rfl

theorem amendRequest_limits {p : Port} {r : Request} {s : State} {x : State × Reply}
    (e : amendRequest p r s = .ok x) : s.KeepsLimits x.1 := by
  unfold amendRequest at e
  split at e
  · cases e; exact .refl s
  split at e
  · cases e; exact .refl s
  split at e
  · cases e; exact .refl s
  split at e
  · cases e
  rename_i t taken
  obtain ⟨free, m, rfl⟩ := takeAmendPair_ok taken
  cases e
  unfold State.amend
  split <;> exact .of_eq rfl rfl

theorem putRequest_limits {p : Port} {r : Request} {s : State} {x : State × Reply}
    (e : putRequest p r s = .ok x) : s.KeepsLimits x.1 := by
  unfold putRequest at e
  split at e
  · cases e; exact .refl s
  split at e
  · cases e; exact .refl s
  iterate 3
    split at e
    · cases e; exact .refl s
  split at e <;> cases e
  exact .of_eq rfl rfl

theorem getRequest_limits {p : Port} {r : Request} {s : State} {x : State × Reply}
    (e : getRequest p r s = .ok x) : s.KeepsLimits x.1 := by
  unfold getRequest at e
  split at e
  · cases e; exact .refl s
  split at e
  · cases e; exact .refl s
  iterate 3
    split at e
    · cases e; exact .refl s
  cases e

theorem startRequest_limits (p : Port) (r : Request) (s : State) : s.KeepsLimits (startRequest p r s).1 := by
  unfold startRequest
  split
  · exact .refl s
  · split <;> exact .of_eq rfl rfl

theorem stopRequest_limits (p : Port) (r : Request) (s : State) : s.KeepsLimits (stopRequest p r s).1 := by
  unfold stopRequest
  split
  · exact .refl s
  · split <;> exact .of_eq rfl rfl

theorem withdrawRequest_limits (p : Port) (r : Request) (s : State) :
    s.KeepsLimits (withdrawRequest p r s).1 := by
  unfold withdrawRequest
  split
  · exact .refl s
  · split
    · exact .refl s
    · exact .of_eq (by simp) (by simp)

theorem handoverRequest_limits (p : Port) (r : Request) (s : State) :
    s.KeepsLimits (handoverRequest p r s).1 := by
  unfold handoverRequest
  split
  · exact .refl s
  split
  · exact .refl s
  split
  · exact .refl s
  all_goals
    iterate 3
      split
      · exact .refl s
    exact .of_eq rfl rfl

theorem quotaRequest_limits (p : Port) (r : Request) (s : State) : s.KeepsLimits (quotaRequest p r s).1 := by
  unfold quotaRequest
  split
  · exact .refl s
  · split
    · exact .refl s
    · exact .of_eq rfl rfl

/-! ### CLOSE, LINKCTL, POLL and PURGE -/

theorem closeOpen_limits (s : State) (h : Handle) (st : Stream) (m : CloseMode) :
    s.KeepsLimits (s.closeOpen h st m).1 := by
  have withdrawn : s.KeepsLimits (s.withdrawAmendment h) := .of_eq (by simp) (by simp)
  unfold State.closeOpen
  dsimp only
  split
  · split <;> exact withdrawn.same rfl rfl
  · exact withdrawn.trans (retire_limits _ h false)

theorem closeAgain_limits (s : State) (h : Handle) (st : Stream) (old m : CloseMode) :
    s.KeepsLimits (s.closeAgain h st old m).1 := by
  unfold State.closeAgain
  split
  · split
    · exact .of_eq rfl rfl
    · exact retire_limits s h false
  · exact .refl s

theorem closeRequest_limits (p : Port) (r : Request) (s : State) : s.KeepsLimits (closeRequest p r s).1 := by
  unfold closeRequest
  split
  · exact .refl s
  split
  · exact .refl s
  split
  · exact (retire_limits _ _ true).after rfl rfl
  split
  · exact closeAgain_limits s _ _ _ _
  all_goals exact closeOpen_limits s _ _ _

theorem disable_limits (s : State) : s.KeepsLimits s.disable := by
  unfold State.disable
  split
  · exact (leaveUp_limits s).same (by simp) (by simp)
  · exact .of_eq (by simp) (by simp)
  · exact .refl s

theorem linkctlRequest_limits (p : Port) (action : Byte) {act : State → State}
    (acts : ∀ s : State, s.KeepsLimits (act s)) (r : Request) (s : State) :
    s.KeepsLimits (linkctlRequest p action act r s).1 := by
  unfold linkctlRequest
  split
  · exact .refl s
  split
  · exact .refl s
  split
  · exact .refl s
  · exact (acts _).after (by simp) (by simp)

theorem pollRequest_limits (p : Port) (r : Request) (s : State) : s.KeepsLimits (pollRequest p r s).1 := by
  unfold Machine.pollRequest
  split
  · exact .refl s
  · exact setNotices_limits s p polled_law

/-- What a PURGE leaves of its own port, and every other port as it was (R196). -/
theorem purge_port (s : State) (n : Port) (self : Bool) (k : Port) :
    (s.purge n self).port k =
      if k = n then ((s.port n).purgeRequests self).purgeResponses.setPurged else s.port k := by
  have records := foldl_keeps State.purgeRecord State.ports (by simp) (s.ownedBy n)
    (s.setPort n ((s.port n).purgeRequests self))
  have port : ∀ k, ((s.ownedBy n).foldl State.purgeRecord
      (s.setPort n ((s.port n).purgeRequests self))).port k =
      if k = n then (s.port n).purgeRequests self else s.port k := fun k => by
    rw [State.port, records]
    exact State.setPort_port ..
  unfold State.purge
  simp only [State.setPort_port, State.setNotices_port, port]
  split <;> simp

/-- At most the PURGE's own entry is left outstanding at the port (R196). -/
theorem purged_outstanding (x : PortInterface) (self : Bool) :
    (x.purgeRequests self).purgeResponses.setPurged.outstanding ≤ 1 := by
  cases self <;>
    simp [PortInterface.outstanding, PortInterface.setPurged, PortInterface.purgeResponses,
      PortInterface.purgeRequests]

/-- A PURGE leaves in its port's notice queue the CLOSED notices of the names retired, and every other
queue as it was (R196). -/
theorem purge_noticesOf (s : State) (n : Port) (self : Bool) (k : Port) :
    (s.purge n self).noticesOf k =
      if k = n then NoticeQueue.enqueueClosed ⟨[], false⟩ s.link.period
        ((s.ownedBy n).map fun h => (h, (s.record h).generation))
      else s.noticesOf k := by
  have records := foldl_keeps State.purgeRecord (fun t => (t.notices, t.link)) (by simp) (s.ownedBy n)
    (s.setPort n ((s.port n).purgeRequests self))
  obtain ⟨notices, link⟩ := Prod.mk.inj records
  unfold State.purge
  simp only [State.setPort_noticesOf, State.setNotices_noticesOf, State.setPort_link, link]
  split
  · rfl
  · rw [State.noticesOf, notices]; rfl

theorem purge_limits (s : State) (n : Port) (self : Bool) : s.KeepsLimits (s.purge n self) where
  notices law k := by
    rw [purge_noticesOf]
    split
    · exact enqueueClosed_law (queueLaw_empty false) _ _
    · exact law k
  flow law k := by
    rw [purge_port]
    split
    · exact (purged_outstanding _ _).trans (by decide)
    · exact law k

/-- The frame kept as the last accepted one is in neither queue of the port (R187). -/
theorem keepAccepted_port (s : State) (p : Port) (self : Bool) (r : Request) (k : Port) :
    ((s.keepAccepted p self r).port k).requestQueue = (s.port k).requestQueue ∧
      ((s.keepAccepted p self r).port k).outstanding = (s.port k).outstanding := by
  unfold State.keepAccepted
  split
  · rw [State.setPort_port]
    split
    · subst_vars; exact ⟨rfl, rfl⟩
    · exact ⟨rfl, rfl⟩
  · exact ⟨rfl, rfl⟩

theorem purgeRequest_limits (p : Port) (r : Request) (s : State) : s.KeepsLimits (purgeRequest p r s).1 := by
  unfold purgeRequest
  split
  · exact .refl s
  split
  · exact .refl s
  · exact (purge_limits s _ _).trans (.ite (setPort_limits _ p (.inl le_rfl)) (.refl _))

/-- Whatever a row of requests runs keeps the limits. -/
theorem Handles.limits {p : Port} {run : Request → State → Answer} (hr : Handles p run) {r : Request}
    {s : State} {x : State × Reply} (e : run r s = .ok x) : s.KeepsLimits x.1 := by
  cases hr with
  | openStream => exact openRequest_limits e
  | amend => exact amendRequest_limits e
  | put => exact putRequest_limits e
  | get => exact getRequest_limits e
  | start => cases e; exact startRequest_limits p r s
  | stop => cases e; exact stopRequest_limits p r s
  | close => cases e; exact closeRequest_limits p r s
  | withdraw => cases e; exact withdrawRequest_limits p r s
  | handover => cases e; exact handoverRequest_limits p r s
  | quota => cases e; exact quotaRequest_limits p r s
  | linkctlEnable =>
    cases e
    exact linkctlRequest_limits p 1 (fun _ => .of_eq (by simp) (by simp)) r s
  | linkctlDisable => cases e; exact linkctlRequest_limits p 2 disable_limits r s
  | poll => cases e; exact pollRequest_limits p r s
  | purge => cases e; exact purgeRequest_limits p r s
  | unknownRequest => cases e; exact .refl s
  | reset => cases e; exact .refl s
  | findByTag => cases e; unfold findByTagRequest; split <;> exact .refl s
  | findByChannel =>
    cases e
    unfold findByChannelRequest
    split
    · exact .refl s
    · split <;> exact .refl s
  | read => cases e; unfold readRequest; split <;> exact .refl s
  | loads =>
    cases e
    unfold Machine.loadsRequest
    split
    · exact .refl s
    · split <;> exact .refl s
  | extents => cases e; unfold extentsRequest; split <;> exact .refl s
  | status => cases e; unfold statusRequest; split <;> exact .refl s

/-! ### Grants -/

/-- An accepted request leaves each port's request queue as it met it, or at most one entry outstanding there,
where it is a PURGE of that port. -/
theorem RequestEffect.port {s t : State} (e : RequestEffect s t) (k : Port) :
    (t.port k).requestQueue = (s.port k).requestQueue ∨ (t.port k).outstanding ≤ 1 := by
  have same : t.ports = s.ports → (t.port k).requestQueue = (s.port k).requestQueue := fun e => by
    rw [State.port, e]; rfl
  cases e with
  | purge p n self r =>
    obtain ⟨queue, outstanding⟩ := keepAccepted_port (s.purge n self) p self r k
    rw [queue, outstanding, purge_port]
    split
    · exact .inr (purged_outstanding _ _)
    · exact .inl rfl
  | read | put | poll | quota | openStream | start | stop | handover | upgrade | hold | reshape =>
    exact .inl rfl
  | withdraw | close | closing | draining | closeDraining | closeForced | enable | disable =>
    exact .inl (same (by simp))

/-- A response placed in a port with an entry to leave, or with little outstanding (R181). -/
theorem answer_limits (s : State) (p : Port) (code sequence : Byte) (a : Reply) (retain : Bool)
    (room : (s.port p).requestQueue ≠ [] ∨ (s.port p).outstanding ≤ 1) :
    s.KeepsLimits (s.answer p code sequence a retain) := by
  refine setPort_limits s p (room.imp (fun waits => (place_outstanding _ _ _ waits).le) fun few => ?_)
  simp only [PortInterface.outstanding, PortInterface.place, List.length_tail, List.length_append,
    List.length_singleton] at few ⊢
  omega

/-- The entry granted waits in its port. -/
theorem granted_waits {s : State} {p : Port} {e : Entry} (h : s.granted p = some e) :
    (s.port p).requestQueue ≠ [] := by
  rw [(granted_head h).2]
  exact List.cons_ne_nil _ _

/-- The state that a granted entry meets: the claims taken and the pointer moved on. -/
theorem met_limits (s : State) (p : Port) : s.KeepsLimits (s.settle.advance p) :=
  (settle_limits s).same rfl rfl

theorem grant_limits {s t : State} {p : Port} {takes : Request → Bool} {run : Request → State → Answer}
    (hr : Handles p run) (h : s.grant p takes run = .next t) : s.KeepsLimits t := by
  rcases grant_cases h with rfl | ⟨r, u, a, -, granted, -, e, rfl⟩
  · exact .refl _
  · have waits := granted_waits granted
    refine ((met_limits s p).trans (hr.limits e)).trans (answer_limits u p _ _ _ _ ?_)
    rcases hr.answers e with ⟨-, same⟩ | ⟨-, effect⟩
    · exact .inl (by rw [show u = _ from same]; exact waits)
    · exact (effect.port p).imp_left fun queue => by rw [queue]; exact waits

theorem badFrameEntry_limits {p : Port} {s t : State} (h : execBadFrameEntry p s = .next t) :
    s.KeepsLimits t := by
  unfold execBadFrameEntry at h
  split at h
  · cases h; exact .refl _
  · dsimp only at h
    split at h <;> cases h
    · exact (met_limits s p).trans (answer_limits _ p _ _ _ _ (.inl (granted_waits (s := s.settle) ‹_›)))
    · exact .refl _

theorem repeatEntry_limits {p : Port} {s t : State} (h : execRepeatEntry p s = .next t) :
    s.KeepsLimits t := by
  unfold execRepeatEntry at h
  split at h
  · cases h; exact .refl _
  · dsimp only at h
    split at h <;> cases h
    · exact (met_limits s p).trans (answer_limits _ p _ _ _ _ (.inl (granted_waits (s := s.settle) ‹_›)))
    · exact .refl _

/-! ### Transactions and resets -/

/-- An entry is pushed where the port admits one (R181). -/
theorem push_outstanding {x : PortInterface} (admits : x.admits = true) (e : Entry) :
    (x.push e).outstanding ≤ 4 := by
  have room : x.outstanding < 4 := of_decide_eq_true admits
  simp only [PortInterface.outstanding, PortInterface.push, List.length_append, List.length_singleton]
    at room ⊢
  omega

/-- A reset of the blocks empties every notice queue and every port (R169, R189). -/
theorem resetBlocks_limits (s : State) : s.KeepsLimits s.resetBlocks :=
  .of_reset (resetBlocks_noticesOf s) fun p => by rw [resetBlocks_port]; rfl

/-- An unsound frame makes an entry where there is room, and is dropped elsewhere (R179, R182). -/
theorem takeUnsound_outstanding (x : PortInterface) (code sequence : Byte) :
    (x.takeUnsound code sequence).outstanding ≤ x.outstanding ∨
      (x.takeUnsound code sequence).outstanding ≤ 4 := by
  unfold PortInterface.takeUnsound
  split
  · exact .inr (push_outstanding ‹_› _)
  · exact .inl le_rfl

theorem takeFrame_limits (s : State) (p : Port) (r : Request) : s.KeepsLimits (s.takeFrame p r) := by
  unfold State.takeFrame
  dsimp only
  split
  · exact setPort_limits s p (.inl le_rfl)
  rename_i admits
  have accepts : ∀ e, (((s.port p).accept r).push e).outstanding ≤ 4 :=
    push_outstanding (x := (s.port p).accept r) (Bool.not_eq_false _ ▸ admits)
  split
  · exact setPort_limits s p (.inr (accepts _))
  split
  · exact (resetBlocks_limits s).same rfl rfl
  · exact setPort_limits s p (.inr (accepts _))

theorem judgeFrame_limits (s : State) (p : Port) (mosi : List Byte) : s.KeepsLimits (s.judgeFrame p mosi) := by
  unfold State.judgeFrame
  split
  · exact .refl s
  · exact setPort_limits s p (takeUnsound_outstanding _ _ _)
  · exact takeFrame_limits s p _

theorem transactionStart_limits {x : TransactionStart} {s t : State}
    (h : execTransactionStart x s = .next t) : s.KeepsLimits t := by
  unfold execTransactionStart at h
  split at h <;> cases h
  · exact .refl _
  · exact setPort_limits s x.port (.inl le_rfl)

/-- The end of a transaction takes at most the response delivered from its port (R173). -/
theorem settled_outstanding (x : PortInterface) (u : Transaction) :
    ((x.settleDelivery u).settlePurged u).outstanding ≤ x.outstanding := by
  have purged : ∀ y : PortInterface, (y.settlePurged u).outstanding = y.outstanding := fun y => by
    unfold PortInterface.settlePurged
    split <;> rfl
  rw [purged]
  simp only [PortInterface.outstanding, PortInterface.settleDelivery]
  split <;> simp

theorem transactionEnd_limits {p : Port} {mosi : List Byte} {s t : State}
    (h : execTransactionEnd p mosi s = .next t) : s.KeepsLimits t := by
  unfold execTransactionEnd at h
  dsimp only at h
  split at h
  · cases h; exact .refl _
  · split at h <;> cases h
    · exact setPort_limits s p (.inl le_rfl)
    · exact (setPort_limits s p (.inl (settled_outstanding _ _))).trans (judgeFrame_limits _ p _)

theorem endReset_limits (s : State) (high : Bool) : s.KeepsLimits (s.endReset high) :=
  .ite (.refl s) (.of_eq rfl rfl)

/-! ### Steps -/

/-- Every row keeps the limits. -/
theorem exec_limits {i : Instr} {s t : State} (h : exec i s = .next t) : s.KeepsLimits t := by
  cases hi : requestRow i with
  | some p =>
    obtain ⟨takes, run, hr, e⟩ := requestRow_grants hi
    exact grant_limits hr (e s ▸ h)
  | none =>
    cases i <;> simp only [requestRow, reduceCtorEq] at hi <;> simp only [exec] at h
    case transactionStart => exact transactionStart_limits h
    case transactionEnd => exact transactionEnd_limits h
    case badFrameEntry => exact badFrameEntry_limits h
    case repeatEntry => exact repeatEntry_limits h
    case reset p =>
      have zero : p = 0 := by simpa using hi
      rw [execReset, if_pos zero] at h
      split at h <;> cases h
      · exact .refl _
      · exact (resetBlocks_limits s).same rfl rfl
    case resetNAssert => cases h; exact (resetBlocks_limits s).same rfl rfl
    case resetNRelease high =>
      unfold execResetNRelease at h
      split at h <;> cases h
      · exact (endReset_limits _ high).after rfl rfl
      · exact .refl _
    case resetHoldExpiry high =>
      unfold execResetHoldExpiry at h
      split at h <;> cases h
      · exact (endReset_limits _ high).after rfl rfl
      · exact .refl _
    case periodTimerExpiry => exact periodTimerExpiry_limits h
    case markArrival => cases h; exact receiveMark_limits s _
    case echoArrival => cases h; exact receiveMark_limits s _
    case lossTimerExpiry => exact lossTimerExpiry_limits h
    case alignmentLapse => unfold execAlignmentLapse at h; split at h <;> cases h <;> exact .of_eq rfl rfl
    case trailerArrival => exact trailerArrival_limits h
    case leadCellArrival => exact leadCellArrival_limits h
    case payloadCellArrival =>
      unfold execPayloadCellArrival at h
      split at h
      · exact (catchUp_limits s).trans (receivePayload_limits h)
      · cases h; exact .refl _
    case badCheckCellArrival =>
      unfold execBadCheckCellArrival at h
      split at h
      · exact (catchUp_limits s).trans (receivePayload_limits h)
      · cases h; exact .refl _
    case idleCellArrival =>
      unfold execIdleCellArrival at h
      split at h <;> cases h
      · exact (catchUp_limits s).same (by simp) (by simp)
      · exact .refl _
    case serviceStart =>
      unfold execServiceStart at h
      split at h
      · cases h; exact .refl _
      · exact takeOfLane_limits h
    case txCompletion =>
      unfold execTxCompletion at h
      split at h
      · cases h; exact .refl _
      · exact takeOfLane_limits h
    case enteringUp => exact enteringUp_limits h
    case markProcessing => cases h; exact takeThrough_limits s _
    case matchClaim => cases h; exact takeThrough_limits s _
    case rxCompletion => cases h; exact takeThrough_limits s _
    case periodEnd => cases h; exact takeThrough_limits s _
    case leavingUp => cases h; exact takeThrough_limits s _
    case slip => cases h; exact takeThrough_limits s _

/-- Every step keeps the limits. -/
theorem step_limits {s t : State} (h : step s = .next t) : s.KeepsLimits t := by
  unfold step at h
  split at h
  · exact cellTime_limits h
  · exact (exec_limits h).after rfl rfl

/-- Settles O14: a step queues notices, takes entries out, answers entries granted and admits frames where
there is room, and each keeps the limits. -/
theorem stepKeepsQueueLimits : Obligations.StepKeepsQueueLimits := fun _ _ h =>
  ⟨(step_limits h).notices, (step_limits h).flow⟩

end Sys2Proof.Machine
end

section
/-! SUPPORT. The statements about frames and cells: the judgement of a frame by its header and its CRC, and
the words of the Formats chapter written out byte by byte. -/

namespace Sys2Proof.Machine

/-! ### Bytes at a position -/

/-- A number behind the four bytes of a header is the number behind it in the rest (11, opening). -/
theorem numberAt_header (a b c d : Byte) (tail : List Byte) (n : Nat) :
    numberAt (a :: b :: c :: d :: tail) (4 + n) = numberAt tail n := by
  rw [Nat.add_comm]
  rfl

/-- The number that two bytes spell behind a run of bytes. -/
theorem numberAt_length (front : List Byte) (hi lo : Byte) (after : List Byte) :
    numberAt (front ++ hi :: lo :: after) front.length = join16 hi lo := by
  simp [numberAt, byteAt]

/-! ### The judgement of a frame (R176 to R180) -/

/-- Bytes with no header, or with the code IDLE, are no request (R178). -/
theorem judge_noRequest {mosi : List Byte} (h : mosi.length < 4 ∨ byteAt mosi 0 = 0) :
    judge mosi = .noRequest := if_pos h

section Header

variable {code hi lo : Byte} {tail : List Byte}

/-- A header whose code is not IDLE is judged sound or unsound (R178). -/
theorem header_isRequest (busy : code ≠ 0) (sequence hi lo : Byte) (tail : List Byte) :
    ¬((code :: sequence :: hi :: lo :: tail).length < 4 ∨
      byteAt (code :: sequence :: hi :: lo :: tail) 0 = 0) := by
  rintro (short | idle)
  · simp only [List.length_cons] at short
    omega
  · exact busy idle

/-- A length above 2060, or more than what follows the header holds with a CRC, is unsound (R179). -/
theorem judge_misfit (busy : code ≠ 0) (sequence : Byte)
    (misfit : 2060 < join16 hi lo ∨ tail.length < join16 hi lo + 2) :
    judge (code :: sequence :: hi :: lo :: tail) = .unsound code sequence := by
  have misfits : Config.maxBody < join16 hi lo ∨
      (code :: sequence :: hi :: lo :: tail).length < join16 hi lo + 6 :=
    misfit.imp_right fun short => Nat.add_lt_add_right short 4
  exact (if_neg (header_isRequest busy sequence hi lo tail)).trans (if_pos misfits)

/-- Where the length fits, the CRC behind the body decides (R177, R179, R180). -/
theorem judge_fit (busy : code ≠ 0) (sequence : Byte)
    (bounded : join16 hi lo ≤ 2060) (whole : join16 hi lo + 2 ≤ tail.length) :
    judge (code :: sequence :: hi :: lo :: tail) =
      let body := tail.take (join16 hi lo)
      let crc := crc16 (code :: sequence :: hi :: lo :: body)
      if numberAt tail (join16 hi lo) = crc.toNat then .sound ⟨code, sequence, body, crc⟩
      else .unsound code sequence := by
  have fits : ¬(Config.maxBody < join16 hi lo ∨
      (code :: sequence :: hi :: lo :: tail).length < join16 hi lo + 6) :=
    not_or.mpr ⟨bounded.not_gt, (Nat.add_le_add_right whole 4).not_gt⟩
  have covered : (code :: sequence :: hi :: lo :: tail).take (4 + join16 hi lo) =
      code :: sequence :: hi :: lo :: tail.take (join16 hi lo) := by
    rw [Nat.add_comm]
    rfl
  simp only [← numberAt_header code sequence hi lo tail, ← covered]
  exact (if_neg (header_isRequest busy sequence hi lo tail)).trans (if_neg fits)

end Header

/-- A frame laid out as 11.2 says is judged by the two bytes that close it, whatever bytes follow
(R176, R177, R179, R180). -/
theorem judge_frame {code : Byte} (busy : code ≠ 0) (sequence hi lo : Byte) {body : List Byte}
    (le : body.length ≤ 2060) (after : List Byte) :
    judge (code :: sequence :: (be16 body.length ++ body ++ [hi, lo] ++ after)) =
      let crc := crc16 (code :: sequence :: (be16 body.length ++ body))
      if join16 hi lo = crc.toNat then .sound ⟨code, sequence, body, crc⟩
      else .unsound code sequence := by
  have spelt := join16_be16 (x := body.length) (by omega)
  have layout : be16 body.length ++ body ++ [hi, lo] ++ after =
      BitVec.ofNat 8 (body.length / 256) :: BitVec.ofNat 8 body.length ::
        (body ++ hi :: lo :: after) := by simp [be16]
  have whole : body.length + 2 ≤ (body ++ hi :: lo :: after).length := by simp
  rw [layout, judge_fit busy sequence (spelt.trans_le le) (spelt.symm ▸ whole), spelt,
    List.take_left, numberAt_length]
  rfl

/-- Settles O4: a header decides but where its length fits, and there the CRC does, which a frame as sent
spells behind its body. -/
theorem framesJudgedAsSent : Obligations.FramesJudgedAsSent := by
  refine ⟨fun code sequence body after busy le => ?_, fun mosi => judge_noRequest,
    fun code sequence hi lo tail busy => judge_misfit busy sequence,
    fun code sequence hi lo body after busy le wrong => ?_⟩
  · have spelt := join16_be16 (crc16 (code :: sequence :: (be16 body.length ++ body))).isLt
    have sent := (judge_frame busy sequence _ _ le after).trans (if_pos spelt)
    rw [← sent]
    simp [requestFrame, crcBytes, be16]
  · exact (judge_frame busy sequence hi lo le after).trans (if_neg wrong)

/-! ### The words written out (9.4, 11.2, 11.8) -/

/-- Settles O3, by computing the CRC of the nine characters, of each cell and of the frame. -/
theorem workedWords : Obligations.WorkedWords := by
  refine ⟨?_, ?_, ?_, ?_, ?_, ?_⟩ <;> decide +kernel

end Sys2Proof.Machine
end

section
/-! SUPPORT. A part held in reset (10.4): every row but those of the transactions and of the resets leaves it
as it is, and what those do keeps its reset values. -/

namespace Sys2Proof.Machine

/-! ### Moves that leave a held part as it is -/

/-- A move that a held part does not make, and that neither begins nor ends a reset. -/
structure State.LeavesHeld (s t : State) : Prop where
  still : s.held = true → t = s
  held : t.held = s.held

theorem State.LeavesHeld.refl (s : State) : s.LeavesHeld s := ⟨fun _ => rfl, rfl⟩

/-- A part that is not held may do anything but touch the reset pin and the hold. -/
theorem State.LeavesHeld.of_free {s t : State} (free : s.held = false) (pin : t.resetPin = s.resetPin)
    (hold : t.resetHold = s.resetHold) : s.LeavesHeld t :=
  ⟨fun held => absurd held (by simp [free]), by simp only [State.held, pin, hold]⟩

theorem State.LeavesHeld.heldLaw {s t : State} (l : s.LeavesHeld t) (law : s.heldLaw) : t.heldLaw :=
  fun held => by
    have same := l.still (l.held ▸ held)
    subst same
    exact law held

/-- A part that hears its receive lane is not held (R203). -/
theorem hears_free {s : State} (h : s.hears = true) : s.held = false := by
  simp only [State.hears, Bool.and_eq_true, Bool.not_eq_true'] at h
  exact h.1

/-- A part that takes cells from its receive lane is not held (R203). -/
theorem receives_free {s : State} (h : s.receives = true) : s.held = false := by
  simp only [State.receives, Bool.and_eq_true] at h
  exact hears_free h.1

/-! ### Claims and events of the link -/

theorem takeThrough_leavesHeld (s : State) (kind : Claim → Bool) : s.LeavesHeld (s.takeThrough kind) :=
  ⟨fun held => if_pos held, by simp [State.held]⟩

theorem enteringUp_leavesHeld {s t : State} (h : execEnteringUp s = .next t) : s.LeavesHeld t := by
  unfold execEnteringUp at h
  split at h
  · cases h; exact .refl _
  rename_i free
  split at h
  · cases h; exact takeThrough_leavesHeld _ _
  split at h <;> cases h
  · exact .of_free (Bool.not_eq_true _ ▸ free) (by simp) (by simp)
  · exact .refl _

/-- A row of the lane's claims, which a held part does not take. -/
theorem laneRow_leavesHeld {s t : State} {kind : Claim → Bool} {toCome : State → Bool}
    (h : (if s.held then .next s else s.takeOfLane kind toCome) = .next t) : s.LeavesHeld t := by
  split at h
  · cases h; exact .refl _
  · rename_i free
    obtain ⟨-, -, -, -, pin, hold, -⟩ := State.takeOfLane_keeps h
    exact .of_free (Bool.not_eq_true _ ▸ free) pin hold

theorem receiveMark_leavesHeld (s : State) (c : MarkCell) : s.LeavesHeld (s.receiveMark c) := by
  unfold State.receiveMark
  split
  · have free := hears_free ‹_›
    dsimp only
    repeat' split
    all_goals exact .of_free free (by simp) (by simp)
  · exact .refl s

theorem periodTimerExpiry_leavesHeld {s t : State} (h : execPeriodTimerExpiry s = .next t) :
    s.LeavesHeld t := by
  unfold execPeriodTimerExpiry at h
  split at h <;> cases h
  · rename_i runs
    simp only [Bool.and_eq_true] at runs
    exact .of_free (hears_free runs.1.1) (by simp) (by simp)
  · exact .refl _

theorem lossTimerExpiry_leavesHeld {s t : State} (h : execLossTimerExpiry s = .next t) :
    s.LeavesHeld t := by
  unfold execLossTimerExpiry at h
  split at h
  · rename_i runs
    simp only [Bool.and_eq_true] at runs
    dsimp only at h
    split at h <;> cases h <;> exact .of_free (hears_free runs.1.1) (by simp) (by simp)
  · cases h; exact .refl _

theorem alignmentLapse_leavesHeld {s t : State} (h : execAlignmentLapse s = .next t) :
    s.LeavesHeld t := by
  unfold execAlignmentLapse at h
  split at h <;> cases h
  · rename_i runs
    simp only [Bool.and_eq_true] at runs
    exact .of_free (hears_free runs.1) rfl rfl
  · exact .refl _

theorem trailerArrival_leavesHeld {s t : State} {n : BitVec 16} (h : execTrailerArrival n s = .next t) :
    s.LeavesHeld t := by
  unfold execTrailerArrival at h
  split at h
  · have free := receives_free ‹_›
    dsimp only at h
    split at h <;> cases h
    · exact .of_free free (by simp) (by simp)
    · split <;> exact .of_free free (by simp) (by simp)
  · cases h; exact .refl _

theorem leadCellArrival_leavesHeld {s t : State} {channel count : Byte}
    (h : execLeadCellArrival channel count s = .next t) : s.LeavesHeld t := by
  unfold execLeadCellArrival at h
  split at h
  · have free := receives_free ‹_›
    dsimp only at h
    repeat' split at h
    all_goals cases h; exact .of_free free (by simp) (by simp)
  · cases h; exact .refl _

/-- A cell inside a burst touches neither the reset pin nor the hold. -/
theorem receivePayload_hold {s t : State} {data : Payload} {sound : Bool}
    (h : s.receivePayload data sound = .next t) : t.resetPin = s.resetPin ∧ t.resetHold = s.resetHold := by
  rcases receivePayload_cases h with rfl | ⟨f, m, -, -, e⟩
  · exact ⟨rfl, rfl⟩
  · rw [e]
    dsimp only
    split <;> exact ⟨rfl, rfl⟩

/-- A cell that may be a payload cell. -/
theorem payloadRow_leavesHeld {s t : State} {data : Payload} {sound : Bool}
    (h : (if s.receives then s.catchUp.receivePayload data sound else .next s) = .next t) :
    s.LeavesHeld t := by
  split at h
  · obtain ⟨pin, hold⟩ := receivePayload_hold h
    exact .of_free (receives_free ‹_›) (by simp [pin]) (by simp [hold])
  · cases h; exact .refl _

theorem idleCellArrival_leavesHeld {s t : State} (h : execIdleCellArrival s = .next t) :
    s.LeavesHeld t := by
  unfold execIdleCellArrival at h
  split at h <;> cases h
  · exact .of_free (receives_free ‹_›) (by simp) (by simp)
  · exact .refl _

/-! ### Entries of the ports -/

/-- No accepted request touches the reset pin or the hold: a RESET of port 0 makes no entry (R201). -/
theorem RequestEffect.keepsHold {s t : State} (e : RequestEffect s t) :
    t.resetPin = s.resetPin ∧ t.resetHold = s.resetHold := by
  cases e with
  | read | put | poll | quota | openStream | start | stop | handover | upgrade | hold | reshape =>
    exact ⟨rfl, rfl⟩
  | withdraw | close | closing | draining | closeDraining | closeForced | enable | disable => simp
  | purge p n self r =>
    have records := foldl_keeps State.purgeRecord (fun t => (t.resetPin, t.resetHold)) (by simp)
      (s.ownedBy n) (s.setPort n ((s.port n).purgeRequests self))
    have purged : (s.purge n self).resetPin = s.resetPin ∧ (s.purge n self).resetHold = s.resetHold :=
      Prod.mk.inj records
    unfold State.keepAccepted
    split <;> exact purged

theorem grant_leavesHeld {s t : State} {p : Port} {takes : Request → Bool}
    {run : Request → State → Answer} (hr : Handles p run) (h : s.grant p takes run = .next t) :
    s.LeavesHeld t := by
  rcases grant_cases h with rfl | ⟨r, u, a, free, -, -, e, rfl⟩
  · exact .refl _
  · rcases hr.answers e with ⟨-, same⟩ | ⟨-, effect⟩
    · obtain rfl : u = s.settle.advance p := same
      exact .of_free free (by simp) (by simp)
    · obtain ⟨pin, hold⟩ := effect.keepsHold
      exact .of_free free (by simp [show u.resetPin = _ from pin]) (by simp [show u.resetHold = _ from hold])

theorem badFrameEntry_leavesHeld {p : Port} {s t : State} (h : execBadFrameEntry p s = .next t) :
    s.LeavesHeld t := by
  unfold execBadFrameEntry at h
  split at h
  · cases h; exact .refl _
  · rename_i free
    dsimp only at h
    split at h <;> cases h
    · exact .of_free (Bool.not_eq_true _ ▸ free) (by simp) (by simp)
    · exact .refl _

theorem repeatEntry_leavesHeld {p : Port} {s t : State} (h : execRepeatEntry p s = .next t) :
    s.LeavesHeld t := by
  unfold execRepeatEntry at h
  split at h
  · cases h; exact .refl _
  · rename_i free
    dsimp only at h
    split at h <;> cases h
    · exact .of_free (Bool.not_eq_true _ ▸ free) (by simp) (by simp)
    · exact .refl _

/-! ### Resets -/

/-- A part that is not held is at no values in particular. -/
theorem heldLaw_of_free {s : State} (free : s.held = false) : s.heldLaw :=
  fun held => nomatch free.symm.trans held

/-- A transaction that a reset cut is not cut again (R189). -/
theorem cutReset_idem (x : PortInterface) : x.cutReset.cutReset = x.cutReset := by
  cases e : x.transaction <;> simp [PortInterface.cutReset, e, Transaction.cutShort]

/-- A reset of the blocks leaves nothing for another to do. -/
theorem resetBlocks_idem (s : State) : s.resetBlocks.resetBlocks = s.resetBlocks := by
  have port : ∀ p, (s.resetBlocks.port p).cutReset = (s.port p).cutReset := fun p => by
    rw [resetBlocks_port, cutReset_idem]
  exact congrArg (fun f => { s.resetBlocks with ports := tabulate f }) (funext port)

/-- Whatever holds the part after a reset of the blocks, they are at their reset values. -/
theorem resetBlocks_heldLaw (s : State) (pin hold : Bool) :
    State.heldLaw { s.resetBlocks with resetPin := pin, resetHold := hold } := fun _ =>
  congrArg (fun t : State => { t with resetPin := pin, resetHold := hold }) (resetBlocks_idem s)

/-- The end of what holds the part: where something else still does, its blocks stay as they are, and where
nothing does, they are free to leave their reset values (R203). -/
theorem endReset_heldLaw {s : State} (reset : s.resetBlocks = s) (pin hold high : Bool) :
    (State.endReset { s with resetPin := pin, resetHold := hold } high).heldLaw := by
  unfold State.endReset
  split
  · exact fun _ => congrArg (fun t : State => { t with resetPin := pin, resetHold := hold }) reset
  · rename_i free
    exact heldLaw_of_free (Bool.not_eq_true _ ▸ free)

/-! ### Transactions -/

/-- A reset of the blocks after a Port Interface was replaced. -/
theorem resetBlocks_setPort (s : State) (p : Port) (x : PortInterface) :
    (s.setPort p x).resetBlocks = s.resetBlocks.setPort p x.cutReset := by
  have entry : ∀ k, (tabulate fun k => ((s.setPort p x).port k).cutReset).get k =
      ((tabulate fun k => (s.port k).cutReset).set p.val x.cutReset p.isLt).get k := fun k => by
    rw [vector_get_set, tabulate_get, tabulate_get, State.setPort_port]
    split <;> rfl
  exact congrArg (fun v => { s.resetBlocks with ports := v }) (Vector.ext fun k hk => entry ⟨k, hk⟩)

/-- A Port Interface at its reset values stays at them when it is given a cut transaction, or none
(R189). -/
theorem cutReset_with {x : PortInterface} (reset : x.cutReset = x) {y : Option Transaction}
    (cut : y.map Transaction.cutShort = y) :
    PortInterface.cutReset { x with transaction := y } = { x with transaction := y } :=
  calc PortInterface.cutReset { x with transaction := y }
      = { x.cutReset with transaction := y.map Transaction.cutShort } := rfl
    _ = { x with transaction := y } := by rw [reset, cut]

/-- The part is at its reset values with another cut transaction, or none, at a port. -/
theorem setTransaction_reset {s : State} (reset : s.resetBlocks = s) (p : Port) {y : Option Transaction}
    (cut : y.map Transaction.cutShort = y) :
    (s.setPort p { s.port p with transaction := y }).resetBlocks =
      s.setPort p { s.port p with transaction := y } := by
  have port : (s.port p).cutReset = s.port p := by rw [← resetBlocks_port, reset]
  rw [resetBlocks_setPort, reset, cutReset_with port cut]

/-- A transaction begun while the part is held is cut from its start (R189). -/
theorem newTransaction_cut {s : State} (held : s.held = true) (p : Port) (mosi : List Byte) :
    ((s.newTransaction p).clock mosi).cutShort = (s.newTransaction p).clock mosi := by
  simp [Transaction.cutShort, Transaction.clock, State.newTransaction, held]

/-- The start of a transaction, also while the part is held (R171, R200). -/
theorem transactionStart_heldLaw {x : TransactionStart} {s t : State} (law : s.heldLaw)
    (h : execTransactionStart x s = .next t) : t.heldLaw := by
  unfold execTransactionStart at h
  split at h <;> cases h
  · exact law
  · intro (held : s.held = true)
    exact setTransaction_reset (law held) x.port (congrArg some (newTransaction_cut held x.port x.mosi))

/-- A frame judged leaves a part that is not held so, or starts a reset (R201). -/
theorem judgeFrame_heldLaw {s : State} (free : s.held = false) (p : Port) (mosi : List Byte) :
    (s.judgeFrame p mosi).heldLaw := by
  have ports : ∀ x, (s.setPort p x).heldLaw := fun _ => heldLaw_of_free free
  unfold State.judgeFrame
  split
  · exact heldLaw_of_free free
  · exact ports _
  · unfold State.takeFrame
    dsimp only
    split
    · exact ports _
    split
    · exact ports _
    split
    · exact resetBlocks_heldLaw s s.resetPin true
    · exact ports _

/-- While the part is held every transaction in progress is cut (R189). -/
theorem reset_transaction_cut {s : State} (reset : s.resetBlocks = s) {p : Port} {u : Transaction}
    (going : (s.port p).transaction = some u) : u.cut = true := by
  have port : (s.port p).cutReset = s.port p := by rw [← resetBlocks_port, reset]
  rw [← port] at going
  obtain ⟨y, -, rfl⟩ := (cutReset_transaction (s.port p)).1 u going
  rfl

/-- The end of a transaction: while the part is held it settles nothing (R189). -/
theorem transactionEnd_heldLaw {p : Port} {mosi : List Byte} {s t : State} (law : s.heldLaw)
    (h : execTransactionEnd p mosi s = .next t) : t.heldLaw := by
  unfold execTransactionEnd at h
  dsimp only at h
  split at h
  · cases h; exact law
  rename_i u going
  split at h <;> cases h
  · exact fun held => setTransaction_reset (law held) p rfl
  · rename_i whole
    rw [clock_cut] at whole
    have free : s.held = false := Bool.eq_false_iff.mpr fun held =>
      whole (reset_transaction_cut (law held) going)
    exact judgeFrame_heldLaw (s := s.setPort p _) free p _

/-! ### Steps -/

/-- A cell time, in which a held part sends the idle cell that it sends anyway (R200). -/
theorem cellTime_heldLaw {s t : State} (law : s.heldLaw) (h : s.cellTime = .next t) : t.heldLaw := by
  rcases cellTime_cases h with ⟨-, rfl⟩ | ⟨free, -, -⟩
  · intro held
    have reset : s.resetBlocks = s := law held
    have idle : s.lane.sending = .idle := (congrArg (fun u => u.lane.sending) reset).symm
    have same : { s with lane := { s.lane with sending := .idle } } = s := by rw [← idle]
    rw [same, reset]
  · obtain ⟨-, -, -, -, pin, hold, -⟩ := State.cellTime_keeps h
    exact (State.LeavesHeld.of_free free pin hold).heldLaw law

/-- Every row keeps a held part at its reset values. -/
theorem exec_heldLaw {i : Instr} {s t : State} (law : s.heldLaw) (h : exec i s = .next t) : t.heldLaw := by
  have leaves : s.LeavesHeld t → t.heldLaw := fun l => l.heldLaw law
  cases hi : requestRow i with
  | some p =>
    obtain ⟨takes, run, hr, e⟩ := requestRow_grants hi
    exact leaves (grant_leavesHeld hr (e s ▸ h))
  | none =>
    cases i <;> simp only [requestRow, reduceCtorEq] at hi <;> simp only [exec] at h
    case transactionStart => exact transactionStart_heldLaw law h
    case transactionEnd => exact transactionEnd_heldLaw law h
    case reset p =>
      have zero : p = 0 := by simpa using hi
      rw [execReset, if_pos zero] at h
      split at h <;> cases h
      · exact law
      · exact resetBlocks_heldLaw s s.resetPin true
    case resetNAssert => cases h; exact resetBlocks_heldLaw s true s.resetHold
    case resetNRelease high =>
      unfold execResetNRelease at h
      split at h <;> cases h
      · rename_i pin
        exact endReset_heldLaw (law (by simp [State.held, pin])) false s.resetHold high
      · exact law
    case resetHoldExpiry high =>
      unfold execResetHoldExpiry at h
      split at h <;> cases h
      · rename_i hold
        exact endReset_heldLaw (law (by simp [State.held, hold])) s.resetPin false high
      · exact law
    case badFrameEntry => exact leaves (badFrameEntry_leavesHeld h)
    case repeatEntry => exact leaves (repeatEntry_leavesHeld h)
    case periodTimerExpiry => exact leaves (periodTimerExpiry_leavesHeld h)
    case markArrival => cases h; exact leaves (receiveMark_leavesHeld s _)
    case echoArrival => cases h; exact leaves (receiveMark_leavesHeld s _)
    case lossTimerExpiry => exact leaves (lossTimerExpiry_leavesHeld h)
    case alignmentLapse => exact leaves (alignmentLapse_leavesHeld h)
    case trailerArrival => exact leaves (trailerArrival_leavesHeld h)
    case leadCellArrival => exact leaves (leadCellArrival_leavesHeld h)
    case payloadCellArrival => exact leaves (payloadRow_leavesHeld h)
    case badCheckCellArrival => exact leaves (payloadRow_leavesHeld h)
    case idleCellArrival => exact leaves (idleCellArrival_leavesHeld h)
    case serviceStart => exact leaves (laneRow_leavesHeld h)
    case txCompletion => exact leaves (laneRow_leavesHeld h)
    case enteringUp => exact leaves (enteringUp_leavesHeld h)
    case markProcessing | matchClaim | rxCompletion | periodEnd | leavingUp | slip =>
      cases h; exact leaves (takeThrough_leavesHeld s _)

/-- Settles O17: a transaction that meets a held part is cut, a reset that begins puts every block at its
reset values, one that ends leaves them to what still holds the part, and no other row moves a held part. -/
theorem stepKeepsReset : Obligations.StepKeepsReset := by
  intro s t law h
  unfold step at h
  split at h
  · exact cellTime_heldLaw law h
  · rename_i rest _
    exact exec_heldLaw (s := { s with pending := rest }) (heldLaw_pending law rest) h

end Sys2Proof.Machine
end

section
/-! SUPPORT. QUOTA (10.1): the body as it is spelt, and the request granted. -/

namespace Sys2Proof.Machine

/-- A byte above 3 names no port (R206). -/
theorem portOf_reserved {b : Byte} (h : 3 < b.toNat) : portOf b = none :=
  dif_neg (Nat.not_lt.mpr h)

/-- The byte of a port names it. -/
@[simp] theorem portOf_byte (n : Port) : portOf (byte n.val) = some n := by
  revert n; decide

/-- A body with a value out of its range gives no quota (R193, R206). -/
theorem readQuota_misspelt {x : List Byte}
    (bad : 3 < (byteAt x 0).toNat ∨ 1 < (byteAt x 1).toNat ∨ 18432 < numberAt x 2) :
    readQuota x = none := by
  unfold readQuota
  split
  · rename_i n d port direction
    rcases bad with high | reserved | large
    · exact nomatch (portOf_reserved high).symm.trans port
    · exact nomatch (directionOf_reserved reserved).symm.trans direction
    · exact if_neg fun range => Nat.not_le.mpr large range.2
  · rfl

/-- The port, the direction and the quota that a body spells (R193). -/
theorem readQuota_spelt (n : Port) (d : Direction) {q : Nat} (le : q ≤ 18432) :
    readQuota ([byte n.val, directionByte d] ++ be16 q) = some (n, d, q) := by
  have port : portOf (byteAt ([byte n.val, directionByte d] ++ be16 q) 0) = some n := portOf_byte n
  have direction : directionOf (byteAt ([byte n.val, directionByte d] ++ be16 q) 1) = some d :=
    directionOf_directionByte d
  have number : numberAt ([byte n.val, directionByte d] ++ be16 q) 2 = q := join16_be16 (by omega)
  have range : ([byte n.val, directionByte d] ++ be16 q).length = 4 ∧ q ≤ Config.directionUnits :=
    ⟨rfl, le⟩
  simp only [readQuota, port, direction, number, if_pos range]

end Sys2Proof.Machine

namespace Sys2Proof

open Machine

/-- Settles O42: the row granted, whose three answers are the branches of the request. -/
theorem quotaRequest : Obligations.QuotaRequest := by
  intro s p r rest hg code u
  have taken : ofCode 0x10 r = true := decide_eq_true code
  have refused : ∀ x, Machine.quotaRequest p r (u.advance p) = refuse (u.advance p) x →
      exec (.quota p) s = .next (u.responded p r rest x []) := fun x e =>
    grants_refused (run := fun r t => .ok (Machine.quotaRequest p r t)) hg taken (congrArg Except.ok e)
  refine ⟨fun other => refused .denied (if_pos other), fun zero _ bad => refused .badArg ?_,
    fun n d q zero le body => ?_⟩
  · rw [Machine.quotaRequest, if_neg (not_not.mpr zero), readQuota_misspelt bad]
  · refine grants_next (w := (u.advance p).setQuota n d q) (run := fun r t =>
      .ok (Machine.quotaRequest p r t)) hg taken (congrArg Except.ok ?_) rfl rfl
    rw [Machine.quotaRequest, if_neg (not_not.mpr zero), body, readQuota_spelt n d le]
    rfl

end Sys2Proof
end

section
/-! SUPPORT. What a PURGE does to the records, the tables, the free list, the services in flight and the
lane (10.3). -/

namespace Sys2Proof.Machine

/-! ### The records of a port -/

/-- The records that a port owns come by ascending handle. -/
theorem ownedBy_pairwise (s : State) (n : Port) : (s.ownedBy n).Pairwise (· < ·) :=
  (List.pairwise_lt_finRange 64).filter _

theorem ownedBy_nodup (s : State) (n : Port) : (s.ownedBy n).Nodup :=
  (ownedBy_pairwise s n).imp fun lt => ne_of_lt lt

/-- The records that a port owns are the open ones whose owner it is. -/
theorem mem_ownedBy {s : State} {n : Port} {h : Handle} :
    h ∈ s.ownedBy n ↔ ∃ st, s.stream h = some st ∧ st.owner = n := by
  simp [State.ownedBy, handles, Option.any_eq_true]

/-! ### One record force-retired -/

/-- A record force-retired within a PURGE is VACANT with its generation advanced, and no other record
changes (R20). -/
theorem purgeRecord_record (s : State) (h k : Handle) :
    (s.purgeRecord h).record k =
      if k = h ∧ (s.stream h).isSome = true then ⟨(s.record h).generation + 1, none⟩ else s.record k :=
  vacate_record (s.abortFlight h) h k

/-- Another record is as it was. -/
theorem purgeRecord_record_other (s : State) {h k : Handle} (other : k ≠ h) :
    (s.purgeRecord h).record k = s.record k := by
  rw [purgeRecord_record, if_neg fun c => other c.1]

/-- The extents that a retired record held are released, a pending new pair first (R20). -/
theorem vacate_free (s : State) (h : Handle) :
    (s.vacate h).free =
      ((s.stream h).elim [] Stream.purgeOrder).foldl (fun free e => release e free) s.free := by
  cases hs : s.stream h with
  | none => rw [vacate_none hs]; rfl
  | some st =>
    have freed : (s.vacate h).free =
        releasePair (st.bufferA.extent, st.bufferB.extent) (s.withdrawAmendment h).free := by
      rw [vacate_eq hs]; rfl
    rw [freed, withdrawAmendment_free hs, Option.elim_some, Stream.purgeOrder, List.foldl_append]
    cases st.pending.bind Amendment.pair <;> rfl

/-- A service, by its handle and generation, is of one of some records. -/
def State.serves (s : State) (l : List Handle) (h : Handle) (g : Byte) : Bool :=
  decide (h ∈ l ∧ g = (s.record h).generation)

/-- The unit without the services in flight that a test names. -/
def PeriodService.without (u : PeriodService) (test : Handle → Byte → Bool) : PeriodService :=
  { u with
    txFlight := u.txFlight.filter fun f => !test f.handle f.generation
    rxFlight := u.rxFlight.filter fun f => !test f.handle f.generation }

/-- The lane with the rest of its slot idle, where the slot's service is one that a test names (R21). -/
def TransmitLane.without (l : TransmitLane) (tx : Option TxFlight) (test : Handle → Byte → Bool) :
    TransmitLane :=
  if tx.any fun f => test f.handle f.generation then l.silence else l

theorem without_without (u : PeriodService) (a b : Handle → Byte → Bool) :
    (u.without a).without b = u.without fun h g => a h g || b h g := by
  simp [PeriodService.without, Option.filter_filter]

/-- A slot whose service is dropped by the first test is not silenced again by a second. -/
theorem lane_without_without (l : TransmitLane) (u : PeriodService) (a b : Handle → Byte → Bool) :
    (l.without u.txFlight a).without (u.without a).txFlight b =
      l.without u.txFlight fun h g => a h g || b h g := by
  unfold TransmitLane.without PeriodService.without
  cases u.txFlight with
  | none => rfl
  | some f => cases hit : a f.handle f.generation <;> simp [hit]

/-- An option emptied where a test holds of its value is the option filtered. -/
theorem emptied_eq_filter {α : Type} (x : Option α) (test : α → Bool) :
    (if x.any test then none else x) = x.filter fun f => !test f := by
  cases x with
  | none => rfl
  | some f => cases hit : test f <;> simp [hit, Option.filter_some]

/-- The abort of a record's services drops those, and the rest of a TX slot goes out idle (R21). -/
theorem abortFlight_eq (s : State) (h : Handle) :
    s.abortFlight h = { s with
      psu := s.psu.without (s.serves [h])
      lane := s.lane.without s.psu.txFlight (s.serves [h]) } := by
  have test : ∀ k g, s.serves [h] k g = (decide (k = h) && decide (g = (s.record h).generation)) := by
    intro k g
    by_cases e : k = h
    · subst e; simp [State.serves]
    · simp [State.serves, e]
  simp only [State.abortFlight, PeriodService.without, TransmitLane.without, test, emptied_eq_filter]

/-! ### Records force-retired one after another -/

/-- The records retired are VACANT with their generations advanced, and no other record changes. -/
theorem purgeAll_record {l : List Handle} (nodup : l.Nodup) (s : State) (k : Handle) :
    (l.foldl State.purgeRecord s).record k =
      if k ∈ l ∧ (s.stream k).isSome = true then ⟨(s.record k).generation + 1, none⟩
      else s.record k := by
  induction l generalizing s with
  | nil => simp
  | cons h l ih =>
    obtain ⟨fresh, nodup⟩ := List.nodup_cons.mp nodup
    rw [List.foldl_cons, ih nodup, State.stream, purgeRecord_record]
    by_cases e : k = h
    · subst e
      simp [fresh]
    · simp [e, State.stream]

/-- The extents that the retired records held are released, record by record (R197). -/
theorem purgeAll_free {l : List Handle} (nodup : l.Nodup) (s : State) :
    (l.foldl State.purgeRecord s).free =
      l.foldl (fun free h => ((s.stream h).elim [] Stream.purgeOrder).foldl
        (fun free e => release e free) free) s.free := by
  induction l generalizing s with
  | nil => rfl
  | cons h l ih =>
    obtain ⟨fresh, nodup⟩ := List.nodup_cons.mp nodup
    have same : ∀ k ∈ l, (s.purgeRecord h).stream k = s.stream k := fun k hk =>
      congrArg Record.stream (purgeRecord_record_other s fun e => fresh (e ▸ hk))
    have first : (s.purgeRecord h).free = _ := vacate_free (s.abortFlight h) h
    rw [List.foldl_cons, ih nodup, List.foldl_cons, first]
    exact List.foldl_ext _ _ _ fun free k hk => by rw [same k hk]

/-- The services of the retired records are dropped, and the rest of a TX slot goes out idle (R21). -/
theorem purgeAll_flights {l : List Handle} (nodup : l.Nodup) (s : State) :
    (l.foldl State.purgeRecord s).psu = s.psu.without (s.serves l) ∧
      (l.foldl State.purgeRecord s).lane = s.lane.without s.psu.txFlight (s.serves l) := by
  induction l generalizing s with
  | nil =>
    have all : ∀ {α : Type} (x : Option α), x.filter (fun _ => true) = x := fun x => by cases x <;> rfl
    simp [State.serves, PeriodService.without, TransmitLane.without, all]
  | cons h l ih =>
    obtain ⟨fresh, nodup⟩ := List.nodup_cons.mp nodup
    have later : (s.purgeRecord h).serves l = s.serves l := by
      funext k g
      refine decide_eq_decide.mpr (and_congr_right fun hk => ?_)
      have other : k ≠ h := fun e => fresh (e ▸ hk)
      rw [purgeRecord_record_other s other]
    have both : (fun k g => s.serves [h] k g || s.serves l k g) = s.serves (h :: l) := by
      funext k g
      simp [State.serves, or_and_right]
    have psu : (s.purgeRecord h).psu = s.psu.without (s.serves [h]) := by
      rw [State.purgeRecord, (State.vacate_keeps _ _).2.2.2.1, abortFlight_eq]
    have lane : (s.purgeRecord h).lane = s.lane.without s.psu.txFlight (s.serves [h]) := by
      simp only [State.purgeRecord, State.vacate_keeps, abortFlight_eq]
    obtain ⟨unit, cells⟩ := ih nodup (s.purgeRecord h)
    rw [List.foldl_cons, unit, cells, later, psu, lane, without_without, lane_without_without, both]
    exact ⟨rfl, rfl⟩

/-! ### The records, tables and services after a PURGE (R196) -/

/-- The records of the port are VACANT with their generations advanced, and no other record changes. -/
theorem purge_record (s : State) (n : Port) (self : Bool) (h : Handle) :
    (s.purge n self).record h =
      if h ∈ s.ownedBy n then ⟨(s.record h).generation + 1, none⟩ else s.record h := by
  have opened : h ∈ s.ownedBy n → (s.stream h).isSome = true := fun owned => by
    obtain ⟨st, hs, -⟩ := mem_ownedBy.mp owned
    rw [hs]; rfl
  have table : (s.purge n self).table = (s.purgeRecords n self).table := by rw [purge_eq]
  have retired : (s.purgeRecords n self).record h =
      if h ∈ s.ownedBy n ∧ (s.stream h).isSome = true then ⟨(s.record h).generation + 1, none⟩
      else s.record h :=
    purgeAll_record (ownedBy_nodup s n) (s.setPort n ((s.port n).purgeRequests self)) h
  rw [record_of_table table, retired]
  by_cases owned : h ∈ s.ownedBy n
  · rw [if_pos owned, if_pos ⟨owned, opened owned⟩]
  · rw [if_neg owned, if_neg fun c => owned c.1]

theorem purge_stream (s : State) (n : Port) (self : Bool) (h : Handle) :
    (s.purge n self).stream h = if h ∈ s.ownedBy n then none else s.stream h := by
  rw [State.stream, purge_record]
  split <;> rfl

/-- The extents of the port's records are released, record by record. -/
theorem purge_free (s : State) (n : Port) (self : Bool) :
    (s.purge n self).free =
      (s.ownedBy n).foldl (fun free h => ((s.stream h).elim [] Stream.purgeOrder).foldl
        (fun free e => release e free) free) s.free := by
  rw [purge_eq]
  exact purgeAll_free (ownedBy_nodup s n) (s.setPort n ((s.port n).purgeRequests self))

theorem purge_psu (s : State) (n : Port) (self : Bool) :
    (s.purge n self).psu = s.psu.without (s.serves (s.ownedBy n)) := by
  rw [purge_eq]
  exact (purgeAll_flights (ownedBy_nodup s n) (s.setPort n ((s.port n).purgeRequests self))).1

theorem purge_lane (s : State) (n : Port) (self : Bool) :
    (s.purge n self).lane = s.lane.without s.psu.txFlight (s.serves (s.ownedBy n)) := by
  rw [purge_eq]
  exact (purgeAll_flights (ownedBy_nodup s n) (s.setPort n ((s.port n).purgeRequests self))).2

/-- What a PURGE leaves alone beside. -/
theorem purge_keeps (s : State) (n : Port) (self : Bool) :
    (s.purge n self).table.arbiter = s.table.arbiter ∧ (s.purge n self).table.quotas = s.table.quotas ∧
      (s.purge n self).memory = s.memory ∧ (s.purge n self).claims = s.claims ∧
      (s.purge n self).link = s.link := by
  have kept := foldl_keeps State.purgeRecord
    (fun t => (t.table.arbiter, t.table.quotas, t.memory, t.claims, t.link)) (by simp) (s.ownedBy n)
    (s.setPort n ((s.port n).purgeRequests self))
  simp only [Prod.mk.injEq] at kept
  rw [purge_eq]
  exact kept

/-- A record outlives the PURGE where it is none of the port's. -/
theorem purge_outlives (s : State) (n : Port) (self : Bool) (h : Handle) :
    s.outlives (s.purge n self) h = true ↔ h ∉ s.ownedBy n := by
  rw [State.outlives, purge_stream]
  by_cases owned : h ∈ s.ownedBy n
  · obtain ⟨st, hs, -⟩ := mem_ownedBy.mp owned
    simp [owned, hs]
  · cases hs : s.stream h <;> simp [owned]

/-- The entries of the port's records are gone from the maps. -/
theorem purge_maps (s : State) (n : Port) (self : Bool) :
    (∀ e, e ∈ (s.purge n self).table.tagMap ↔ e ∈ s.table.tagMap ∧ e.handle ∉ s.ownedBy n) ∧
      ∀ e, e ∈ (s.purge n self).table.channelMap ↔
        e ∈ s.table.channelMap ∧ e.handle ∉ s.ownedBy n := by
  have follows := purge_follows s n self
  refine ⟨fun e => ?_, fun e => ?_⟩
  · rw [follows.tags, List.mem_filter, purge_outlives]
  · rw [follows.channels, List.mem_filter, purge_outlives]

/-! ### The load tables and the charges after a PURGE -/

/-- A sum over a list in which the parts that pass a test are put to 0. -/
theorem sum_retired {α : Type} {f g : α → Nat} {test : α → Bool} (l : List α)
    (parts : ∀ a, g a = if test a then 0 else f a) :
    (l.map g).sum + ((l.filter test).map f).sum = (l.map f).sum := by
  induction l with
  | nil => rfl
  | cons a l ih => cases hit : test a <;> simp [parts a, hit] <;> omega

/-- A PURGE keeps the law of the loads. -/
theorem purge_loadLaw {s : State} (law : s.loadLaw) (n : Port) (self : Bool) :
    (s.purge n self).loadLaw := (purge_evolves s n self).loadLaw law

/-- The charges of the port's records are out of the load tables. -/
theorem purge_load {s : State} (law : s.loadLaw) (n : Port) (self : Bool) (d : Direction) (r : Fin 32) :
    ((s.purge n self).table.loads.get d).get r + ((s.ownedBy n).map (s.chargeAt d r)).sum =
      (s.table.loads.get d).get r := by
  rw [(purge_loadLaw law n self).1 d r, law.1 d r]
  refine sum_retired handles fun h => ?_
  have owned : h ∈ s.ownedBy n ↔ ((s.stream h).any fun st => st.owner = n) = true := by
    simp [State.ownedBy, handles]
  have stream := purge_stream s n self h
  by_cases own : h ∈ s.ownedBy n
  · rw [if_pos own] at stream
    rw [if_pos (owned.mp own)]
    simp only [State.chargeAt, stream]
  · rw [if_neg own] at stream
    rw [if_neg (mt owned.mpr own)]
    simp only [State.chargeAt, stream]

/-- The load units that a handle charges after a PURGE: none where its record was the port's. -/
theorem purge_unitsOf (s : State) (n : Port) (self : Bool) (p : Port) (d : Direction) (h : Handle) :
    (s.purge n self).unitsOf p d h = if p = n then 0 else s.unitsOf p d h := by
  have stream := purge_stream s n self h
  by_cases owned : h ∈ s.ownedBy n
  · obtain ⟨st, hs, rfl⟩ := mem_ownedBy.mp owned
    rw [if_pos owned] at stream
    by_cases e : p = st.owner <;> simp [State.unitsOf, stream, hs, e, eq_comm]
  · have other : ∀ st, s.stream h = some st → st.owner ≠ n := fun st hs e =>
      owned (mem_ownedBy.mpr ⟨st, hs, e⟩)
    rw [if_neg owned] at stream
    simp only [State.unitsOf, stream]
    split
    · rename_i st hs
      by_cases e : p = n
      · subst e; simp [other st hs]
      · rw [if_neg e]
    · exact (ite_self 0).symm

/-- The charges of the port are 0, and those of every other port as they were. -/
theorem purge_charge {s : State} (law : s.loadLaw) (n : Port) (self : Bool) (p : Port) (d : Direction) :
    (s.purge n self).charge p d = if p = n then 0 else s.charge p d := by
  have units : (s.purge n self).unitsOf p d = fun h => if p = n then 0 else s.unitsOf p d h :=
    funext (purge_unitsOf s n self p d)
  rw [(purge_loadLaw law n self).2.1 p d, law.2.1 p d, units]
  split
  · exact List.sum_eq_zero (by simp)
  · rfl

/-! ### The notices and the port after a PURGE -/

/-- The CLOSED notices of records retired together: one each while there is room, and OVERFLOW beyond
(R196, effect 4). -/
theorem enqueueClosed_names (g : Handle → Byte) (now : Period) {l : List Handle} (nodup : l.Nodup) :
    NoticeQueue.enqueueClosed ⟨[], false⟩ now (l.map fun h => (h, g h)) =
      ⟨(l.take 32).map fun h => ⟨.closed h (g h), now, 1⟩, decide (32 < l.length)⟩ := by
  induction l using List.reverseRecOn with
  | nil => rfl
  | append_singleton l h ih =>
    obtain ⟨before, -, fresh⟩ := List.nodup_append.mp nodup
    have unmatched : ∀ k ∈ (l.take 32).map fun h => (⟨.closed h (g h), now, 1⟩ : Notice),
        k.report.matches (.closed h (g h)) = false := by
      simp only [List.forall_mem_map]
      intro k hk
      exact decide_eq_false (fresh k (List.mem_of_mem_take hk) h (List.mem_singleton_self h))
    have last : NoticeQueue.enqueueClosed ⟨[], false⟩ now ((l ++ [h]).map fun h => (h, g h)) =
        (NoticeQueue.enqueueClosed ⟨[], false⟩ now (l.map fun h => (h, g h))).enqueue
          (.closed h (g h)) now := by
      simp [NoticeQueue.enqueueClosed]
    rw [last, ih before, enqueue_unmatched unmatched]
    by_cases room : l.length < 32
    · have short : l.length ≤ 32 := by omega
      have more : (l ++ [h]).length ≤ 32 := by simp; omega
      rw [List.take_of_length_le short, List.take_of_length_le more]
      simp [room]
      omega
    · have full : 32 ≤ l.length := by omega
      rw [List.take_append_of_le_length full]
      simp [full]

/-- The port of a PURGE: its queues and flags as R196 gives. -/
theorem purged_port (x : PortInterface) (self : Bool) :
    (x.purgeRequests self).purgeResponses.setPurged =
      { x with
        requestQueue := if self then x.requestQueue.take 1 else []
        responseQueue := []
        retained := none
        lastAccepted := none
        purged := true
        transaction := x.transaction.map fun y => { y with delivery := none, purgedSince := true } } := by
  simp [PortInterface.purgeRequests, PortInterface.purgeResponses, PortInterface.setPurged,
    Function.comp_def]

/-! ### The lane after a PURGE (R21) -/

/-- The lane is as it was where the TX service in flight is not dropped. -/
theorem lane_without_kept {u : PeriodService} {test : Handle → Byte → Bool}
    (kept : (u.without test).txFlight = u.txFlight) (l : TransmitLane) :
    l.without u.txFlight test = l := by
  refine if_neg fun hit => ?_
  obtain ⟨f, flies, hit⟩ := (Option.any_eq_true _ _).mp hit
  have gone := (Option.filter_eq_some_iff.mp (kept.trans flies)).2
  rw [hit] at gone
  cases gone

/-- The rest of the slot goes out idle where the TX service in flight is dropped. -/
theorem lane_without_dropped {u : PeriodService} {test : Handle → Byte → Bool}
    (dropped : (u.without test).txFlight ≠ u.txFlight) (l : TransmitLane) :
    l.without u.txFlight test = l.silence := by
  refine if_pos (by_contra fun miss => dropped ?_)
  cases flies : u.txFlight with
  | none => simp [PeriodService.without, flies]
  | some f =>
    rw [flies, Option.any_some] at miss
    simp [PeriodService.without, flies, miss]

/-- A lead cell is still to be staged. -/
theorem any_isLead (l : List LaneCell) : l.any LaneCell.isLead = true ↔ ∃ c k, .lead c k ∈ l := by
  rw [List.any_eq_true]
  refine ⟨?_, fun ⟨c, k, lead⟩ => ⟨_, lead, rfl⟩⟩
  rintro ⟨c, mem, lead⟩
  cases c with
  | lead c k => exact ⟨c, k, mem⟩
  | payload | idle => cases lead

/-- The cells behind the staged one all go out idle. -/
theorem silence_queue (l : TransmitLane) : l.silence.queue = List.replicate l.queue.length .idle := by
  have idle : LaneCell.silenced = fun _ => .idle := funext fun c => by cases c <;> rfl
  rw [TransmitLane.silence, idle, List.map_const']

/-- The staged cell goes out as it is while the slot's lead cell is still to be staged, and otherwise idle
where it is the slot's. -/
theorem silence_staged (l : TransmitLane) :
    ((∃ c k, .lead c k ∈ l.queue) → l.silence.staged = l.staged) ∧
      ((∀ c k, .lead c k ∉ l.queue) → l.silence.staged = l.staged.map WireCell.silenced) := by
  refine ⟨fun lead => if_pos ((any_isLead _).mpr lead), fun none => if_neg fun lead => ?_⟩
  obtain ⟨c, k, mem⟩ := (any_isLead _).mp lead
  exact none c k mem

end Sys2Proof.Machine
end

section
/-! SUPPORT. PURGE granted and answered (R195 to R198). -/

namespace Sys2Proof.Machine

/-- The CLOSED notices of records retired together, as many as a queue holds (R196, effect 4). -/
def State.closedNotices (s : State) (owned : List Handle) : List Notice :=
  (owned.take 32).map fun h => ⟨.closed h (s.record h).generation, s.link.period, 1⟩

/-- The reply to an accepted PURGE (R198). -/
def State.purgeReply (s : State) (n : Port) : Reply :=
  ⟨.done, [byte n.val, byte (s.ownedBy n).length, byte (s.closedNotices (s.ownedBy n)).length,
    if 32 < (s.ownedBy n).length then 1 else 0]⟩

/-- The state in which a PURGE of port n, granted to port p, has been answered. -/
def State.purgeAnswered (s : State) (p n : Port) (r : Request) : State :=
  (((s.advance p).purge n (n = p)).keepAccepted p (n = p) r).answer p r.code r.sequence
    (s.purgeReply n) true

/-- A PURGE leaves in its port's notice queue one CLOSED for each record retired, up to its capacity. -/
theorem purge_noticesOf_self (s : State) (n : Port) (self : Bool) :
    (s.purge n self).noticesOf n =
      ⟨s.closedNotices (s.ownedBy n), decide (32 < (s.ownedBy n).length)⟩ := by
  rw [purge_noticesOf, if_pos rfl]
  exact enqueueClosed_names _ _ (ownedBy_nodup s n)

/-- The body of a PURGE names its port. -/
theorem readPurge_spelt (n : Port) : readPurge [byte n.val] = some n := portOf_byte n

/-- A PURGE that its port may make (R195). -/
theorem purgeRequest_accepted (s : State) {p n : Port} {r : Request} (body : r.body = [byte n.val])
    (allowed : p = 0 ∨ n = p) :
    Machine.purgeRequest p r s =
      ((s.purge n (n = p)).keepAccepted p (n = p) r, s.purgeReply n) := by
  have may : ¬(p ≠ 0 ∧ n ≠ p) := fun c => allowed.elim c.1 c.2
  simp only [Machine.purgeRequest, body, readPurge_spelt, if_neg may, purge_noticesOf_self]
  simp [State.purgeReply, boolByte]

/-- A PURGE of another port by a port other than 0 is refused (R195). -/
theorem purgeRequest_denied (s : State) {p n : Port} {r : Request} (body : r.body = [byte n.val])
    (user : p ≠ 0) (other : n ≠ p) : Machine.purgeRequest p r s = refuse s .denied := by
  simp only [Machine.purgeRequest, body, readPurge_spelt, if_pos (And.intro user other)]

/-- A PURGE granted to a port that may make it. -/
theorem purge_exec {s : State} {p n : Port} {r : Request} {rest : List Entry} (hg : s.Grants p r rest)
    (code : r.code = 0x12) (body : r.body = [byte n.val]) (allowed : p = 0 ∨ n = p) :
    exec (.purge p) s = .next (s.settle.purgeAnswered p n r) :=
  grant_next (run := fun r t => .ok (Machine.purgeRequest p r t)) hg.1 (granted_of hg.2.1 hg.2.2)
    (decide_eq_true code) (congrArg Except.ok (purgeRequest_accepted _ body allowed))

/-- The answer to a PURGE and the frame kept touch the ports alone. -/
theorem purgeAnswered_keeps (s : State) (p n : Port) (r : Request) :
    let t := s.purgeAnswered p n r
    let w := (s.advance p).purge n (n = p)
    t.table = w.table ∧ t.free = w.free ∧ t.memory = w.memory ∧ t.psu = w.psu ∧ t.claims = w.claims ∧
      t.link = w.link ∧ t.lane = w.lane ∧ t.notices = w.notices := by
  unfold State.purgeAnswered State.keepAccepted
  generalize (s.advance p).purge n (n = p) = w
  split <;> exact ⟨rfl, rfl, rfl, rfl, rfl, rfl, rfl, rfl⟩

/-- The response to a PURGE. -/
def State.purgeResponse (s : State) (n : Port) (r : Request) : Response :=
  ⟨r.code, r.sequence, .done, (s.purgeReply n).body⟩

/-- The port that purged itself: its own entry answered, and its frame the last accepted one (R187,
R198). -/
theorem purgeAnswered_port_self (s : State) (p : Port) (r : Request) :
    (s.purgeAnswered p p r).port p = { s.port p with
      requestQueue := []
      responseQueue := [s.purgeResponse p r]
      retained := some (s.purgeResponse p r)
      lastAccepted := some (r.sequence, r.crc)
      purged := true
      transaction := (s.port p).transaction.map fun y =>
        { y with delivery := none, purgedSince := true } } := by
  have entry : ((s.port p).requestQueue.take 1).tail = [] := by cases (s.port p).requestQueue <;> rfl
  simp [State.purgeAnswered, State.keepAccepted, purge_port, purged_port, PortInterface.place,
    State.purgeResponse, entry, State.purgeReply]

/-- The ports where one purges another: the other's queues gone, and the response placed at its own (R196,
R198). -/
theorem purgeAnswered_port_other (s : State) {p n : Port} (other : n ≠ p) (r : Request) :
    (s.purgeAnswered p n r).port n = ((s.port n).purgeRequests false).purgeResponses.setPurged ∧
      (s.purgeAnswered p n r).port p = (s.port p).place (s.purgeResponse n r) true := by
  simp [State.purgeAnswered, State.keepAccepted, purge_port, other, other.symm, State.purgeResponse,
    State.purgeReply]

/-- Every port beside the two is as it was. -/
theorem purgeAnswered_port_third (s : State) {p n k : Port} (other : k ≠ n) (third : k ≠ p) (r : Request) :
    (s.purgeAnswered p n r).port k = s.port k := by
  unfold State.purgeAnswered State.keepAccepted
  split <;> simp [purge_port, other, third]

/-! ### What a PURGE answered leaves -/

theorem purgeAnswered_record (s : State) (p n : Port) (r : Request) (h : Handle) :
    (s.purgeAnswered p n r).record h =
      if h ∈ s.ownedBy n then ⟨(s.record h).generation + 1, none⟩ else s.record h :=
  (record_of_table (purgeAnswered_keeps s p n r).1 h).trans (purge_record (s.advance p) n (n = p) h)

theorem purgeAnswered_charge {s : State} (law : s.loadLaw) (p n k : Port) (r : Request) (d : Direction) :
    (s.purgeAnswered p n r).charge k d = if k = n then 0 else s.charge k d := by
  rw [State.charge, (purgeAnswered_keeps s p n r).1]
  exact purge_charge (s := s.advance p) law n (n = p) k d

/-- The services of the port's records are dropped. -/
theorem purgeAnswered_psu (s : State) (p n : Port) (r : Request) :
    (s.purgeAnswered p n r).psu = s.psu.without (s.serves (s.ownedBy n)) :=
  (purgeAnswered_keeps s p n r).2.2.2.1.trans (purge_psu (s.advance p) n (n = p))

/-- The lane as the TX service in flight, dropped or not, leaves it. -/
theorem purgeAnswered_lane (s : State) (p n : Port) (r : Request) :
    (s.purgeAnswered p n r).lane = s.lane.without s.psu.txFlight (s.serves (s.ownedBy n)) :=
  (purgeAnswered_keeps s p n r).2.2.2.2.2.2.1.trans (purge_lane (s.advance p) n (n = p))

end Sys2Proof.Machine

namespace Sys2Proof

open Machine

/-- Settles O44: the records of the port are retired one after another, and the law of the loads, which a
retirement keeps, says what that leaves in the tables. -/
theorem purgeRequest : Obligations.PurgeRequest := by
  intro s p r rest n hg code body u cleared closed answer
  refine ⟨fun user other => ?_, fun allowed law => ?_⟩
  · exact grants_refused (run := fun r t => .ok (Machine.purgeRequest p r t)) hg (decide_eq_true code)
      (congrArg Except.ok (purgeRequest_denied _ body user other))
  let v := u.advance p
  let owned := u.ownedBy n
  obtain ⟨table, free, memory, -, claims, link, -, notices⟩ := purgeAnswered_keeps u p n r
  obtain ⟨arbiter, quotas, memory', claims', link'⟩ := purge_keeps v n (n = p)
  obtain ⟨tags, channels⟩ := purge_maps v n (n = p)
  have psu := purgeAnswered_psu u p n r
  have lane := purgeAnswered_lane u p n r
  have queue : ∀ k, (u.purgeAnswered p n r).noticesOf k = (v.purge n (n = p)).noticesOf k := fun k =>
    congrArg (Vector.get · k) notices
  have spared : ∀ h g, (!u.serves owned h g) = true ↔ ¬(h ∈ owned ∧ g = (u.record h).generation) :=
    fun h g => by rw [Bool.not_eq_true', State.serves, decide_eq_false_iff_not]
  refine ⟨u.purgeAnswered p n r, owned, purge_exec hg code body allowed, ownedBy_pairwise u n,
    fun h => mem_ownedBy, purgeAnswered_record u p n r, fun d => ?_, fun k d other => ?_, fun d k => ?_, ?_,
    fun e => ?_, fun e => ?_, free.trans (purge_free v n (n = p)), memory.trans memory', link.trans link',
    ?_, claims.trans claims', ?_, fun kept => ?_, fun dropped => ?_, fun f => ?_, fun f => ?_, ?_,
    fun k other => ?_, fun self => ?_, fun other => ?_,
    fun k other third => purgeAnswered_port_third u other third r⟩
  · rw [purgeAnswered_charge law, if_pos rfl]
  · rw [purgeAnswered_charge law, if_neg other]
  · rw [table]; exact purge_load (s := v) law n (n = p) d k
  · rw [table, quotas]; rfl
  · rw [table]; exact tags e
  · rw [table]; exact channels e
  · rw [table, arbiter]; rfl
  · rw [psu]; rfl
  · rw [psu] at kept
    rw [lane, lane_without_kept kept]
  · rw [psu] at dropped
    rw [lane, lane_without_dropped dropped]
    obtain ⟨waiting, gone⟩ := silence_staged u.lane
    refine ⟨rfl, rfl, silence_queue _, waiting, fun none => (gone none).trans ?_⟩
    exact congrArg (Option.map · _) (funext fun w => by cases w <;> rfl)
  · rw [psu, ← spared]; exact Option.filter_eq_some_iff
  · rw [psu, ← spared]; exact Option.filter_eq_some_iff
  · rw [queue, purge_noticesOf_self]; rfl
  · rw [queue, purge_noticesOf, if_neg other]; rfl
  · subst self
    exact purgeAnswered_port_self u n r
  · obtain ⟨purged, answered⟩ := purgeAnswered_port_other u other r
    have left : (u.port p).requestQueue.tail = rest := by rw [hg.2.2]; rfl
    rw [purged, answered, purged_port, PortInterface.place, left]
    exact ⟨rfl, rfl⟩

end Sys2Proof
end

section
/-! SUPPORT. What a step does to Stream Memory and to the queue of commands: the bytes stored by a PUT or a
payload cell, the pairs zeroed by OPEN and AMEND, the clearing by a reset, and nothing else (3.1). -/

namespace Sys2Proof.Machine

/-! ### Stream Memory -/

/-- What one command may make of Stream Memory (R46, R47, R66). -/
inductive Memory.Stores (m : List Host.Cell) : List Host.Cell → Prop where
  | same : Memory.Stores m m
  | write (a : Nat) (vs : List Byte) (inside : Memory.holds a vs.length = true) :
      Memory.Stores m (Memory.writeBytes m a vs)
  | zero {pair : Extent × Extent} {m' : List Host.Cell} (zeroed : zeroPair pair m = .ok m') :
      Memory.Stores m m'
  | clear : Memory.Stores m []

theorem Memory.Stores.of_eq {m m' : List Host.Cell} (e : m' = m) : Memory.Stores m m' := e ▸ .same

theorem Memory.Stores.wf {m m' : List Host.Cell} (stores : Memory.Stores m m') (hm : Memory.wf m) :
    Memory.wf m' := by
  cases stores with
  | same => exact hm
  | write a vs inside => exact memory_writeBytes_wf m a vs hm inside
  | zero zeroed => exact zeroPair_wf _ m m' hm zeroed
  | clear => exact reset_memory_wf

/-! ### The requests -/

theorem takePair_memory {s t : State} {g : (Extent × Extent) × List Extent} (e : s.takePair g = .ok t) :
    zeroPair g.1 s.memory = .ok t.memory := by
  unfold State.takePair at e
  split at e <;> cases e
  assumption

theorem openRequest_stores {p : Port} {r : Request} {s : State} {x : State × Reply}
    (e : openRequest p r s = .ok x) : Memory.Stores s.memory x.1.memory := by
  unfold openRequest at e
  split at e
  · cases e; exact .same
  split at e
  · cases e; exact .same
  split at e <;> cases e
  rename_i t taken
  exact .zero (m' := t.memory) (takePair_memory taken)

theorem amend_memory (s : State) (h : Handle) (st : Stream) (new : Params) (point : EffectivePoint)
    (pair : Option (Extent × Extent)) : (s.amend h st new point pair).1.memory = s.memory := by
  unfold State.amend
  split
  · rfl
  · exact (s.reshape_keeps h st new pair).2.2.1

theorem amendRequest_stores {p : Port} {r : Request} {s : State} {x : State × Reply}
    (e : amendRequest p r s = .ok x) : Memory.Stores s.memory x.1.memory := by
  unfold amendRequest at e
  split at e
  · cases e; exact .same
  split at e
  · cases e; exact .same
  split at e
  · cases e; exact .same
  rename_i g _
  split at e <;> cases e
  rename_i t taken
  rw [amend_memory]
  cases g with
  | none => cases taken; exact .same
  | some g => exact .zero (takePair_memory (g := g) taken)

theorem readPut_length {x : List Byte} {w : Span} (read : readPut x = some w) :
    w.length = (x.drop 5).length := by
  unfold readPut readSpan at read
  split at read
  · split at read <;> cases read
    exact (List.length_drop ..).symm
  · cases read

theorem putRequest_stores {p : Port} {r : Request} {s : State} {x : State × Reply}
    (e : putRequest p r s = .ok x) : Memory.Stores s.memory x.1.memory := by
  unfold putRequest at e
  split at e
  · cases e; exact .same
  rename_i w read
  split at e
  · cases e; exact .same
  iterate 3
    split at e
    · cases e; exact .same
  split at e <;> cases e
  rename_i inside
  exact .write _ _ (readPut_length read ▸ inside)

theorem getRequest_memory {p : Port} {r : Request} {s : State} {x : State × Reply}
    (e : getRequest p r s = .ok x) : x.1.memory = s.memory := by
  unfold getRequest at e
  split at e
  · cases e; rfl
  split at e
  · cases e; rfl
  iterate 3
    split at e
    · cases e; rfl
  cases e

theorem startRequest_memory (p : Port) (r : Request) (s : State) :
    (startRequest p r s).1.memory = s.memory := by
  unfold startRequest
  split
  · rfl
  · split <;> rfl

theorem stopRequest_memory (p : Port) (r : Request) (s : State) :
    (stopRequest p r s).1.memory = s.memory := by
  unfold stopRequest
  split
  · rfl
  · split <;> rfl

theorem closeOpen_memory (s : State) (h : Handle) (st : Stream) (m : CloseMode) :
    (s.closeOpen h st m).1.memory = s.memory := by
  unfold State.closeOpen State.closeLater State.closeNow
  dsimp only
  split
  · split <;> simp
  · simp

theorem closeAgain_memory (s : State) (h : Handle) (st : Stream) (old m : CloseMode) :
    (s.closeAgain h st old m).1.memory = s.memory := by
  unfold State.closeAgain State.closeLater State.closeNow
  split
  · split <;> simp
  · rfl

theorem closeRequest_memory (p : Port) (r : Request) (s : State) :
    (closeRequest p r s).1.memory = s.memory := by
  unfold closeRequest
  split
  · rfl
  split
  · rfl
  split
  · simp
  split
  · exact closeAgain_memory ..
  all_goals exact closeOpen_memory ..

theorem withdrawRequest_memory (p : Port) (r : Request) (s : State) :
    (withdrawRequest p r s).1.memory = s.memory := by
  unfold withdrawRequest
  split
  · rfl
  · split
    · rfl
    · simp

theorem handoverRequest_memory (p : Port) (r : Request) (s : State) :
    (handoverRequest p r s).1.memory = s.memory := by
  unfold handoverRequest
  split
  · rfl
  split
  · rfl
  split
  · rfl
  all_goals
    iterate 3
      split
      · rfl
    rfl

theorem quotaRequest_memory (p : Port) (r : Request) (s : State) :
    (quotaRequest p r s).1.memory = s.memory := by
  unfold quotaRequest
  split
  · rfl
  · split <;> rfl

theorem linkctlRequest_memory (p : Port) (action : Byte) {act : State → State}
    (acts : ∀ s : State, (act s).memory = s.memory) (r : Request) (s : State) :
    (linkctlRequest p action act r s).1.memory = s.memory := by
  unfold linkctlRequest
  split
  · rfl
  split
  · rfl
  split
  · rfl
  · exact (acts _).trans (by simp)

theorem purgeRequest_memory (p : Port) (r : Request) (s : State) :
    (purgeRequest p r s).1.memory = s.memory := by
  have kept : ∀ (t : State) self, (t.keepAccepted p self r).memory = t.memory := fun t self => by
    unfold State.keepAccepted
    split <;> rfl
  unfold Machine.purgeRequest
  split
  · rfl
  split
  · rfl
  · exact (kept _ _).trans (purge_keeps s _ _).2.2.1

/-- The rows of requests that only read leave the state. -/
theorem readingRows_memory {p : Port} {r : Request} {s : State} :
    (findByTagRequest p r s).1.memory = s.memory ∧ (findByChannelRequest r s).1.memory = s.memory ∧
      (readRequest p r s).1.memory = s.memory ∧ (Machine.loadsRequest r s).1.memory = s.memory ∧
      (extentsRequest r s).1.memory = s.memory ∧ (statusRequest p r s).1.memory = s.memory ∧
      (Machine.pollRequest p r s).1.memory = s.memory := by
  refine ⟨?_, ?_, ?_, ?_, ?_, ?_, ?_⟩
  · unfold findByTagRequest; split <;> rfl
  · unfold findByChannelRequest; split <;> [rfl; (split <;> rfl)]
  · unfold readRequest; split <;> rfl
  · unfold Machine.loadsRequest; split <;> [rfl; (split <;> rfl)]
  · unfold extentsRequest; split <;> rfl
  · unfold statusRequest; split <;> rfl
  · unfold Machine.pollRequest; split <;> rfl

/-- Whatever a row of requests runs. -/
theorem Handles.stores {p : Port} {run : Request → State → Answer} (hr : Handles p run) {r : Request}
    {s : State} {x : State × Reply} (e : run r s = .ok x) : Memory.Stores s.memory x.1.memory := by
  obtain ⟨tag, channel, read, loads, extents, status, poll⟩ := readingRows_memory (p := p) (r := r) (s := s)
  cases hr with
  | openStream => exact openRequest_stores e
  | amend => exact amendRequest_stores e
  | put => exact putRequest_stores e
  | get => exact .of_eq (getRequest_memory e)
  | start => cases e; exact .of_eq (startRequest_memory p r s)
  | stop => cases e; exact .of_eq (stopRequest_memory p r s)
  | close => cases e; exact .of_eq (closeRequest_memory p r s)
  | withdraw => cases e; exact .of_eq (withdrawRequest_memory p r s)
  | handover => cases e; exact .of_eq (handoverRequest_memory p r s)
  | quota => cases e; exact .of_eq (quotaRequest_memory p r s)
  | linkctlEnable =>
    cases e; exact .of_eq (linkctlRequest_memory p 1 (fun t => t.enable_keeps.2.2.1) r s)
  | linkctlDisable =>
    cases e; exact .of_eq (linkctlRequest_memory p 2 (fun t => t.disable_keeps.2.2.1) r s)
  | purge => cases e; exact .of_eq (purgeRequest_memory p r s)
  | poll => cases e; exact .of_eq poll
  | findByTag => cases e; exact .of_eq tag
  | findByChannel => cases e; exact .of_eq channel
  | read => cases e; exact .of_eq read
  | loads => cases e; exact .of_eq loads
  | extents => cases e; exact .of_eq extents
  | status => cases e; exact .of_eq status
  | unknownRequest | reset => cases e; exact .same

/-- No accepted request touches the queue of commands. -/
theorem RequestEffect.pending {s t : State} (e : RequestEffect s t) : t.pending = s.pending := by
  cases e with
  | purge p n self r =>
    have records := foldl_keeps State.purgeRecord State.pending (by simp) (s.ownedBy n)
      (s.setPort n ((s.port n).purgeRequests self))
    have purged : (s.purge n self).pending = s.pending := records
    unfold State.keepAccepted
    split <;> exact purged
  | _ => simp [State.enter, State.holdAmendment]

/-! ### The rows -/

/-- What every row leaves: the queue of commands, and of Stream Memory all but what it may store. -/
structure State.Proceeds (s t : State) : Prop where
  pending : t.pending = s.pending
  memory : Memory.Stores s.memory t.memory

theorem State.Proceeds.refl (s : State) : s.Proceeds s := ⟨rfl, .same⟩

theorem State.Proceeds.of_eq {s t : State} (pending : t.pending = s.pending) (memory : t.memory = s.memory) :
    s.Proceeds t := ⟨pending, .of_eq memory⟩

/-- Behind something that leaves both. -/
theorem State.Proceeds.after {s t u : State} (f : t.Proceeds u) (pending : t.pending = s.pending)
    (memory : t.memory = s.memory) : s.Proceeds u := ⟨f.pending.trans pending, memory ▸ f.memory⟩

theorem grant_proceeds {s t : State} {p : Port} {takes : Request → Bool} {run : Request → State → Answer}
    (hr : Handles p run) (h : s.grant p takes run = .next t) : s.Proceeds t := by
  rcases grant_cases h with rfl | ⟨r, u, a, -, -, -, e, rfl⟩
  · exact .refl _
  have pending : u.pending = s.settle.pending := by
    rcases hr.answers e with ⟨-, same⟩ | ⟨-, effect⟩
    · rw [show u = s.settle.advance p from same]; rfl
    · exact effect.pending
  exact State.Proceeds.after (t := s.settle) ⟨pending, hr.stores e⟩ (by simp) (by simp)

theorem badFrameEntry_proceeds {p : Port} {s t : State} (h : execBadFrameEntry p s = .next t) :
    s.Proceeds t := by
  unfold execBadFrameEntry at h
  split at h
  · cases h; exact .refl _
  · dsimp only at h
    split at h <;> cases h
    · exact .of_eq (by simp) (by simp)
    · exact .refl _

theorem repeatEntry_proceeds {p : Port} {s t : State} (h : execRepeatEntry p s = .next t) :
    s.Proceeds t := by
  unfold execRepeatEntry at h
  split at h
  · cases h; exact .refl _
  · dsimp only at h
    split at h <;> cases h
    · exact .of_eq (by simp) (by simp)
    · exact .refl _

theorem judgeFrame_proceeds (s : State) (p : Port) (mosi : List Byte) : s.Proceeds (s.judgeFrame p mosi) := by
  unfold State.judgeFrame State.takeFrame
  split
  · exact .refl s
  · exact .of_eq rfl rfl
  · dsimp only
    split
    · exact .of_eq rfl rfl
    split
    · exact .of_eq rfl rfl
    split
    · exact ⟨rfl, .clear⟩
    · exact .of_eq rfl rfl

theorem transactionStart_proceeds {x : TransactionStart} {s t : State}
    (h : execTransactionStart x s = .next t) : s.Proceeds t := by
  unfold execTransactionStart at h
  split at h <;> cases h <;> exact .of_eq rfl rfl

theorem transactionEnd_proceeds {p : Port} {mosi : List Byte} {s t : State}
    (h : execTransactionEnd p mosi s = .next t) : s.Proceeds t := by
  unfold execTransactionEnd at h
  dsimp only at h
  split at h
  · cases h; exact .refl _
  · split at h <;> cases h
    · exact .of_eq rfl rfl
    · exact (judgeFrame_proceeds _ p _).after rfl rfl

theorem endReset_proceeds (s : State) (high : Bool) : s.Proceeds (s.endReset high) := by
  unfold State.endReset
  split <;> exact .of_eq rfl rfl

theorem receiveMark_proceeds (s : State) (c : MarkCell) : s.Proceeds (s.receiveMark c) := by
  unfold State.receiveMark
  split
  · dsimp only
    split <;> split <;> exact .of_eq (by simp) (by simp)
  · exact .refl s

theorem periodTimerExpiry_proceeds {s t : State} (h : execPeriodTimerExpiry s = .next t) : s.Proceeds t := by
  unfold execPeriodTimerExpiry at h
  split at h <;> cases h
  · exact .of_eq (by simp) (by simp)
  · exact .refl _

theorem lossTimerExpiry_proceeds {s t : State} (h : execLossTimerExpiry s = .next t) : s.Proceeds t := by
  unfold execLossTimerExpiry at h
  split at h
  · dsimp only at h
    split at h <;> cases h <;> exact .of_eq (by simp) (by simp)
  · cases h; exact .refl _

theorem trailerArrival_proceeds {n : BitVec 16} {s t : State} (h : execTrailerArrival n s = .next t) :
    s.Proceeds t := by
  unfold execTrailerArrival at h
  split at h
  · dsimp only at h
    split at h <;> cases h
    · exact .of_eq (by simp) (by simp)
    · split <;> exact .of_eq (by simp) (by simp)
  · cases h; exact .refl _

theorem leadCellArrival_proceeds {channel count : Byte} {s t : State}
    (h : execLeadCellArrival channel count s = .next t) : s.Proceeds t := by
  have cut : s.Proceeds s.catchUp.cutBurst := .of_eq (by simp) (by simp)
  unfold execLeadCellArrival at h
  split at h
  · dsimp only at h
    split at h
    · cases h; exact cut
    split at h
    · cases h; exact cut
    split at h <;> cases h
    · exact .of_eq (by simp) (by simp)
    · exact cut
  · cases h; exact .refl _

/-- A payload cell stores its 16 bytes inside Stream Memory, or nothing (R124). -/
theorem receivePayload_proceeds {s t : State} {data : Payload} {sound : Bool}
    (h : s.receivePayload data sound = .next t) : s.Proceeds t := by
  unfold State.receivePayload at h
  split at h
  · cases h; exact .refl _
  split at h
  · cases h; exact .refl _
  dsimp only at h
  split at h
  · cases h; split <;> exact .of_eq rfl rfl
  split at h <;> cases h
  rename_i inside
  have size : data.toList.length = Config.cellBytes := by simp [Config.cellBytes]
  split <;> exact ⟨rfl, .write _ _ (size ▸ inside)⟩

theorem payloadRow_proceeds {s t : State} {data : Payload} {sound : Bool}
    (h : (if s.receives then s.catchUp.receivePayload data sound else .next s) = .next t) :
    s.Proceeds t := by
  split at h
  · exact (receivePayload_proceeds h).after (by simp) (by simp)
  · cases h; exact .refl _

theorem takeOfLane_proceeds {s t : State} {kind : Claim → Bool} {toCome : State → Bool}
    (h : (if s.held then .next s else s.takeOfLane kind toCome) = .next t) : s.Proceeds t := by
  split at h
  · cases h; exact .refl _
  · obtain ⟨-, -, memory, -, -, -, pending⟩ := State.takeOfLane_keeps h
    exact .of_eq pending memory

theorem enteringUp_proceeds {s t : State} (h : execEnteringUp s = .next t) : s.Proceeds t := by
  unfold execEnteringUp at h
  split at h
  · cases h; exact .refl _
  split at h
  · cases h; exact .of_eq (by simp) (by simp)
  split at h <;> cases h
  · exact .of_eq (by simp) (by simp)
  · exact .refl _

theorem takeThrough_proceeds (s : State) (kind : Claim → Bool) : s.Proceeds (s.takeThrough kind) :=
  .of_eq (by simp) (by simp)

/-- Every row. -/
theorem exec_proceeds {i : Instr} {s t : State} (h : exec i s = .next t) : s.Proceeds t := by
  cases hi : requestRow i with
  | some p =>
    obtain ⟨takes, run, hr, e⟩ := requestRow_grants hi
    exact grant_proceeds hr (e s ▸ h)
  | none =>
    cases i <;> simp only [requestRow, reduceCtorEq] at hi <;> simp only [exec] at h
    case transactionStart => exact transactionStart_proceeds h
    case transactionEnd => exact transactionEnd_proceeds h
    case badFrameEntry => exact badFrameEntry_proceeds h
    case repeatEntry => exact repeatEntry_proceeds h
    case reset p =>
      have zero : p = 0 := by simpa using hi
      rw [execReset, if_pos zero] at h
      split at h <;> cases h
      · exact .refl _
      · exact ⟨rfl, .clear⟩
    case resetNAssert => cases h; exact ⟨rfl, .clear⟩
    case resetNRelease high =>
      unfold execResetNRelease at h
      split at h <;> cases h
      · exact (endReset_proceeds _ high).after rfl rfl
      · exact .refl _
    case resetHoldExpiry high =>
      unfold execResetHoldExpiry at h
      split at h <;> cases h
      · exact (endReset_proceeds _ high).after rfl rfl
      · exact .refl _
    case periodTimerExpiry => exact periodTimerExpiry_proceeds h
    case markArrival => cases h; exact receiveMark_proceeds s _
    case echoArrival => cases h; exact receiveMark_proceeds s _
    case lossTimerExpiry => exact lossTimerExpiry_proceeds h
    case alignmentLapse => unfold execAlignmentLapse at h; split at h <;> cases h <;> exact .of_eq rfl rfl
    case trailerArrival => exact trailerArrival_proceeds h
    case leadCellArrival => exact leadCellArrival_proceeds h
    case payloadCellArrival => exact payloadRow_proceeds h
    case badCheckCellArrival => exact payloadRow_proceeds h
    case idleCellArrival =>
      unfold execIdleCellArrival at h
      split at h <;> cases h
      · exact .of_eq (by simp) (by simp)
      · exact .refl _
    case serviceStart => exact takeOfLane_proceeds h
    case txCompletion => exact takeOfLane_proceeds h
    case enteringUp => exact enteringUp_proceeds h
    case markProcessing => cases h; exact takeThrough_proceeds s _
    case matchClaim => cases h; exact takeThrough_proceeds s _
    case rxCompletion => cases h; exact takeThrough_proceeds s _
    case periodEnd => cases h; exact takeThrough_proceeds s _
    case leavingUp => cases h; exact takeThrough_proceeds s _
    case slip => cases h; exact takeThrough_proceeds s _

/-! ### Steps -/

/-- Settles O7: a cell time stores nothing, and whatever a row may store lies inside Stream Memory and keeps
its form. -/
theorem stepKeepsMemoryForm : Obligations.StepKeepsMemoryForm := by
  intro s t wf h
  unfold step at h
  split at h
  · exact (State.cellTime_keeps h).2.2.1 ▸ wf
  · exact (exec_proceeds h).memory.wf wf

/-- Settles O1: the step is the row's own, and no row touches the queue. -/
theorem stepRunsFrontCommand : Obligations.StepRunsFrontCommand :=
  ⟨fun c rest s front => by rw [step, front], fun _ _ _ h => (exec_proceeds h).pending⟩

/-- Where every record is VACANT and the maps are empty, the laws of the records and of the maps hold. -/
theorem State.Blank.laws {s : State} (blank : s.Blank) : s.recordsLaw ∧ s.tagMapLaw ∧ s.channelMapLaw := by
  have vacant : ∀ h st, s.stream h ≠ some st := fun h st e => nomatch (blank.vacant h).symm.trans e
  refine ⟨fun h st e => absurd e (vacant h st), ⟨?_, fun e => ?_⟩, ⟨?_, fun e => ?_⟩⟩
  · rw [blank.tags]; exact .nil
  · rw [blank.tags]
    exact ⟨(nomatch ·), fun ⟨st, hs, _⟩ => absurd hs (vacant _ st)⟩
  · rw [blank.channels]; exact .nil
  · rw [blank.channels]
    exact ⟨(nomatch ·), fun ⟨st, hs, _⟩ => absurd hs (vacant _ st)⟩

/-- Settles O19: every record is VACANT, every queue is empty, the link is OFF and nothing holds the part. -/
theorem resetMeetsEveryLaw : Obligations.ResetMeetsEveryLaw := by
  obtain ⟨records, tags, channels⟩ := State.Blank.laws (s := State.reset) (blank_of_table rfl)
  have queue (p : Port) : State.reset.noticesOf p = ⟨[], false⟩ := replicate_get ..
  have port (p : Port) : State.reset.port p = .reset := replicate_get ..
  refine ⟨reset_memory_wf, reset_loadLaw, reset_extentLaw, tags, channels, fun p => ?_, fun p => ?_, records,
    ((sound_iff _).1 (sound_of_reset rfl rfl rfl)).2, (linkLaw_iff _).2 (linked_of_reset rfl rfl rfl),
    heldLaw_of_free rfl⟩
  · rw [queue]; exact queueLaw_empty false
  · rw [port]; exact Nat.zero_le 4

end Sys2Proof.Machine
end

section
/-! SUPPORT. The statement about the cells on the lanes (11.8): a cell laid out with its check is sound, and its
fields stand where the reading of a cell looks for them. -/

namespace Sys2Proof.Machine

/-- What the check of a cell covers: its type, its field bytes, and 0s up to 22 bytes (R208). -/
def coveredBytes (type : Byte) (fields : List Byte) : List Byte :=
  (type :: fields ++ List.replicate 21 0).take 22

theorem coveredBytes_length (type : Byte) (fields : List Byte) : (coveredBytes type fields).length = 22 := by
  simp [coveredBytes]

theorem cellBytes_eq (type : Byte) (fields : List Byte) :
    cellBytes type fields = coveredBytes type fields ++ crcBytes (coveredBytes type fields) := rfl

/-- The check closes the cell (R208). -/
theorem cellSound_cellBytes (type : Byte) (fields : List Byte) : cellSound (cellBytes type fields) = true := by
  have size := coveredBytes_length type fields
  have check := numberAt_length (coveredBytes type fields)
    (BitVec.ofNat 8 ((crc16 (coveredBytes type fields)).toNat / 256))
    (BitVec.ofNat 8 (crc16 (coveredBytes type fields)).toNat) []
  rw [join16_be16 (crc16 (coveredBytes type fields)).isLt, size] at check
  rw [cellSound, cellBytes_eq, List.take_left' size]
  exact beq_iff_eq.2 check

/-- A byte of a cell before its check: the type, a field byte, or 0. -/
theorem byteAt_cellBytes (type : Byte) {fields : List Byte} {i : Nat} (inside : i < 22) :
    byteAt (cellBytes type fields) i = (type :: fields).getD i 0 := by
  have covered : i < (coveredBytes type fields).length := by rw [coveredBytes_length]; exact inside
  rw [cellBytes_eq, byteAt, List.getD_append _ _ _ _ covered, coveredBytes]
  simp only [List.getD_eq_getElem?_getD, List.getElem?_take, if_pos inside]
  rcases Nat.lt_or_ge i (type :: fields).length with field | beyond
  · rw [List.getElem?_append_left field]
  · rw [List.getElem?_append_right beyond, List.getElem?_eq_none beyond, List.getElem?_replicate]
    split <;> rfl

/-- The number in the first two field bytes of a cell. -/
theorem numberAt_cellBytes (type : Byte) {n : Nat} (bound : n < 65536) (fields : List Byte) :
    numberAt (cellBytes type (be16 n ++ fields)) 1 = n := by
  rw [numberAt, byteAt_cellBytes type (by decide), byteAt_cellBytes type (by decide)]
  exact join16_be16 bound

/-- The 16 bytes of a payload cell (R208). -/
theorem cellPayload_cellBytes (type : Byte) (d : Payload) : cellPayload (cellBytes type d.toList) = d := by
  refine Vector.ext fun i inside => ?_
  have byte : byteAt (cellBytes type d.toList) (1 + i) = d[i] := by
    rw [byteAt_cellBytes type (by omega), Nat.add_comm, List.getD_cons_succ, List.getD_eq_getElem?_getD,
      Vector.getElem?_toList, Vector.getElem?_eq_getElem inside]
    rfl
  exact (tabulate_get (n := 16) _ ⟨i, inside⟩).trans byte

theorem period_bound (n : Period) : n.toNat < 65536 := n.isLt.trans (by decide)

/-- A mark or an echo is read with its fields (R208). -/
theorem arrivalOf_mark (elapsed : Nat) (n : Period) (r : Role) (echo : Bool) :
    arrivalOf elapsed (WireCell.mark n r echo).bytes =
      let cell : MarkCell := ⟨n.setWidth 16, roleByte r, boolByte echo, elapsed⟩
      if cell.echo = 1 then .echoArrival cell else .markArrival cell := by
  simp only [arrivalOf, WireCell.bytes, markBytes, cellSound_cellBytes,
    numberAt_cellBytes _ (period_bound n), BitVec.ofNat_toNat]
  simp [byteAt_cellBytes, be16]

/-- Settles O5: each kind of cell by its type byte, with its fields read from their places. -/
theorem cellsReadAsSent : Obligations.CellsReadAsSent := by
  intro elapsed
  refine ⟨fun n r => arrivalOf_mark elapsed n r false, fun n r => arrivalOf_mark elapsed n r true,
    fun ch count _ => ?_, fun d => ?_, fun n => ?_, ?_⟩
  · simp [arrivalOf, WireCell.bytes, cellSound_cellBytes, byteAt_cellBytes]
  · simp [arrivalOf, WireCell.bytes, cellSound_cellBytes, byteAt_cellBytes, cellPayload_cellBytes]
  · have number := numberAt_cellBytes 4 (period_bound n) []
    rw [List.append_nil] at number
    simp only [arrivalOf, WireCell.bytes, cellSound_cellBytes, number, BitVec.ofNat_toNat]
    simp [byteAt_cellBytes]
  · simp [arrivalOf, WireCell.bytes, cellSound_cellBytes, byteAt_cellBytes]

end Sys2Proof.Machine
end

section
/-! SUPPORT. The statements about transactions (9.2 to 9.6): the header, what a transaction shifts out, and what
its end does with the delivery, PURGED and the frame. -/

namespace Sys2Proof.Machine

/-! ### The start (9.2) -/

/-- The bits of a byte put together as byte 0 of the status header is (11.2). -/
theorem flagsByte_bits : ∀ a b c d e f : Bool,
    let x := byte (128 * a.toNat + 64 * b.toNat + 32 * c.toNat + 16 * d.toNat + 8 * e.toNat + 4 * f.toNat)
    x.getLsbD 7 = a ∧ x.getLsbD 6 = b ∧ x.getLsbD 5 = c ∧ x.getLsbD 4 = d ∧ x.getLsbD 3 = e ∧
      x.getLsbD 2 = f ∧ x.getLsbD 1 = false ∧ x.getLsbD 0 = false := by
  decide

/-- The bits of the header's flags (R172). -/
theorem headerFlags_bits (s : State) (p : Port) :
    let f := s.headerFlags p
    f.getLsbD 7 = !(s.noticesOf p).entries.isEmpty ∧ f.getLsbD 6 = !(s.port p).responseQueue.isEmpty ∧
      f.getLsbD 5 = (s.noticesOf p).overflow ∧ f.getLsbD 4 = (s.port p).purged ∧
      f.getLsbD 3 = (s.port p).resetSeen ∧ f.getLsbD 2 = (s.port p).dropped.isSome ∧
      f.getLsbD 1 = false ∧ f.getLsbD 0 = false := flagsByte_bits ..

/-- A start while a transaction of the port is in progress. -/
theorem transactionStart_busy {s : State} {x : Sys2Proof.TransactionStart} {y : Transaction}
    (going : (s.port x.port).transaction = some y) : exec (.transactionStart x) s = .next s := by
  rw [show exec (.transactionStart x) s = execTransactionStart x s from rfl, execTransactionStart, going]

/-- A start of a port with none in progress. -/
theorem transactionStart_begins {s : State} {x : Sys2Proof.TransactionStart}
    (none : (s.port x.port).transaction = none) :
    exec (.transactionStart x) s = .next (s.setPort x.port
      { s.port x.port with transaction := some ((s.newTransaction x.port).clock x.mosi) }) := by
  rw [show exec (.transactionStart x) s = execTransactionStart x s from rfl, execTransactionStart, none]

/-! ### What a transaction shifts out (9.2) -/

/-- What a transaction is to shift out does not change as bytes are clocked. -/
theorem clock_upcoming (x : Transaction) (m : List Byte) (k : Nat) :
    (x.clock m).upcoming k = x.upcoming k := by
  unfold Transaction.upcoming
  rw [clock_cut, clock_header, clock_delivery]
  cases x.delivery <;> rfl

/-- What has gone out and what comes join on at the bytes clocked. -/
theorem clock_shiftedOut {x : Transaction} (even : x.shifted.length = x.taken.length) (m : List Byte)
    (k : Nat) : (x.clock m).shiftedOut k = x.shiftedOut k := by
  have out : (x.clock m).shifted =
      x.shifted ++ (List.range m.length).map fun k => x.upcoming (x.shifted.length + k) := by
    rw [even]; rfl
  unfold Transaction.shiftedOut
  rw [clock_upcoming, out]
  rcases Nat.lt_or_ge k x.shifted.length with gone | comes
  · rw [List.getD_append _ _ _ _ gone, List.getD_eq_getElem _ _ gone]
  · rw [List.getD_append_right _ _ _ _ comes, List.getD_eq_default _ _ comes]
    rcases Nat.lt_or_ge (k - x.shifted.length) m.length with now | later
    · rw [List.getD_eq_getElem _ _ (by simpa using now)]
      simp [Nat.add_sub_cancel' comes]
    · exact List.getD_eq_default _ _ (by simpa using later)

/-- What has gone out stays. -/
theorem shiftedOut_gone {x : Transaction} {k : Nat} (gone : k < x.shifted.length) :
    x.shiftedOut k = x.shifted.getD k 0 := by
  unfold Transaction.shiftedOut
  rw [List.getD_eq_getElem _ _ gone, List.getD_eq_getElem _ _ gone]

/-- From the next whole byte on comes what is to come. -/
theorem shiftedOut_comes {x : Transaction} {k : Nat} (comes : x.shifted.length ≤ k) :
    x.shiftedOut k = x.upcoming k := List.getD_eq_default _ _ comes

/-- A transaction cut shifts out 0s (R189). -/
theorem upcoming_cut {x : Transaction} (cut : x.cut = true) (k : Nat) : x.upcoming k = 0 := if_pos cut

/-- The header comes first (R171). -/
theorem upcoming_header {x : Transaction} (whole : x.cut = false) {k : Nat} (head : k < x.header.length) :
    x.upcoming k = x.header.getD k 0 := by
  rw [Transaction.upcoming, if_neg (by simp [whole])]
  exact List.getD_append _ _ _ _ head

/-- Behind the header come 0s where no response is delivered, and the response, then 0s, where one is. -/
theorem upcoming_behind {x : Transaction} (whole : x.cut = false) {k : Nat} (behind : x.header.length ≤ k) :
    x.upcoming k = (x.delivery.elim [] fun d => d.response.bytes).getD (k - x.header.length) 0 := by
  rw [Transaction.upcoming, if_neg (by simp [whole])]
  refine (List.getD_append_right _ _ _ _ behind).trans ?_
  cases x.delivery <;> rfl

/-- The delivery record after whole bytes clocked: those of its response (R170). -/
theorem after_eq (d : Delivery) (n : Nat) :
    d.after n = ⟨d.response, min (n - 4) (d.response.body.length + 7)⟩ := by
  rw [← after_clocked]; rfl

/-- Settles O24: the header's bits, the bytes clocked, and the bytes shifted out by where they stand. -/
theorem transactionStart : Obligations.TransactionStart := by
  refine ⟨fun s x => ⟨fun y going => transactionStart_busy going, fun none => ?_⟩, fun x m even => ?_,
    fun x k four => ⟨fun gone => shiftedOut_gone gone, fun comes => ?_⟩⟩
  · obtain ⟨b7, b6, b5, b4, b3, b2, b1, b0⟩ := headerFlags_bits s x.port
    exact ⟨s.headerFlags x.port, s.newTransaction x.port, transactionStart_begins none, rfl, b7, b6, b5, b4,
      b3, b2, b1, b0, by rw [b7, b6]; rfl, rfl, rfl, rfl, rfl, rfl, rfl⟩
  · refine ⟨clock_header x m, clock_showsPurged x m, clock_purgedSince x m, clock_cut x m, clock_taken x m,
      ?_, ?_, clock_shiftedOut even m⟩
    · rw [clock_shifted_length, clock_taken, List.length_append, even]
    · rw [clock_delivery, clock_taken, List.length_append]
      exact congrArg (Option.map · _) (funext fun d => after_eq d _)
  · rw [shiftedOut_comes comes]
    refine ⟨fun cut => upcoming_cut cut k, fun whole head => upcoming_header whole (four ▸ head),
      fun whole behind none => ?_, fun d whole behind some => ?_⟩
    · rw [upcoming_behind whole (four ▸ behind), none]; rfl
    · rw [upcoming_behind whole (four ▸ behind), some, four]; rfl

/-! ### The end (9.3 to 9.6) -/

/-- The end of a transaction where none is in progress. -/
theorem transactionEnd_none {s : State} {p : Port} (rest : List Byte)
    (none : (s.port p).transaction = none) : exec (.transactionEnd p rest) s = .next s := by
  rw [show exec (.transactionEnd p rest) s = execTransactionEnd p rest s from rfl, execTransactionEnd]
  simp only [none]

/-- The end of a transaction that a reset cut. -/
theorem transactionEnd_cut {s : State} {p : Port} {x : Transaction} (rest : List Byte)
    (going : (s.port p).transaction = some x) (cut : x.cut = true) :
    exec (.transactionEnd p rest) s = .next (s.setPort p { s.port p with transaction := none }) := by
  rw [show exec (.transactionEnd p rest) s = execTransactionEnd p rest s from rfl, execTransactionEnd]
  simp only [going, clock_cut, cut, if_true]

/-- The end of a transaction that settles: the port settled, and the bytes taken judged. -/
theorem transactionEnd_settles {s : State} {p : Port} {x : Transaction} (rest : List Byte)
    (going : (s.port p).transaction = some x) (whole : x.cut = false) :
    exec (.transactionEnd p rest) s = .next ((s.setPort p
      (((s.port p).settleDelivery (x.clock rest)).settlePurged (x.clock rest))).judgeFrame p
        (x.taken ++ rest)) := by
  rw [show exec (.transactionEnd p rest) s = execTransactionEnd p rest s from rfl, execTransactionEnd]
  simp only [going, clock_cut, whole, clock_taken]
  rfl

/-- The response chosen is delivered exactly when all its bytes have been clocked out (R173). -/
theorem delivered_eq (x : Transaction) (rest : List Byte) :
    (x.clock rest).delivery.any Delivery.whole = x.delivery.any fun d =>
      decide (d.response.body.length + 7 ≤ (x.taken ++ rest).length - 4) := by
  rw [clock_delivery]
  cases x.delivery with
  | none => rfl
  | some d =>
    rw [List.length_append]
    exact Bool.eq_iff_iff.2 ((after_whole d _).trans decide_eq_true_iff.symm)

/-- The port after the delivery and PURGED are settled (R173, steps 1 and 2). -/
theorem settled_port (y : PortInterface) (x : Transaction) (rest : List Byte) :
    (y.settleDelivery (x.clock rest)).settlePurged (x.clock rest) = { y with
      transaction := none
      responseQueue := if x.delivery.any fun d =>
            decide (d.response.body.length + 7 ≤ (x.taken ++ rest).length - 4) then y.responseQueue.tail
        else y.responseQueue
      purged := y.purged &&
        !(x.showsPurged && !x.purgedSince && decide (4 ≤ (x.taken ++ rest).length)) } := by
  unfold PortInterface.settlePurged PortInterface.settleDelivery
  rw [delivered_eq, clock_showsPurged, clock_purgedSince, clock_taken]
  split
  · rename_i shown
    have clears : (x.showsPurged && !x.purgedSince && decide (4 ≤ (x.taken ++ rest).length)) = true := by
      simpa [and_assoc] using shown
    rw [clears]
    simp
  · rename_i kept
    have stays : (x.showsPurged && !x.purgedSince && decide (4 ≤ (x.taken ++ rest).length)) = false := by
      simpa [and_assoc] using kept
    rw [stays]
    simp

section Frame
variable (s : State) (p : Port) (y : PortInterface) {mosi : List Byte}

/-- The port as it stands. -/
theorem setPort_setPort (z : PortInterface) : (s.setPort p y).setPort p z = s.setPort p z := by
  simp [State.setPort, Vector.set_set]

theorem setPort_port_self : (s.setPort p y).port p = y := by simp

/-- Bytes that are no request (R178). -/
theorem judgeFrame_noRequest (none : judge mosi = .noRequest) :
    (s.setPort p y).judgeFrame p mosi = s.setPort p y := by
  rw [State.judgeFrame, none]

/-- An unsound frame: a BAD_FRAME entry where there is room, or dropped (R179, R182). -/
theorem judgeFrame_unsound {c q : Byte} (unsound : judge mosi = .unsound c q) :
    (s.setPort p y).judgeFrame p mosi = s.setPort p (if y.outstanding < 4 then
      { y with requestQueue := y.requestQueue ++ [.badFrame c q] } else { y with dropped := some q }) := by
  rw [State.judgeFrame, unsound]
  simp only [setPort_port_self, setPort_setPort, PortInterface.takeUnsound, PortInterface.admits,
    decide_eq_true_eq]
  rfl

variable {r : Request} (sound : judge mosi = .sound r)
include sound

/-- A sound frame with no room for it (R182). -/
theorem judgeFrame_dropped (full : 4 ≤ y.outstanding) :
    (s.setPort p y).judgeFrame p mosi = s.setPort p { y with dropped := some r.sequence } := by
  have closed : y.admits = false := decide_eq_false (Nat.not_lt.2 full)
  simp only [State.judgeFrame, sound, State.takeFrame, setPort_port_self, setPort_setPort, closed, if_true]
  rfl

variable (room : y.outstanding < 4)
include room

/-- A repeat of the last accepted frame (R183). -/
theorem judgeFrame_repeat (again : y.lastAccepted = some (r.sequence, r.crc)) :
    (s.setPort p y).judgeFrame p mosi =
      s.setPort p ((y.accept r).push (.repeatOf r.code r.sequence)) := by
  have admits : y.admits = true := decide_eq_true room
  have repeats : y.repeats r = true := decide_eq_true again
  simp [State.judgeFrame, sound, State.takeFrame, setPort_setPort, admits, repeats]

variable (new : y.lastAccepted ≠ some (r.sequence, r.crc))
include new

/-- A RESET frame of port 0 (R201). -/
theorem judgeFrame_reset (resets : p = 0 ∧ r.code = 0x13) :
    (s.setPort p y).judgeFrame p mosi = (s.setPort p y).startReset := by
  have admits : y.admits = true := decide_eq_true room
  have repeats : y.repeats r = false := decide_eq_false new
  have part : resetsPart p r = true := by simp [resetsPart, resets]
  simp [State.judgeFrame, sound, State.takeFrame, admits, repeats, part]

/-- A new request accepted (R180). -/
theorem judgeFrame_accepted (other : ¬(p = 0 ∧ r.code = 0x13)) :
    (s.setPort p y).judgeFrame p mosi = s.setPort p ((y.accept r).push (.request r)) := by
  have admits : y.admits = true := decide_eq_true room
  have repeats : y.repeats r = false := decide_eq_false new
  have part : resetsPart p r = false := by simpa [resetsPart] using other
  simp [State.judgeFrame, sound, State.takeFrame, setPort_setPort, admits, repeats, part]

end Frame

/-- Settles O25: the port settled, and the frame by its judgement, the room, and the last accepted frame. -/
theorem transactionEnd : Obligations.TransactionEnd := by
  intro s p rest
  refine ⟨transactionEnd_none rest, fun x going => ⟨transactionEnd_cut rest going, fun whole => ?_⟩⟩
  rw [transactionEnd_settles rest going whole, settled_port]
  intro mosi y
  refine ⟨fun none => congrArg _ (judgeFrame_noRequest s p y none),
    fun c q unsound => congrArg _ (judgeFrame_unsound s p y unsound),
    fun r sound => ⟨fun full => congrArg _ (judgeFrame_dropped s p y sound full), fun room => ?_⟩⟩
  exact ⟨fun again => congrArg _ (judgeFrame_repeat s p y sound room again), fun new =>
    ⟨fun resets => congrArg _ (judgeFrame_reset s p y sound room new resets),
      fun other => congrArg _ (judgeFrame_accepted s p y sound room new other)⟩⟩

end Sys2Proof.Machine
end

section
/-! SUPPORT. The statements about the arbiter's order and the entries that run nothing (1.8), about the argument
checks (11.3, 11.4), and about how a reset begins, holds and ends (10.4). -/

namespace Sys2Proof.Machine

/-! ### Grants (1.8) -/

/-- The first port from the pointer on whose queue is not empty (R16). -/
theorem nextPort_first {s : State} {k : Port}
    (before : ∀ j, j < k → (s.port (s.table.arbiter + j)).requestQueue = [])
    (waits : (s.port (s.table.arbiter + k)).requestQueue ≠ []) :
    s.nextPort = some (s.table.arbiter + k) := by
  unfold State.nextPort State.turns allPorts
  refine List.find?_eq_some_iff_getElem.mpr ⟨by simp [waits], k.val, by simp, by simp, fun j lt => ?_⟩
  simpa using before ⟨j, lt.trans k.isLt⟩ lt

theorem nextPort_none {s : State} (empty : ∀ p, (s.port p).requestQueue = []) : s.nextPort = none :=
  List.find?_eq_none.mpr fun p _ => by simp [empty p]

/-- A response placed that is not retained (R179, R183). -/
theorem answer_unretained {s : State} {p : Port} {e : Entry} {rest : List Entry}
    (queue : (s.port p).requestQueue = e :: rest) (c q : Byte) (a : Reply) :
    (s.advance p).answer p c q a false =
      State.setPort { s with table := { s.table with arbiter := p + 1 } } p
        { s.port p with
          requestQueue := rest
          responseQueue := (s.port p).responseQueue ++ [⟨c, q, a.status, a.body⟩] } := by
  have left : ((s.advance p).port p).requestQueue.tail = rest := by
    rw [show (s.advance p).port p = s.port p from rfl, queue]; rfl
  rw [State.answer, PortInterface.place, left]
  rfl

section Entries
variable {s : State} {p : Port} {rest : List Entry} (held : s.held = false)
  (turn : s.settle.nextPort = some p)
include held turn

theorem badFrameEntry_exec {c q : Byte}
    (queue : (s.settle.port p).requestQueue = .badFrame c q :: rest) :
    exec (.badFrameEntry p) s =
      .next ((s.settle.advance p).answer p c q (.plain .badFrame) false) := by
  rw [show exec (.badFrameEntry p) s = execBadFrameEntry p s from rfl, execBadFrameEntry,
    if_neg (by simp [held])]
  simp only [granted_of turn queue]

theorem repeatEntry_exec {c q : Byte}
    (queue : (s.settle.port p).requestQueue = .repeatOf c q :: rest) :
    exec (.repeatEntry p) s = .next ((s.settle.advance p).answer p c q
      ⟨.repeated, repeatBody (s.settle.port p).retained⟩ false) := by
  rw [show exec (.repeatEntry p) s = execRepeatEntry p s from rfl, execRepeatEntry,
    if_neg (by simp [held])]
  simp only [granted_of turn queue]

end Entries

/-- Settles O26: the port found first, and each entry answered at the head of its queue. -/
theorem grantsThatRunNothing : Obligations.GrantsThatRunNothing := by
  refine ⟨fun s k before waits => nextPort_first before waits, fun s empty => nextPort_none empty,
    fun s p e rest held turn queue => ⟨fun c q entry => ?_, fun c q y entry kept => ?_,
      fun r entry large => ?_⟩⟩ <;> subst entry
  · rw [badFrameEntry_exec held turn queue, answer_unretained queue]; rfl
  · rw [repeatEntry_exec held turn queue, answer_unretained queue, kept]; rfl
  · exact grants_refused (run := fun _ t => .ok (refuse t .unknown)) ⟨held, turn, queue⟩
      (decide_eq_true large) rfl

/-! ### Argument checks (11.3, 11.4) -/

section BadArg
variable {s : State} {p : Port} {takes : Request → Bool} {r : Request} {rest : List Entry}
  (hg : s.Grants p r rest) (taken : takes r = true)
include hg taken

/-- A request that answers BAD_ARG in the state it meets. -/
theorem grants_badArg {run : Request → State → Answer} (bad : ∀ t, run r t = .ok (refuse t .badArg)) :
    s.grant p takes run = .next (s.settle.responded p r rest .badArg []) :=
  grants_refused hg taken (bad _)

/-- The same of a request that cannot fault. -/
theorem grants_badArg_pure {f : Request → State → State × Reply} (bad : ∀ t, f r t = refuse t .badArg) :
    s.grant p takes (fun r t => .ok (f r t)) = .next (s.settle.responded p r rest .badArg []) :=
  grants_badArg hg taken fun t => congrArg _ (bad t)

end BadArg

theorem byte_ne_zero {v : Byte} (h : 0 < v.toNat) : v ≠ (0 : Byte) := fun e => by
  rw [e] at h; exact absurd h (by decide)

theorem byte_ne_one {v : Byte} (h : 1 < v.toNat) : v ≠ (1 : Byte) := fun e => by
  rw [e] at h; exact absurd h (by decide)

theorem byte_ne_two {v : Byte} (h : 2 < v.toNat) : v ≠ (2 : Byte) := fun e => by
  rw [e] at h; exact absurd h (by decide)

/-- A byte above 1 names none of two values (R206). -/
theorem reserved_of_two {v : Byte} (h : 1 < v.toNat) :
    bufferOf v = none ∧ closeModeOf v = none ∧ linkPolicyOf v = none ∧ missPolicyOf v = none := by
  have zero := byte_ne_zero (v := v) (by omega)
  have one := byte_ne_one h
  refine ⟨?_, ?_, ?_, ?_⟩
  · rw [bufferOf, if_neg zero, if_neg one]
  · rw [closeModeOf, if_neg zero, if_neg one]
  · rw [linkPolicyOf, if_neg zero, if_neg one]
  · rw [missPolicyOf, if_neg zero, if_neg one]

/-- The bytes of a parameter set out of range (R67, R90). -/
def paramsMisspelt (x : List Byte) : Prop :=
  (byteAt x 2).toNat = 0 ∨ 128 < (byteAt x 2).toNat ∨
    (byteAt x 3).toNat ∉ [1, 2, 4, 8, 16, 32] ∨ (byteAt x 3).toNat ≤ (byteAt x 4).toNat ∨
    3 < (byteAt x 5).toNat ∨ 15 < (byteAt x 7).toNat ∨ 3 < (byteAt x 8).toNat

theorem inRange_misspelt {x : List Byte} (bad : paramsMisspelt x) : (readParams x none).inRange = false := by
  refine Bool.eq_false_iff.2 fun range => ?_
  simp only [Params.inRange, readParams, intervalOk, Bool.and_eq_true, List.contains_iff_mem,
    Config.maxCells] at range
  obtain ⟨⟨⟨⟨⟨⟨pos, cells⟩, interval⟩, phase⟩, cls⟩, limit⟩, lead⟩ := range
  rcases bad with bad | bad | bad | bad | bad | bad | bad
  · exact absurd (of_decide_eq_true pos) (by omega)
  · exact absurd (of_decide_eq_true cells) (by omega)
  · exact bad interval
  · exact absurd (of_decide_eq_true phase) (by omega)
  · exact absurd (of_decide_eq_true cls) (by omega)
  · exact absurd (of_decide_eq_true limit) (by omega)
  · exact absurd (of_decide_eq_true lead) (by omega)

theorem readOpen_misspelt {x : List Byte}
    (bad : x.length ≠ 15 ∨ 1 < (byteAt x 0).toNat ∨ paramsMisspelt x ∨
      (byteAt x 0 = 0 ∧ 1 < (byteAt x 6).toNat) ∨ 1 < (byteAt x 9).toNat ∨ 7 < (byteAt x 10).toNat) :
    readOpen x = none := by
  unfold readOpen
  split
  · rename_i d l n direction policy notify
    refine if_neg fun ⟨length, range, tx⟩ => ?_
    rcases bad with bad | bad | bad | ⟨zero, bad⟩ | bad | bad
    · exact bad length
    · exact nomatch (directionOf_reserved bad).symm.trans direction
    · exact nomatch (inRange_misspelt bad).symm.trans range
    · rw [zero] at direction
      cases direction
      have policy := tx rfl
      rw [readPolicy, (reserved_of_two bad).2.2.2] at policy
      cases policy
    · exact nomatch (reserved_of_two bad).2.2.1.symm.trans policy
    · exact nomatch (if_neg (Nat.not_lt.2 bad) : notifySetOf _ = none).symm.trans notify
  · rfl

theorem readPoint_misspelt {x : List Byte}
    (bad : 1 < (byteAt x 9).toNat ∨ (byteAt x 9 = 1 ∧ 4095 < numberAt x 10)) : readPoint x = none := by
  unfold readPoint
  rcases bad with bad | ⟨one, bad⟩
  · rw [if_neg (byte_ne_zero (by omega)), if_neg fun c => byte_ne_one bad c.1]
  · rw [if_neg (by rw [one]; decide), if_neg (by omega)]

theorem readAmend_misspelt {x : List Byte}
    (bad : x.length ≠ 12 ∨ paramsMisspelt x ∨ 1 < (byteAt x 9).toNat ∨
      (byteAt x 9 = 1 ∧ 4095 < numberAt x 10)) : readAmend x = none := by
  unfold readAmend
  rcases bad with bad | bad | bad
  · exact if_neg fun c => bad c.1
  · exact if_neg fun c => Bool.false_ne_true ((inRange_misspelt bad).symm.trans c.2)
  · rw [readPoint_misspelt bad, ite_self]

theorem readClose_misspelt {x : List Byte} (bad : x.length ≠ 3 ∨ 1 < (byteAt x 2).toNat) :
    readClose x = none := by
  unfold readClose
  rcases bad with bad | bad
  · exact if_neg bad
  · rw [(reserved_of_two bad).2.1, ite_self]

theorem readSpan_misspelt {x : List Byte} {n : Nat}
    (bad : 1 < (byteAt x 2).toNat ∨ 2047 < numberAt x 3 ∨ n = 0 ∨ 2048 < n) : readSpan x n = none := by
  unfold readSpan
  split
  · rename_i name buffer
    refine if_neg fun ⟨offset, pos, length⟩ => ?_
    simp only [Config.maxTransfer] at offset length
    rcases bad with bad | bad
    · exact nomatch (reserved_of_two bad).1.symm.trans buffer
    · omega
  · rfl

theorem readPut_misspelt {x : List Byte}
    (bad : 1 < (byteAt x 2).toNat ∨ 2047 < numberAt x 3 ∨ x.length - 5 = 0 ∨ 2048 < x.length - 5) :
    readPut x = none := readSpan_misspelt bad

theorem readGet_misspelt {x : List Byte}
    (bad : x.length ≠ 7 ∨ 1 < (byteAt x 2).toNat ∨ 2047 < numberAt x 3 ∨ numberAt x 5 = 0 ∨
      2048 < numberAt x 5) : readGet x = none := by
  unfold readGet
  rcases bad with bad | bad
  · exact if_neg bad
  · rw [readSpan_misspelt bad, ite_self]

theorem readHandover_misspelt {x : List Byte}
    (bad : x.length ≠ 4 ∨ 1 < (byteAt x 2).toNat ∨ 128 < (byteAt x 3).toNat) : readHandover x = none := by
  unfold readHandover
  split
  · rename_i name buffer
    refine if_neg fun ⟨length, fill⟩ => ?_
    rcases bad with bad | bad | bad
    · exact bad length
    · exact nomatch (reserved_of_two bad).1.symm.trans buffer
    · exact Nat.not_le.2 bad fill
  · rfl

theorem readQuota_bad {x : List Byte} (bad : x.length ≠ 4 ∨ 3 < (byteAt x 0).toNat ∨
    1 < (byteAt x 1).toNat ∨ 18432 < numberAt x 2) : readQuota x = none := by
  rcases bad with bad | bad
  · unfold readQuota
    split
    · exact if_neg fun c => bad c.1
    · rfl
  · exact readQuota_misspelt bad

theorem readPurge_misspelt {x : List Byte} (bad : x.length ≠ 1 ∨ 3 < (byteAt x 0).toNat) :
    readPurge x = none := by
  unfold readPurge
  rcases bad with bad | bad
  · exact if_neg bad
  · rw [portOf_reserved bad, ite_self]

/-- A role byte above 2 is reserved (R206). -/
theorem linkctlRoleOf_reserved {v : Byte} (h : 2 < v.toNat) : linkctlRoleOf v = none := by
  rw [linkctlRoleOf, if_neg (byte_ne_zero (by omega)), if_neg (byte_ne_one (by omega)),
    if_neg (byte_ne_two h)]

theorem readLinkctl_misspelt {action : Byte} {x : List Byte}
    (bad : x.length ≠ 2 ∨ byteAt x 0 ≠ action ∨ 2 < (byteAt x 1).toNat) : readLinkctl action x = none := by
  unfold readLinkctl
  rcases bad with bad | bad | bad
  · exact if_neg fun c => bad c.1
  · exact if_neg fun c => bad c.2
  · rw [linkctlRoleOf_reserved bad, ite_self]

/-- A request whose body is a name alone refuses every other length (R205). -/
theorem nameOnly_badLength (s : State) (p : Port) (any : Bool) {x : List Byte} (bad : x.length ≠ 2) :
    s.nameOnly p any x = .error .badArg := if_neg bad

theorem findByTagRequest_badArg (p : Port) {r : Request} (s : State)
    (bad : r.body.length ≠ 7 ∨ byteAt r.body 0 ≠ 0 ∨ r.body.drop 3 = [0, 0, 0, 0]) :
    findByTagRequest p r s = refuse s .badArg :=
  if_pos (bad.imp_right fun bad => bad.imp_right fun tag => by
    exact (tagAt_spelt (tag := 0) tag))

theorem findByChannelRequest_badArg {r : Request} (s : State)
    (bad : r.body.length ≠ 7 ∨ byteAt r.body 0 ≠ 1 ∨ 1 < (byteAt r.body 1).toNat) :
    findByChannelRequest r s = refuse s .badArg := by
  unfold findByChannelRequest
  split
  · rfl
  · rename_i d direction
    refine if_pos ?_
    rcases bad with bad | bad | bad
    · exact .inl bad
    · exact .inr bad
    · exact nomatch (directionOf_reserved bad).symm.trans direction

theorem loadsRequest_badArg {r : Request} (s : State)
    (bad : r.body.length ≠ 1 ∨ 1 < (byteAt r.body 0).toNat) :
    Machine.loadsRequest r s = refuse s .badArg := by
  unfold Machine.loadsRequest
  split
  · rfl
  · rename_i d direction
    rcases bad with bad | bad
    · exact if_pos bad
    · exact nomatch (directionOf_reserved bad).symm.trans direction

theorem linkctlRequest_badArg {action : Byte} (act : State → State) {r : Request} (s : State)
    (bad : r.body.length ≠ 2 ∨ byteAt r.body 0 ≠ action ∨ 2 < (byteAt r.body 1).toNat) :
    linkctlRequest 0 action act r s = refuse s .badArg := by
  rw [linkctlRequest, if_neg (by simp), readLinkctl_misspelt bad]

/-- The row of one action takes a body that is not the other's (log 17). -/
theorem takesAction_of {other : Byte} {r : Request} (code : r.code = 0x11)
    (differs : ¬(r.body.length = 2 ∧ byteAt r.body 0 = other)) : takesAction other r = true := by
  simpa [takesAction, code, -not_and] using not_and_or.1 differs

/-- The row of one form of FIND takes a body that is not the other's (log 17). -/
theorem takesByTag_of {r : Request} (code : r.code = 0x07)
    (differs : ¬(r.body.length = 7 ∧ byteAt r.body 0 = 1)) : takesByTag r = true := by
  simpa [takesByTag, code, -not_and] using not_and_or.1 differs

theorem takesByChannel_of {r : Request} (code : r.code = 0x07)
    (differs : ¬(r.body.length = 7 ∧ byteAt r.body 0 = 0)) : takesByChannel r = true := by
  simpa [takesByChannel, code, -not_and] using not_and_or.1 differs

section Rows
variable {s : State} {p : Port} {r : Request} {rest : List Entry} (hg : s.Grants p r rest)
include hg

/-- Either row of FIND refuses a body that spells neither form. -/
theorem find_neither (code : r.code = 0x07) (bad : r.body.length ≠ 7 ∨ 1 < (byteAt r.body 0).toNat) :
    exec (.findByTag p) s = .next (s.settle.responded p r rest .badArg []) ∧
      exec (.findByChannel p) s = .next (s.settle.responded p r rest .badArg []) := by
  have zero : r.body.length ≠ 7 ∨ byteAt r.body 0 ≠ 0 :=
    bad.imp_right fun above => byte_ne_zero (by omega)
  have one : r.body.length ≠ 7 ∨ byteAt r.body 0 ≠ 1 :=
    bad.imp_right byte_ne_one
  exact ⟨grants_badArg_pure hg (takesByTag_of code (not_and_or.2 one)) fun t =>
      findByTagRequest_badArg p t (zero.imp_right .inl),
    grants_badArg_pure hg (takesByChannel_of code (not_and_or.2 zero)) fun t =>
      findByChannelRequest_badArg t (one.imp_right .inl)⟩

/-- Either row of LINKCTL refuses a body that spells neither action. -/
theorem linkctl_neither (supervisor : p = 0) (code : r.code = 0x11)
    (bad : r.body.length ≠ 2 ∨ (byteAt r.body 0 ≠ 1 ∧ byteAt r.body 0 ≠ 2)) :
    exec (.linkctlEnable p) s = .next (s.settle.responded p r rest .badArg []) ∧
      exec (.linkctlDisable p) s = .next (s.settle.responded p r rest .badArg []) := by
  subst supervisor
  exact ⟨grants_badArg_pure hg (takesAction_of code (not_and_or.2 (bad.imp_right And.right))) fun t =>
      linkctlRequest_badArg _ t (bad.imp_right fun other => .inl other.1),
    grants_badArg_pure hg (takesAction_of code (not_and_or.2 (bad.imp_right And.left))) fun t =>
      linkctlRequest_badArg _ t (bad.imp_right fun other => .inl other.2)⟩

end Rows

/-- Settles O28: each row's reading of its body fails, and the request is refused in the state it meets. -/
theorem argumentRefusals : Obligations.ArgumentRefusals := by
  intro s p r rest hg x badParams badSpan i row
  have code : ∀ {c : Byte}, r.code = c → ofCode c r = true := fun e => decide_eq_true e
  rcases row with ⟨rfl, c, bad⟩ | ⟨rfl, c, bad⟩ | ⟨rfl, c, bad⟩ | ⟨rfl, c, bad⟩ | ⟨rfl, c, bad⟩ |
    ⟨rfl, c, bad⟩ | ⟨form, c, bad⟩ | ⟨rfl, c, zero, bad⟩ | ⟨rfl, c, one, bad⟩ | ⟨rfl, c, bad⟩ |
    ⟨rfl, c, bad⟩ | ⟨rfl, c, bad⟩ | ⟨rfl, c, bad⟩ | ⟨rfl, c, bad⟩ | ⟨rfl, c, bad⟩ | ⟨rfl, c, bad⟩ |
    ⟨rfl, c, bad⟩ | ⟨rfl, user, c, bad⟩ | ⟨action, user, c, bad⟩ | ⟨rfl, user, c, one, bad⟩ |
    ⟨rfl, user, c, two, bad⟩ | ⟨rfl, c, bad⟩
  · exact grants_badArg hg (code c) fun t => by rw [openRequest, readOpen_misspelt bad]
  · exact grants_badArg_pure hg (code c) fun t => by rw [startRequest, nameOnly_badLength t p _ bad]
  · exact grants_badArg_pure hg (code c) fun t => by rw [stopRequest, nameOnly_badLength t p _ bad]
  · exact grants_badArg_pure hg (code c) fun t => by rw [closeRequest, readClose_misspelt bad]
  · exact grants_badArg hg (code c) fun t => by rw [amendRequest, readAmend_misspelt bad]
  · exact grants_badArg_pure hg (code c) fun t => by rw [withdrawRequest, nameOnly_badLength t p _ bad]
  · obtain ⟨byTag, byChannel⟩ := find_neither hg c bad
    rcases form with rfl | rfl
    · exact byTag
    · exact byChannel
  · refine grants_badArg_pure hg (takesByTag_of c fun other => ?_) fun t =>
      findByTagRequest_badArg p t (.inr (.inr bad))
    exact absurd (zero.symm.trans other.2) (by decide)
  · refine grants_badArg_pure hg (takesByChannel_of c fun other => ?_) fun t =>
      findByChannelRequest_badArg t (.inr (.inr bad))
    exact absurd (one.symm.trans other.2) (by decide)
  · exact grants_badArg_pure hg (code c) fun t => by rw [readRequest, nameOnly_badLength t p _ bad]
  · exact grants_badArg hg (code c) fun t => by rw [putRequest, readPut_misspelt bad]
  · exact grants_badArg hg (code c) fun t => by rw [getRequest, readGet_misspelt bad]
  · exact grants_badArg_pure hg (code c) fun t => by rw [handoverRequest, readHandover_misspelt bad]
  · exact grants_badArg_pure hg (code c) fun t => loadsRequest_badArg t bad
  · exact grants_badArg_pure hg (code c) fun t => if_pos bad
  · exact grants_badArg_pure hg (code c) fun t => if_pos bad
  · exact grants_badArg_pure hg (code c) fun t => if_pos bad
  · subst user
    exact grants_badArg_pure hg (code c) fun t => by
      rw [Machine.quotaRequest, readQuota_bad bad, if_neg (not_not_intro rfl)]
  · obtain ⟨enable, disable⟩ := linkctl_neither hg user c bad
    rcases action with rfl | rfl
    · exact enable
    · exact disable
  · subst user
    refine grants_badArg_pure hg (takesAction_of c fun other => ?_) fun t =>
      linkctlRequest_badArg _ t (.inr (.inr bad))
    exact absurd (one.symm.trans other.2) (by decide)
  · subst user
    refine grants_badArg_pure hg (takesAction_of c fun other => ?_) fun t =>
      linkctlRequest_badArg _ t (.inr (.inr bad))
    exact absurd (two.symm.trans other.2) (by decide)
  · exact grants_badArg_pure hg (code c) fun t => by rw [purgeRequest, readPurge_misspelt bad]

/-! ### Reset (10.4) -/

/-- The end of a reset samples ROLE once nothing holds the part any more (R154, R203). -/
theorem endReset_free {s : State} (free : s.held = false) (high : Bool) :
    s.endReset high =
      { s with link := { s.link with role := if high then .leader else .follower } } :=
  if_neg (Bool.eq_false_iff.1 free)

theorem endReset_held {s : State} (held : s.held = true) (high : Bool) : s.endReset high = s :=
  if_pos held

section Held
variable {s : State} (held : s.held = true)
include held

theorem hears_held : s.hears = false := by rw [State.hears, held]; rfl

theorem receives_held : s.receives = false := by rw [State.receives, hears_held held]; rfl

theorem takeThrough_held (kind : Claim → Bool) : s.takeThrough kind = s := if_pos held

theorem grant_held (p : Port) (takes : Request → Bool) (run : Request → State → Answer) :
    s.grant p takes run = .next s := if_pos held

theorem receiveMark_held (c : MarkCell) : s.receiveMark c = s :=
  if_neg (Bool.eq_false_iff.1 (hears_held held))

/-- While the part is held, only the pins and the transactions have an effect (R203). -/
theorem exec_held (i : Instr) (start : ∀ x, i ≠ .transactionStart x)
    (finish : ∀ p m, i ≠ .transactionEnd p m) (assert : i ≠ .resetNAssert)
    (release : ∀ x, i ≠ .resetNRelease x) (expiry : ∀ x, i ≠ .resetHoldExpiry x) :
    exec i s = .next s := by
  have deaf : ∀ c : Bool, (s.hears && c) ≠ true := fun c => by
    rw [hears_held held, Bool.false_and]; decide
  have deafTwice : ∀ c d : Bool, (s.hears && c && d) ≠ true := fun c d => by
    rw [hears_held held, Bool.false_and, Bool.false_and]; decide
  have unaligned : ¬s.receives = true := by rw [receives_held held]; decide
  have taken : ∀ kind, Host.Outcome.next (s.takeThrough kind) = (.next s : Host.Outcome State Fault Refusal) :=
    fun kind => congrArg _ (takeThrough_held held kind)
  cases request : requestRow i with
  | some p =>
    obtain ⟨takes, run, -, eq⟩ := requestRow_grants request
    rw [eq, grant_held held]
  | none =>
    cases i <;> simp only [requestRow, reduceCtorEq] at request
    case transactionStart x => exact absurd rfl (start x)
    case transactionEnd p m => exact absurd rfl (finish p m)
    case resetNAssert => exact absurd rfl assert
    case resetNRelease x => exact absurd rfl (release x)
    case resetHoldExpiry x => exact absurd rfl (expiry x)
    case badFrameEntry p => exact if_pos held
    case repeatEntry p => exact if_pos held
    case reset p =>
      by_cases zero : p = 0
      · exact (if_pos zero).trans (if_pos held)
      · exact (if_neg zero).trans (grant_held held _ _ _)
    case periodTimerExpiry => exact if_neg (deafTwice _ _)
    case markArrival c => exact congrArg _ (receiveMark_held held c)
    case echoArrival c => exact congrArg _ (receiveMark_held held c)
    case lossTimerExpiry => exact if_neg (deafTwice _ _)
    case alignmentLapse => exact if_neg (deaf _)
    case serviceStart => exact if_pos held
    case txCompletion => exact if_pos held
    case enteringUp => exact if_pos held
    case markProcessing => exact taken _
    case matchClaim => exact taken _
    case rxCompletion => exact taken _
    case periodEnd => exact taken _
    case leavingUp => exact taken _
    case slip => exact taken _
    all_goals exact if_neg unaligned

end Held

/-- Settles O45: the pin and the hold are released by cases on what else holds the part. -/
theorem resetBeginsAndEnds : Obligations.ResetBeginsAndEnds := by
  intro s
  refine ⟨rfl, fun free => ?_, fun p r rest other hg c => ?_, fun high => ⟨fun off => ?_, fun pin hold => ?_,
    fun pin hold => ?_, fun off => ?_, fun hold pin => ?_, fun hold pin => ?_⟩,
    fun held i start finish assert release expiry => exec_held held i start finish assert release expiry⟩
  · exact if_neg (Bool.eq_false_iff.1 free)
  · rw [show exec (.reset p) s = s.grant p (ofCode 0x13) fun _ t => .ok (refuse t .denied) from
      if_neg other]
    exact grants_refused hg (decide_eq_true c) rfl
  · exact if_neg (Bool.eq_false_iff.1 off)
  · exact (if_pos pin).trans (congrArg _ (endReset_free (by simp [State.held, hold]) high))
  · exact (if_pos pin).trans (congrArg _ (endReset_held (by simp [State.held, hold]) high))
  · exact if_neg (Bool.eq_false_iff.1 off)
  · exact (if_pos hold).trans (congrArg _ (endReset_free (by simp [State.held, pin]) high))
  · exact (if_pos hold).trans (congrArg _ (endReset_held (by simp [State.held, pin]) high))

end Sys2Proof.Machine
end

section
/-! SUPPORT. The statements about START, STOP and CLOSE (chapter 4). -/

namespace Sys2Proof.Machine

section Answers
variable {s : State} {p : Port} {takes : Request → Bool} {run : Request → State → State × Reply}
  {r : Request} {rest : List Entry} {x : Status} {body : List Byte} (hg : s.Grants p r rest)
  (taken : takes r = true)
include hg taken

/-- A granted request that cannot fault, answered in a state whose port is as the grant found it. -/
theorem grants_answers {v : State} (answer : run r (s.settle.advance p) = (v.advance p, ⟨x, body⟩))
    (port : v.port p = s.settle.port p) :
    s.grant p takes (fun r t => .ok (run r t)) = .next (v.responded p r rest x body) :=
  grants_next hg taken (congrArg _ answer) rfl port

/-- A granted request that cannot fault, refused. -/
theorem grants_refuses (answer : run r (s.settle.advance p) = refuse (s.settle.advance p) x) :
    s.grant p takes (fun r t => .ok (run r t)) = .next (s.settle.responded p r rest x []) :=
  grants_refused hg taken (congrArg _ answer)

end Answers

/-! ### Leaving the lists (4.3) -/

theorem leave_eq (x : TxEntry) (h : Handle) (g : Byte) (f : Form) :
    x.leave h g f =
      { x with absent := x.absent || decide (x.handle = h ∧ x.generation = g ∧ x.form = f) } := by
  unfold TxEntry.leave
  split
  · rename_i ours
    simp [ours]
  · rename_i other
    simp only [decide_eq_false other, Bool.or_false]

/-- The lists without a record: its TX entries absent, and its RX place and standing gone, where they
are of its generation and form (R72, R80, R116). -/
theorem leaveLists_eq {s : State} {h : Handle} {st : Stream} (hs : s.stream h = some st) :
    let g := (s.record h).generation
    let f : Form := ⟨st.params.cells, st.params.interval, st.params.phase⟩
    let e := s.psu.rxTable.get h
    let ours := e.generation = g ∧ e.form = f
    s.leaveLists h = { s with psu := { s.psu with
      txList := s.psu.txList.map fun x =>
        { x with absent := x.absent || decide (x.handle = h ∧ x.generation = g ∧ x.form = f) }
      rxTable := if ours then s.psu.rxTable.set h.val ⟨g, f, .none⟩ h.isLt else s.psu.rxTable
      rxList := if ours then s.psu.rxList.filter fun k => k ≠ h else s.psu.rxList } } := by
  intro g f e ours
  have form : s.formOf h = f := by simp only [State.formOf, hs]; rfl
  have list : (s.psu.txList.map fun x => x.leave h g f) = s.psu.txList.map fun x =>
      { x with absent := x.absent || decide (x.handle = h ∧ x.generation = g ∧ x.form = f) } :=
    List.map_congr_left fun x _ => leave_eq x h g f
  have psu : s.psu.leave h g f = { s.psu with
      txList := s.psu.txList.map fun x => x.leave h g f
      rxTable := if ours then s.psu.rxTable.set h.val ⟨g, f, .none⟩ h.isLt else s.psu.rxTable
      rxList := if ours then s.psu.rxList.filter fun k => k ≠ h else s.psu.rxList } := by
    by_cases listed : ours
    · have entry : { e with standing := .none } = (⟨g, f, .none⟩ : RxEntry) := by
        rw [← listed.1, ← listed.2]
      rw [PeriodService.leave, if_pos listed, if_pos listed, if_pos listed, ← entry]
    · rw [PeriodService.leave, if_neg listed, if_neg listed, if_neg listed]
  rw [State.leaveLists, form, psu, list]

theorem isClosing_iff {st : Stream} : st.isClosing = true ↔ ∃ m, st.state = .closing m := by
  unfold Stream.isClosing
  cases st.state <;> simp

section Named
variable {s : State} {p : Port} {r : Request} {h : Handle} {st : Stream} (length : r.body.length = 2)
  (named : s.nameCheck p false r.body = .ok (h, st))
include length named

theorem startRequest_starts (idle : st.state = .standby ∨ ∃ c, st.state = .suspended c) :
    startRequest p r s =
      ((s.leaveLists h).setStream h { st with state := .live, missRun := 0 }, .plain .done) := by
  rcases idle with state | ⟨c, state⟩ <;>
    simp only [startRequest, nameOnly_eq s p false length, named, state]

theorem startRequest_refuses (busy : st.state = .live ∨ st.isClosing = true) :
    startRequest p r s = refuse s .state := by
  rw [isClosing_iff] at busy
  rcases busy with state | ⟨m, state⟩ <;>
    simp only [startRequest, nameOnly_eq s p false length, named, state]

theorem stopRequest_stops (started : st.state = .live ∨ ∃ c, st.state = .suspended c) :
    stopRequest p r s = (s.setStream h { st with state := .standby }, .plain .done) := by
  rcases started with state | ⟨c, state⟩ <;>
    simp only [stopRequest, nameOnly_eq s p false length, named, state]

theorem stopRequest_refuses (idle : st.state = .standby ∨ st.isClosing = true) :
    stopRequest p r s = refuse s .state := by
  rw [isClosing_iff] at idle
  rcases idle with state | ⟨m, state⟩ <;>
    simp only [stopRequest, nameOnly_eq s p false length, named, state]

end Named

/-- Settles O32: the equation of leaving the lists, and each request by the record's state. -/
theorem startAndStop : Obligations.StartAndStop := by
  refine ⟨fun s h st hs => leaveLists_eq hs, fun s p r rest h st hg length named own => ?_⟩
  have found := nameCheck_advance named own
  refine ⟨fun c => ⟨fun idle => ?_, fun busy => ?_⟩, fun c => ⟨fun started => ?_, fun idle => ?_⟩⟩
  · exact grants_answers hg (decide_eq_true c) (startRequest_starts length found idle) rfl
  · exact grants_refuses hg (decide_eq_true c) (startRequest_refuses length found busy)
  · exact grants_answers hg (decide_eq_true c) (stopRequest_stops length found started) rfl
  · exact grants_refuses hg (decide_eq_true c) (stopRequest_refuses length found idle)

/-! ### Retirement beside the arbiter pointer -/

theorem withdrawAmendment_advanced (s : State) (q : Port) (h : Handle) :
    (s.advance q).withdrawAmendment h = (s.withdrawAmendment h).advance q := by
  cases hs : s.stream h with
  | none => simp only [State.withdrawAmendment, State.advance_stream, hs]
  | some st =>
    cases pending : st.pending with
    | none => simp only [State.withdrawAmendment, State.advance_stream, hs, pending]
    | some a => exact withdrawAmendment_advance q hs pending

theorem vacate_advanced (s : State) (q : Port) (h : Handle) :
    (s.advance q).vacate h = (s.vacate h).advance q := by
  unfold State.vacate
  rw [withdrawAmendment_advanced]
  cases hs : (s.withdrawAmendment h).stream h with
  | none => simp only [State.advance_stream, hs]
  | some st => simp only [State.advance_stream, hs]; rfl

theorem retire_advanced (s : State) (q : Port) (h : Handle) (closed : Bool) :
    (s.advance q).retire h closed = (s.retire h closed).advance q := by
  unfold State.retire
  rw [vacate_advanced, State.advance_stream]
  cases s.stream h with
  | none => rfl
  | some st => cases closed <;> rfl

/-! ### CLOSE (4.6, 4.7) -/

section Close
variable {s : State} {p : Port} {r : Request} {h : Handle} {st : Stream} {m : CloseMode}

theorem hasOwner_true {o : Owner} :
    st.hasOwner o = true ↔ st.bufferA.owner = o ∨ st.bufferB.owner = o := by
  simp [Stream.hasOwner]

/-- What a close waits for, by its mode (R79, R80). -/
theorem closeWaits_iff : s.closeWaits st m = true ↔ match m with
    | .immediate => st.bufferA.owner = .service ∨ st.bufferB.owner = .service
    | .drain => s.link.state = .up ∧ ((st.bufferA.owner = .service ∨ st.bufferB.owner = .service) ∨
        st.bufferA.owner = .link ∨ st.bufferB.owner = .link) := by
  cases m with
  | immediate => exact hasOwner_true
  | drain => simp only [State.closeWaits, Bool.and_eq_true, Bool.or_eq_true, decide_eq_true_eq,
      hasOwner_true]

theorem readClose_spelt {x : List Byte} (length : x.length = 3) (mode : byteAt x 2 = closeModeByte m) :
    readClose x = some m := by
  rw [readClose, if_pos length, mode]
  cases m <;> rfl

section Handler
variable (read : readClose r.body = some m) (named : s.Names r.body h st)
include read named

/-- CLOSE by the owner port of an open record that is not in CLOSING. -/
theorem closeRequest_open (own : st.owner = p) (standing : st.isClosing = false) :
    closeRequest p r s = s.closeOpen h st m := by
  have found := nameCheck_names (any := p = 0) named (.inr own)
  have mine : ¬(p = 0 ∧ st.owner ≠ 0) := fun c => c.2 (own.trans c.1)
  simp only [closeRequest, read, found, if_neg mine]
  cases state : st.state with
  | closing => simp [Stream.isClosing, state] at standing
  | standby | live | suspended => rfl

/-- CLOSE by the owner port of a record in CLOSING (R85). -/
theorem closeRequest_again (own : st.owner = p) {old : CloseMode} (state : st.state = .closing old) :
    closeRequest p r s = s.closeAgain h st old m := by
  have found := nameCheck_names (any := p = 0) named (.inr own)
  have mine : ¬(p = 0 ∧ st.owner ≠ 0) := fun c => c.2 (own.trans c.1)
  simp only [closeRequest, read, found, if_neg mine, state]

/-- CLOSE by port 0 of another port's record (R86). -/
theorem closeRequest_forced (supervisor : p = 0) (other : st.owner ≠ 0) :
    closeRequest p r s = (s.forceRetire h, ⟨.done, [(s.record h).generation]⟩) := by
  have found := nameCheck_names (p := p) (any := p = 0) named (.inl (decide_eq_true supervisor))
  have forced : p = 0 ∧ st.owner ≠ 0 := ⟨supervisor, other⟩
  simp only [closeRequest, read, found, if_pos forced]

end Handler

/-- A close that waits puts the record in CLOSING, absent from the present lists where it drains and was
not LIVE (R78, R80). -/
theorem closeOpen_waits (waits : s.closeWaits st m = true) (q : Port) :
    (s.advance q).closeOpen h st m = (State.advance (State.setStream
      (if m = .drain ∧ st.state ≠ .live then (s.withdrawAmendment h).leaveLists h
        else s.withdrawAmendment h) h { st with state := .closing m, pending := none }) q,
      ⟨.pending, [closeModeByte m]⟩) := by
  rw [State.closeOpen, show (s.advance q).closeWaits st m = true from waits, withdrawAmendment_advanced,
    if_pos rfl]
  by_cases absent : m = .drain ∧ st.state ≠ .live
  · rw [if_pos absent, if_pos absent]; rfl
  · rw [if_neg absent, if_neg absent]; rfl

/-- A close that need not wait retires the record within the request (R78). -/
theorem closeOpen_retires (ready : s.closeWaits st m = false) (q : Port) :
    (s.advance q).closeOpen h st m =
      (((s.withdrawAmendment h).retire h false).advance q, ⟨.done, [(s.record h).generation]⟩) := by
  rw [State.closeOpen, show (s.advance q).closeWaits st m = false from ready, withdrawAmendment_advanced,
    if_neg Bool.false_ne_true, State.closeNow, retire_advanced, State.advance_record,
    withdrawAmendment_generation]

/-- A CLOSE of a record in CLOSING is of mode IMMEDIATE behind one of mode DRAIN (R85). -/
theorem closeAgain_refused {old : CloseMode} (spent : old = .immediate ∨ m = .drain) :
    s.closeAgain h st old m = refuse s .state := by
  rcases spent with rfl | rfl
  · rfl
  · cases old <;> rfl

/-- A forced retirement drops the record's services in flight and silences the slot of the one that
sends (R21). -/
theorem forceRetire_eq :
    let flies := fun (k : Handle) (g : Byte) => k = h && g = (s.record h).generation
    let tx := s.psu.txFlight.any fun f => flies f.handle f.generation
    let rx := s.psu.rxFlight.any fun f => flies f.handle f.generation
    s.forceRetire h = State.retire { s with
      psu := { s.psu with
        txFlight := if tx then none else s.psu.txFlight
        rxFlight := if rx then none else s.psu.rxFlight }
      lane := if tx then s.lane.silence else s.lane } h true := rfl

end Close

/-- The cells of a staged slot that is cut idle (R21). -/
theorem silence_eq (l : TransmitLane) :
    ((∃ c k, .lead c k ∈ l.queue) →
      l.silence = { l with queue := List.replicate l.queue.length .idle }) ∧
    ((∀ c k, .lead c k ∉ l.queue) → l.silence =
      { l with
        queue := List.replicate l.queue.length .idle
        staged := l.staged.map WireCell.silenced }) := by
  have shape : l.silence = { l with queue := l.silence.queue, staged := l.silence.staged } := rfl
  obtain ⟨behind, within⟩ := silence_staged l
  refine ⟨fun lead => ?_, fun none => ?_⟩
  · rw [shape, silence_queue, behind lead]
  · rw [shape, silence_queue, within none]

/-- Settles O33: the owner port's CLOSE by the record's state and what it waits for, and port 0's by the
service in flight. -/
theorem closeRequests : Obligations.CloseRequests := by
  intro s p r rest h st m hg c length mode named u g has
  have taken : ofCode 0x04 r = true := decide_eq_true c
  have read := readClose_spelt length mode
  have found : (u.advance p).Names r.body h st := named
  refine ⟨fun own standing => ?_, fun own state asked => ?_, fun own spent => ?_,
    fun supervisor other => ?_⟩
  · intro v waits
    refine ⟨fun w => ?_, fun w => ?_⟩
    · have handled := (closeRequest_open read found own standing).trans
        (closeOpen_waits (closeWaits_iff.2 w) p)
      refine grants_answers hg taken handled ?_
      split <;> simp [State.port, v, u]
    · have ready : u.closeWaits st m = false := Bool.eq_false_iff.2 fun e => w (closeWaits_iff.1 e)
      have handled := (closeRequest_open read found own standing).trans (closeOpen_retires ready p)
      exact grants_answers hg taken handled (by simp [State.port, v, u])
  · subst asked
    have handled := closeRequest_again read found own state
    refine ⟨fun busy => ?_, fun idle => ?_⟩
    · exact grants_answers hg taken (handled.trans (if_pos (hasOwner_true.2 busy))) rfl
    · refine grants_answers hg taken (handled.trans ((if_neg fun e => idle (hasOwner_true.1 e)).trans ?_))
        (by simp [State.port, u])
      rw [State.closeNow, retire_advanced]
      rfl
  · rcases spent with state | ⟨state, asked⟩
    · exact grants_refuses hg taken ((closeRequest_again read found own state).trans
        (closeAgain_refused (.inl rfl)))
    · exact grants_refuses hg taken ((closeRequest_again read found own state).trans
        (closeAgain_refused (.inr asked)))
  · intro tx rx v closed idle
    have handled : ∀ l, (if tx then u.lane.silence else u.lane) = l → closed l := fun l lane => by
      refine grants_answers hg taken ((closeRequest_forced read found supervisor other).trans ?_)
        (by simp [State.port, v, u])
      rw [← lane, ← retire_advanced]
      rfl
    refine ⟨fun still => handled _ ?_, fun sends lead => handled _ ?_, fun sends none => handled _ ?_⟩
    · rw [still, if_neg Bool.false_ne_true]
    · rw [sends, if_pos rfl, (silence_eq u.lane).1 lead]
    · have silenced : WireCell.silenced = fun w => match w with
          | .lead _ _ | .payload _ => .idle
          | w => w := funext fun w => by cases w <;> rfl
      rw [sends, if_pos rfl, (silence_eq u.lane).2 none]
      exact congrArg (fun f => ({ u.lane with queue := idle, staged := u.lane.staged.map f } : TransmitLane))
        silenced

end Sys2Proof.Machine
end

section
/-! SUPPORT. The statements about LINKCTL (7.8) and about the marks, echoes, timers and cells of the period
link (chapter 7). -/

namespace Sys2Proof.Machine

/-! ### Marks taken (6.1) -/

/-- A taken mark reported: a burst in flight cut short, an open receive period ended, and the mark
processing claim made (R111). -/
theorem reportMark_whole (s : State) (n : Period) :
    s.reportMark n = { s.burstCut with
      psu := { s.burstCut.psu with rxOpen := true }
      claims := s.burstCut.claims ++ (if s.psu.rxOpen then [.periodEnd] else []) ++
        [.markProcessing n] } := by
  rw [State.reportMark, cutBurst_eq, State.endReceive, show s.burstCut.psu.rxOpen = s.psu.rxOpen from rfl]
  cases s.psu.rxOpen with
  | true => rfl
  | false =>
    rw [if_neg Bool.false_ne_true, if_neg Bool.false_ne_true, List.append_nil]
    rfl

/-- A mark emitted: the next number, and the period opened on both lanes (R140). -/
theorem emitMark_whole (s : State) :
    s.emitMark = { s.burstCut with
      link := { s.link with period := s.link.period + 1, markTaken := true }
      psu := { s.burstCut.psu with rxOpen := true }
      claims := s.burstCut.claims ++ (if s.psu.rxOpen then [.periodEnd] else []) ++
        [.markProcessing (s.link.period + 1)]
      lane := ⟨.mark (s.link.period + 1) .leader false, some .idle, [], some (s.link.period + 1)⟩ } := by
  rw [State.emitMark, reportMark_whole]
  rfl

/-! ### Leaving UP beside the arbiter pointer (7.8) -/

theorem abortBuffer_advanced (s : State) (q : Port) (h : Handle) (g : Byte) (n : BufferName) :
    (s.advance q).abortBuffer h g n = (s.abortBuffer h g n).advance q := by
  unfold State.abortBuffer
  rw [State.advance_stream, State.advance_record]
  cases s.stream h with
  | none => rfl
  | some st =>
    dsimp only
    split
    · rfl
    · rfl

theorem abortService_advanced (s : State) (q : Port) :
    (s.advance q).abortService = s.abortService.advance q := by
  unfold State.abortService
  rw [State.advance_psu]
  cases s.psu.txFlight <;> cases s.psu.rxFlight <;> simp only [abortBuffer_advanced] <;> rfl

theorem departRecord_advanced (s : State) (q : Port) (h : Handle) :
    (s.advance q).departRecord h = (s.departRecord h).advance q := by
  unfold State.departRecord
  rw [State.advance_stream]
  cases s.stream h with
  | none => rfl
  | some st =>
    dsimp only
    cases st.state with
    | live => dsimp only; split <;> rfl
    | closing => exact retire_advanced s q h true
    | standby | suspended => rfl

theorem notifyAll_advanced (s : State) (q : Port) (x : LinkEvent) :
    (s.advance q).notifyAll x = (s.notifyAll x).advance q :=
  List.foldl_hom (State.advance · q) fun _ _ => rfl

theorem leaveUp_advanced (s : State) (q : Port) : (s.advance q).leaveUp = s.leaveUp.advance q := by
  rw [State.leaveUp, abortService_advanced,
    List.foldl_hom (State.advance · q) fun t h => departRecord_advanced t q h, notifyAll_advanced,
    State.leaveUp]

/-! ### LINKCTL (7.8, 7.9) -/

/-- The bytes of a LINKCTL's role (11.4). -/
def roleSpelt (role : Option Role) (c : Byte) : Prop :=
  (role = none ∧ c = 0) ∨ (role = some .leader ∧ c = 1) ∨ (role = some .follower ∧ c = 2)

theorem linkctlRoleOf_spelt {role : Option Role} {c : Byte} (spelt : roleSpelt role c) :
    linkctlRoleOf c = some role := by
  rcases spelt with ⟨rfl, rfl⟩ | ⟨rfl, rfl⟩ | ⟨rfl, rfl⟩ <;> rfl

/-- A body that is not of two bytes with the first given. -/
theorem not_pair {x : List Byte} {v : Byte} (differs : ∀ c, x ≠ [v, c]) :
    ¬(x.length = 2 ∧ byteAt x 0 = v) := by
  rintro ⟨length, first⟩
  obtain ⟨i, j, rfl⟩ := List.length_eq_two.1 length
  exact differs j (by rw [← first]; rfl)

section Linkctl
variable {action : Byte} {act : State → State} {r : Request} {s : State} {role : Option Role} {c : Byte}
  (spelt : roleSpelt role c) (body : r.body = [action, c])
include spelt body

theorem readLinkctl_spelt : readLinkctl action r.body = some role := by
  rw [body, readLinkctl, if_pos ⟨rfl, rfl⟩]
  exact linkctlRoleOf_spelt spelt

/-- A role asked where the link is not OFF is refused (R152). -/
theorem linkctlRequest_state (asked : role ≠ none) (on : s.link.state ≠ .off) :
    linkctlRequest 0 action act r s = refuse s .state := by
  rw [linkctlRequest, if_neg (by simp), readLinkctl_spelt spelt body]
  exact if_pos ⟨Option.isSome_iff_ne_none.2 asked, on⟩

/-- Otherwise the action is carried out in the role asked, or kept (R152). -/
theorem linkctlRequest_acts (free : role = none ∨ s.link.state = .off) :
    linkctlRequest 0 action act r s = (act (s.applyRole role), (act (s.applyRole role)).linkReply) := by
  rw [linkctlRequest, if_neg (by simp), readLinkctl_spelt spelt body]
  refine if_neg fun ⟨asked, on⟩ => ?_
  rcases free with rfl | off
  · cases asked
  · exact on off

end Linkctl

theorem applyRole_eq (s : State) (role : Option Role) :
    s.applyRole role = { s with link := { s.link with role := role.getD s.link.role } } := by
  cases role <;> rfl

section Enable
variable {s : State} (off : s.link.state = .off)
include off

theorem enable_follower (role : s.link.role = .follower) :
    s.enable = { s with link := { s.link with state := .acquire, acquire := 0, missingEchoes := 0 } } := by
  simp only [State.enable, if_pos off, role]

theorem enable_leader (role : s.link.role = .leader) :
    s.enable = State.emitMark { s with link := { s.link with
      state := .acquire, acquire := 0, missingEchoes := 0, echoRecord := none, periodTimer := true } } := by
  simp only [State.enable, if_pos off, role]

end Enable

theorem enable_on {s : State} (on : s.link.state ≠ .off) : s.enable = s := if_neg on

theorem disable_off {s : State} (off : s.link.state = .off) : s.disable = s := by
  simp only [State.disable, off]

/-- DISABLE out of OFF: behind the effects of leaving UP, where the link was UP, both lanes cut and the
Link Controller in OFF (R152). -/
theorem disable_on {s : State} (on : s.link.state ≠ .off) :
    let v := if s.link.state = .up then s.leaveUp else s
    s.disable = { v with
      link := ⟨.off, s.link.role, s.link.period, false, false, 0, none, 0, false, false⟩
      lane := ⟨v.lane.sending, none, [], none⟩
      psu := { v.psu with rxOpen := false } } := by
  have link : s.leaveUp.link = s.link := by simp
  unfold State.disable
  cases state : s.link.state with
  | off => exact absurd state on
  | acquire => rfl
  | up =>
    simp only [if_pos, State.turnOff, link, State.cutPeriod, State.stopLane, LinkController.off,
      LinkController.reset]

end Sys2Proof.Machine
end

section
/-! The obligation on LINKCTL, apart from `Machine`, where its request has the same name. -/

namespace Sys2Proof

open Machine

/-- Settles O43: each row refused, or carried out in the role asked. -/
theorem linkctlRequest : Obligations.LinkctlRequest := by
  intro s p r rest hg code u reply
  refine ⟨fun other => ⟨fun differs => ?_, fun differs => ?_⟩, fun c role zero spelt => ?_⟩
  · exact grants_refuses hg (takesAction_of code (not_pair differs)) (if_pos other)
  · exact grants_refuses hg (takesAction_of code (not_pair differs)) (if_pos other)
  subst zero
  intro asked
  let w := (u.advance 0).applyRole role
  have cast : w = { u.advance 0 with link := { u.link with role := asked } } := applyRole_eq _ role
  have off_of : u.link.state = .off → w.link.state = .off := fun off => by rw [cast]; exact off
  have role_of : w.link.role = asked := by rw [cast]
  refine ⟨fun body => ?_, fun body => ?_⟩
  · have taken : takesAction 2 r = true := takesAction_of code fun two => by
      rw [body] at two
      exact absurd (show (1 : Byte) = 2 from two.2) (by decide)
    refine ⟨fun given on => ?_, fun kept on => ?_, fun off follower => ?_, fun off leader => ?_⟩
    · exact grants_refuses hg taken (linkctlRequest_state spelt body given on)
    · subst kept
      have acts := linkctlRequest_acts (act := State.enable) (s := u.advance 0) spelt body (.inl rfl)
      refine grants_answers (v := u) hg taken (acts.trans ?_) rfl
      rw [show (u.advance 0).applyRole none = u.advance 0 from rfl, enable_on (s := u.advance 0) on]
      rfl
    · have acts := linkctlRequest_acts (act := State.enable) (s := u.advance 0) spelt body (.inr off)
      refine grants_answers hg taken (acts.trans ?_) rfl
      rw [enable_follower (off_of off) (role_of.trans follower), cast, follower]
      rfl
    · have acts := linkctlRequest_acts (act := State.enable) (s := u.advance 0) spelt body (.inr off)
      refine grants_answers hg taken (acts.trans ?_) rfl
      rw [enable_leader (off_of off) (role_of.trans leader), emitMark_whole, cast, leader]
      rfl
  · have taken : takesAction 1 r = true := takesAction_of code fun one => by
      rw [body] at one
      exact absurd (show (2 : Byte) = 1 from one.2) (by decide)
    refine ⟨fun given on => ?_, fun off => ?_, fun kept on => ?_⟩
    · exact grants_refuses hg taken (linkctlRequest_state spelt body given on)
    · have acts := linkctlRequest_acts (act := State.disable) (s := u.advance 0) spelt body (.inr off)
      refine grants_answers hg taken (acts.trans ?_) rfl
      rw [disable_off (off_of off), State.linkReply, off_of off, cast]
      rfl
    · subst kept
      have acts := linkctlRequest_acts (act := State.disable) (s := u.advance 0) spelt body (.inl rfl)
      intro v
      refine grants_answers hg taken (acts.trans ?_) ?_
      · rw [show (u.advance 0).applyRole none = u.advance 0 from rfl, disable_on (s := u.advance 0) on, leaveUp_advanced,
          ← apply_ite (State.advance · 0)]
        rfl
      · simp only [v, State.port]
        split <;> simp [u]

end Sys2Proof
end

section
/-! SUPPORT. The statements about the marks, echoes, timers and cells of the period link (chapter 7). -/

namespace Sys2Proof.Machine

/-! ### What the part hears -/

theorem hears_true {s : State} (free : s.held = false) (on : s.link.state ≠ .off) : s.hears = true := by
  simp [State.hears, free, on]

theorem hears_false {s : State} (deaf : s.held = true ∨ s.link.state = .off) : s.hears = false := by
  rcases deaf with deaf | deaf <;> simp [State.hears, deaf]

theorem receives_true {s : State} (free : s.held = false) (on : s.link.state ≠ .off)
    (aligned : s.link.aligned = true) : s.receives = true := by
  simp [State.receives, hears_true free on, aligned]

theorem receives_false {s : State}
    (deaf : s.held = true ∨ s.link.state = .off ∨ s.link.aligned = false) : s.receives = false := by
  rcases deaf with deaf | deaf | deaf <;> simp [State.receives, State.hears, deaf]

/-! ### The role stays -/

theorem settleFor_role (n : Nat) (s : State) : (State.settleFor n s).link.role = s.link.role := by
  induction n generalizing s with
  | zero => rfl
  | succ n ih =>
    unfold State.settleFor
    split
    · rfl
    · rename_i c rest _
      rw [ih]
      rcases takeClaim_link { s with claims := rest } c with link | ⟨_, link⟩ <;> rw [link]

/-- No claim and no entry into UP changes the role (R152, R154). -/
theorem catchUp_role (s : State) : s.catchUp.link.role = s.link.role := by
  have entered : s.settle.enterUp.link.role = s.settle.link.role := by
    unfold State.enterUp
    split <;> rfl
  exact (settleFor_role _ _).trans (entered.trans (settleFor_role _ _))

/-! ### The leader's period timer (7.4) -/

/-- The leader leaves UP at this expiry: the third period running without a valid echo (R149). -/
theorem losesEchoes_iff (s : State) : s.losesEchoes = true ↔
    s.link.state = .up ∧ s.link.echoRecord ≠ some s.link.period ∧ 3 ≤ s.link.missingEchoes + 1 := by
  simp [State.losesEchoes, State.echoed, Config.missingEchoLimit, and_assoc]

theorem settledLink_eq (s : State) :
    let echoed := s.link.echoRecord = some s.link.period
    s.settledLink = { s.link with
      missingEchoes := if s.link.state = .up then
          (if echoed then 0 else s.link.missingEchoes + 1) else s.link.missingEchoes
      acquire := if s.link.state = .acquire ∧ ¬echoed then 0 else s.link.acquire
      aligned := if echoed then s.link.aligned else false } := by
  intro echoed
  by_cases heard : echoed <;> simp [State.settledLink, State.echoed, heard, echoed]

/-- The leader's period settled and the next one opened, from the state caught up (R140, R149). -/
theorem settled_emits (u : State) :
    let n := u.link.period + 1
    let echoed := u.link.echoRecord = some u.link.period
    let leaves := u.link.state = .up ∧ ¬echoed ∧ 3 ≤ u.link.missingEchoes + 1
    let a : State := { u with link := { u.link with
      missingEchoes := if u.link.state = .up then
          (if echoed then 0 else u.link.missingEchoes + 1) else u.link.missingEchoes
      acquire := if u.link.state = .acquire ∧ ¬echoed then 0 else u.link.acquire
      aligned := if echoed then u.link.aligned else false } }
    let v := if u.link.state = .up ∧ ¬leaves then a.runOut else a
    let w := v.burstCut
    u.settlePeriod.emitMark = { w with
      link := { a.link with period := n, markTaken := true }
      lane := ⟨.mark n .leader false, some .idle, [], some n⟩
      psu := { w.psu with rxOpen := true }
      claims := u.claims ++ (if leaves then [.leavingUp] else []) ++ v.cutClaims ++
        (if v.psu.rxOpen then [.periodEnd] else []) ++ [.markProcessing n] } := by
  intro n echoed leaves a v w
  have link : ({ u with link := u.settledLink } : State) = a := by rw [settledLink_eq]
  have kept : v.link = a.link ∧ v.claims = u.claims := by
    simp only [v]
    split <;> simp [a]
  have settled : u.settlePeriod =
      { v with claims := v.claims ++ if leaves then [.leavingUp] else [] } := by
    rw [settlePeriod_eq, link]
    by_cases lost : leaves
    · have value : v = a := if_neg fun c => c.2 lost
      rw [if_pos ((losesEchoes_iff u).2 lost), if_pos lost, value]
      rfl
    · rw [if_neg fun c => lost ((losesEchoes_iff u).1 c), if_neg lost, List.append_nil]
      exact if_congr (and_iff_left lost).symm rfl rfl
  clear_value v
  rw [emitMark_whole, settled]
  simp only [State.burstCut, kept, w, List.append_assoc]
  rfl

/-- Settles O46: an expiry that runs settles the period of the state caught up, and emits the next mark. -/
theorem periodTimerExpiry : Obligations.PeriodTimerExpiry := by
  refine fun s => ⟨fun idle => if_neg ?_, fun free on leader timer => ?_⟩
  · rcases idle with idle | idle | idle | idle <;> simp [State.hears, idle]
  · have runs : (s.hears && s.link.role = .leader && s.link.periodTimer) = true := by
      simp [hears_true free on, leader, timer]
    exact (if_pos runs).trans (congrArg _ (settled_emits s.catchUp))

/-! ### Marks and echoes (7.4) -/

theorem validMark_iff (s : State) (c : MarkCell) : s.validMark c = true ↔
    c.echo = 0 ∧ c.role = 0 ∧ c.number.toNat < 4096 ∧ (s.link.markTaken = false ∨ 648 ≤ c.elapsed) := by
  rw [show 648 = Config.periodCellTimes from rfl]
  simp [State.validMark, and_assoc]

theorem validEcho_iff (s : State) (c : MarkCell) : s.validEcho c = true ↔
    c.echo = 1 ∧ c.role = 1 ∧ c.number.toNat = s.link.period.toNat ∧
      s.link.echoRecord ≠ some s.link.period := by
  simp [State.validEcho, State.echoed, and_assoc]

theorem receiveMark_deaf {s : State} (deaf : s.held = true ∨ s.link.state = .off) (c : MarkCell) :
    s.receiveMark c = s := if_neg (Bool.eq_false_iff.1 (hears_false deaf))

section Heard
variable {s : State} (free : s.held = false) (on : s.link.state ≠ .off) (c : MarkCell)
include free on

/-- The state in which a sound mark cell is judged: the claims taken, and the alignment held (R138). -/
def State.alignedUp (s : State) : State :=
  { s.catchUp with link := { s.catchUp.link with aligned := true } }

theorem receiveMark_follower (follower : s.link.role = .follower) :
    s.receiveMark c = if s.alignedUp.validMark c then s.alignedUp.takeMark (c.number.setWidth 12)
      else s.alignedUp.burstCut := by
  have role : s.alignedUp.link.role = .follower := (catchUp_role s).trans follower
  rw [← cutBurst_eq, State.receiveMark, if_pos (hears_true free on)]
  change (match s.alignedUp.link.role with
    | .follower => if s.alignedUp.validMark c then s.alignedUp.takeMark (c.number.setWidth 12)
      else s.alignedUp.cutBurst
    | .leader => _) = _
  rw [role]

theorem receiveMark_leader (leader : s.link.role = .leader) :
    s.receiveMark c = if s.alignedUp.validEcho c then s.alignedUp.burstCut.acceptEcho
      else s.alignedUp.burstCut := by
  have role : s.alignedUp.link.role = .leader := (catchUp_role s).trans leader
  have echo : s.alignedUp.burstCut.validEcho c = s.alignedUp.validEcho c := rfl
  rw [← echo, ← cutBurst_eq, State.receiveMark, if_pos (hears_true free on)]
  change (match s.alignedUp.link.role with
    | .follower => _
    | .leader => if s.alignedUp.cutBurst.validEcho c then s.alignedUp.cutBurst.acceptEcho
      else s.alignedUp.cutBurst) = _
  rw [role]

end Heard

/-- What a follower's taken mark makes of the state caught up, the alignment held and the period before run
out (R141). -/
theorem takeMark_aligned (u : State) (m : Period) :
    let a : State := { u with link := { u.link with aligned := true } }
    let v := if u.link.state = .up then a.runOut else a
    let w := v.burstCut
    a.takeMark m = { w with
      link := { a.link with
        period := m
        lossTimer := true
        markTaken := true
        acquire := if u.link.state = .acquire then
            (if u.link.acquire = 1 ∧ m = u.link.period + 1 then 2 else 1) else u.link.acquire }
      lane := ⟨v.lane.sending, some (.mark m .follower true), [.idle], some m⟩
      psu := { w.psu with rxOpen := true }
      claims := u.claims ++ (if u.link.state = .up ∧ m ≠ u.link.period + 1 then [.slip] else []) ++
        v.cutClaims ++ (if v.psu.rxOpen then [.periodEnd] else []) ++ [.markProcessing m] } := by
  intro a v w
  have kept : v.link = a.link ∧ v.claims = u.claims := by
    simp only [v]
    split <;> simp [a]
  rw [State.takeMark, show (if a.link.state = .up then a.runOut else a) = v from rfl]
  clear_value v
  have slipped : (if v.link.state = .up ∧ m ≠ v.link.period + 1 then v.makeClaim .slip else v) =
      { v with claims := v.claims ++ if u.link.state = .up ∧ m ≠ u.link.period + 1 then [.slip] else [] } := by
    rw [show u.link.state = v.link.state by rw [kept.1], show u.link.period = v.link.period by rw [kept.1]]
    split
    · rfl
    · rw [List.append_nil]
  dsimp only
  rw [slipped, reportMark_whole]
  simp only [State.burstCut, kept, w]
  rfl

/-- Settles O47: the cell judged in the state caught up, by the role that the claims keep. -/
theorem markArrival : Obligations.MarkArrival := by
  intro s c
  rw [show exec (.markArrival c) s = .next (s.receiveMark c) from rfl]
  refine ⟨fun deaf => congrArg _ (receiveMark_deaf deaf c), fun free on => ?_⟩
  intro u valid
  have judged : s.alignedUp.validMark c = true ↔ valid := validMark_iff _ c
  refine ⟨fun echo other => congrArg _ ?_, fun follower accepted => congrArg _ ?_⟩
  · cases role : s.link.role with
    | leader =>
      rw [receiveMark_leader free on c role, if_neg fun e => echo ((validEcho_iff _ c).1 e).1]
      rfl
    | follower =>
      have invalid := other.resolve_left fun e => nomatch role.symm.trans e
      rw [receiveMark_follower free on c role, if_neg fun e => invalid (judged.1 e)]
      rfl
  · rw [receiveMark_follower free on c follower, if_pos (judged.2 accepted)]
    exact takeMark_aligned u _

/-- A valid echo accepted behind a burst cut short, by the state of the link and what was heard before
(R142, R146). -/
theorem acceptEcho_cut (u : State) :
    let n := u.link.period
    let t := u.burstCut
    let l := { u.link with aligned := true }
    let v := State.burstCut { u with link := l }
    (u.link.state = .up → v.acceptEcho = { t with link := { l with echoRecord := some n } }) ∧
    (u.link.state = .acquire → u.link.acquire = 1 → u.link.echoRecord = some (n - 1) →
      v.acceptEcho = { t with
        link := { l with echoRecord := some n, state := .up, acquire := 0, missingEchoes := 0 }
        claims := t.claims ++ [.enteringUp] }) ∧
    (u.link.state = .acquire → ¬(u.link.acquire = 1 ∧ u.link.echoRecord = some (n - 1)) →
      v.acceptEcho = { t with link := { l with echoRecord := some n, acquire := 1 } }) := by
  intro n t l v
  refine ⟨fun up => ?_, fun acquire one before => ?_, fun acquire first => ?_⟩
  · have stays : v.link.state ≠ .acquire := fun e => nomatch up.symm.trans e
    exact if_neg stays
  · have second : v.link.acquire = 1 ∧ v.link.echoRecord = some (v.link.period - 1) := ⟨one, before⟩
    have state : v.link.state = .acquire := acquire
    simp only [State.acceptEcho, if_pos state, if_pos second]
    rfl
  · have fresh : ¬(v.link.acquire = 1 ∧ v.link.echoRecord = some (v.link.period - 1)) := first
    have state : v.link.state = .acquire := acquire
    simp only [State.acceptEcho, if_pos state, if_neg fresh]
    rfl

/-- Settles O48: the echo judged in the state caught up, and the two timers of the follower. -/
theorem echoesAndTimers : Obligations.EchoesAndTimers := by
  refine ⟨fun s c => ?_, fun s => ⟨fun still => ?_, fun free on follower => ?_⟩⟩
  · rw [show exec (.echoArrival c) s = .next (s.receiveMark c) from rfl]
    refine ⟨fun deaf => congrArg _ (receiveMark_deaf deaf c), fun free on => ?_⟩
    intro u n valid t l
    have judged : s.alignedUp.validEcho c = true ↔ valid := validEcho_iff _ c
    refine ⟨fun echo other => congrArg _ ?_, fun leader accepted => ?_⟩
    · cases role : s.link.role with
      | leader =>
        have invalid := other.resolve_left fun e => nomatch role.symm.trans e
        rw [receiveMark_leader free on c role, if_neg fun e => invalid (judged.1 e)]
        rfl
      | follower =>
        have unmarked : ¬s.alignedUp.validMark c = true := fun e =>
          absurd (((validMark_iff _ c).1 e).1.symm.trans echo) (by decide)
        rw [receiveMark_follower free on c role, if_neg unmarked]
        rfl
    · rw [receiveMark_leader free on c leader, if_pos (judged.2 accepted)]
      obtain ⟨stays, enters, counts⟩ := acceptEcho_cut u
      exact ⟨fun up => congrArg _ (stays up), fun acquire one before =>
        congrArg _ (enters acquire one before), fun acquire first => congrArg _ (counts acquire first)⟩
  · refine ⟨if_neg ?_, if_neg ?_⟩ <;>
      rcases still with still | still | still <;> simp [State.hears, still]
  · intro u
    have heard : (s.hears && s.link.role = .follower) = true := by simp [hears_true free on, follower]
    refine ⟨if_pos heard, fun stopped => if_neg (by simp [stopped]), fun runs up => ?_, fun runs down => ?_⟩
    · exact (if_pos (by rw [heard, runs]; rfl)).trans (if_pos up)
    · exact (if_pos (by rw [heard, runs]; rfl)).trans (if_neg down)

/-! ### The cells of the receive lane (7.2, 7.5) -/

theorem noStandings_iff (s : State) :
    s.noStandings = true ↔ ∀ h, (s.psu.rxTable.get h).standing = .none := by
  simp [State.noStandings, handles]

section Cells
variable {s : State} (takes : s.receives = true)
include takes

theorem trailer_taken {n : BitVec 16} (small : n.toNat < 4096) :
    exec (.trailerArrival n) s = .next (if n.toNat = s.catchUp.link.period.toNat then
      s.catchUp.burstCut.endReceive else s.catchUp.burstCut) := by
  refine (if_pos takes).trans ((if_neg (Nat.not_le.2 small)).trans ?_)
  rw [cutBurst_eq]
  rfl

theorem lead_taken (c k : Byte) :
    exec (.leadCellArrival c k) s = if 128 < k.toNat then .next s.catchUp.burstCut
      else if s.catchUp.noStandings then .next s.catchUp.burstCut
      else match s.catchUp.findChannel .rx c with
        | some h => .next (s.catchUp.burstCut.makeClaim (.matchLead h k.toNat))
        | none => .next s.catchUp.burstCut := by
  refine (if_pos takes).trans ?_
  rw [cutBurst_eq]
  rfl

theorem payload_taken (data : Payload) (sound : Bool) :
    exec (.payloadCellArrival data sound) s = s.catchUp.receivePayload data sound := if_pos takes

end Cells

/-- Settles O49: each cell by what it ends. -/
theorem cellsThatEndBursts : Obligations.CellsThatEndBursts := by
  refine fun s => ⟨fun deaf => ?_, fun free on aligned => ?_⟩
  · have unheard : ¬s.receives = true := Bool.eq_false_iff.1 (receives_false deaf)
    exact ⟨fun _ => if_neg unheard, fun _ _ => if_neg unheard, fun _ => if_neg unheard,
      fun _ _ => if_neg unheard, fun _ => if_neg unheard⟩
  intro u t
  have takes := receives_true free on aligned
  refine ⟨fun _ => ?_, fun n large => (if_pos takes).trans (if_pos large), fun n small other => ?_,
    fun n same closed => ?_, fun n same opened => ?_, fun c k none => ?_, fun c k h j small listed found => ?_⟩
  · exact (if_pos takes).trans (congrArg _ (cutBurst_eq u))
  · rw [trailer_taken takes small, if_neg other]
  · rw [trailer_taken takes (same ▸ u.link.period.isLt), if_pos same]
    exact congrArg _ (if_neg (Bool.eq_false_iff.1 closed))
  · rw [trailer_taken takes (same ▸ u.link.period.isLt), if_pos same]
    exact congrArg _ (if_pos opened)
  · rw [lead_taken takes]
    split
    · rfl
    · split
      · rfl
      · rename_i small standing
        rcases none with large | idle | unheld
        · exact absurd large small
        · exact absurd ((noStandings_iff u).2 idle) standing
        · rw [unheld]
  · rw [lead_taken takes, if_neg (Nat.not_lt.2 small), if_neg fun e => listed ((noStandings_iff u).1 e j),
      found]
    rfl

/-- The burst in flight with one more cell arrived, with its completion claim where it is the last announced
(R124). -/
def State.countCell (u : State) (f : RxFlight) (sound : Bool) : State :=
  { u with
    psu := { u.psu with rxFlight := some (f.advance (u.psu.rxTable.get f.handle).form.cells sound) }
    claims := u.claims ++ if decide (f.announced ≤ f.arrived + 1) then [.rxCompletion] else [] }

section Burst
variable {u : State} {f : RxFlight} (flies : u.psu.rxFlight = some f)
include flies

theorem receivePayload_ended (ended : f.ended = true) (data : Payload) (sound : Bool) :
    u.receivePayload data sound = .next u := by
  simp only [State.receivePayload, flies, ended, if_true]

theorem receivePayload_counts (runs : f.ended = false) (data : Payload) (sound : Bool) :
    u.receivePayload data sound = match u.payloadAddress f with
      | none => .next (u.countCell f sound)
      | some at' => if Memory.holds at' Config.cellBytes then
          .next { u.countCell f sound with memory := Memory.writeBytes u.memory at' data.toList }
        else .fault .streamMemoryAddress := by
  have counted : (if (f.advance (u.psu.rxTable.get f.handle).form.cells sound).ended then
      State.makeClaim { u with psu := { u.psu with
        rxFlight := some (f.advance (u.psu.rxTable.get f.handle).form.cells sound) } } .rxCompletion
      else { u with psu := { u.psu with
        rxFlight := some (f.advance (u.psu.rxTable.get f.handle).form.cells sound) } }) =
      u.countCell f sound := by
    rw [State.countCell, show (f.advance (u.psu.rxTable.get f.handle).form.cells sound).ended =
      decide (f.announced ≤ f.arrived + 1) from rfl]
    split
    · rfl
    · rw [List.append_nil]
  rw [State.receivePayload, flies]
  dsimp only
  rw [if_neg (Bool.eq_false_iff.1 runs), counted]
  rfl

end Burst

section Place
variable {u : State} {f : RxFlight}

theorem payloadAddress_excess (excess : (u.psu.rxTable.get f.handle).form.cells ≤ f.arrived) :
    u.payloadAddress f = none := by
  unfold State.payloadAddress
  split
  · exact if_neg fun c => Nat.not_lt.2 excess c.1
  · rfl

theorem payloadAddress_stale (stale : u.stream f.handle = none ∨ (u.record f.handle).generation ≠ f.generation) :
    u.payloadAddress f = none := by
  unfold State.payloadAddress
  split
  · rename_i st hs
    exact if_neg fun c => stale.resolve_left (by simp [hs]) c.2
  · rfl

theorem payloadAddress_stored (room : f.arrived < (u.psu.rxTable.get f.handle).form.cells) {st : Stream}
    (hs : u.stream f.handle = some st) (same : (u.record f.handle).generation = f.generation) :
    u.payloadAddress f = some (64 * (st.buffer f.buffer).extent.base + 16 * f.arrived) := by
  rw [State.payloadAddress, hs]
  exact if_pos ⟨room, same⟩

/-- A cell beyond the record's cells is excess (R124). -/
theorem advance_excess {cells : Nat} (excess : cells ≤ f.arrived) (sound : Bool) :
    f.advance cells sound = { f with
      arrived := f.arrived + 1
      excess := true
      ended := decide (f.announced ≤ f.arrived + 1) } := by
  simp [RxFlight.advance, Nat.not_lt.2 excess]

/-- A cell below the record's cells is stored, and damages the burst where it is damaged (R124). -/
theorem advance_stored {cells : Nat} (room : f.arrived < cells) (sound : Bool) :
    f.advance cells sound = { f with
      arrived := f.arrived + 1
      stored := f.stored + 1
      damaged := f.damaged || !sound
      ended := decide (f.announced ≤ f.arrived + 1) } := by
  simp [RxFlight.advance, room]

end Place

end Sys2Proof.Machine
end

section
/-! The obligation on payload cells, apart from `Machine`, where a function has the same name. -/

namespace Sys2Proof

open Machine

/-- Settles O50: the burst in flight, then the cell's place in it. -/
theorem payloadCells : Obligations.PayloadCells := by
  intro s data sound free on aligned u
  have takes := receives_true free on aligned
  rw [payload_taken takes data sound]
  refine ⟨(if_pos takes).trans (payload_taken takes data false).symm, fun idle => ?_,
    fun f flies => ⟨fun ended => receivePayload_ended flies ended data sound, fun runs => ?_⟩⟩
  · rw [State.receivePayload, idle]
  intro cells last claims
  have counts := receivePayload_counts flies runs data sound
  refine ⟨fun excess => ?_, fun room => ?_⟩
  · rw [counts, payloadAddress_excess excess, State.countCell, advance_excess excess]
  · intro taken
    have counted : u.countCell f sound = taken := by rw [State.countCell, advance_stored room]
    rw [counts, counted]
    refine ⟨fun stale => ?_, fun st hs same => ?_⟩
    · rw [payloadAddress_stale stale]
    · intro place inside
      have held : Memory.holds place Config.cellBytes = true := decide_eq_true inside
      rw [payloadAddress_stored room hs same]
      exact if_pos held

end Sys2Proof
end

section
/-! SUPPORT. The statement about the order in which claims are taken (1.8). -/

namespace Sys2Proof.Machine

/-! ### LINK notices -/

theorem foldl_notify {l : List Port} (distinct : l.Nodup) (s : State) (x : LinkEvent) :
    l.foldl (fun t p => t.notify p (.link x)) s = { s with
      notices := tabulate fun p =>
        if p ∈ l then (s.noticesOf p).enqueue (.link x) s.link.period else s.noticesOf p } := by
  induction l generalizing s with
  | nil =>
    have same : (tabulate fun p => s.noticesOf p) = s.notices := Vector.ext fun k hk => tabulate_get _ ⟨k, hk⟩
    simp [same]
  | cons k l ih =>
    obtain ⟨out, distinct⟩ := List.nodup_cons.1 distinct
    rw [List.foldl_cons, ih distinct]
    have entry : (tabulate fun p => if p ∈ l then
        ((s.notify k (.link x)).noticesOf p).enqueue (.link x) (s.notify k (.link x)).link.period
        else (s.notify k (.link x)).noticesOf p) = tabulate fun p =>
          if p ∈ k :: l then (s.noticesOf p).enqueue (.link x) s.link.period else s.noticesOf p := by
      refine congrArg tabulate (funext fun p => ?_)
      by_cases e : p = k
      · subst e
        simp [out]
      · simp [e]
    rw [entry]
    rfl

/-- A LINK notice queued to every port (R161). -/
theorem notifyAll_eq (s : State) (x : LinkEvent) :
    s.notifyAll x = { s with
      notices := tabulate fun p => (s.noticesOf p).enqueue (.link x) s.link.period } := by
  have all : ∀ p, p ∈ allPorts := List.mem_finRange
  rw [State.notifyAll, foldl_notify (l := allPorts) (List.nodup_finRange 4)]
  simp only [all, if_true]

/-! ### Claims taken to the end -/

/-- The weight of the waiting claims: what they can make counted in. -/
def State.claimWeight (s : State) : Nat := (s.claims.map Claim.weight).sum

theorem claimWeight_le (s : State) : s.claimWeight ≤ 2 * s.claims.length := by
  rw [State.claimWeight, Nat.mul_comm, ← List.length_map Claim.weight, ← smul_eq_mul]
  refine List.sum_le_card_nsmul _ _ fun n mem => ?_
  obtain ⟨c, -, rfl⟩ := List.mem_map.1 mem
  cases c <;> simp [Claim.weight]

/-- A claim taken leaves less to take. -/
theorem claimWeight_taken {s : State} {c : Claim} {rest : List Claim} (waits : s.claims = c :: rest) :
    (State.takeClaim { s with claims := rest } c).claimWeight < s.claimWeight := by
  obtain ⟨l, made, less⟩ := takeClaim_claims { s with claims := rest } c
  rw [State.claimWeight, State.claimWeight, made, waits]
  simp only [List.map_append, List.sum_append, List.map_cons, List.sum_cons]
  omega

theorem settleFor_add (n k : Nat) (s : State) :
    State.settleFor (n + k) s = State.settleFor k (State.settleFor n s) := by
  induction n generalizing s with
  | zero => rw [Nat.zero_add]; rfl
  | succ n ih =>
    rw [Nat.succ_add]
    cases waits : s.claims with
    | nil =>
      have done : ∀ m, State.settleFor m s = s := fun m => by
        cases m with
        | zero => rfl
        | succ m => rw [State.settleFor, waits]
      rw [done, done, done]
    | cons c rest =>
      rw [State.settleFor, State.settleFor, waits]
      exact ih _

/-- Any number of turns that suffices settles the same. -/
theorem settleFor_enough {n : Nat} {s : State} (enough : s.claimWeight ≤ n) :
    State.settleFor n s = s.settle := by
  have settled : (State.settleFor s.claimWeight s).claims = [] := settleFor_claims _ s le_rfl
  have stays : ∀ m, s.claimWeight ≤ m → State.settleFor m s = State.settleFor s.claimWeight s := fun m le => by
    rw [← Nat.add_sub_cancel' le, settleFor_add]
    generalize State.settleFor s.claimWeight s = t at settled
    cases m - s.claimWeight with
    | zero => rfl
    | succ k => rw [State.settleFor, settled]
  rw [State.settle, stays n enough, stays _ (claimWeight_le s)]

theorem settle_front {s : State} {c : Claim} {rest : List Claim} (waits : s.claims = c :: rest) :
    s.settle = (State.takeClaim { s with claims := rest } c).settle := by
  have less := claimWeight_taken waits
  have fuel : 2 * s.claims.length = (2 * rest.length + 1) + 1 := by rw [waits, List.length_cons]; omega
  have enough := claimWeight_le s
  rw [State.settle, fuel, State.settleFor, waits]
  exact settleFor_enough (by omega)

/-! ### The first claim of a kind -/

section Through
variable {kind : Claim → Bool} {s : State}

theorem takeThroughFor_succ {n : Nat} (enough : s.claimWeight ≤ n) :
    State.takeThroughFor kind (n + 1) s = State.takeThroughFor kind n s := by
  induction n generalizing s with
  | zero =>
    cases waits : s.claims with
    | nil => simp only [State.takeThroughFor, waits]
    | cons c rest =>
      have less := claimWeight_taken waits
      omega
  | succ n ih =>
    rw [State.takeThroughFor, State.takeThroughFor]
    cases waits : s.claims with
    | nil => rfl
    | cons c rest =>
      have less := claimWeight_taken waits
      dsimp only
      rw [ih (by omega)]

theorem takeThroughFor_enough {n : Nat} (enough : s.claimWeight ≤ n) :
    State.takeThroughFor kind n s = s.through kind := by
  have stays : ∀ m, s.claimWeight ≤ m →
      State.takeThroughFor kind m s = State.takeThroughFor kind s.claimWeight s := fun m le =>
    Nat.le_induction rfl (fun k le ih => (takeThroughFor_succ le).trans ih) m le
  rw [State.through, stays n enough, stays _ (claimWeight_le s)]

/-- Behind a claim of another kind, the row goes on with that claim taken (R16). -/
theorem through_behind {c : Claim} {rest : List Claim} (waits : s.claims = c :: rest) (other : kind c = false) :
    s.through kind = (State.takeClaim { s with claims := rest } c).through kind := by
  have less := claimWeight_taken waits
  have fuel : 2 * s.claims.length = (2 * rest.length + 1) + 1 := by rw [waits, List.length_cons]; omega
  have enough := claimWeight_le s
  rw [State.through, fuel, State.takeThroughFor, waits]
  dsimp only
  rw [if_neg (Bool.eq_false_iff.1 other)]
  exact takeThroughFor_enough (by omega)

/-- A waiting claim of the kind is come to. -/
theorem through_isSome (waits : s.claims.any kind = true) : ∃ t, s.through kind = some t := by
  induction weight : s.claimWeight using Nat.strong_induction_on generalizing s with
  | _ n ih =>
    cases front : s.claims with
    | nil => rw [front] at waits; cases waits
    | cons c rest =>
      cases first : kind c with
      | true => exact ⟨_, through_front front first⟩
      | false =>
        rw [through_behind front first]
        refine ih _ (weight ▸ claimWeight_taken front) ?_ rfl
        obtain ⟨l, made, -⟩ := takeClaim_claims { s with claims := rest } c
        rw [made, List.any_append]
        rw [front, List.any_cons, first, Bool.false_or] at waits
        exact Bool.or_eq_true_iff.2 (.inl waits)

end Through

/-! ### The rows of the claims -/

/-- A row that takes the first claim of a kind, after those made before it, where one waits (R16). -/
def TakesWaiting (i : Instr) (kind : Claim → Bool) : Prop :=
  ∀ s t, s.held = false → s.claims.any kind = true → s.through kind = some t → exec i s = .next t

theorem takeThrough_waiting {s t : State} {kind : Claim → Bool} (free : s.held = false)
    (waits : s.claims.any kind = true) (come : s.through kind = some t) : s.takeThrough kind = t := by
  rw [State.takeThrough, if_neg (by rw [show (s.resetPin || s.resetHold) = false from free]; decide),
    if_pos waits, come]
  rfl

theorem takeThrough_none {s : State} {kind : Claim → Bool} (none : s.claims.any kind = false) :
    s.takeThrough kind = s := by
  rw [State.takeThrough, none]
  exact ite_self _

theorem takesWaiting_of_through {i : Instr} {kind : Claim → Bool}
    (row : ∀ s, exec i s = .next (s.takeThrough kind)) : TakesWaiting i kind := fun s t free waits come => by
  rw [row, takeThrough_waiting free waits come]

theorem takesWaiting_of_lane {i : Instr} {kind : Claim → Bool} {toCome : State → Bool}
    (row : ∀ s, exec i s = if s.held then .next s else s.takeOfLane kind toCome) : TakesWaiting i kind :=
  fun s t free _ come => by rw [row, if_neg (Bool.eq_false_iff.1 free), State.takeOfLane, come]

theorem takesWaiting_enteringUp : TakesWaiting .enteringUp (· = .enteringUp) := fun s t free waits come => by
  refine (if_neg (Bool.eq_false_iff.1 free)).trans ((if_pos waits).trans ?_)
  rw [takeThrough_waiting free waits come]

/-- The rows of the claims, each with the kind that it takes. -/
inductive ClaimRow : Instr → (Claim → Bool) → Prop
  | markProcessing : ClaimRow .markProcessing Claim.isMarkProcessing
  | serviceStart : ClaimRow .serviceStart (· = .serviceStart)
  | txCompletion : ClaimRow .txCompletion (· = .txCompletion)
  | matchClaim : ClaimRow .matchClaim Claim.isMatch
  | rxCompletion : ClaimRow .rxCompletion (· = .rxCompletion)
  | periodEnd : ClaimRow .periodEnd (· = .periodEnd)
  | leavingUp : ClaimRow .leavingUp (· = .leavingUp)
  | enteringUp : ClaimRow .enteringUp (· = .enteringUp)
  | slip : ClaimRow .slip (· = .slip)

section Row
variable {i : Instr} {kind : Claim → Bool} (row : ClaimRow i kind) {s : State}
include row

theorem ClaimRow.takesWaiting : TakesWaiting i kind := by
  cases row with
  | serviceStart | txCompletion => exact takesWaiting_of_lane fun _ => rfl
  | enteringUp => exact takesWaiting_enteringUp
  | markProcessing | matchClaim | rxCompletion | periodEnd | leavingUp | slip =>
    exact takesWaiting_of_through fun _ => rfl

/-- A row has no effect while the part is held (R203). -/
theorem ClaimRow.held (held : s.held = true) : exec i s = .next s := by
  cases row <;> exact exec_held held _ (by simp) (by simp) (by simp) (by simp) (by simp)

/-- A row has no effect when no claim of its kind waits, but for ENTERING_UP and the rows of the lane
(log 1). -/
theorem ClaimRow.idle (none : s.claims.any kind = false)
    (entering : i ≠ .enteringUp ∨ s.settle.entryDue = false) (start : i ≠ .serviceStart)
    (completion : i ≠ .txCompletion) : exec i s = .next s := by
  cases row with
  | serviceStart => exact absurd rfl start
  | txCompletion => exact absurd rfl completion
  | enteringUp =>
    have undue := entering.resolve_left (not_not.2 rfl)
    cases free : s.held with
    | true => exact if_pos free
    | false =>
      exact (if_neg (Bool.eq_false_iff.1 free)).trans ((if_neg (Bool.eq_false_iff.1 none)).trans
        (if_neg (Bool.eq_false_iff.1 undue)))
  | markProcessing | matchClaim | rxCompletion | periodEnd | leavingUp | slip =>
    exact congrArg _ (takeThrough_none none)

section Front
variable (free : s.held = false) {c : Claim} {rest : List Claim} (head : s.claims = c :: rest)
include free head

theorem ClaimRow.front (first : kind c = true) :
    exec i s = .next (State.takeClaim { s with claims := rest } c) :=
  row.takesWaiting s _ free (by rw [head, List.any_cons, first]; rfl) (through_front head first)

theorem ClaimRow.behind (other : kind c = false) (waits : rest.any kind = true) :
    exec i s = exec i (State.takeClaim { s with claims := rest } c) := by
  have here : s.claims.any kind = true := by rw [head, List.any_cons, waits, Bool.or_true]
  obtain ⟨l, made, -⟩ := takeClaim_claims { s with claims := rest } c
  have there : (State.takeClaim { s with claims := rest } c).claims.any kind = true := by
    rw [made, List.any_append]
    exact Bool.or_eq_true_iff.2 (.inl waits)
  have still : (State.takeClaim { s with claims := rest } c).held = false := by
    simpa [State.held] using free
  obtain ⟨t, come⟩ := through_isSome here
  rw [row.takesWaiting s t free here come]
  exact (row.takesWaiting _ t still there ((through_behind head other).symm.trans come)).symm

end Front
end Row

/-! ### The entry into UP (R145) -/

theorem isMarkProcessing_iff (c : Claim) : c.isMarkProcessing = true ↔ ∃ n, c = .markProcessing n := by
  cases c <;> simp [Claim.isMarkProcessing]

theorem isMatch_iff (c : Claim) : c.isMatch = true ↔ ∃ h k, c = .matchLead h k := by
  cases c <;> simp [Claim.isMatch]

theorem any_isMarkProcessing (l : List Claim) :
    l.any Claim.isMarkProcessing = false ↔ ∀ n, .markProcessing n ∉ l := by
  rw [List.any_eq_false]
  exact ⟨fun none n mem => none _ mem rfl, fun none c mem e => by
    obtain ⟨n, rfl⟩ := (isMarkProcessing_iff c).1 e
    exact none n mem⟩

theorem entryDue_iff (s : State) : s.entryDue = true ↔ s.link.state = .acquire ∧
    s.link.role = .follower ∧ s.link.acquire = 2 ∧ ∀ n, .markProcessing n ∉ s.claims := by
  simp only [State.entryDue, Bool.and_eq_true, decide_eq_true_eq, Bool.not_eq_true',
    any_isMarkProcessing, and_assoc]

/-- A follower's entry into UP with its claim taken, where it is due in a settled state (R145). -/
theorem catchUp_eq (s : State) :
    let u := s.settle
    s.catchUp = if u.entryDue then
      { u with
        link := { u.link with state := .up, acquire := 0 }
        notices := tabulate fun p => (u.noticesOf p).enqueue (.link .up) u.link.period }
    else u := by
  intro u
  have none : u.claims = [] := settle_claims s
  rw [State.catchUp, State.enterUp, show s.settle = u from rfl]
  clear_value u
  cases due : u.entryDue with
  | false => exact settle_nil none
  | true =>
    rw [if_pos rfl, if_pos rfl, settle_front (c := .enteringUp) (rest := []) (by
        rw [State.makeClaim, none]; rfl),
      State.takeClaim, State.takeEnteringUp, notifyAll_eq, settle_nil rfl, ← none]
    rfl

/-- Settles O51: what settles the claims, the entry into UP, and every row by the first claim. -/
theorem claimsTakenInOrder : Obligations.ClaimsTakenInOrder := by
  refine ⟨fun s => ⟨settle_nil, fun c rest => settle_front, settle_claims s, entryDue_iff s, catchUp_eq s⟩,
    fun s i kind row => ?_⟩
  obtain ⟨k, takes, same⟩ : ∃ k : Claim → Bool, ClaimRow i k ∧ ∀ c, kind c ↔ k c = true := by
    rcases row with ⟨rfl, rfl⟩ | ⟨rfl, rfl⟩ | ⟨rfl, rfl⟩ | ⟨rfl, rfl⟩ | ⟨rfl, rfl⟩ | ⟨rfl, rfl⟩ |
      ⟨rfl, rfl⟩ | ⟨rfl, rfl⟩ | ⟨rfl, rfl⟩
    · exact ⟨_, .markProcessing, fun c => (isMarkProcessing_iff c).symm⟩
    · exact ⟨_, .serviceStart, fun c => decide_eq_true_iff.symm⟩
    · exact ⟨_, .txCompletion, fun c => decide_eq_true_iff.symm⟩
    · exact ⟨_, .matchClaim, fun c => (isMatch_iff c).symm⟩
    · exact ⟨_, .rxCompletion, fun c => decide_eq_true_iff.symm⟩
    · exact ⟨_, .periodEnd, fun c => decide_eq_true_iff.symm⟩
    · exact ⟨_, .leavingUp, fun c => decide_eq_true_iff.symm⟩
    · exact ⟨_, .enteringUp, fun c => decide_eq_true_iff.symm⟩
    · exact ⟨_, .slip, fun c => decide_eq_true_iff.symm⟩
  refine ⟨fun still => ?_, fun c rest free front => ⟨fun first => ?_, fun other waits => ?_⟩⟩
  · rcases still with held | ⟨entering, start, completion, none⟩
    · exact takes.held held
    · refine takes.idle (List.any_eq_false.2 fun c mem e => none c mem ((same c).2 e)) entering start completion
  · exact takes.front free front ((same c).1 first)
  · obtain ⟨d, mem, later⟩ := waits
    refine takes.behind free front (Bool.eq_false_iff.2 fun e => other ((same c).2 e)) ?_
    exact List.any_eq_true.2 ⟨d, mem, (same d).1 later⟩

end Sys2Proof.Machine
end

section
/-! SUPPORT. The statement about the claims of the Link Controller (7.6 to 7.9, 6.8). -/

namespace Sys2Proof.Machine

/-! ### The buffers of aborted services (R134, R150) -/

/-- The buffer of an aborted service: back in LINK, a TX buffer with its fill. -/
def Buffer.relink (x : Buffer) (d : Direction) : Buffer :=
  { x with owner := .link, fill := if d = .tx then x.fill else 0 }

/-- A stream with the buffers that a rule names back in LINK. -/
def Stream.relink (st : Stream) (named : BufferName → Bool) : Stream :=
  { st with
    bufferA := if named .a then st.bufferA.relink st.direction else st.bufferA
    bufferB := if named .b then st.bufferB.relink st.direction else st.bufferB }

theorem relink_buffer (st : Stream) (named : BufferName → Bool) (n : BufferName) :
    (st.relink named).buffer n = if named n then (st.buffer n).relink st.direction else st.buffer n := by
  cases n <;> rfl

theorem relink_none (st : Stream) : st.relink (fun _ => false) = st := rfl

theorem aborted_eq (st : Stream) (n : BufferName) : st.aborted n = st.relink fun m => m = n := by
  cases n <;> rfl

/-- A buffer back in LINK twice is so once. -/
theorem relink_twice (x : Buffer) (d : Direction) : (x.relink d).relink d = x.relink d := by
  cases d <;> rfl

theorem relink_relink (st : Stream) (x y : BufferName → Bool) :
    (st.relink x).relink y = st.relink fun n => x n || y n := by
  have join : ∀ (v : Buffer) (i j : Bool),
      (if j then (if i then v.relink st.direction else v).relink st.direction
        else if i then v.relink st.direction else v) = if i || j then v.relink st.direction else v := by
    intro v i j
    cases i <;> cases j <;> simp [relink_twice]
  simp only [Stream.relink, join]

/-- The record of a handle with the stream changed by a rule. -/
def Record.mapStream (r : Record) (f : Stream → Stream) : Record := { r with stream := r.stream.map f }

theorem mapStream_same {r : Record} {f : Stream → Stream} (same : ∀ st, f st = st) : r.mapStream f = r := by
  rw [Record.mapStream, funext same, Option.map_id']

theorem abortBuffer_record (s : State) (h k : Handle) (g : Byte) (n : BufferName) :
    (s.abortBuffer h g n).record k = (s.record k).mapStream fun st =>
      st.relink fun m => k = h && (s.record h).generation = g && m = n := by
  by_cases hit : k = h ∧ (s.record h).generation = g
  · obtain ⟨rfl, same⟩ := hit
    cases hs : s.stream k with
    | none =>
      rw [record_of_vacant hs]
      simp only [State.abortBuffer, hs, Record.mapStream, Option.map_none]
      exact record_of_vacant hs
    | some st =>
      rw [abortBuffer_eq hs same, State.setStream_record, if_pos rfl, aborted_eq]
      rw [record_of_stream hs, Record.mapStream]
      simp [same]
  · have missed : ∀ m, (decide (k = h) && decide ((s.record h).generation = g) && decide (m = n)) = false :=
      fun m => by simpa using fun e f => absurd ⟨e, f⟩ hit
    rw [mapStream_same fun st => by simp only [missed, relink_none]]
    unfold State.abortBuffer
    split
    · split
      · rename_i same
        rw [State.setStream_record, if_neg fun e => hit ⟨e, same⟩]
      · rfl
    · rfl

/-- The buffers of a handle's record that the services in flight name under its generation. -/
def State.aborts (s : State) (k : Handle) (n : BufferName) : Bool :=
  (s.psu.txFlight.any fun f => k = f.handle && (s.record f.handle).generation = f.generation && n = f.buffer) ||
    s.psu.rxFlight.any fun f => k = f.handle && (s.record f.handle).generation = f.generation && n = f.buffer

theorem abortTx_record (s : State) (k : Handle) : s.abortTx.record k =
    (s.record k).mapStream fun st => st.relink fun n => s.psu.txFlight.any fun f =>
      k = f.handle && (s.record f.handle).generation = f.generation && n = f.buffer := by
  unfold State.abortTx
  cases s.psu.txFlight with
  | none => exact (mapStream_same fun _ => rfl).symm
  | some f => exact abortBuffer_record s f.handle k f.generation f.buffer

theorem abortRx_record (s : State) (k : Handle) : s.abortRx.record k =
    (s.record k).mapStream fun st => st.relink fun n => s.psu.rxFlight.any fun f =>
      k = f.handle && (s.record f.handle).generation = f.generation && n = f.buffer := by
  unfold State.abortRx
  cases s.psu.rxFlight with
  | none => exact (mapStream_same fun _ => rfl).symm
  | some f => exact abortBuffer_record s f.handle k f.generation f.buffer

/-- Period service aborted: the buffers of the services in flight are back in LINK. -/
theorem abortService_record (s : State) (k : Handle) :
    s.abortService.record k = (s.record k).mapStream fun st => st.relink (s.aborts k) := by
  have generation : ∀ h, (s.abortTx.record h).generation = (s.record h).generation := fun h => by
    rw [abortTx_record]; rfl
  have rx := abortRx_record s.abortTx.dropTx k
  rw [abortService_eq]
  refine rx.trans ?_
  change (s.abortTx.record k).mapStream (fun st => st.relink fun n => s.abortTx.psu.rxFlight.any fun f =>
    k = f.handle && (s.abortTx.record f.handle).generation = f.generation && n = f.buffer) = _
  simp only [generation, abortTx_psu, abortTx_record s k, Record.mapStream, Option.map_map]
  congr 2
  funext st
  rw [Function.comp_apply, relink_relink]
  rfl

/-! ### The records at the departure from UP (R150) -/

/-- A record after the departure: one in CLOSING retired, a LIVE one that HOLDs suspended. -/
def Record.depart (r : Record) : Record :=
  match r.stream with
  | none => r
  | some st => if st.isClosing then ⟨r.generation + 1, none⟩
    else if st.state = .live ∧ st.linkPolicy = .hold then
      ⟨r.generation, some { st with state := .suspended .link }⟩
    else r

/-- The notices of a departure that one handle's record adds to a port's queue. -/
def State.departNotice (s : State) (p : Port) (q : NoticeQueue) (h : Handle) : NoticeQueue :=
  match s.stream h with
  | none => q
  | some st =>
    if st.owner = p ∧ st.isClosing = true then
      (q.purgeHandle h).enqueue (.closed h (s.record h).generation) s.link.period
    else if st.owner = p ∧ st.state = .live ∧ st.linkPolicy = .hold then
      q.enqueue (.suspended h (s.record h).generation .link) s.link.period
    else q

section Depart
variable {s : State} {h : Handle} {st : Stream} (hs : s.stream h = some st)
include hs

theorem departRecord_closing (closing : st.isClosing = true) : s.departRecord h = s.retire h true := by
  obtain ⟨m, state⟩ := isClosing_iff.1 closing
  simp only [State.departRecord, hs, state]

theorem departRecord_holding (live : st.state = .live) (hold : st.linkPolicy = .hold) :
    s.departRecord h = (s.setStream h { st with state := .suspended .link }).notify st.owner
      (.suspended h (s.record h).generation .link) := by
  simp only [State.departRecord, hs, live, if_pos hold]

theorem departRecord_staying (opened : st.isClosing = false) (other : ¬(st.state = .live ∧ st.linkPolicy = .hold)) :
    s.departRecord h = s := by
  simp only [State.departRecord, hs]
  cases state : st.state with
  | live => exact if_neg fun hold => other ⟨state, hold⟩
  | closing m => rw [isClosing_iff.2 ⟨m, state⟩] at opened; cases opened
  | standby | suspended => rfl

end Depart

theorem departRecord_record (s : State) (h k : Handle) :
    (s.departRecord h).record k = if k = h then (s.record h).depart else s.record k := by
  cases hs : s.stream h with
  | none =>
    have same : (s.record h).depart = s.record h := by
      rw [Record.depart, show (s.record h).stream = none from hs]
    simp only [State.departRecord, hs, same]
    split
    · rename_i e; rw [e]
    · rfl
  | some st =>
    rw [Record.depart, show (s.record h).stream = some st from hs]
    dsimp only
    by_cases closing : st.isClosing = true
    · rw [departRecord_closing hs closing, if_pos closing,
        record_of_table (retire_table s h true), vacate_record, hs]
      simp
    · by_cases holding : st.state = .live ∧ st.linkPolicy = .hold
      · rw [departRecord_holding hs holding.1 holding.2, if_neg closing, if_pos holding,
          State.notify_record, State.setStream_record]
      · rw [departRecord_staying hs (Bool.not_eq_true _ ▸ closing) holding, if_neg closing, if_neg holding]
        split
        · rename_i e; rw [e]
        · rfl

theorem departRecord_noticesOf (p : Port) (s : State) (h : Handle) :
    (s.departRecord h).noticesOf p = s.departNotice p (s.noticesOf p) h := by
  unfold State.departNotice
  cases hs : s.stream h with
  | none => simp only [State.departRecord, hs]
  | some st =>
    dsimp only
    by_cases closing : st.isClosing = true
    · rw [departRecord_closing hs closing, retire_noticesOf hs]
      by_cases own : st.owner = p
      · rw [if_pos own.symm, if_pos rfl, if_pos ⟨own, closing⟩]
      · have live : st.state ≠ .live := by
          obtain ⟨m, state⟩ := isClosing_iff.1 closing
          simp [state]
        rw [if_neg (Ne.symm own), if_neg fun c => own c.1, if_neg fun c => own c.1]
    · rw [if_neg fun c => closing c.2]
      by_cases holding : st.state = .live ∧ st.linkPolicy = .hold
      · rw [departRecord_holding hs holding.1 holding.2, State.notify_noticesOf]
        by_cases own : st.owner = p
        · subst own; simp [holding]
        · simp [own, Ne.symm own]
      · rw [departRecord_staying hs (Bool.not_eq_true _ ▸ closing) holding, if_neg fun c => holding c.2]

theorem departNotice_congr {s t : State} {h : Handle} (record : t.record h = s.record h)
    (link : t.link = s.link) (p : Port) (q : NoticeQueue) : t.departNotice p q h = s.departNotice p q h := by
  have stream : t.stream h = s.stream h := congrArg Record.stream record
  rw [State.departNotice, State.departNotice, stream, record, link]

/-- The notices that a departure adds, in the order of the handles. -/
theorem foldl_departNotices (p : Port) (s : State) :
    (handles.foldl State.departRecord s).noticesOf p = handles.foldl (s.departNotice p) (s.noticesOf p) :=
  foldl_noticesOf (fun s h => departRecord_noticesOf p s h) (fun s h k q other =>
    departNotice_congr (by rw [departRecord_record, if_neg other]) (by simp) p q)
    (List.nodup_finRange 64) s

/-! ### Leaving UP as one whole -/

theorem leaveUp_record (s : State) (h : Handle) : s.leaveUp.record h =
    ((s.record h).mapStream fun st => st.relink (s.aborts h)).depart := by
  rw [State.leaveUp, record_of_table ((State.notifyAll_keeps _ _).1),
    foldl_record (l := handles) (g := Record.depart) (fun s h k => departRecord_record s h k)
      (List.nodup_finRange 64),
    if_pos (show h ∈ handles from List.mem_finRange h), abortService_record]

theorem leaveUp_psu (s : State) : s.leaveUp.psu = s.abortService.psu := by
  obtain ⟨-, -, -, psu, -⟩ := (handles.foldl State.departRecord s.abortService).notifyAll_keeps .down
  rw [State.leaveUp, psu]
  exact foldl_keeps State.departRecord State.psu (by simp) handles s.abortService

/-- The abort of the services changes no notice. -/
theorem abortService_departNotice (s : State) (p : Port) :
    s.abortService.departNotice p = s.departNotice p := by
  funext q h
  have record := abortService_record s h
  have stream : s.abortService.stream h = (s.stream h).map fun st => st.relink (s.aborts h) :=
    congrArg Record.stream record
  have generation : (s.abortService.record h).generation = (s.record h).generation := by rw [record]; rfl
  have link : s.abortService.link = s.link := by simp
  rw [State.departNotice, State.departNotice, stream, generation, link]
  cases s.stream h <;> rfl

theorem leaveUp_noticesOf (s : State) (p : Port) : s.leaveUp.noticesOf p =
    (handles.foldl (s.departNotice p) (s.noticesOf p)).enqueue (.link .down) s.link.period := by
  have link : (handles.foldl State.departRecord s.abortService).link = s.link :=
    (foldl_keeps State.departRecord State.link (by simp) handles s.abortService).trans (by simp)
  have noticed : ((handles.foldl State.departRecord s.abortService).noticesOf p) =
      handles.foldl (s.departNotice p) (s.noticesOf p) := by
    rw [foldl_departNotices, abortService_departNotice]
    simp [State.noticesOf]
  rw [State.leaveUp, notifyAll_eq]
  simp only [State.noticesOf, tabulate_get] at noticed ⊢
  rw [noticed, link]

theorem abortService_psu (s : State) : s.abortService.psu = { s.psu with
    txList := []
    txNext := 0
    rxTable := clearStandings s.psu.rxTable
    rxList := []
    txFlight := none
    rxFlight := none } := by
  rw [abortService_eq]
  change { s.abortTx.dropTx.abortRx.dropRx.psu with
    txList := [], txNext := 0, rxTable := clearStandings s.abortTx.dropTx.abortRx.dropRx.psu.rxTable,
    rxList := [] } = _
  rw [State.dropRx, abortRx_psu, State.dropTx, abortTx_psu]

/-- The departure from UP, with both lanes cut where no mark has been taken since (R149, R150). -/
def State.departed (s : State) : State :=
  if s.claims.any Claim.isMarkProcessing then s.leaveUp else s.leaveUp.cutPeriod

theorem departed_keeps (s : State) :
    s.departed.table = s.leaveUp.table ∧ s.departed.notices = s.leaveUp.notices ∧
      s.departed.claims = s.claims ∧ s.departed.memory = s.memory ∧ s.departed.ports = s.ports ∧
      s.departed.link = s.link := by
  unfold State.departed
  split <;> simp

theorem departed_psu (s : State) : s.departed.psu = { s.psu with
    txList := []
    txNext := 0
    rxTable := clearStandings s.psu.rxTable
    rxList := []
    txFlight := none
    rxFlight := none
    rxOpen := s.claims.any Claim.isMarkProcessing && s.psu.rxOpen } := by
  have psu := (leaveUp_psu s).trans (abortService_psu s)
  unfold State.departed
  cases s.claims.any Claim.isMarkProcessing with
  | true => exact psu
  | false =>
    change { s.leaveUp.psu with rxOpen := false } = _
    rw [psu]
    rfl

theorem departed_lane (s : State) : s.departed.lane =
    if s.claims.any Claim.isMarkProcessing then s.lane else ⟨s.lane.sending, none, [], none⟩ := by
  have lane : s.leaveUp.lane = s.lane := by simp
  unfold State.departed
  split
  · exact lane
  · change { s.leaveUp.lane with staged := none, queue := [], opened := none } = _
    rw [lane]

/-- The leaving-UP claim in UP. -/
theorem takeLeavingUp_up {s : State} (up : s.link.state = .up) : s.takeLeavingUp =
    { s.departed with link := { s.link with state := .acquire, acquire := 0, missingEchoes := 0 } } := by
  obtain ⟨-, -, -, -, -, link⟩ := departed_keeps s
  have claims : s.leaveUp.claims = s.claims := by simp
  rw [State.takeLeavingUp, if_pos up, ← link, State.departed]
  dsimp only
  rw [claims]

theorem aborts_iff (s : State) (h : Handle) (n : BufferName) : s.aborts h n = true ↔
    (∃ f, s.psu.txFlight = some f ∧ f.handle = h ∧ f.generation = (s.record h).generation ∧ f.buffer = n) ∨
      ∃ f, s.psu.rxFlight = some f ∧ f.handle = h ∧ f.generation = (s.record h).generation ∧
        f.buffer = n := by
  simp only [State.aborts, Bool.or_eq_true, Option.any_eq_true, Bool.and_eq_true, decide_eq_true_eq]
  refine or_congr (exists_congr fun f => and_congr_right fun _ => ?_)
    (exists_congr fun f => and_congr_right fun _ => ?_)
  · constructor
    · rintro ⟨⟨rfl, e⟩, rfl⟩; exact ⟨rfl, e.symm, rfl⟩
    · rintro ⟨rfl, e, rfl⟩; exact ⟨⟨rfl, e.symm⟩, rfl⟩
  · constructor
    · rintro ⟨⟨rfl, e⟩, rfl⟩; exact ⟨rfl, e.symm, rfl⟩
    · rintro ⟨rfl, e, rfl⟩; exact ⟨⟨rfl, e.symm⟩, rfl⟩

/-- A record that is not in CLOSING at the departure: suspended where it is LIVE and HOLDs, its aborted
buffers back in LINK (R150). -/
theorem depart_open {g : Byte} {st : Stream} (named : BufferName → Bool) (opened : st.isClosing = false) :
    ∃ x, Record.depart (Record.mapStream ⟨g, some st⟩ fun st => st.relink named) = ⟨g, some x⟩ ∧
      x.state = (if st.state = .live ∧ st.linkPolicy = .hold then .suspended .link else st.state) ∧
      x.parity = st.parity ∧ x.missRun = st.missRun ∧ x.params = st.params ∧ x.pending = st.pending ∧
      ∀ n, x.buffer n = (st.relink named).buffer n := by
  have still : (st.relink named).isClosing = false := opened
  by_cases holding : st.state = .live ∧ st.linkPolicy = .hold
  · refine ⟨{ st.relink named with state := .suspended .link }, ?_, (if_pos holding).symm, rfl, rfl, rfl,
      rfl, fun n => by cases n <;> rfl⟩
    exact (if_neg (Bool.eq_false_iff.1 still)).trans (if_pos holding)
  · refine ⟨st.relink named, ?_, (if_neg holding).symm, rfl, rfl, rfl, rfl, fun _ => rfl⟩
    exact (if_neg (Bool.eq_false_iff.1 still)).trans (if_neg holding)

theorem depart_closing {g : Byte} {st : Stream} (named : BufferName → Bool) (closing : st.isClosing = true) :
    Record.depart (Record.mapStream ⟨g, some st⟩ fun st => st.relink named) = ⟨g + 1, none⟩ :=
  if_pos (show (st.relink named).isClosing = true from closing)

/-- Settles O59: the LINK notices of entering UP and of a slip, and the leaving of UP part by part. -/
theorem linkClaims : Obligations.LinkClaims := by
  intro s rest free
  refine ⟨fun front => ?_, fun none acquire follower second => ?_, fun front => ?_, fun front down => ?_,
    fun front up => ?_⟩
  · rw [ClaimRow.enteringUp.front free front rfl, State.takeClaim, State.takeEnteringUp, notifyAll_eq]
    rfl
  · have settled := settle_nil none
    have due : s.entryDue = true := (entryDue_iff s).2 ⟨acquire, follower, second, by simp [none]⟩
    have entered : exec .enteringUp s = .next s.catchUp :=
      (if_neg (Bool.eq_false_iff.1 free)).trans ((if_neg (by simp [none])).trans
        (if_pos (by rw [settled, due])))
    rw [entered, catchUp_eq, settled, if_pos due]
  · rw [ClaimRow.slip.front free front rfl, State.takeClaim, State.takeSlip, notifyAll_eq]
    rfl
  · rw [ClaimRow.leavingUp.front free front rfl]
    exact congrArg _ (if_neg down)
  · let v : State := { s with claims := rest }
    refine ⟨v.takeLeavingUp, ClaimRow.leavingUp.front free front rfl, ?_⟩
    have leaves := takeLeavingUp_up (s := v) up
    obtain ⟨table, notices, claims, memory, ports, -⟩ := departed_keeps v
    have psu := departed_psu v
    have lane := departed_lane v
    have record : ∀ h, v.takeLeavingUp.record h =
        ((s.record h).mapStream fun st => st.relink (s.aborts h)).depart := fun h =>
      calc v.takeLeavingUp.record h = v.leaveUp.record h := record_of_table (by rw [leaves]; exact table) h
        _ = _ := leaveUp_record v h
    refine ⟨by rw [leaves], by rw [leaves]; exact claims, by rw [leaves]; exact memory,
      by rw [leaves]; exact ports, ?_⟩
    rw [show v.takeLeavingUp.psu = v.departed.psu by rw [leaves],
      show v.takeLeavingUp.lane = v.departed.lane by rw [leaves], psu, lane]
    refine ⟨rfl, rfl, rfl, rfl, clearStandings_standing _, fun unmarked => ?_, fun n marked => ?_,
      fun p => ?_, fun h vacant => ?_, fun h st hs => ?_⟩
    · rw [show v.claims.any Claim.isMarkProcessing = false from (any_isMarkProcessing rest).2 unmarked]
      exact ⟨rfl, rfl⟩
    · rw [show v.claims.any Claim.isMarkProcessing = true from List.any_eq_true.2 ⟨_, marked, rfl⟩]
      exact ⟨rfl, rfl⟩
    · have queue : v.takeLeavingUp.noticesOf p = v.leaveUp.noticesOf p := by
        rw [leaves]
        exact congrArg (Vector.get · p) notices
      refine queue.trans ((leaveUp_noticesOf v p).trans ?_)
      refine congrArg (NoticeQueue.enqueue · _ _) (List.foldl_ext _ _ _ fun q h _ => ?_)
      refine (departNotice_congr (s := s) rfl rfl p q).trans ?_
      unfold State.departNotice
      cases s.stream h <;> rfl
    · rw [record, record_of_vacant vacant]
      rfl
    · intro g tx rx
      have named : s.record h = ⟨g, some st⟩ := record_of_stream hs
      rw [record, named]
      refine ⟨fun closing => depart_closing _ closing, fun opened => ?_⟩
      obtain ⟨x, after, state, parity, run, params, pending, buffers⟩ :=
        depart_open (g := g) (s.aborts h) opened
      refine ⟨x, after, state, parity, run, params, pending, fun n => ?_⟩
      rw [buffers, relink_buffer]
      refine ⟨fun hit d => ?_, fun hit d => ?_, fun notx norx => ?_⟩
      · rw [if_pos ((aborts_iff s h n).2 hit), Buffer.relink, d]
        rfl
      · rw [if_pos ((aborts_iff s h n).2 hit), Buffer.relink, d]
        rfl
      · exact if_neg fun hit => ((aborts_iff s h n).1 hit).elim notx norx

end Sys2Proof.Machine
end

section
/-! SUPPORT. The statement about the end of a receive period (6.5). -/

namespace Sys2Proof.Machine

/-! ### The order of the decisions (R23, R127) -/

/-- A list filled anew holds its passing places' new entries in order, and its other places as they were. -/
theorem refill_filter {test : Handle → Bool} {l ks : List Handle} (pass : ∀ k ∈ ks, test k = true)
    (length : ks.length = (l.filter test).length) :
    (refill test l ks).filter test = ks ∧
      (refill test l ks).filter (fun h => !test h) = l.filter fun h => !test h := by
  induction l generalizing ks with
  | nil => exact ⟨(List.length_eq_zero_iff.1 length).symm, rfl⟩
  | cons h l ih =>
    cases passes : test h with
    | true =>
      rw [List.filter_cons_of_pos passes, List.length_cons] at length
      cases ks with
      | nil => cases length
      | cons k ks =>
        obtain ⟨same, others⟩ := ih (fun j mem => pass j (List.mem_cons_of_mem _ mem)) (Nat.succ.inj length)
        simp [refill, passes, pass k List.mem_cons_self, same, others]
    | false =>
      rw [List.filter_cons_of_neg (Bool.eq_false_iff.1 passes)] at length
      obtain ⟨same, others⟩ := ih pass length
      cases ks with
      | nil => simp [refill, passes, same, others]
      | cons k ks => simp [refill, passes, same, others]

section Order
variable {s : State} (distinct : s.psu.rxList.Nodup)

/-- The handles at whose places a drain ends, by ascending handle. -/
def State.drainsByHandle (s : State) : List Handle :=
  handles.filter fun h => s.psu.rxList.contains h && s.endsDrain h

include distinct

theorem drainsByHandle_perm : s.drainsByHandle.Perm (s.psu.rxList.filter s.endsDrain) := by
  refine (List.perm_ext_iff_of_nodup ((List.nodup_finRange 64).filter _) (distinct.filter _)).2 fun h => ?_
  simp

theorem periodEndOrder_filter : s.periodEndOrder.filter s.endsDrain = s.drainsByHandle ∧
    s.periodEndOrder.filter (fun h => !s.endsDrain h) = s.psu.rxList.filter fun h => !s.endsDrain h :=
  refill_filter (fun k mem => by simpa using (Bool.and_eq_true_iff.1 (List.mem_filter.1 mem).2).2)
    (drainsByHandle_perm distinct).length_eq

/-- The order of the decisions is one of the handles listed (R127). -/
theorem periodEndOrder_perm : s.periodEndOrder.Perm s.psu.rxList := by
  obtain ⟨drains, others⟩ := periodEndOrder_filter distinct
  have parts := (List.filter_append_perm s.endsDrain s.periodEndOrder).symm
  rw [drains, others] at parts
  exact parts.trans (((drainsByHandle_perm distinct).append_right _).trans
    (List.filter_append_perm s.endsDrain s.psu.rxList))

end Order

/-! ### One decision (R127) -/

/-- The handle's standing is decided on its record: DUE, the record the one listed, served and of the form
listed. -/
def State.decides (s : State) (h : Handle) (st : Stream) : Bool :=
  let e := s.psu.rxTable.get h
  decide (e.standing = .due ∧ (s.record h).generation = e.generation ∧
    (st.state = .live ∨ st.state = .closing .drain) ∧
    e.form = ⟨st.params.cells, st.params.interval, st.params.phase⟩)

/-- The decision retires the record: it drains, with its due buffer HOST. -/
def Stream.drained (st : Stream) : Bool :=
  decide ((st.buffer st.parity).owner = .host ∧ st.state = .closing .drain)

/-- The decision is a miss. -/
def Stream.lapses (st : Stream) : Bool :=
  decide ((st.buffer st.parity).owner = .link ∨ ((st.buffer st.parity).owner = .host ∧ st.state = .live))

/-- The cause of the miss. -/
def Stream.lapseCause (st : Stream) : MissCause :=
  if (st.buffer st.parity).owner = .host then .starved else .absent

section Decision
variable {s : State} {h : Handle}

theorem decideHandle_undecided (none : ∀ st, s.stream h = some st → s.decides h st = false) :
    s.decideHandle h = s := by
  cases hs : s.stream h with
  | none => simp only [State.decideHandle, hs]
  | some st =>
    have undecided := of_decide_eq_false (none st hs)
    simp only [State.decideHandle, hs]
    split
    · rfl
    · rename_i due
      split
      · rfl
      · rename_i same
        split
        · rfl
        · rename_i served
          refine if_pos fun form => undecided ⟨not_not.1 due, not_not.1 same, ?_, form.symm⟩
          exact served_iff.1 (Bool.not_eq_false _ ▸ served)

variable {st : Stream} (hs : s.stream h = some st) (decided : s.decides h st = true)
include hs decided

/-- A decision, by the owner of the due buffer and the state. -/
theorem decideHandle_decided : s.decideHandle h = match st.dueBuffer.owner with
    | .host => if st.state = .live then s.miss h .starved else s.retire h true
    | .link => s.miss h .absent
    | .service => s := by
  obtain ⟨due, same, served, form⟩ := of_decide_eq_true decided
  simp only [State.decideHandle, hs]
  rw [if_neg (not_not.2 due), if_neg (not_not.2 same), if_neg (by rw [served_iff.2 served]; decide)]
  exact if_neg (not_not.2 form.symm)

theorem decideHandle_lapses (lapses : st.lapses = true) : s.decideHandle h = s.miss h st.lapseCause := by
  rw [decideHandle_decided hs decided, Stream.lapseCause, Stream.dueBuffer]
  rcases of_decide_eq_true lapses with link | ⟨host, live⟩
  · rw [link]; rfl
  · rw [host, if_pos rfl]
    exact if_pos live

theorem decideHandle_drained (drained : st.drained = true) : s.decideHandle h = s.retire h true := by
  obtain ⟨host, state⟩ := of_decide_eq_true drained
  rw [decideHandle_decided hs decided, Stream.dueBuffer, host]
  exact if_neg (by rw [state]; decide)

/-- A due buffer in SERVICE, which has no row, is left as it is (log 18). -/
theorem decideHandle_neither (lapses : st.lapses = false) (drained : st.drained = false) :
    s.decideHandle h = s := by
  have missing := of_decide_eq_false lapses
  have draining := of_decide_eq_false drained
  obtain ⟨-, -, served, -⟩ := of_decide_eq_true decided
  rw [decideHandle_decided hs decided, Stream.dueBuffer]
  cases owner : (st.buffer st.parity).owner with
  | service => rfl
  | link => exact absurd (.inl owner) missing
  | host =>
    rcases served with live | drain
    · exact absurd (.inr ⟨owner, live⟩) missing
    · exact absurd ⟨owner, drain⟩ draining

end Decision

theorem lapses_of_drained {st : Stream} (drained : st.drained = true) : st.lapses = false := by
  obtain ⟨host, state⟩ := of_decide_eq_true drained
  exact decide_eq_false fun c => c.elim (fun link => nomatch host.symm.trans link) fun c =>
    nomatch state.symm.trans c.2

/-! ### What the decisions do to the records and to the notices -/

/-- The record of a handle after its decision. -/
def State.decidedRecord (s : State) (h : Handle) : Record :=
  match s.stream h with
  | none => s.record h
  | some st =>
    if s.decides h st then
      if st.drained then ⟨(s.record h).generation + 1, none⟩
      else if st.lapses then ⟨(s.record h).generation, some st.missed⟩
      else s.record h
    else s.record h

section DecidedRecord
variable {s : State} {h : Handle}

theorem decidedRecord_undecided (none : ∀ st, s.stream h = some st → s.decides h st = false) :
    s.decidedRecord h = s.record h := by
  unfold State.decidedRecord
  cases hs : s.stream h with
  | none => rfl
  | some st => exact if_neg (Bool.eq_false_iff.1 (none st hs))

variable {st : Stream} (hs : s.stream h = some st) (decided : s.decides h st = true)
include hs decided

theorem decidedRecord_drained (drained : st.drained = true) :
    s.decidedRecord h = ⟨(s.record h).generation + 1, none⟩ := by
  rw [State.decidedRecord, hs]
  exact (if_pos decided).trans (if_pos drained)

theorem decidedRecord_lapses (lapses : st.lapses = true) :
    s.decidedRecord h = ⟨(s.record h).generation, some st.missed⟩ := by
  have undrained : ¬st.drained = true := fun drained =>
    Bool.false_ne_true ((lapses_of_drained drained).symm.trans lapses)
  rw [State.decidedRecord, hs]
  exact (if_pos decided).trans ((if_neg undrained).trans (if_pos lapses))

end DecidedRecord

theorem decideHandle_record (s : State) (h : Handle) : (s.decideHandle h).record h = s.decidedRecord h := by
  unfold State.decidedRecord
  cases hs : s.stream h with
  | none => rw [decideHandle_undecided fun st e => nomatch hs.symm.trans e]
  | some st =>
    dsimp only
    cases decided : s.decides h st with
    | false =>
      rw [decideHandle_undecided fun x e => by cases hs.symm.trans e; exact decided]
      rfl
    | true =>
      rw [if_pos rfl]
      cases drained : st.drained with
      | true =>
        rw [decideHandle_drained hs decided drained, record_of_table (retire_table s h true),
          vacate_record, hs]
        simp
      | false =>
        rw [if_neg Bool.false_ne_true]
        cases lapses : st.lapses with
        | true =>
          rw [decideHandle_lapses hs decided lapses, miss_record, if_pos rfl, hs]
          rfl
        | false =>
          rw [decideHandle_neither hs decided lapses drained]
          rfl

theorem decideHandle_record_other (s : State) {h k : Handle} (other : k ≠ h) :
    (s.decideHandle h).record k = s.record k := by
  cases hs : s.stream h with
  | none => rw [decideHandle_undecided fun st e => nomatch hs.symm.trans e]
  | some st =>
    cases decided : s.decides h st with
    | false => rw [decideHandle_undecided fun x e => by cases hs.symm.trans e; exact decided]
    | true =>
      rw [decideHandle_decided hs decided]
      have missed : ∀ c, (s.miss h c).record k = s.record k := fun c => by rw [miss_record, if_neg other]
      have retired : (s.retire h true).record k = s.record k := by
        rw [record_of_table (retire_table s h true), vacate_record, if_neg fun c => other c.1]
      split
      · split
        · exact missed _
        · exact retired
      · exact missed _
      · rfl

/-- The notices that a decision adds to a port's queue. -/
def State.decisionNotice (s : State) (p : Port) (q : NoticeQueue) (h : Handle) : NoticeQueue :=
  match s.stream h with
  | none => q
  | some st =>
    let g := (s.record h).generation
    let missed := if st.notify.miss then
      q.enqueue (.miss h g st.lapseCause st.missed.missRun) s.link.period else q
    if st.owner = p ∧ s.decides h st = true then
      if st.drained then (q.purgeHandle h).enqueue (.closed h g) s.link.period
      else if st.lapses then
        if st.state = .live ∧ st.params.missLimit ≠ 0 ∧ st.missed.missRun = st.params.missLimit then
          missed.enqueue (.suspended h g .misses) s.link.period
        else missed
      else q
    else q

theorem notifyIf_queue (s : State) (asked : Bool) (p k : Port) (x : Report) :
    (s.notifyIf asked p x).noticesOf k =
      if k = p ∧ asked = true then (s.noticesOf p).enqueue x s.link.period else s.noticesOf k := by
  cases asked <;> simp [State.notifyIf]

/-- The notices of a miss (R128, R158). -/
theorem miss_noticesOf {s : State} {h : Handle} {st : Stream} (hs : s.stream h = some st) (c : MissCause)
    (p : Port) : (s.miss h c).noticesOf p =
      let q := s.noticesOf p
      let g := (s.record h).generation
      let missed := if st.notify.miss then
        q.enqueue (.miss h g c st.missed.missRun) s.link.period else q
      if st.owner = p then
        if st.state = .live ∧ st.params.missLimit ≠ 0 ∧ st.missed.missRun = st.params.missLimit then
          missed.enqueue (.suspended h g .misses) s.link.period
        else missed
      else q := by
  have run : st.missed.missRun = st.nextRun := rfl
  rw [miss_open hs, run]
  by_cases own : st.owner = p
  · subst own
    dsimp only
    split <;> simp [notifyIf_queue]
  · have other : p ≠ st.owner := Ne.symm own
    dsimp only
    split <;> simp [notifyIf_queue, other]

theorem decideHandle_noticesOf (p : Port) (s : State) (h : Handle) :
    (s.decideHandle h).noticesOf p = s.decisionNotice p (s.noticesOf p) h := by
  unfold State.decisionNotice
  cases hs : s.stream h with
  | none => rw [decideHandle_undecided fun st e => nomatch hs.symm.trans e]
  | some st =>
    dsimp only
    cases decided : s.decides h st with
    | false =>
      rw [decideHandle_undecided fun x e => by cases hs.symm.trans e; exact decided]
      simp
    | true =>
      cases drained : st.drained with
      | true =>
        rw [decideHandle_drained hs decided drained, retire_noticesOf hs]
        simp [eq_comm]
      | false =>
        cases lapses : st.lapses with
        | true =>
          rw [decideHandle_lapses hs decided lapses, miss_noticesOf hs]
          simp
        | false =>
          rw [decideHandle_neither hs decided lapses drained]
          simp

section Congr
variable {s t : State} {h : Handle} (record : t.record h = s.record h)
include record

theorem decides_congr (psu : t.psu = s.psu) (st : Stream) : t.decides h st = s.decides h st := by
  rw [State.decides, State.decides, record, psu]

theorem decisionNotice_congr (psu : t.psu = s.psu) (link : t.link = s.link) (p : Port) (q : NoticeQueue) :
    t.decisionNotice p q h = s.decisionNotice p q h := by
  have stream : t.stream h = s.stream h := congrArg Record.stream record
  simp only [State.decisionNotice, stream, record, link, decides_congr record psu]

theorem decidedRecord_congr (psu : t.psu = s.psu) : t.decidedRecord h = s.decidedRecord h := by
  have stream : t.stream h = s.stream h := congrArg Record.stream record
  simp only [State.decidedRecord, stream, record, decides_congr record psu]

end Congr

/-- The decisions of a walk that meets each handle once. -/
theorem foldl_decide_record {l : List Handle} (once : l.Nodup) (s : State) (h : Handle) :
    (l.foldl State.decideHandle s).record h = if h ∈ l then s.decidedRecord h else s.record h := by
  induction l generalizing s with
  | nil => rfl
  | cons k l ih =>
    obtain ⟨out, once⟩ := List.nodup_cons.1 once
    rw [List.foldl_cons, ih once]
    by_cases e : h = k
    · subst e
      rw [if_neg out, if_pos List.mem_cons_self, decideHandle_record]
    · have other := decideHandle_record_other s e
      rw [decidedRecord_congr other (by simp), other]
      simp [e]

theorem foldl_decide_noticesOf (p : Port) {l : List Handle} (once : l.Nodup) (s : State) :
    (l.foldl State.decideHandle s).noticesOf p = l.foldl (s.decisionNotice p) (s.noticesOf p) :=
  foldl_noticesOf (fun s h => decideHandle_noticesOf p s h) (fun s h k q other =>
    decisionNotice_congr (decideHandle_record_other s other) (by simp) (by simp) p q) once s

/-- The decision ends a drain where the record is decided and drained (R127). -/
theorem endsDrain_eq (s : State) (h : Handle) :
    s.endsDrain h = (s.stream h).any fun st => s.decides h st && st.drained := by
  unfold State.endsDrain
  cases hs : s.stream h with
  | none => rfl
  | some st =>
    simp only [Option.any_some, State.decides, Stream.drained, ← Bool.decide_and]
    refine decide_eq_decide.2 ⟨fun ⟨due, same, drain, form, host⟩ => ?_, fun ⟨⟨due, same, _, form⟩, host, drain⟩ => ?_⟩
    · exact ⟨⟨due, same, .inr drain, form.symm⟩, host, drain⟩
    · exact ⟨due, same, drain, form.symm, host⟩

/-- Settles O58: the walk over the handles listed, each decided once. -/
theorem periodEnd : Obligations.PeriodEnd := by
  intro s rest free front distinct
  let v : State := { s with claims := rest }
  have psu := takePeriodEnd_psu v
  have perm := periodEndOrder_perm (s := v) distinct
  have once : v.periodEndOrder.Nodup := perm.nodup_iff.2 distinct
  have listed : ∀ h, h ∈ v.periodEndOrder ↔ h ∈ s.psu.rxList := fun h => perm.mem_iff
  have record : ∀ h, v.takePeriodEnd.record h = if h ∈ v.periodEndOrder then v.decidedRecord h else v.record h :=
    fun h => foldl_decide_record once v h
  refine ⟨v.takePeriodEnd, ClaimRow.periodEnd.front free front rfl, ?_⟩
  refine ⟨by simp [v], by simp [v], by simp [v], by simp [v], by rw [psu], fun h => ?_, ?_⟩
  · rw [psu]
    exact tabulate_get _ _
  intro decided ends misses
  have decided_of : ∀ {h}, h ∈ s.psu.rxList → ∀ st, decided h st = v.decides h st := fun mem st =>
    decide_eq_decide.2 (and_iff_right mem)
  refine ⟨fun h => ?_, ?_⟩
  · intro g
    rw [record]
    refine ⟨fun none => ?_, fun st hs taken => ?_⟩
    · split
      · rename_i mem
        exact decidedRecord_undecided fun st hs => (decided_of ((listed h).1 mem) st).symm.trans (none st hs)
      · rfl
    · have mem : h ∈ s.psu.rxList := (of_decide_eq_true taken).1
      have decides : v.decides h st = true := (decided_of mem st).symm.trans taken
      rw [if_pos ((listed h).2 mem)]
      exact ⟨fun lapses => decidedRecord_lapses hs decides lapses,
        fun drained => decidedRecord_drained hs decides drained⟩
  · intro retires
    have retires_of : ∀ {h}, h ∈ s.psu.rxList → retires h = v.endsDrain h := fun {h} mem => by
      rw [endsDrain_eq, show v.stream h = s.stream h from rfl]
      simp only [retires]
      cases s.stream h with
      | none => rfl
      | some st =>
        simp only [decided_of mem]
        rfl
    refine ⟨v.periodEndOrder, refill_length _ _ _, fun k h place stays => ?_, ?_, fun p => ?_⟩
    · have mem : h ∈ s.psu.rxList := List.mem_of_getElem? place
      exact refill_keeps _ _ _ k h place ((retires_of mem).symm.trans stays)
    · refine (List.filter_congr fun h mem => retires_of ((listed h).1 mem)).trans
        ((periodEndOrder_filter (s := v) distinct).1.trans (List.filter_congr fun h _ => ?_))
      by_cases mem : h ∈ s.psu.rxList
      · simp [mem, retires_of mem, v]
      · simp [mem, v]
    · refine (foldl_decide_noticesOf p once v).trans (List.foldl_ext _ _ _ fun q h mem => ?_)
      have decides := decided_of ((listed h).1 mem)
      rw [State.decisionNotice, show v.stream h = s.stream h from rfl]
      cases s.stream h with
      | none => rfl
      | some st =>
        dsimp only
        rw [decides]
        rfl

end Sys2Proof.Machine
end

section
/-! SUPPORT. The statements about the service start and the completion of a TX service (6.3). -/

namespace Sys2Proof.Machine

/-! ### Cell times that lead to a claim of the lane (log 5) -/

/-- The part sends, and either a claim of the kind waits, or none can be taken yet, the lane has cells to stage
and what makes the claim is still to come once the waiting claims are taken. -/
structure State.Nears (kind : Claim → Bool) (left : State → Bool) (x : State) : Prop where
  free : x.held = false
  on : x.link.state ≠ .off
  comes : x.claims.any kind = true ∨ (x.through kind = none ∧ left x.catchUp = true ∧
    x.catchUp.lane.queue = x.lane.queue ∧ x.lane.queue ≠ [])

/-- The lane comes nearer to a claim of the kind with each cell staged. -/
def ComesNearer (kind : Claim → Bool) (left : State → Bool) : Prop :=
  ∀ (u : State) (c : LaneCell) (rest : List LaneCell) (w : WireCell), u.held = false → u.link.state ≠ .off →
    u.claims = [] → u.entryDue = false → left u = true → (u.sendStaged.stageCell c rest w).Nears kind left

/-- What a row of the lane makes of the cell times passed: the claim of the kind is taken. -/
def reaches (kind : Claim → Bool) : Host.Outcome State Fault Refusal → Host.Outcome State Fault Refusal
  | .next z => .next ((z.through kind).getD z)
  | .fault f => .fault f
  | .refused r => .refused r

section Nears
variable {kind : Claim → Bool} {left : State → Bool} (nearer : ComesNearer kind left) {s : State}

/-- A cell time of a part that is caught up is its own. -/
theorem cellTime_catchUp (free : s.held = false) (on : s.link.state ≠ .off) :
    s.catchUp.cellTime = s.cellTime := by
  rw [cellTime_sends free on, cellTime_sends ((catchUp_held s).trans free) (mt (catchUp_off s).1 on),
    catchUp_catchUp]

theorem passTo_waits {n : Nat} (waits : s.claims.any kind = true) : s.passTo kind n = .next s := by
  cases n with
  | zero => rfl
  | succ n => exact if_pos waits

theorem passTo_passes {n : Nat} {t : State} (none : s.claims.any kind = false) (time : s.cellTime = .next t) :
    s.passTo kind (n + 1) = t.passTo kind n := by
  rw [State.passTo, none, time]
  rfl

theorem passTo_catchUp {n : Nat} (free : s.held = false) (on : s.link.state ≠ .off)
    (none : s.claims.any kind = false) : s.catchUp.passTo kind (n + 1) = s.passTo kind (n + 1) := by
  have settled : s.catchUp.claims.any kind = false := by rw [show s.catchUp.claims = [] from settle_claims _]; rfl
  rw [State.passTo, State.passTo, settled, none, cellTime_catchUp free on]
  rfl

/-- A part that is caught up and has cells to stage nears what is left to come. -/
theorem nears_of_quiet (free : s.held = false) (on : s.link.state ≠ .off) (settled : s.claims = [])
    (undue : s.entryDue = false) (comes : left s = true) (full : s.lane.queue ≠ []) : s.Nears kind left := by
  have same := catchUp_nil settled undue
  refine ⟨free, on, .inr ⟨?_, by rw [same]; exact comes, by rw [same], full⟩⟩
  rw [State.through, settled]
  rfl

include nearer

/-- A cell time brings the part one cell nearer. -/
theorem Nears.step (near : s.Nears kind left) (none : s.claims.any kind = false) {t : State}
    (time : s.cellTime = .next t) :
    t.Nears kind left ∧ s.lane.queue.length = t.lane.queue.length + 1 := by
  obtain ⟨-, comes, queue, full⟩ := near.comes.resolve_left (Bool.eq_false_iff.1 none)
  rw [cellTime_sends near.free near.on] at time
  rcases stageNext_cases time with ⟨c, rest, w, cells, -, rfl⟩ | ⟨n, empty, -⟩ | ⟨empty, -⟩
  · have cells' : s.catchUp.lane.queue = c :: rest := cells
    refine ⟨nearer s.catchUp c rest w ((catchUp_held s).trans near.free) (mt (catchUp_off s).1 near.on)
      (settle_claims _) (catchUp_entryDue s) comes, ?_⟩
    rw [← queue, cells']
    rfl
  · exact absurd (queue.symm.trans empty) full
  · exact absurd (queue.symm.trans empty) full

/-- The cell times passed end with a claim of the kind waiting. -/
theorem Nears.arrives (near : s.Nears kind left) {n : Nat} (length : s.lane.queue.length = n) {t : State}
    (passed : s.passTo kind n = .next t) : t.claims.any kind = true := by
  induction n generalizing s with
  | zero =>
    cases passed
    exact near.comes.resolve_right fun ⟨_, _, _, full⟩ => full (List.length_eq_zero_iff.1 length)
  | succ n ih =>
    cases waits : s.claims.any kind with
    | true =>
      rw [passTo_waits waits] at passed
      cases passed
      exact waits
    | false =>
      cases time : s.cellTime with
      | next x =>
        obtain ⟨near, shorter⟩ := Nears.step nearer near waits time
        rw [passTo_passes waits time] at passed
        exact ih near (by omega) passed
      | fault f => rw [State.passTo, waits, time] at passed; cases passed
      | refused r => rw [State.passTo, waits, time] at passed; cases passed

/-- The row of the lane passes as many cell times as the slot has cells, at most (log 5). -/
theorem takeOfLane_reaches (near : s.Nears kind left) :
    s.takeOfLane kind left = reaches kind (s.passTo kind s.lane.queue.length) := by
  cases waits : s.claims.any kind with
  | true =>
    obtain ⟨v, come⟩ := through_isSome waits
    rw [passTo_waits waits, State.takeOfLane, reaches, come]
    rfl
  | false =>
    obtain ⟨none, comes, queue, full⟩ := near.comes.resolve_left (Bool.eq_false_iff.1 waits)
    obtain ⟨n, length⟩ := Nat.exists_eq_succ_of_ne_zero (mt List.length_eq_zero_iff.1 full)
    rw [State.takeOfLane, none]
    dsimp only
    rw [if_pos comes, queue, length, passTo_catchUp near.free near.on waits]
    cases passed : s.passTo kind (n + 1) with
    | next z =>
      obtain ⟨v, come⟩ := through_isSome (Nears.arrives nearer near length passed)
      simp only [reaches, come, Option.getD_some]
    | fault f => rfl
    | refused r => rfl

/-- Where no claim of the kind waits, the row of the lane is that of the state a cell time later (log 5). -/
theorem takeOfLane_passes (near : s.Nears kind left) (none : s.claims.any kind = false) {t : State}
    (time : s.cellTime = .next t) : s.takeOfLane kind left = t.takeOfLane kind left := by
  obtain ⟨later, shorter⟩ := Nears.step nearer near none time
  rw [takeOfLane_reaches nearer near, takeOfLane_reaches nearer later, shorter, passTo_passes none time]

end Nears

/-! ### The two rows come nearer -/

theorem entryDue_congr {s t : State} (link : t.link = s.link) (claims : t.claims = s.claims) :
    t.entryDue = s.entryDue := by
  rw [State.entryDue, State.entryDue, link, claims]

theorem through_nil {s : State} (kind : Claim → Bool) (settled : s.claims = []) : s.through kind = none := by
  rw [State.through, settled]
  rfl

/-- With each cell staged the turn of the next entry comes nearer: with the last one of a slot it is there, and
a completion before that leaves the list alone (R139). -/
theorem serviceStart_nearer : ComesNearer (· = .serviceStart) fun x => x.nextEntry.isSome := by
  intro u c rest w free on settled undue comes
  have made : (u.sendStaged.stageCell c rest w).claims = u.sendStaged.stagedClaims c rest := by
    rw [State.stageCell, show u.sendStaged.claims = [] from settled]
    rfl
  cases rest with
  | nil =>
    refine ⟨free, on, .inl ?_⟩
    have next : (([] : List LaneCell).isEmpty && u.sendStaged.nextEntry.isSome) = true := comes
    rw [made, State.stagedClaims, List.any_append, if_pos next]
    exact Bool.or_true _
  | cons d rest =>
    have none : u.sendStaged.stagedClaims c (d :: rest) =
        if u.sendStaged.burstEnds c (d :: rest) then [.txCompletion] else [] := List.append_nil _
    generalize hy : u.sendStaged.stageCell c (d :: rest) w = y at made
    have link : y.link = u.link := by rw [← hy]; rfl
    have entry : y.nextEntry = u.nextEntry := by rw [← hy]; rfl
    have queue : y.lane.queue = d :: rest := by rw [← hy]; rfl
    have freeY : y.held = false := by rw [← hy]; exact free
    cases ends : u.sendStaged.burstEnds c (d :: rest) with
    | false =>
      rw [none, ends] at made
      exact nears_of_quiet freeY (link ▸ on) made ((entryDue_congr link (made.trans settled.symm)).trans undue)
        (entry ▸ comes) (by rw [queue]; simp)
    | true =>
      rw [none, ends, if_pos rfl] at made
      let z := State.takeTxCompletion { y with claims := [] }
      have keeps := State.takeTxCompletion_keeps { y with claims := [] }
      have caught : y.catchUp = z := by
        have one : y.settle = z := (settle_front made).trans (settle_nil (by simp [State.takeClaim]))
        have still : z.entryDue = false :=
          (entryDue_congr (by simp [z, link]) (by simp [z, settled])).trans undue
        rw [State.catchUp, one, State.enterUp, still]
        exact settle_nil (by simp [z])
      refine ⟨freeY, link ▸ on, .inr ⟨?_, ?_, by simp [caught, z], by rw [queue]; simp⟩⟩
      · rw [through_behind made (by decide)]
        exact through_nil _ (by simp [State.takeClaim])
      · have psu : z.psu = _ := takeTxCompletion_psu _
        rw [caught, State.nextEntry, psu]
        exact (congrArg Option.isSome entry).trans comes

/-- With each cell staged the end of the burst in flight comes nearer: with the last one of its slot it is there
(R119). -/
theorem txCompletion_nearer : ComesNearer (· = .txCompletion) fun x => x.psu.txFlight.isSome := by
  intro u c rest w free on settled undue comes
  have made : (u.sendStaged.stageCell c rest w).claims = u.sendStaged.stagedClaims c rest := by
    rw [State.stageCell, show u.sendStaged.claims = [] from settled]
    rfl
  cases ends : u.sendStaged.burstEnds c rest with
  | true =>
    refine ⟨free, on, .inl ?_⟩
    rw [made, State.stagedClaims, ends]
    rfl
  | false =>
    obtain ⟨f, flies⟩ := Option.isSome_iff_exists.1 comes
    have more : rest ≠ [] := fun e => by
      rw [burstEnds_iff (s := u.sendStaged).2 ⟨f, flies, .inr e⟩] at ends
      cases ends
    have none : u.sendStaged.stagedClaims c rest = [] := by
      rw [State.stagedClaims, ends, List.isEmpty_eq_false_iff.2 more]
      rfl
    rw [none] at made
    refine nears_of_quiet free on made ((entryDue_congr (s := u)
      (t := u.sendStaged.stageCell c rest w) rfl (made.trans settled.symm)).trans undue) ?_ more
    rw [show (u.sendStaged.stageCell c rest w).psu.txFlight = u.psu.txFlight.map fun f => f.count c from rfl,
      flies]
    rfl

/-! ### The row of a service start -/

theorem lane_idle {i : Instr} {kind : Claim → Bool} {left : State → Bool} {s : State}
    (row : ∀ s : State, exec i s = if s.held then .next s else s.takeOfLane kind left)
    (settled : s.claims = []) (undue : s.entryDue = false) (done : left s = false) : exec i s = .next s := by
  rw [row, State.takeOfLane, through_nil kind settled, catchUp_nil settled undue]
  dsimp only
  rw [done, if_neg Bool.false_ne_true, ite_self]

theorem lane_passes {i : Instr} {kind : Claim → Bool} {left : State → Bool} {s t : State}
    (row : ∀ s : State, exec i s = if s.held then .next s else s.takeOfLane kind left)
    (nearer : ComesNearer kind left) (free : s.held = false) (on : s.link.state ≠ .off)
    (settled : s.claims = []) (undue : s.entryDue = false) (comes : left s = true)
    (full : s.lane.queue ≠ []) (time : s.cellTime = .next t) : exec i s = exec i t := by
  have near := nears_of_quiet (kind := kind) free on settled undue comes full
  have none : s.claims.any kind = false := by rw [settled]; rfl
  have still : t.held = false := (Nears.step nearer near none time).1.free
  rw [row, row, free, still]
  exact takeOfLane_passes nearer near none time

/-- The entry is of the record as it stands: its generation, a served state and its form (R117). -/
def State.FitsEntry (s : State) (e : TxEntry) (st : Stream) : Prop :=
  (s.record e.handle).generation = e.generation ∧ st.served = true ∧ st.form = e.form

section Start
variable {s : State} {e : TxEntry}

theorem takeServiceStart_idle (unfit : ∀ st, s.stream e.handle = some st → ¬s.FitsEntry e st) :
    s.takeServiceStart e = s.stage (slotCells e []) := by
  unfold State.takeServiceStart
  split
  · rfl
  · rename_i st hs
    split
    · rfl
    · rename_i same
      split
      · rfl
      · rename_i served
        exact if_pos fun form => unfit st hs ⟨not_not.1 same, Bool.not_eq_false _ ▸ served, form⟩

theorem startNext_absent (absent : e.absent = true) : s.startNext e =
    State.stage { s with psu := { s.psu with txNext := s.psu.txNext + 1 } } (slotCells e []) :=
  if_pos absent

theorem startNext_present (present : e.absent = false) : s.startNext e =
    State.takeServiceStart { s with psu := { s.psu with txNext := s.psu.txNext + 1 } } e :=
  if_neg (Bool.eq_false_iff.1 present)

variable {st : Stream} (hs : s.stream e.handle = some st) (fits : s.FitsEntry e st)
include hs fits

theorem takeServiceStart_decided : s.takeServiceStart e = match st.dueBuffer.owner with
    | .link => s.startBurst e st
    | .host =>
      if st.state = .live then
        (s.miss e.handle .starved).stage
          (slotCells e (if st.params.missPolicy = some .empty then [.lead st.channel 0] else []))
      else (s.retire e.handle true).stage (slotCells e [])
    | .service => s.stage (slotCells e []) := by
  obtain ⟨same, served, form⟩ := fits
  unfold State.takeServiceStart
  rw [hs]
  dsimp only
  rw [if_neg (not_not.2 same), if_neg (by rw [served]; decide)]
  exact if_neg (not_not.2 form)

theorem takeServiceStart_link (link : st.dueBuffer.owner = .link) :
    s.takeServiceStart e = s.startBurst e st := by
  rw [takeServiceStart_decided hs fits, link]

theorem takeServiceStart_live (host : st.dueBuffer.owner = .host) (live : st.state = .live) :
    s.takeServiceStart e = (s.miss e.handle .starved).stage
      (slotCells e (if st.params.missPolicy = some .empty then [.lead st.channel 0] else [])) := by
  rw [takeServiceStart_decided hs fits, host]
  exact if_pos live

theorem takeServiceStart_drain (host : st.dueBuffer.owner = .host) (drain : st.state = .closing .drain) :
    s.takeServiceStart e = (s.retire e.handle true).stage (slotCells e []) := by
  rw [takeServiceStart_decided hs fits, host]
  exact if_neg (by rw [drain]; decide)

end Start

/-- The row takes the claim at the front: the turn of the next entry, where there is one. -/
theorem serviceStart_front {s : State} {rest : List Claim} (free : s.held = false)
    (front : s.claims = .serviceStart :: rest) :
    (s.psu.txList[s.psu.txNext]? = none → exec .serviceStart s = .next { s with claims := rest }) ∧
    ∀ e, s.psu.txList[s.psu.txNext]? = some e →
      exec .serviceStart s = .next (State.startNext { s with claims := rest } e) := by
  rw [ClaimRow.serviceStart.front free front rfl, State.takeClaim, State.takeNextStart]
  refine ⟨fun done => ?_, fun e turn => ?_⟩
  · rw [show State.nextEntry { s with claims := rest } = none from done]
  · rw [show State.nextEntry { s with claims := rest } = some e from turn]

/-- Settles O54: the row with no entry left, the cell times before a claim, and the rows of R117's table. -/
theorem serviceStart : Obligations.ServiceStart := by
  intro s
  have row : ∀ s : State, exec .serviceStart s =
    if s.held then .next s else s.takeOfLane (· = .serviceStart) fun u => u.nextEntry.isSome := fun _ => rfl
  refine ⟨fun still => ?_, fun t c rest e free on settled undue turn cells time => ?_,
    fun rest free front none => (serviceStart_front free front).1 none, fun rest e free front turn => ?_⟩
  · rcases still with held | ⟨settled, undue, none⟩
    · exact if_pos held
    · exact lane_idle row settled undue (by rw [State.nextEntry, none]; rfl)
  · exact lane_passes row serviceStart_nearer free on settled undue
      (by rw [State.nextEntry, turn]; rfl) (by rw [cells]; simp) time
  rw [(serviceStart_front free front).2 e turn]
  intro h w sent stands
  have stands_iff : ∀ st, stands st ↔ w.FitsEntry e st ∧ e.absent = false := fun st => by
    simp only [stands, State.FitsEntry, served_iff]
    exact ⟨fun ⟨same, served, present, form⟩ => ⟨⟨same, served, form.symm⟩, present⟩,
      fun ⟨⟨same, served, form⟩, present⟩ => ⟨same, served, present, form.symm⟩⟩
  refine ⟨fun unfit => congrArg _ ?_, fun st hs stood => ?_⟩
  · cases absent : e.absent with
    | true => exact startNext_absent absent
    | false =>
      rw [startNext_present absent]
      exact takeServiceStart_idle (s := w) fun st hs fits => unfit st hs ((stands_iff st).2 ⟨fits, absent⟩)
  · obtain ⟨fits, present⟩ := (stands_iff st).1 stood
    rw [startNext_present present]
    exact ⟨fun link => congrArg _ (takeServiceStart_link (s := w) hs fits link),
      fun host live => congrArg _ (takeServiceStart_live (s := w) hs fits host live),
      fun host drain => congrArg _ (takeServiceStart_drain (s := w) hs fits host drain)⟩

/-! ### The row of a completion -/

section Completion
variable {s : State} {f : TxFlight} {st : Stream}

theorem takeTxCompletion_none (none : s.psu.txFlight = none) : s.takeTxCompletion = s.dropTx := by
  rcases takeTxCompletion_cases s with ⟨-, e⟩ | ⟨f, flies, -⟩
  · rw [e, State.dropTx, ← none]
  · cases none.symm.trans flies

theorem takeTxCompletion_stale (flies : s.psu.txFlight = some f)
    (stale : s.stream f.handle = none ∨ (s.record f.handle).generation ≠ f.generation) :
    s.takeTxCompletion = s.dropTx := by
  rcases takeTxCompletion_cases s with ⟨none, -⟩ | ⟨g, hg, ⟨-, e⟩ | ⟨st, hs, same, -⟩⟩
  · cases none.symm.trans flies
  · exact e
  · obtain rfl := Option.some.inj (flies.symm.trans hg)
    rcases stale with vacant | other
    · cases vacant.symm.trans hs
    · exact absurd same other

theorem takeTxCompletion_open (flies : s.psu.txFlight = some f) (hs : s.stream f.handle = some st)
    (same : (s.record f.handle).generation = f.generation) :
    s.takeTxCompletion = ((s.dropTx.setStream f.handle (st.completeTx f.buffer)).notifyIf
      st.notify.done st.owner (.done f.handle f.generation f.buffer (st.buffer f.buffer).fill
        ⟨false, false⟩)).closeAfterService f.handle := by
  rcases takeTxCompletion_cases s with ⟨none, -⟩ | ⟨g, hg, ⟨stale, -⟩ | ⟨x, hx, -, e⟩⟩
  · cases none.symm.trans flies
  · obtain rfl := Option.some.inj (flies.symm.trans hg)
    exact absurd same (stale st hs)
  · obtain rfl := Option.some.inj (flies.symm.trans hg)
    obtain rfl := Option.some.inj (hs.symm.trans hx)
    exact e

end Completion

/-- Settles O55: the row with nothing in flight, the cell times before a claim, and the completion by its
record. -/
theorem txCompletion : Obligations.TxCompletion := by
  intro s
  have row : ∀ s : State, exec .txCompletion s =
    if s.held then .next s else s.takeOfLane (· = .txCompletion) fun u => u.psu.txFlight.isSome := fun _ => rfl
  refine ⟨fun still => ?_, fun t c rest f free on settled undue flies cells time => ?_,
    fun rest free front => ?_⟩
  · rcases still with held | ⟨settled, undue, none⟩
    · exact if_pos held
    · exact lane_idle row settled undue (by rw [none]; rfl)
  · exact lane_passes row txCompletion_nearer free on settled undue (by rw [flies]; rfl)
      (by rw [cells]; simp) time
  rw [ClaimRow.txCompletion.front free front rfl]
  intro v
  refine ⟨fun none => congrArg _ (takeTxCompletion_none (s := { s with claims := rest }) none),
    fun f flies => ⟨fun stale => congrArg _
      (takeTxCompletion_stale (s := { s with claims := rest }) flies stale), fun st hs same => ?_⟩⟩
  intro b x t ends
  have completed : State.takeTxCompletion { s with claims := rest } = t.closeAfterService f.handle :=
    takeTxCompletion_open (s := { s with claims := rest }) flies hs same
  have after : t.stream f.handle = some x := by simp [t]
  have kept : x.Ends ↔ ends := by
    have state : x.state = st.state := setBuffer_state st f.buffer _
    rw [Stream.Ends, state]
  rw [State.takeClaim, completed]
  exact ⟨fun e => congrArg _ (closeAfterService_ends after (kept.2 e)),
    fun e => congrArg _ (closeAfterService_stays after (mt kept.1 e))⟩

end Sys2Proof.Machine
end

section
/-! SUPPORT. Tenants (10.1): what a request of one port leaves of the other ports' streams, queues and charges.
Each update of the state spares them where it concerns the port itself or a record that is the port's, and the
bytes written are those of the port's own extents or of a pair just granted. -/

namespace Sys2Proof.Machine

/-! ### What is spared -/

/-- A byte address lies in an extent (R46). -/
def Extent.HasByte (e : Extent) (a : Nat) : Prop := 64 * e.base ≤ a ∧ a < 64 * (e.base + e.length)

/-- What one port's request leaves alone: the records of the other ports and the bytes they hold, those ports'
queues and charges, the quotas and the link (R191). -/
structure State.Spares (p : Port) (s t : State) : Prop where
  record : ∀ h st, s.stream h = some st → st.owner ≠ p → t.record h = s.record h
  bytes : ∀ h st, s.stream h = some st → st.owner ≠ p → ∀ e ∈ st.extents, ∀ a, e.HasByte a →
    Memory.read t.memory a = Memory.read s.memory a
  port : ∀ k, k ≠ p → t.port k = s.port k
  notices : ∀ k, k ≠ p → t.noticesOf k = s.noticesOf k
  charge : ∀ k, k ≠ p → ∀ d, t.charge k d = s.charge k d
  quotas : t.table.quotas = s.table.quotas
  link : t.link = s.link

/-- A handle is within a port's reach: its record is VACANT or the port's own. -/
def State.Reaches (s : State) (p : Port) (h : Handle) : Prop := ∀ st, s.stream h = some st → st.owner = p

section
variable {p : Port} {s t u : State}

theorem State.Spares.refl (p : Port) (s : State) : s.Spares p s :=
  ⟨fun _ _ _ _ => rfl, fun _ _ _ _ _ _ _ _ => rfl, fun _ _ => rfl, fun _ _ => rfl, fun _ _ _ => rfl, rfl, rfl⟩

theorem State.Spares.trans (f : s.Spares p t) (g : t.Spares p u) : s.Spares p u where
  record h st hs other :=
    have kept := f.record h st hs other
    (g.record h st ((congrArg Record.stream kept).trans hs) other).trans kept
  bytes h st hs other e he a inside :=
    have kept := f.record h st hs other
    (g.bytes h st ((congrArg Record.stream kept).trans hs) other e he a inside).trans
      (f.bytes h st hs other e he a inside)
  port k other := (g.port k other).trans (f.port k other)
  notices k other := (g.notices k other).trans (f.notices k other)
  charge k other d := (g.charge k other d).trans (f.charge k other d)
  quotas := g.quotas.trans f.quotas
  link := g.link.trans f.link

theorem State.Reaches.of_open {h : Handle} {st : Stream} (hs : s.stream h = some st) (own : st.owner = p) :
    s.Reaches p h := fun _ e => Option.some.inj (hs.symm.trans e) ▸ own

theorem State.Reaches.of_vacant {h : Handle} (vacant : s.stream h = none) : s.Reaches p h :=
  fun _ e => nomatch vacant.symm.trans e

theorem State.Reaches.of_stream {h : Handle} (reach : s.Reaches p h) (e : t.stream h = s.stream h) :
    t.Reaches p h := fun st hs => reach st (e ▸ hs)

/-! ### The updates -/

/-- The same table, notices, ports and link, and Stream Memory but for bytes of no other port. -/
theorem State.Spares.of_memory (table : t.table = s.table) (notices : t.notices = s.notices)
    (ports : t.ports = s.ports) (link : t.link = s.link)
    (bytes : ∀ h st, s.stream h = some st → st.owner ≠ p → ∀ e ∈ st.extents, ∀ a, e.HasByte a →
      Memory.read t.memory a = Memory.read s.memory a) : s.Spares p t where
  record h _ _ _ := record_of_table table h
  bytes := bytes
  port k _ := by rw [State.port, ports]; rfl
  notices k _ := by rw [State.noticesOf, notices]; rfl
  charge k _ d := by rw [State.charge, table]; rfl
  quotas := by rw [table]
  link := link

theorem State.Spares.of_table (table : t.table = s.table) (memory : t.memory = s.memory)
    (notices : t.notices = s.notices) (ports : t.ports = s.ports) (link : t.link = s.link) : s.Spares p t :=
  .of_memory table notices ports link fun _ _ _ _ _ _ _ _ => by rw [memory]

theorem setRecord_spares {h : Handle} (reach : s.Reaches p h) (r : Record) : s.Spares p (s.setRecord h r) where
  record k st hs other := by
    rw [State.setRecord_record, if_neg]
    rintro rfl
    exact other (reach st hs)
  bytes _ _ _ _ _ _ _ _ := rfl
  port _ _ := rfl
  notices _ _ := rfl
  charge _ _ _ := rfl
  quotas := rfl
  link := rfl

theorem setStream_spares {h : Handle} (reach : s.Reaches p h) (st : Stream) : s.Spares p (s.setStream h st) :=
  setRecord_spares reach _

/-- Behind updates that spare and leave the record of the handle. -/
theorem State.Spares.setRecord {h : Handle} (f : s.Spares p t) (reach : s.Reaches p h)
    (same : t.stream h = s.stream h) (r : Record) : s.Spares p (t.setRecord h r) :=
  f.trans (setRecord_spares (reach.of_stream same) r)

theorem State.Spares.setStream {h : Handle} (f : s.Spares p t) (reach : s.Reaches p h)
    (same : t.stream h = s.stream h) (st : Stream) : s.Spares p (t.setStream h st) := f.setRecord reach same _

theorem setFree_spares (s : State) (free : List Extent) : s.Spares p (s.setFree free) := .of_table rfl rfl rfl rfl rfl

theorem recharge_spares (s : State) (d : Direction) (old new : Residues) : s.Spares p (s.recharge p d old new) where
  record _ _ _ _ := rfl
  bytes _ _ _ _ _ _ _ _ := rfl
  port _ _ := rfl
  notices _ _ := rfl
  charge k other e := by rw [recharge_charge, if_neg fun c => other c.1]
  quotas := rfl
  link := rfl

theorem removeMapEntries_spares (s : State) (h : Handle) : s.Spares p (s.removeMapEntries h) :=
  ⟨fun _ _ _ _ => rfl, fun _ _ _ _ _ _ _ _ => rfl, fun _ _ => rfl, fun _ _ => rfl, fun _ _ _ => rfl, rfl, rfl⟩

theorem addMapEntries_spares (s : State) (h : Handle) (st : Stream) : s.Spares p (s.addMapEntries h st) :=
  ⟨fun _ _ _ _ => rfl, fun _ _ _ _ _ _ _ _ => rfl, fun _ _ => rfl, fun _ _ => rfl, fun _ _ _ => rfl, rfl, rfl⟩

theorem advance_spares (s : State) (q : Port) : s.Spares p (s.advance q) :=
  ⟨fun _ _ _ _ => rfl, fun _ _ _ _ _ _ _ _ => rfl, fun _ _ => rfl, fun _ _ => rfl, fun _ _ _ => rfl, rfl, rfl⟩

theorem setNotices_spares (s : State) (q : NoticeQueue) : s.Spares p (s.setNotices p q) where
  record _ _ _ _ := rfl
  bytes _ _ _ _ _ _ _ _ := rfl
  port _ _ := rfl
  notices k other := by rw [State.setNotices_noticesOf, if_neg other]
  charge _ _ _ := rfl
  quotas := rfl
  link := rfl

theorem setPort_spares (s : State) (x : PortInterface) : s.Spares p (s.setPort p x) where
  record _ _ _ _ := rfl
  bytes _ _ _ _ _ _ _ _ := rfl
  port k other := by rw [State.setPort_port, if_neg other]
  notices _ _ := rfl
  charge _ _ _ := rfl
  quotas := rfl
  link := rfl

theorem notifyIf_spares (s : State) (asked : Bool) (x : Report) : s.Spares p (s.notifyIf asked p x) := by
  unfold State.notifyIf
  split
  · exact setNotices_spares s _
  · exact .refl p s

theorem answer_spares (s : State) (code sequence : Byte) (a : Reply) (retain : Bool) :
    s.Spares p (s.answer p code sequence a retain) := setPort_spares s _

theorem leaveLists_spares (s : State) (h : Handle) : s.Spares p (s.leaveLists h) := .of_table rfl rfl rfl rfl rfl

/-! ### A port's own records withdrawn, retired and amended -/

/-- A withdrawal on a record of the port. -/
theorem withdrawAmendment_spares {h : Handle} (reach : s.Reaches p h) : s.Spares p (s.withdrawAmendment h) := by
  cases hs : s.stream h with
  | none =>
    rw [State.withdrawAmendment, hs]
    exact .refl p s
  | some st =>
    cases pending : st.pending with
    | none =>
      simp only [State.withdrawAmendment, hs, pending]
      exact .refl p s
    | some a =>
      obtain rfl := reach st hs
      simp only [State.withdrawAmendment, hs, pending]
      exact ((recharge_spares s _ _ _).trans (setFree_spares _ _)).setStream reach rfl _

/-- A withdrawal leaves every owner. -/
theorem State.Reaches.withdrawAmendment {h : Handle} (reach : s.Reaches p h) (k : Handle) :
    (s.withdrawAmendment k).Reaches p h := by
  intro st hs
  rw [withdrawAmendment_stream] at hs
  split at hs
  · obtain ⟨st, open_, rfl⟩ := Option.map_eq_some_iff.mp hs
    subst_vars
    exact reach st open_
  · exact reach st hs

/-- Parts 1 to 4, 6 and 7 of the retirement of a record of the port. -/
theorem vacate_spares {h : Handle} (reach : s.Reaches p h) : s.Spares p (s.vacate h) := by
  cases hs : s.stream h with
  | none =>
    rw [vacate_none hs]
    exact .refl p s
  | some st =>
    obtain rfl := reach st hs
    rw [vacate_eq hs]
    have withdrawn := withdrawAmendment_spares reach
    have reach := reach.withdrawAmendment h
    generalize s.withdrawAmendment h = w at withdrawn reach ⊢
    exact withdrawn.trans ((((setFree_spares w _).trans (recharge_spares _ _ _ _)).trans
      (removeMapEntries_spares _ h)).setRecord reach (by rfl) _)

/-- The retirement of a record of the port. -/
theorem retire_spares {h : Handle} (reach : s.Reaches p h) (closed : Bool) : s.Spares p (s.retire h closed) := by
  cases hs : s.stream h with
  | none =>
    rw [State.retire, hs]
    exact .refl p s
  | some st =>
    obtain rfl := reach st hs
    rw [retire_eq hs]
    exact ((vacate_spares reach).trans (setNotices_spares _ _)).trans (notifyIf_spares _ _ _)

/-- The records of the port force-retired one after another within a PURGE (R197). -/
theorem purgeRecords_spares {l : List Handle} (reach : ∀ h ∈ l, s.Reaches p h) :
    s.Spares p (l.foldl State.purgeRecord s) := by
  induction l generalizing s with
  | nil => exact .refl p s
  | cons h l ih =>
    have aborted : s.Spares p (s.abortFlight h) := .of_table rfl rfl rfl rfl rfl
    have retired : s.Spares p (s.purgeRecord h) :=
      aborted.trans (vacate_spares ((reach h List.mem_cons_self).of_stream rfl))
    refine retired.trans (ih fun k hk st hs => ?_)
    have stream : (s.purgeRecord h).stream k = if k = h then none else s.stream k :=
      vacate_stream (s.abortFlight h) h k
    rw [stream] at hs
    split at hs
    · cases hs
    · exact reach k (List.mem_cons_of_mem h hk) st hs

/-- A PURGE of the port itself. -/
theorem purge_spares (s : State) (p : Port) (self : Bool) : s.Spares p (s.purge p self) := by
  have owned : ∀ h ∈ s.ownedBy p, (s.setPort p ((s.port p).purgeRequests self)).Reaches p h := fun h hh => by
    obtain ⟨st, hs, own⟩ := mem_ownedBy.mp hh
    exact .of_open hs own
  have records := (setPort_spares s _).trans (purgeRecords_spares owned)
  exact ((records.trans (setPort_spares _ _)).trans (setNotices_spares _ _)).trans (setPort_spares _ _)

/-- An amendment of the port's record carried through, on a LIVE record or at once (R94, R105). -/
theorem amend_spares {h : Handle} {st : Stream} (hs : s.stream h = some st) (own : st.owner = p) (new : Params)
    (point : EffectivePoint) (pair : Option (Extent × Extent)) : s.Spares p (s.amend h st new point pair).1 := by
  subst own
  have reach : s.Reaches st.owner h := .of_open hs rfl
  unfold State.amend
  split
  · exact (recharge_spares s _ _ _).setStream reach rfl _
  · exact ((recharge_spares s _ _ _).trans (setFree_spares _ _)).setStream reach rfl _

/-- A VACANT handle opened for the port (R69). -/
theorem enter_spares {h : Handle} (vacant : s.stream h = none) (a : OpenArgs) (pair : Extent × Extent) :
    s.Spares p (s.enter p a h pair) :=
  ((setStream_spares (.of_vacant vacant) _).trans (recharge_spares _ _ _ _)).trans (addMapEntries_spares _ _ _)

/-! ### CLOSE by the owner -/

theorem closeOpen_spares {h : Handle} {st : Stream} (reach : s.Reaches p h) (m : CloseMode) :
    s.Spares p (s.closeOpen h st m).1 := by
  have withdrawn := withdrawAmendment_spares reach
  have reach := reach.withdrawAmendment h
  unfold State.closeOpen
  dsimp only
  split
  · split
    · exact withdrawn.trans ((leaveLists_spares _ h).setStream reach rfl _)
    · exact withdrawn.trans (setStream_spares reach _)
  · exact withdrawn.trans (retire_spares reach false)

theorem closeAgain_spares {h : Handle} {st : Stream} (reach : s.Reaches p h) (old m : CloseMode) :
    s.Spares p (s.closeAgain h st old m).1 := by
  unfold State.closeAgain
  split
  · split
    · exact setStream_spares reach _
    · exact retire_spares reach false
  · exact .refl p s

end

/-! ### Bytes -/

/-- The granule of a byte of an extent lies in it. -/
theorem coverings_of_hasByte {l : List Extent} {e : Extent} (he : e ∈ l) {a : Nat} (inside : e.HasByte a) :
    0 < coverings l (a / 64) := by
  obtain ⟨low, high⟩ := inside
  exact coverings_pos.mpr ⟨e, he, by omega, by omega⟩

/-- Under the extent law no byte lies in the extents of two records (R49). -/
theorem extentsOf_apart {s : State} (law : s.extentLaw) {h k : Handle} (other : h ≠ k) {d e : Extent}
    (hd : d ∈ s.extentsOf h) (he : e ∈ s.extentsOf k) {a : Nat} (inside : d.HasByte a) : ¬e.HasByte a := by
  intro shared
  have here := coverings_of_hasByte hd inside
  have there := coverings_of_hasByte he shared
  have lt : a / 64 < Config.granules := Nat.lt_of_not_le fun beyond => by
    rw [coverings_beyond (((extentLaw_iff s).mp law).2.1 h) beyond] at here
    exact absurd here (Nat.lt_irrefl 0)
  have once := ((extentLaw_iff s).mp law).2.2 _ lt
  have sum := handles_sum_replace (f := fun k => coverings (s.extentsOf k) (a / 64))
    (g := fun k => if k = h then 0 else coverings (s.extentsOf k) (a / 64)) (h := h)
    fun k ne => if_neg ne
  have part := List.single_le_sum (l := handles.map fun k => if k = h then 0 else coverings (s.extentsOf k) (a / 64))
    (fun _ _ => Nat.zero_le _) _ (List.mem_map_of_mem (List.mem_finRange k))
  rw [coverings_held] at once
  simp only [if_pos, if_neg other.symm] at sum part
  omega

/-- Under the extent law no byte of a granted pair lies in a record's extents (R49, R51). -/
theorem granted_apart {s : State} (law : s.extentLaw) {n : Nat} {g : (Extent × Extent) × List Extent}
    (granted : allocatePair n s.free = some g) {d e : Extent} (hd : d ∈ [g.1.1, g.1.2]) {k : Handle}
    (he : e ∈ s.extentsOf k) {a : Nat} (inside : d.HasByte a) : ¬e.HasByte a := by
  intro shared
  have here := coverings_of_hasByte hd inside
  have there := coverings_of_hasByte he shared
  have once := once_of_extentLaw law k (a / 64)
  have taken := coverings_allocatePair (l := s.free) (p := g.1) (rest := g.2) granted (a / 64)
  omega

/-- A byte outside a run of bytes written is as it was. -/
theorem memory_read_writeBytes_outside {x : Nat} (m : List Host.Cell) (a : Nat) (vs : List Byte)
    (outside : ¬(a ≤ x ∧ x < a + vs.length)) :
    Memory.read (Memory.writeBytes m a vs) x = Memory.read m x := by
  induction vs generalizing m a with
  | nil => rfl
  | cons v vs ih =>
    rw [List.length_cons] at outside
    rw [Memory.writeBytes, ih _ _ (by omega), memory_read_write_other (by omega)]

/-- A byte outside a pair zeroed is as it was. -/
theorem zeroPair_outside {pair : Extent × Extent} {m m' : List Host.Cell} (zeroed : zeroPair pair m = .ok m')
    {a : Nat} (outside : ∀ d ∈ [pair.1, pair.2], ¬d.HasByte a) : Memory.read m' a = Memory.read m a := by
  have run : ∀ d ∈ [pair.1, pair.2], ¬(d.address ≤ a ∧ a < d.address + d.bytes) := fun d hd => by
    have out := outside d hd
    simp only [Extent.HasByte, Extent.address, Extent.bytes, Config.granuleBytes] at out ⊢
    omega
  unfold zeroPair at zeroed
  split at zeroed <;> cases zeroed
  rw [memory_read_zero, if_neg (run _ (by simp)), memory_read_zero, if_neg (run _ (by simp))]

/-- The pair of an amendment is one granted. -/
theorem amendPair_some {s : State} {st : Stream} {new : Params} {g : (Extent × Extent) × List Extent}
    (granted : s.amendPair st new = .ok (some g)) : s.pair (granulesFor new.cells) = .ok g := by
  unfold State.amendPair at granted
  split at granted
  · cases granted
  · cases pair : s.pair (granulesFor new.cells) with
    | error x => rw [pair] at granted; cases granted
    | ok y => rw [pair] at granted; cases granted; rfl

/-- A granted pair taken. -/
theorem takePair_spares {s t : State} {p : Port} (law : s.extentLaw) {n : Nat}
    {g : (Extent × Extent) × List Extent} (granted : s.pair n = .ok g) (taken : s.takePair g = .ok t) :
    s.Spares p t := by
  have zeroed := takePair_memory taken
  obtain ⟨m, rfl⟩ := takePair_ok taken
  refine .of_memory rfl rfl rfl rfl fun h st hs _ e he a inside => zeroPair_outside zeroed fun d hd mine => ?_
  exact granted_apart law (pair_ok granted) hd (extentsOf_some hs ▸ he) mine inside

/-! ### Requests -/

section
variable {p : Port} {r : Request} {s : State} {x : State × Reply}

/-- The record that a request names is within its port's reach (R6). -/
theorem nameCheck_reaches {y : List Byte} {h : Handle} {st : Stream}
    (named : s.nameCheck p false y = .ok (h, st)) : s.stream h = some st ∧ st.owner = p := by
  obtain ⟨⟨-, -, hs⟩, own⟩ := nameCheck_ok named
  exact ⟨hs, own.resolve_left Bool.false_ne_true⟩

theorem nameOnly_reaches {y : List Byte} {h : Handle} {st : Stream}
    (named : s.nameOnly p false y = .ok (h, st)) : s.Reaches p h := by
  unfold State.nameOnly at named
  split at named
  · obtain ⟨hs, own⟩ := nameCheck_reaches named
    exact .of_open hs own
  · cases named

theorem openRequest_spares (law : s.extentLaw) (e : openRequest p r s = .ok x) : s.Spares p x.1 := by
  unfold openRequest at e
  split at e
  · cases e; exact .refl p s
  split at e
  · cases e; exact .refl p s
  rename_i tests
  obtain ⟨vacant, -, granted⟩ := openTests_ok tests
  split at e
  · cases e
  rename_i t taken
  cases e
  refine (takePair_spares law granted taken).trans (enter_spares ?_ _ _)
  obtain ⟨m, rfl⟩ := takePair_ok taken
  exact vacant

theorem startRequest_spares (p : Port) (r : Request) (s : State) : s.Spares p (startRequest p r s).1 := by
  unfold startRequest
  split
  · exact .refl p s
  rename_i h st named
  have started := (leaveLists_spares s h).setStream (nameOnly_reaches named) rfl
    { st with state := .live, missRun := 0 }
  split
  · exact started
  · exact started
  all_goals exact .refl p s

theorem stopRequest_spares (p : Port) (r : Request) (s : State) : s.Spares p (stopRequest p r s).1 := by
  unfold stopRequest
  split
  · exact .refl p s
  rename_i h st named
  have stopped := setStream_spares (nameOnly_reaches named) { st with state := .standby }
  split
  · exact stopped
  · exact stopped
  all_goals exact .refl p s

theorem withdrawRequest_spares (p : Port) (r : Request) (s : State) : s.Spares p (withdrawRequest p r s).1 := by
  unfold withdrawRequest
  split
  · exact .refl p s
  split
  · exact .refl p s
  · exact withdrawAmendment_spares (nameOnly_reaches ‹_›)

/-- A CLOSE by a port other than 0 names a record of its own (R77). -/
theorem closeRequest_spares (tenant : p ≠ 0) (r : Request) (s : State) : s.Spares p (closeRequest p r s).1 := by
  unfold closeRequest
  split
  · exact .refl p s
  rw [decide_eq_false tenant]
  split
  · exact .refl p s
  rename_i named
  obtain ⟨hs, own⟩ := nameCheck_reaches named
  have reach := State.Reaches.of_open hs own
  split
  · exact absurd ‹_ ∧ _›.1 tenant
  split
  · exact closeAgain_spares reach _ _
  all_goals exact closeOpen_spares reach _

theorem amendRequest_spares (law : s.extentLaw) (e : amendRequest p r s = .ok x) : s.Spares p x.1 := by
  unfold amendRequest at e
  split at e
  · cases e; exact .refl p s
  split at e
  · cases e; exact .refl p s
  rename_i h st named
  obtain ⟨hs, own⟩ := nameCheck_reaches named
  split at e
  · cases e; exact .refl p s
  rename_i new g tests
  obtain ⟨-, -, granted⟩ := amendTests_ok tests
  split at e
  · cases e
  rename_i t taken
  cases e
  have spared : s.Spares p t := by
    cases g with
    | none => cases taken; exact .refl p s
    | some g => exact takePair_spares law (amendPair_some granted) taken
  obtain ⟨free, m, rfl⟩ := takeAmendPair_ok taken
  exact spared.trans (amend_spares (s := { s with free := free, memory := m }) hs own new _ _)

/-- A valid span of a buffer lies in the buffer's extent (R46, R54). -/
theorem span_inside {st : Stream} (law : st.recordLaw) {w : Span} (valid : st.spanValid w = true) {a : Nat}
    (inside : st.spanAddress w ≤ a ∧ a < st.spanAddress w + w.length) :
    (st.buffer w.buffer).extent.HasByte a := by
  obtain ⟨-, -, -, first, second, -⟩ := law
  have length : (st.buffer w.buffer).extent.length = granulesFor st.params.cells := by
    cases w.buffer
    · exact first
    · exact second
  have fits : w.offset + w.length ≤ 16 * st.params.cells := of_decide_eq_true valid
  simp only [Stream.spanAddress, Extent.address, Config.granuleBytes] at inside
  simp only [Extent.HasByte, length, granulesFor]
  omega

/-- The bytes of a PUT are those of the record's own buffer (R57). -/
theorem putRequest_spares (records : s.recordsLaw) (law : s.extentLaw) (e : putRequest p r s = .ok x) :
    s.Spares p x.1 := by
  unfold putRequest at e
  split at e
  · cases e; exact .refl p s
  rename_i w read
  split at e
  · cases e; exact .refl p s
  rename_i h st named
  obtain ⟨hs, own⟩ := nameCheck_reaches named
  split at e
  · cases e; exact .refl p s
  split at e
  · cases e; exact .refl p s
  split at e
  · cases e; exact .refl p s
  rename_i valid
  split at e <;> cases e
  refine .of_memory rfl rfl rfl rfl fun k st' hk other d hd a shared =>
    memory_read_writeBytes_outside _ _ _ fun written => ?_
  have apart : h ≠ k := by
    rintro rfl
    exact other (Option.some.inj (hk.symm.trans hs) ▸ own)
  have mine : (st.buffer w.buffer).extent ∈ s.extentsOf h := by
    rw [extentsOf_some hs, extents_eq]
    cases w.buffer <;> simp [Stream.buffer]
  rw [← readPut_length read] at written
  exact extentsOf_apart law apart mine (extentsOf_some hk ▸ hd)
    (span_inside (records h st hs) (by simpa using valid) written) shared

theorem getRequest_spares (e : getRequest p r s = .ok x) : s.Spares p x.1 := by
  unfold getRequest at e
  split at e
  · cases e; exact .refl p s
  split at e
  · cases e; exact .refl p s
  iterate 3
    split at e
    · cases e; exact .refl p s
  cases e

theorem handoverRequest_spares (p : Port) (r : Request) (s : State) : s.Spares p (handoverRequest p r s).1 := by
  unfold handoverRequest
  split
  · exact .refl p s
  split
  · exact .refl p s
  rename_i named
  obtain ⟨hs, own⟩ := nameCheck_reaches named
  split
  · exact .refl p s
  all_goals
    iterate 3
      split
      · exact .refl p s
    exact setStream_spares (.of_open hs own) _

theorem pollRequest_spares (p : Port) (r : Request) (s : State) : s.Spares p (Machine.pollRequest p r s).1 := by
  unfold Machine.pollRequest
  split
  · exact .refl p s
  · exact setNotices_spares s _

/-- QUOTA is for port 0 alone (R193). -/
theorem quotaRequest_spares (tenant : p ≠ 0) (r : Request) (s : State) :
    s.Spares p (quotaRequest p r s).1 := by
  unfold quotaRequest
  split
  · exact .refl p s
  · exact absurd tenant ‹_›

/-- LINKCTL is for port 0 alone (R152). -/
theorem linkctlRequest_spares (tenant : p ≠ 0) (action : Byte) (act : State → State) (r : Request) (s : State) :
    s.Spares p (linkctlRequest p action act r s).1 := by
  unfold linkctlRequest
  split
  · exact .refl p s
  · exact absurd tenant ‹_›

/-- A PURGE by a port other than 0 is of that port (R195). -/
theorem purgeRequest_spares (tenant : p ≠ 0) (r : Request) (s : State) :
    s.Spares p (Machine.purgeRequest p r s).1 := by
  unfold Machine.purgeRequest
  split
  · exact .refl p s
  split
  · exact .refl p s
  rename_i n _ allowed
  obtain rfl : n = p := not_not.mp fun other => allowed ⟨tenant, other⟩
  refine (purge_spares s n (n = n)).trans ?_
  dsimp only
  unfold State.keepAccepted
  split
  · exact setPort_spares _ _
  · exact .refl n _

/-- Whatever a row of requests runs for a port other than 0. -/
theorem Handles.spares {run : Request → State → Answer} (hr : Handles p run) (tenant : p ≠ 0)
    (records : s.recordsLaw) (law : s.extentLaw) (e : run r s = .ok x) : s.Spares p x.1 := by
  cases hr with
  | openStream => exact openRequest_spares law e
  | amend => exact amendRequest_spares law e
  | put => exact putRequest_spares records law e
  | get => exact getRequest_spares e
  | start => cases e; exact startRequest_spares p r s
  | stop => cases e; exact stopRequest_spares p r s
  | close => cases e; exact closeRequest_spares tenant r s
  | withdraw => cases e; exact withdrawRequest_spares p r s
  | handover => cases e; exact handoverRequest_spares p r s
  | quota => cases e; exact quotaRequest_spares tenant r s
  | linkctlEnable => cases e; exact linkctlRequest_spares tenant 1 _ r s
  | linkctlDisable => cases e; exact linkctlRequest_spares tenant 2 _ r s
  | purge => cases e; exact purgeRequest_spares tenant r s
  | poll => cases e; exact pollRequest_spares p r s
  | unknownRequest | reset => cases e; exact .refl p s
  | findByTag => cases e; unfold findByTagRequest; split <;> exact .refl p s
  | findByChannel =>
    cases e
    unfold findByChannelRequest
    split
    · exact .refl p s
    · split <;> exact .refl p s
  | read => cases e; unfold readRequest; split <;> exact .refl p s
  | loads =>
    cases e
    unfold Machine.loadsRequest
    split
    · exact .refl p s
    · split <;> exact .refl p s
  | extents => cases e; unfold extentsRequest; split <;> exact .refl p s
  | status => cases e; unfold statusRequest; split <;> exact .refl p s

/-- A granted request of a port other than 0, from the state with the claims taken. -/
theorem grant_spares {t : State} {takes : Request → Bool} {run : Request → State → Answer} (hr : Handles p run)
    (tenant : p ≠ 0) (records : s.settle.recordsLaw) (law : s.settle.extentLaw)
    (h : s.grant p takes run = .next t) : t = s ∨ s.settle.Spares p t := by
  rcases grant_cases h with rfl | ⟨r, u, a, -, -, -, e, rfl⟩
  · exact .inl rfl
  generalize s.settle = v at records law e ⊢
  have met : (v.advance p).extentLaw := extentLaw_congr rfl (fun _ => rfl) law
  have answered : (v.advance p).Spares p u := hr.spares tenant (s := v.advance p) records met e
  exact .inr (((advance_spares v p).trans answered).trans (answer_spares u _ _ _ _))

end

/-- Settles O60: whatever the row runs concerns the port's own records, queues and charges. -/
theorem tenantIsolation : Obligations.TenantIsolation := by
  intro i p s t row tenant h u records law
  obtain ⟨takes, run, hr, same⟩ := requestRow_grants row
  refine (grant_spares hr tenant records law (same s ▸ h)).imp_right fun spared => ?_
  refine ⟨fun k st hs other => ⟨spared.record k st hs other, fun e he a low high => ?_⟩,
    fun k other => ⟨spared.port k other, spared.notices k other, spared.charge k other⟩, spared.quotas,
    spared.link⟩
  exact spared.bytes k st hs other e he a ⟨low, high⟩

end Sys2Proof.Machine
end
